-- ==== Sys2Proof/Word.lean ====
section
/-! DEFINITION. The word types of the JD-6800 (spec/00 R7, R8) and their plainest arithmetic. -/

namespace Sys2Proof

/-- One byte (spec/00 R8). -/
abbrev Byte := BitVec 8
/-- One 32-bit register word (spec/00 R7). -/
abbrev W32 := BitVec 32
/-- One 64-bit operand, held in a register pair. -/
abbrev W64 := BitVec 64
/-- A set of the 32 lanes, bit `l` for lane `l`. -/
abbrev Lanes := BitVec 32

/-- Bits `lo` to `lo + n - 1` of a natural number. -/
def bits (x lo n : Nat) : Nat := x / 2 ^ lo % 2 ^ n

/-- Bit `i` of a natural number. -/
def bitAt (x i : Nat) : Bool := x / 2 ^ i % 2 == 1

/-- The signed value of the low `n` bits of a natural number. -/
def signedOf (n x : Nat) : Int :=
  let y := x % 2 ^ n
  if y < 2 ^ (n - 1) then (y : Int) else (y : Int) - (2 : Int) ^ n

/-- The low `n` bits of an integer. -/
def wrapTo (n : Nat) (x : Int) : Nat := (x % (2 : Int) ^ n).toNat

/-- The lanes 0 to 31 in ascending order. -/
def laneList : List Nat := List.range 32

/-- Whether lane `l` is in a set of lanes. -/
def Lanes.has (m : Lanes) (l : Nat) : Bool := m.getLsbD l

/-- The set of the lanes that satisfy `p`. -/
def Lanes.ofPred (p : Nat → Bool) : Lanes :=
  laneList.foldl (fun m l => if p l then m ||| BitVec.ofNat 32 (2 ^ l) else m) 0#32

/-- The members of a set of lanes, in ascending order. -/
def Lanes.toList (m : Lanes) : List Nat := laneList.filter (fun l => m.getLsbD l)

/-- The number of set bits of a natural number below `2 ^ n`. -/
def popCount (n x : Nat) : Nat := (List.range n).foldl (fun a i => a + x / 2 ^ i % 2) 0

/-- Round `x` up to a multiple of `n`. -/
def roundUp (n x : Nat) : Nat := (x + n - 1) / n * n

end Sys2Proof
end

