-- ==== Sys2Proof/Config.lean ====
section
/-! DEFINITION. What an implementation fixes (spec/00 R2 to R4) and the free values: results the spec leaves open.
A free value is an opaque constant applied to State.free (or to what it depends on): nothing in Lean can evaluate it. -/

namespace Sys2Proof.Config

/-- Berths of a package (spec/00 R2). -/
def berths : Nat := 4
/-- Cores of a package: 4 berths of 8 clusters of 6 cores (spec/00 R2). -/
def coresPerPkg : Nat := 192
/-- Wave slots of a core (spec/03 R54). -/
def slotsPerCore : Nat := 48
/-- The most packages that a pod joins (spec/00 R2) (DESIGN CHOICE, log 1). -/
def maxPkgs : Nat := 1024
/-- The synchronisation bound S of two packages' timers, in ns (spec/30 R440). -/
def timerBound : Nat := 40

/-- FREE VALUE: the .HW coin of a QSK compaction (spec/10 R171), the n-th one drawn (DESIGN CHOICE, log 8). -/
opaque hwCoin : Nat → Bool
/-- FREE VALUE: the n-th tag key drawn at CTX_CREATE (spec/11 R192). -/
opaque tagKey : Nat → BitVec 64
/-- FREE VALUE: byte `i` of the digest of the security processor's ROM (index 1) or of the fused configuration (index 9) of package
`pkg`, which no boot changes (spec/30 R435). -/
opaque fixedDigest : Nat → Nat → Nat → BitVec 8
/-- FREE VALUE: byte `i` of the digest of the firmware of measurement `idx`, as the n-th boot reads it (spec/30 R434, R435). -/
opaque firmwareDigest : Nat → Nat → Nat → BitVec 8
/-- FREE VALUE: byte `i` of the signature with Ed25519 (key 0) or ML-DSA-65 (key 1) over the transcript that ends in the n-th SPDM
response (spec/30 R436). -/
opaque signature : Nat → Nat → Nat → BitVec 8
/-- FREE VALUE: byte `i` of what the n-th SPDM response holds beside digests and signatures (spec/30 R436). -/
opaque spdmByte : Nat → Nat → BitVec 8
/-- FREE VALUE: the length of that part of the n-th SPDM response (spec/30 R436). -/
opaque spdmLen : Nat → Nat
/-- FREE VALUE: how the capacity register packs its four fields into the 64 bits of ARG0 (spec/30 R444, R446). -/
opaque capacityWord : List Nat → BitVec 64
/-- FREE VALUE: how many of the writes kept since its tree began the n-th invariant load goes back (spec/06 R130). -/
opaque heldAge : Nat → Nat
/-- FREE VALUE: whether an atomic that another agent's write is not excluded from performs its read and its write apart, by the numbers of
its operation and request (spec/06 R129). -/
opaque atomGap : Nat → Nat → Bool
/-- FREE VALUE: a byte whose content the spec leaves open (a free part of a saved image, spec/13 R222), the n-th one drawn. -/
opaque openByte : Nat → BitVec 8

end Sys2Proof.Config
end

