-- ==== Sys2Proof/Syntax.lean ====
section
/-! DEFINITION. The instructions and steps of the JD-6800: one constructor for each row of spec/opcode_table.json.
Rows 0 to 164 are instruction words (spec/16 to spec/23); rows 165 to 257 are the steps that the part, its engines, its
front end and the outside world take (spec/95), each whole and indivisible. -/

namespace Sys2Proof

/-! ## Operands and heads -/

/-- An operand of spec/16 R253: a vector or scalar register, a constant code 0xF0 + c, an index-relative register
(R257) or the literal (R256). The reserved code 0xFD has no form: it never decodes. -/
inductive Opnd where
  | v (n : Fin 192)
  | s (n : Fin 48)
  | k (c : Fin 13)
  | ix
  | lit
  deriving DecidableEq, Repr

/-- One USE entry of an index word (spec/16 R257): base register number and index register. -/
structure IxRef where
  base : Fin 256
  xsel : Fin 4
  deriving DecidableEq, Repr

/-- What the word after a kind-0b01 word holds: the 62-bit literal (R256) or an index word (R257), whose entries stand
for the fields D, A, B and C. -/
inductive Ext where
  | none
  | lit (x : BitVec 62)
  | ix (d a b c : Option IxRef)
  deriving DecidableEq, Repr

/-- The guard GP, GN (spec/16 R259) and the literal or index word of an instruction. -/
structure Hd where
  gp : Fin 8
  gn : Bool
  ext : Ext
  deriving DecidableEq, Repr

/-! ## Modifiers -/

/-- A level operand (spec/01 R16). -/
inductive LvlCode where | lg | core | clu | die | pkg | pod | root | self
  deriving DecidableEq, Repr

/-- An absolute level (spec/01 R16, R18). -/
inductive Level where | lg | core | clu | die | pkg | pod
  deriving DecidableEq, Repr

/-- A unit of the hierarchy: its level, its package and its number on the package (cores 0 to 191, clusters 0 to 31,
berths 0 to 3; the package and pod sequencers are number 0 of the hub of their package). -/
structure UnitId where
  level : Level
  pkg : Nat
  idx : Nat
  deriving DecidableEq, Repr

/-- The integer variants of spec/17 R269. -/
inductive IVar where | i32 | u32 | i16 | u16 | i8 | u8 | i64 | u64
  deriving DecidableEq, Repr

/-- The conditions of SCMP and ICMP (spec/18 R288, spec/19 R313). -/
inductive Cmp where | eq | ne | lt | le | gt | ge
  deriving DecidableEq, Repr

/-- The conditions of FCMP (spec/19 R325). -/
inductive FCmp where | eq | ne | lt | le | gt | ge | un | or
  deriving DecidableEq, Repr

/-- The element formats of spec/17 R268. -/
inductive EF where | f32 | bf16 | f16 | e4m3 | e5m2 | t8 | t6 | i8 | i16 | i32 | i64 | e8m0 | b1
  deriving DecidableEq, Repr

/-- The rounding mode codes of spec/08 R148. -/
inductive RM where | rn | rz | ru | rd | rs | dyn
  deriving DecidableEq, Repr

/-- Access widths of loads and stores (spec/17, above R274). Stores take the first five. -/
inductive MW where | b8 | b16 | b32 | b64 | b128 | s8 | s16
  deriving DecidableEq, Repr

/-- Atomic operations (spec/17, above R274). -/
inductive AtOp where | add | min | max | and | or | xor | xchg | cas
  deriving DecidableEq, Repr

/-- The width SZ of an atomic (spec/20 R344). -/
inductive AtSz where | b4 | b8 | b16
  deriving DecidableEq, Repr

/-- The operators of LRED, SCANI, SCANX and REDUCE (spec/19 R336, spec/21 R375). -/
inductive RedOp where | add | min | max | and | or | xor
  deriving DecidableEq, Repr

/-- The operators of PLOG (spec/19 R320). -/
inductive POp where | and | or | xor | andn | not | mov
  deriving DecidableEq, Repr

/-- Summary kinds (spec/17 R280). -/
inductive SKind where | qsk | hhl | dcr
  deriving DecidableEq, Repr

/-- The coin of SKINIT.QSK (spec/23 R409). -/
inductive Coin where | det | hw | alt
  deriving DecidableEq, Repr

/-- The element type of REDUCE (spec/17 R277). -/
inductive RedTy where
  | ef (e : EF)
  | sk (k : SKind)
  deriving DecidableEq, Repr

/-- The variants of MMA (spec/17 R278). -/
inductive MmaV where | f32 | bf16 | f16 | e4m3 | e5m2 | t8 | t6 | i8 | bx | ba
  deriving DecidableEq, Repr

/-- The operand sources of MMA and LATCH (spec/22 R392, R397). -/
inductive MSrc where | reg | regH | desc | latch
  deriving DecidableEq, Repr

/-- The flag selection FSEL (spec/16 R251). -/
inductive FSel where | none | a | b
  deriving DecidableEq, Repr

/-- The MOD fields of classes 4 to 10 (spec/16 R251). -/
structure MMod where
  fsel : FSel
  lvl : LvlCode
  acq : Bool
  rel : Bool
  deriving DecidableEq, Repr

/-- The forms of VOTE with their operands (spec/19 R334). -/
inductive VoteOp where
  | all (pd pa : Fin 8)
  | any (pd pa : Fin 8)
  | bal (d : Opnd) (pa : Fin 8)
  | eq (pd : Fin 8) (a : Opnd)
  deriving DecidableEq, Repr

/-- The forms of SHFL (spec/19 R335). -/
inductive ShflOp where | idx | up | dn | bfly
  deriving DecidableEq, Repr

/-- A frame of the attestation exchange that reaches an Ethernet port: the port, and whether the frame verifies under the port's
current key (R430). -/
structure PortFrame where
  port : Nat
  verifies : Bool
  deriving DecidableEq, Repr

/-! ## Instructions -/

/-- One constructor per row of the opcode table. -/
inductive Instr where
  -- class 0: scalar and control (spec/18)
  | sadd (h : Hd) (v : IVar) (sat : Bool) (d a b : Opnd)
  | ssub (h : Hd) (v : IVar) (sat : Bool) (d a b : Opnd)
  | smul (h : Hd) (v : IVar) (sat : Bool) (d a b : Opnd)
  | smulh (h : Hd) (v : IVar) (d a b : Opnd)
  | smin (h : Hd) (v : IVar) (d a b : Opnd)
  | smax (h : Hd) (v : IVar) (d a b : Opnd)
  | sand (h : Hd) (w : Bool) (d a b : Opnd)
  | sor (h : Hd) (w : Bool) (d a b : Opnd)
  | sxor (h : Hd) (w : Bool) (d a b : Opnd)
  | snot (h : Hd) (w : Bool) (d a : Opnd)
  | sshl (h : Hd) (w : Bool) (d a b : Opnd)
  | sshr (h : Hd) (w : Bool) (d a b : Opnd)
  | ssra (h : Hd) (w : Bool) (d a b : Opnd)
  | scmp (h : Hd) (v : IVar) (c : Cmp) (p : Fin 8) (a b : Opnd)
  | ssel (h : Hd) (w : Bool) (d a b c : Opnd)
  | smov (h : Hd) (w : Bool) (d a : Opnd)
  | spopc (h : Hd) (w : Bool) (d a : Opnd)
  | sclz (h : Hd) (w : Bool) (d a : Opnd)
  | nop (h : Hd)
  | br (h : Hd) (disp : BitVec 32)
  | brx (h : Hd) (a : Opnd)
  | call (h : Hd) (disp : BitVec 32) (link : Opnd)
  | ret (h : Hd) (link : Opnd)
  | loop (h : Hd) (disp : BitVec 32) (code : Fin 256)
  | exit (h : Hd)
  | yield (h : Hd)
  | liveWord (smask vmask : BitVec 24)
  -- class 11: system (spec/18)
  | srr (h : Hd) (n : Fin 1024) (w64 : Bool) (d : Opnd)
  | srrRfault (h : Hd) (w64 : Bool) (d : Opnd)
  | srw (h : Hd) (n : Fin 1024) (w64 : Bool) (a : Opnd)
  | srwFpstat (h : Hd) (w64 : Bool) (a : Opnd)
  | srwFpctl (h : Hd) (w64 : Bool) (a : Opnd)
  | srwPntimer (h : Hd) (w64 : Bool) (a : Opnd)
  | trap (h : Hd) (imm : BitVec 16)
  | trapretResume (h : Hd)
  | trapretSkip (h : Hd)
  | trapretReplace (h : Hd) (a : Opnd)
  | trapretAbort (h : Hd)
  | iflush (h : Hd) (lvl : LvlCode) (a b : Opnd)
  | prioset (h : Hd) (a : Opnd)
  -- class 1: vector integer and address (spec/19)
  | iadd (h : Hd) (v : IVar) (sat : Bool) (d a b : Opnd)
  | isub (h : Hd) (v : IVar) (sat : Bool) (d a b : Opnd)
  | imul (h : Hd) (v : IVar) (sat : Bool) (d a b : Opnd)
  | imulh (h : Hd) (v : IVar) (d a b : Opnd)
  | imad (h : Hd) (v : IVar) (sat : Bool) (d a b c : Opnd)
  | imin (h : Hd) (v : IVar) (d a b : Opnd)
  | imax (h : Hd) (v : IVar) (d a b : Opnd)
  | iabs (h : Hd) (v : IVar) (sat : Bool) (d a : Opnd)
  | icmp (h : Hd) (v : IVar) (c : Cmp) (elem : Fin 4) (p : Fin 8) (a b : Opnd)
  | iand (h : Hd) (w : Bool) (d a b : Opnd)
  | ior (h : Hd) (w : Bool) (d a b : Opnd)
  | ixor (h : Hd) (w : Bool) (d a b : Opnd)
  | inot (h : Hd) (w : Bool) (d a : Opnd)
  | ishl (h : Hd) (w : Bool) (d a b : Opnd)
  | ishr (h : Hd) (w : Bool) (d a b : Opnd)
  | isra (h : Hd) (w : Bool) (d a b : Opnd)
  | ipopc (h : Hd) (w : Bool) (d a : Opnd)
  | iclz (h : Hd) (w : Bool) (d a : Opnd)
  | ibfe (h : Hd) (u : Bool) (d a b c : Opnd)
  | ibfi (h : Hd) (d a b c : Opnd)
  | isel (h : Hd) (w : Bool) (p : Fin 8) (d a b : Opnd)
  | imov (h : Hd) (w : Bool) (d a : Opnd)
  | pack (h : Hd) (v : IVar) (sat : Bool) (d a b : Opnd)
  | unpk (h : Hd) (v : IVar) (sel : Bool) (d a : Opnd)
  | iaddsh (h : Hd) (w : Bool) (sh : Fin 8) (d a b : Opnd)
  | xset (h : Hd) (x : Fin 4) (a : Opnd)
  | xsetRd (h : Hd) (d : Opnd) (x : Fin 4)
  | xadd (h : Hd) (xd xa : Fin 4) (b : Opnd)
  | plog (h : Hd) (op : POp) (pd pa pb : Fin 8)
  | philox (h : Hd) (d a b : Opnd)
  -- class 2: vector float and conversion (spec/19)
  | fadd (h : Hd) (f : EF) (rm : RM) (d a b : Opnd)
  | fsub (h : Hd) (f : EF) (rm : RM) (d a b : Opnd)
  | fmul (h : Hd) (f : EF) (rm : RM) (d a b : Opnd)
  | ffma (h : Hd) (f : EF) (rm : RM) (d a b c : Opnd)
  | fmin (h : Hd) (f : EF) (d a b : Opnd)
  | fmax (h : Hd) (f : EF) (d a b : Opnd)
  | fabs (h : Hd) (f : EF) (d a : Opnd)
  | fneg (h : Hd) (f : EF) (d a : Opnd)
  | fcmp (h : Hd) (f : EF) (c : FCmp) (elem : Bool) (p : Fin 8) (a b : Opnd)
  | fdiv (h : Hd) (rm : RM) (d a b : Opnd)
  | fsqrt (h : Hd) (rm : RM) (d a : Opnd)
  | frcp (h : Hd) (rm : RM) (d a : Opnd)
  | frsq (h : Hd) (rm : RM) (d a : Opnd)
  | fexp2 (h : Hd) (rm : RM) (d a : Opnd)
  | flog2 (h : Hd) (rm : RM) (d a : Opnd)
  | fsin (h : Hd) (rm : RM) (d a : Opnd)
  | fcos (h : Hd) (rm : RM) (d a : Opnd)
  | ftanh (h : Hd) (rm : RM) (d a : Opnd)
  | fclass (h : Hd) (f : EF) (d a : Opnd)
  | frnd (h : Hd) (f : EF) (rm : RM) (d a : Opnd)
  | fcvt (h : Hd) (dst src : EF) (pos : Fin 32) (sat : Bool) (rm : RM) (d a : Opnd)
  | nenc (h : Hd) (e : EF) (rm : RM) (d a b : Opnd)
  | ndec (h : Hd) (e : EF) (rm : RM) (d a b : Opnd)
  -- class 3: lane and partition (spec/19)
  | vote (h : Hd) (o : VoteOp)
  | shfl (h : Hd) (o : ShflOp) (d a b : Opnd)
  | scani (h : Hd) (e : EF) (op : RedOp) (rm : RM) (sat : Bool) (d a : Opnd)
  | scanx (h : Hd) (e : EF) (op : RedOp) (rm : RM) (sat : Bool) (d a : Opnd)
  | lred (h : Hd) (e : EF) (op : RedOp) (rm : RM) (sat : Bool) (d a : Opnd)
  | partset (h : Hd) (a : Opnd)
  | partget (h : Hd) (d : Opnd)
  -- class 4: memory (spec/20)
  | ld (h : Hd) (w : MW) (m : MMod) (inv : Bool) (d a b : Opnd)
  | st (h : Hd) (w : MW) (m : MMod) (a b c : Opnd)
  | atom (h : Hd) (op : AtOp) (m : MMod) (nr sgn : Bool) (sz : AtSz) (d a b c : Opnd)
  | ldmeta (h : Hd) (m : MMod) (d a : Opnd)
  | stmeta (h : Hd) (m : MMod) (a c : Opnd)
  | flush (h : Hd) (m : MMod) (a b : Opnd)
  | frame (h : Hd) (d a : Opnd)
  | claim (h : Hd) (m : MMod) (a b : Opnd)
  | migrate (h : Hd) (a : Opnd)
  | sld (h : Hd) (w : MW) (m : MMod) (inv : Bool) (d a b : Opnd)
  | sst (h : Hd) (w : MW) (m : MMod) (a b c : Opnd)
  | satom (h : Hd) (op : AtOp) (m : MMod) (nr sgn : Bool) (sz : AtSz) (d a b c : Opnd)
  -- class 5: scratchpad (spec/20)
  | lds (h : Hd) (w : MW) (m : MMod) (win : Fin 6) (d a b : Opnd)
  | sts (h : Hd) (w : MW) (m : MMod) (win : Fin 6) (a b c : Opnd)
  | atoms (h : Hd) (op : AtOp) (m : MMod) (win : Fin 6) (nr sgn : Bool) (sz : AtSz) (d a b c : Opnd)
  | bararr (h : Hd) (b : Fin 16)
  | barwait (h : Hd) (b : Fin 16)
  | barsync (h : Hd) (b : Fin 16)
  | barcfg (h : Hd) (b : Fin 16) (e : Fin 16) (a : Opnd)
  -- class 6: copy and stream (spec/20)
  | copyIn (h : Hd) (m : MMod) (bar : Fin 16) (be : Bool) (ch : Fin 4) (d a b c : Opnd)
  | copyOut (h : Hd) (m : MMod) (bar : Fin 16) (be : Bool) (ch : Fin 4) (d a b c : Opnd)
  | acopy (h : Hd) (m : MMod) (a b : Opnd)
  | spush (h : Hd) (m : MMod) (q : Fin 4) (d a b : Opnd)
  | spop (h : Hd) (q : Fin 4) (a : Opnd)
  | qcfg (h : Hd) (q : Fin 4) (a b : Opnd)
  | wprd (h : Hd) (m : MMod) (stream : Bool) (n : Fin 4) (d : Opnd)
  -- class 7: hierarchy primitives (spec/21)
  | launch (h : Hd) (lvl : LvlCode) (a : Opnd)
  | launchGang (h : Hd) (lvl : LvlCode) (a : Opnd)
  | join (h : Hd) (lvl : LvlCode)
  | bar (h : Hd) (lvl : LvlCode)
  | mcopyDown (h : Hd) (m : MMod) (bar : Fin 16) (be : Bool) (crew : Fin 8) (d a b c : Opnd)
  | mcopyUp (h : Hd) (m : MMod) (bar : Fin 16) (be : Bool) (crew : Fin 8) (d a b c : Opnd)
  | reduce (h : Hd) (m : MMod) (ty : RedTy) (op : RedOp) (d a b c : Opnd)
  | fence (h : Hd) (lvl : LvlCode) (acq rel mx cp : Bool)
  | spawn (h : Hd) (a b : Opnd)
  | fetchw (h : Hd) (f : FSel) (a : Opnd)
  -- class 8: matrix, speculation and inference (spec/22)
  | mma (h : Hd) (v : MmaV) (lvl : LvlCode) (acq : Bool) (asrc bsrc : MSrc) (ka kb : Bool) (rm : RM) (cv : Option (Fin 8))
      (t : Fin 16) (a b : Opnd)
  | latch (h : Hd) (b : Bool) (lvl : LvlCode) (acq : Bool) (src : MSrc) (a : Opnd)
  | unlatch (h : Hd) (b : Bool)
  | accz (h : Hd) (t : Fin 16)
  | accrd (h : Hd) (e : EF) (rm : RM) (d : Opnd) (t : Fin 16)
  | accwr (h : Hd) (t : Fin 16) (a : Opnd)
  | accst (h : Hd) (m : MMod) (a : Opnd) (t : Fin 16)
  | accld (h : Hd) (lvl : LvlCode) (acq : Bool) (t : Fin 16) (a : Opnd)
  | accmov (h : Hd) (tr : Bool) (d a : Fin 16)
  | specBegin (h : Hd) (pred : Bool) (a : Opnd)
  | specResolve (h : Hd) (p : Fin 8)
  | treemask (h : Hd) (ap : Bool) (t : Fin 16) (a b : Opnd)
  | kvcommit (h : Hd) (m : MMod) (d a b : Opnd)
  -- class 9: fabric registers (spec/23)
  | grant (h : Hd) (lvl : LvlCode) (ovw : Bool) (cnt : Fin 8) (d a b : Opnd)
  | revoke (h : Hd) (cnt : Fin 8) (a : Opnd)
  | expect (h : Hd) (cnt : Fin 8) (a : Opnd)
  | rsend (h : Hd) (f : FSel) (rel : Bool) (idx : Fin 8) (a b : Opnd)
  | rsendv (h : Hd) (f : FSel) (rel : Bool) (idx : Fin 8) (a b : Opnd)
  | rfence (h : Hd)
  | rget (h : Hd) (cnt : Fin 8) (d a : Opnd)
  | rgetTk (h : Hd) (cnt : Fin 8) (d a : Opnd)
  -- class 10: summaries (spec/23)
  | skinit (h : Hd) (f : FSel) (kind : SKind) (coin : Coin) (a b : Opnd)
  | skins (h : Hd) (f : FSel) (kind : SKind) (w64 : Bool) (a b c : Opnd)
  | skmrg (h : Hd) (f : FSel) (kind : SKind) (a b : Opnd)
  | skquant (h : Hd) (f : FSel) (d a b : Opnd)
  | skrank (h : Hd) (f : FSel) (d a b : Opnd)
  | sktop (h : Hd) (f : FSel) (d a b : Opnd)
  | skpoint (h : Hd) (f : FSel) (d a b : Opnd)
  | skest (h : Hd) (f : FSel) (d a : Opnd)
  -- steps of execution (spec/03, spec/01)
  | clauseBegin (core slot : Nat)
  | sequencerClauseBegin (u : UnitId)
  | passCountEscape (uid : Nat)
  | issueAgePromotion (uid : Nat)
  | sequencerAgePromotion (uid : Nat)
  | frameActivate (u : UnitId)
  | tilePlacement (uid : Nat)
  | crewStart (core : Nat)
  | waveRetire (uid : Nat)
  | crewRetire (crew : Nat)
  | punnetTimeout (core n : Nat)
  | punnetLaunch (core n : Nat)
  | fetchwReply (req : Nat)
  -- steps of the memory path and the engines (spec/05, spec/06, spec/20 to spec/23)
  | memoryRequestComplete (op req : Nat)
  | staleReissue (op : Nat)
  | leaseExpiry (core n : Nat)
  | copyComplete (cmd : Nat)
  | spushAdmit (cmd : Nat)
  | spopRelease (uid : Nat)
  | mcopyComplete (cmd : Nat)
  | reduceContributionArrival (red n : Nat)
  | matrixOperationComplete (core : Nat)
  | accrdLanding (op : Nat)
  | accstComplete (cmd : Nat)
  | kvcommitComplete (cmd : Nat)
  | summaryInstructionComplete (core : Nat)
  | claimComplete (cmd : Nat)
  | migrationArrival (uid : Nat)
  | registerSendArrival (send : Nat)
  | sendAcknowledgement (send : Nat)
  -- pre-emption (spec/03)
  | safePointOverrun (pre uid : Nat)
  | preemptSave (pre core : Nat)
  | restoreComplete (pre core : Nat)
  -- collectives (spec/14)
  | chunkAdmit (pkg : Nat)
  | chunkBoundary (chunk : Nat)
  | collectiveArrival (arr : Nat)
  | collStall (replay : Nat)
  -- host transport and front end (spec/14, spec/30)
  | commandDatagram (pkg port : Nat) (verified : Bool) (bytes : List Byte)
  | ackDatagram (pkg port : Nat) (verified : Bool) (bytes : List Byte)
  | datagramResend (pkg port : Nat)
  | queueCommandBegin (pkg : Nat)
  | kernelLaunchCommand (pkg cmd : Nat)
  | flightLoad (pkg cmd : Nat)
  | flightReplay (pkg cmd : Nat)
  | queueWrite (pkg cmd : Nat)
  | queueCopy (pkg cmd : Nat)
  | qwait (pkg cmd : Nat)
  | ctxCreate (pkg cmd : Nat)
  | ctxUpdate (pkg cmd : Nat)
  | ctxAbort (pkg cmd : Nat)
  | abortDone (pkg ctx : Nat)
  | queueCreate (pkg cmd : Nat)
  | queueDestroy (pkg cmd : Nat)
  | preempt (pkg cmd : Nat)
  | resume (pkg cmd : Nat)
  | pairDeclare (pkg cmd : Nat)
  | pairSwitch (pkg cmd : Nat)
  | poolSet (pkg cmd : Nat)
  | growthRefuse (pkg cmd : Nat)
  | retry (pkg cmd : Nat)
  | commCreate (pkg cmd : Nat)
  | commDestroy (pkg cmd : Nat)
  | evtCfg (pkg cmd : Nat)
  | ctxDestroy (pkg cmd : Nat)
  | areaSet (pkg cmd : Nat)
  | imageSet (pkg cmd : Nat)
  | capRead (pkg cmd : Nat)
  | clkSet (pkg cmd : Nat)
  | pllRelockEnd (pkg berth : Nat)
  | worldSet (pkg cmd : Nat)
  | firewallSet (pkg cmd : Nat)
  | hbmMapout (pkg cmd : Nat)
  | hotRemove (pkg berth : Nat)
  | berthRetry (pkg cmd : Nat) (ok : Bool)
  | powerCfg (pkg cmd : Nat)
  -- boot, security, platform events (spec/30)
  | powerOnReset (pkg : Nat) (romOk fwOk : Bool) (authOk : BitVec 4) (capacity : List Nat)
  | spdmGetVersion (pkg : Nat) (frame : PortFrame)
  | spdmGetCapabilities (pkg : Nat) (frame : PortFrame)
  | spdmNegotiateAlgorithms (pkg : Nat) (frame : PortFrame)
  | spdmGetDigests (pkg : Nat) (frame : PortFrame)
  | spdmGetCertificate (pkg : Nat) (frame : PortFrame)
  | spdmChallenge (pkg : Nat) (frame : PortFrame)
  | spdmGetMeasurements (pkg : Nat) (frame : PortFrame) (idx : Nat)
  | spdmKeyExchange (pkg : Nat) (frame : PortFrame)
  | spdmFinish (pkg : Nat) (frame : PortFrame) (verified : Bool)
  | spdmEndSession (pkg : Nat) (frame : PortFrame)
  | timeMessage (pkg : Nat) (offset : Int)
  | power (pkg watts : Nat)
  | thermal (pkg berth degC : Nat)
  | thermalCut (pkg : Nat)
  | linkDown (pkg port : Nat) (ualink : Bool)
  | corrected (pkg memory addr : Nat)
  | tagKeyMessage (pkg src ctx : Nat)
  deriving DecidableEq, Repr

end Sys2Proof
end

