-- ==== Sys2Proof/WellFormed.lean ====
section
/-! DEFINITION. Which instructions of Syntax the encodings of spec/16 to spec/23 can hold without a DECODE trap:
the operand codes each field accepts (R253, R256, R257, R283, R306, R339, R362, R384, R409, R419), the use of the
literal or index word, and the modifier combinations each instruction accepts. Steps are always well formed. -/

namespace Sys2Proof

/-- What an operand field accepts. `dv`: destination, vector or index-relative; `ds`: scalar destination; `sv`: any
source; `ss`: source without an index-relative form; `mr`: multi-register source; `mrd`: multi-register destination,
quad, descriptor or link, which accept register codes only. A vector code in a scalar field, or a scalar code in a
vector field, decodes and is caught by the OPERAND checks (R283, R306). -/
inductive OpK where | dv | ds | sv | ss | mr | mrd
  deriving DecidableEq, Repr

/-- Whether an operand of this form decodes in a field of this kind (R253, R257). -/
def OpK.accepts : OpK → Opnd → Bool
  | .dv, .v _ => true
  | .dv, .s _ => true
  | .dv, .ix => true
  | .dv, _ => false
  | .ds, .v _ => true
  | .ds, .s _ => true
  | .ds, _ => false
  | .mrd, .v _ => true
  | .mrd, .s _ => true
  | .mrd, _ => false
  | .sv, _ => true
  | .ss, .ix => false
  | .ss, _ => true
  | .mr, .ix => false
  | .mr, _ => true

/-- The operand fields of an instruction: the position (0 D, 1 A, 2 B, 3 C), what it accepts, and the operand. -/
abbrev OpList := List (Nat × OpK × Opnd)

/-- The index references of an extension word, by position. -/
def Ext.ref : Ext → Nat → Option IxRef
  | .ix d _ _ _, 0 => d
  | .ix _ a _ _, 1 => a
  | .ix _ _ b _, 2 => b
  | .ix _ _ _ c, 3 => c
  | _, _ => Option.none

/-- Whether position `j` of an operand list holds an index-relative operand. -/
def ixAt (ops : OpList) (j : Nat) : Bool := ops.any (fun o => o.1 == j && decide (o.2.2 = .ix))

/-- The operand fields and the extension word agree (R256, R257); `uses` says that the description names a use of
the literal of its own. -/
def opsOk (x : Ext) (ops : OpList) (uses : Bool) : Bool :=
  ops.all (fun o => o.2.1.accepts o.2.2) &&
  match x with
  | .none => ops.all (fun o => !decide (o.2.2 = .lit) && !decide (o.2.2 = .ix))
  | .lit _ => (uses || ops.any (fun o => decide (o.2.2 = .lit))) && ops.all (fun o => !decide (o.2.2 = .ix))
  | .ix d a b c =>
    ops.all (fun o => !decide (o.2.2 = .lit)) && ops.any (fun o => decide (o.2.2 = .ix)) &&
    (d.isSome == ixAt ops 0) && (a.isSome == ixAt ops 1) && (b.isSome == ixAt ops 2) && (c.isSome == ixAt ops 3)

/-- The variants of the scalar arithmetic groups (R270). -/
def IVar.scalarOk : IVar → Bool
  | .i32 => true | .u32 => true | .i64 => true | .u64 => true | _ => false
/-- The signed variants (R271, IABS). -/
def IVar.signedOk : IVar → Bool
  | .i32 => true | .i16 => true | .i8 => true | .i64 => true | _ => false
/-- The packed variants (R271, PACK and UNPK). -/
def IVar.packedOk : IVar → Bool
  | .i16 => true | .u16 => true | .i8 => true | .u8 => true | _ => false
/-- The element count of a variant in one lane (R313). -/
def IVar.count : IVar → Nat
  | .i16 => 2 | .u16 => 2 | .i8 => 4 | .u8 => 4 | _ => 1
/-- FP32, BF16 and FP16, the variants of the float groups (R272). -/
def EF.floatOk : EF → Bool
  | .f32 => true | .bf16 => true | .f16 => true | _ => false
/-- The integer formats (R268). -/
def EF.isInt : EF → Bool
  | .i8 => true | .i16 => true | .i32 => true | .i64 => true | _ => false
/-- The variants of the scans, LRED and REDUCE (R273, R277). -/
def EF.laneOk (e : EF) : Bool := e.floatOk || e.isInt
/-- The variants of NENC and NDEC (R272). -/
def EF.narrowOk : EF → Bool
  | .e4m3 => true | .e5m2 => true | .t8 => true | .t6 => true | .i8 => true | .b1 => true | _ => false
/-- The element count of a format in one operand of FCVT (R329). -/
def EF.count : EF → Nat
  | .f32 => 1 | .i32 => 1 | .i64 => 1
  | .bf16 => 2 | .f16 => 2 | .i16 => 2
  | .e4m3 => 4 | .e5m2 => 4 | .t8 => 4 | .i8 => 4 | .e8m0 => 4
  | .t6 => 10 | .b1 => 32
/-- The width of an integer format in bits. -/
def EF.intBits : EF → Nat
  | .i8 => 8 | .i16 => 16 | .i32 => 32 | .i64 => 64 | _ => 0
/-- The source and destination pairs of FCVT (R272). -/
def fcvtPairOk (dst src : EF) : Bool :=
  !decide (src = .b1) && !decide (src = dst) &&
  !(src.isInt && match dst with
    | .e4m3 => true | .e5m2 => true | .t8 => true | .t6 => true | .e8m0 => true | .b1 => true | _ => false)
/-- The pairs of FCVT that accept .SAT (R157, R329), from E8M0 too (DESIGN CHOICE, log 105). -/
def fcvtSatOk (dst src : EF) : Bool :=
  match dst with
  | .bf16 => !src.isInt && !decide (src = .b1)
  | .f16 => !src.isInt && !decide (src = .b1)
  | .e4m3 => !src.isInt && !decide (src = .b1)
  | .e5m2 => !src.isInt && !decide (src = .b1)
  | _ => dst.isInt && src.isInt && decide (dst.intBits < src.intBits)
/-- The positions of FCVT (R329). -/
def fcvtPosOk (dst src : EF) (pos : Nat) : Bool :=
  decide (pos * min src.count dst.count < max src.count dst.count) &&
  (!decide (src.count = dst.count) || decide (pos = 0))
/-- The bitwise operators. -/
def RedOp.bitwise : RedOp → Bool
  | .and => true | .or => true | .xor => true | _ => false
/-- The modifiers of the scans and LRED (R336): RM only for a float sum, SAT only for an integer sum. -/
def laneModOk (e : EF) (op : RedOp) (rm : RM) (sat : Bool) : Bool :=
  e.laneOk && !(e.floatOk && op.bitwise) &&
  (decide (rm = .rn) || (e.floatOk && decide (op = .add))) && (!sat || (e.isInt && decide (op = .add)))
/-- The widths of the stores (R274). -/
def MW.storeOk : MW → Bool
  | .s8 => false | .s16 => false | _ => true
/-- LVL is zero where no ACQ or REL needs it (R338). -/
def lvlNeeds (lvl : LvlCode) (needed : Bool) : Bool := needed || decide (lvl = .lg)
/-- The MOD rule of the loads (R338). -/
def MMod.loadOk (m : MMod) : Bool := !decide (m.fsel = .none) && !m.rel && lvlNeeds m.lvl m.acq
/-- The MOD rule of the stores (R338). -/
def MMod.storeOk (m : MMod) : Bool := !m.acq && lvlNeeds m.lvl m.rel
/-- The MOD rule of the copy commands (R338). -/
def MMod.copyOk (m : MMod) : Bool := !decide (m.fsel = .none) && lvlNeeds m.lvl (m.acq || m.rel)
/-- The rules of the atomics (R339, R344). -/
def atomOk (op : AtOp) (m : MMod) (nr sgn : Bool) (sz : AtSz) (d c : Opnd) : Bool :=
  (nr || !decide (m.fsel = .none)) && (!nr || decide (d = .v 0)) && (decide (op = .cas) || decide (c = .v 0)) &&
  (!sgn || decide (op = .min) || decide (op = .max)) &&
  (!decide (sz = .b16) || decide (op = .xchg) || decide (op = .cas))
/-- The operand fields of an atomic. -/
def atomOps (scalar : Bool) (op : AtOp) (nr : Bool) (d a b c : Opnd) : OpList :=
  (if nr then [] else [(0, if scalar then .ds else .dv, d)]) ++
  [(1, if scalar then .ss else .sv, a), (2, if scalar then .ss else .sv, b)] ++
  (if op = .cas then [(3, if scalar then .ss else .sv, c)] else [])
/-- A binary or integer MMA variant (R278). -/
def MmaV.isInt : MmaV → Bool
  | .i8 => true | .bx => true | .ba => true | _ => false
/-- A vector code. -/
def Opnd.isV : Opnd → Bool
  | .v _ => true | _ => false
/-- The rule of one MMA operand (R392): a latch names no register, and a header run must be a vector run. -/
def srcOk (s : MSrc) (keep : Bool) (a : Opnd) : Bool :=
  match s with
  | .latch => decide (a = .v 0) && !keep
  | .regH => a.isV
  | _ => true
/-- The operand field of one MMA or LATCH operand. -/
def srcOps (j : Nat) (s : MSrc) (a : Opnd) : OpList :=
  match s with
  | .latch => []
  | .desc => [(j, .mr, a)]
  | _ => [(j, .mr, a)]

/-- The head of an instruction word. -/
def Instr.ext : Instr → Ext
  | .sadd h .. | .ssub h .. | .smul h .. | .smulh h .. | .smin h .. | .smax h .. | .sand h .. | .sor h .. | .sxor h ..
  | .snot h .. | .sshl h .. | .sshr h .. | .ssra h .. | .scmp h .. | .ssel h .. | .smov h .. | .spopc h .. | .sclz h ..
  | .nop h .. | .br h .. | .brx h .. | .call h .. | .ret h .. | .loop h .. | .exit h .. | .yield h ..
  | .srr h .. | .srrRfault h .. | .srw h .. | .srwFpstat h .. | .srwFpctl h .. | .srwPntimer h .. | .trap h ..
  | .trapretResume h .. | .trapretSkip h .. | .trapretReplace h .. | .trapretAbort h .. | .iflush h .. | .prioset h ..
  | .iadd h .. | .isub h .. | .imul h .. | .imulh h .. | .imad h .. | .imin h .. | .imax h .. | .iabs h .. | .icmp h ..
  | .iand h .. | .ior h .. | .ixor h .. | .inot h .. | .ishl h .. | .ishr h .. | .isra h .. | .ipopc h .. | .iclz h ..
  | .ibfe h .. | .ibfi h .. | .isel h .. | .imov h .. | .pack h .. | .unpk h .. | .iaddsh h .. | .xset h .. | .xsetRd h ..
  | .xadd h .. | .plog h .. | .philox h .. | .fadd h .. | .fsub h .. | .fmul h .. | .ffma h .. | .fmin h .. | .fmax h ..
  | .fabs h .. | .fneg h .. | .fcmp h .. | .fdiv h .. | .fsqrt h .. | .frcp h .. | .frsq h .. | .fexp2 h .. | .flog2 h ..
  | .fsin h .. | .fcos h .. | .ftanh h .. | .fclass h .. | .frnd h .. | .fcvt h .. | .nenc h .. | .ndec h ..
  | .vote h .. | .shfl h .. | .scani h .. | .scanx h .. | .lred h .. | .partset h .. | .partget h ..
  | .ld h .. | .st h .. | .atom h .. | .ldmeta h .. | .stmeta h .. | .flush h .. | .frame h .. | .claim h .. | .migrate h ..
  | .sld h .. | .sst h .. | .satom h .. | .lds h .. | .sts h .. | .atoms h .. | .bararr h .. | .barwait h .. | .barsync h ..
  | .barcfg h .. | .copyIn h .. | .copyOut h .. | .acopy h .. | .spush h .. | .spop h .. | .qcfg h .. | .wprd h ..
  | .launch h .. | .launchGang h .. | .join h .. | .bar h .. | .mcopyDown h .. | .mcopyUp h .. | .reduce h .. | .fence h ..
  | .spawn h .. | .fetchw h .. | .mma h .. | .latch h .. | .unlatch h .. | .accz h .. | .accrd h .. | .accwr h ..
  | .accst h .. | .accld h .. | .accmov h .. | .specBegin h .. | .specResolve h .. | .treemask h .. | .kvcommit h ..
  | .grant h .. | .revoke h .. | .expect h .. | .rsend h .. | .rsendv h .. | .rfence h .. | .rget h .. | .rgetTk h ..
  | .skinit h .. | .skins h .. | .skmrg h .. | .skquant h .. | .skrank h .. | .sktop h .. | .skpoint h .. | .skest h .. =>
      h.ext
  | _ => .none

/-- The operand fields of an instruction, from the field tables of spec/18 to spec/23. -/
def Instr.ops : Instr → OpList
  | .sadd _ _ _ d a b | .ssub _ _ _ d a b | .smul _ _ _ d a b
  | .smulh _ _ d a b | .smin _ _ d a b | .smax _ _ d a b
  | .sand _ _ d a b | .sor _ _ d a b | .sxor _ _ d a b
  | .sshl _ _ d a b | .sshr _ _ d a b | .ssra _ _ d a b => [(0, .ds, d), (1, .ss, a), (2, .ss, b)]
  | .snot _ _ d a | .smov _ _ d a | .spopc _ _ d a | .sclz _ _ d a => [(0, .ds, d), (1, .ss, a)]
  | .scmp _ _ _ _ a b => [(1, .ss, a), (2, .ss, b)]
  | .ssel _ _ d a b c => [(0, .ds, d), (1, .ss, a), (2, .ss, b), (3, .ss, c)]
  | .brx _ a | .prioset _ a => [(1, .ss, a)]
  | .call _ _ l => [(4, .mrd, l)]
  | .ret _ l => [(1, .mrd, l)]
  | .srr _ _ _ d | .srrRfault _ _ d => [(0, .ds, d)]
  | .srw _ _ _ a | .srwFpstat _ _ a | .srwFpctl _ _ a | .srwPntimer _ _ a => [(1, .ss, a)]
  | .trapretReplace _ a => [(1, .mr, a)]
  | .iflush _ _ a b => [(1, .ss, a), (2, .ss, b)]
  | .iadd _ _ _ d a b | .isub _ _ _ d a b | .imul _ _ _ d a b | .pack _ _ _ d a b
  | .imulh _ _ d a b | .imin _ _ d a b | .imax _ _ d a b
  | .iand _ _ d a b | .ior _ _ d a b | .ixor _ _ d a b
  | .ishl _ _ d a b | .ishr _ _ d a b | .isra _ _ d a b
  | .isel _ _ _ d a b | .iaddsh _ _ _ d a b => [(0, .dv, d), (1, .sv, a), (2, .sv, b)]
  | .imad _ _ _ d a b c | .ibfe _ _ d a b c => [(0, .dv, d), (1, .sv, a), (2, .sv, b), (3, .sv, c)]
  | .ibfi _ d a b c => [(0, .dv, d), (1, .sv, a), (2, .sv, b), (3, .sv, c)]
  | .iabs _ _ _ d a | .unpk _ _ _ d a | .inot _ _ d a | .ipopc _ _ d a | .iclz _ _ d a | .imov _ _ d a =>
      [(0, .dv, d), (1, .sv, a)]
  | .icmp _ _ _ _ _ a b => [(1, .sv, a), (2, .sv, b)]
  | .xset _ _ a => [(1, .sv, a)]
  | .xsetRd _ d _ => [(0, .dv, d)]
  | .xadd _ _ _ b => [(2, .sv, b)]
  | .philox _ d a b => [(0, .mrd, d), (1, .mr, a), (2, .ss, b)]
  | .fadd _ _ _ d a b | .fsub _ _ _ d a b | .fmul _ _ _ d a b | .fmin _ _ d a b | .fmax _ _ d a b
  | .fdiv _ _ d a b => [(0, .dv, d), (1, .sv, a), (2, .sv, b)]
  | .ffma _ _ _ d a b c => [(0, .dv, d), (1, .sv, a), (2, .sv, b), (3, .sv, c)]
  | .fabs _ _ d a | .fneg _ _ d a | .fclass _ _ d a | .fsqrt _ _ d a | .frcp _ _ d a | .frsq _ _ d a | .fexp2 _ _ d a
  | .flog2 _ _ d a | .fsin _ _ d a | .fcos _ _ d a | .ftanh _ _ d a | .frnd _ _ _ d a | .fcvt _ _ _ _ _ _ d a =>
      [(0, .dv, d), (1, .sv, a)]
  | .fcmp _ _ _ _ _ a b => [(1, .sv, a), (2, .sv, b)]
  | .nenc _ _ _ d a b => [(0, .dv, d), (1, .mr, a), (2, .sv, b)]
  | .ndec _ _ _ d a b => [(0, .mrd, d), (1, .sv, a), (2, .sv, b)]
  | .vote _ (.bal d _) => [(0, .dv, d)]
  | .vote _ (.eq _ a) => [(1, .sv, a)]
  | .shfl _ _ d a b => [(0, .dv, d), (1, .sv, a), (2, .sv, b)]
  | .scani _ _ _ _ _ d a | .scanx _ _ _ _ _ d a | .lred _ _ _ _ _ d a => [(0, .dv, d), (1, .sv, a)]
  | .partset _ a => [(1, .ss, a)]
  | .partget _ d => [(0, .ds, d)]
  | .ld _ _ _ _ d a b => [(0, .dv, d), (1, .sv, a), (2, .sv, b)]
  | .st _ _ _ a b c => [(1, .sv, a), (2, .sv, b), (3, .sv, c)]
  | .atom _ op _ nr _ _ d a b c => atomOps false op nr d a b c
  | .ldmeta _ _ d a => [(0, .dv, d), (1, .sv, a)]
  | .stmeta _ _ a c => [(1, .sv, a), (3, .sv, c)]
  | .flush _ _ a b | .claim _ _ a b => [(1, .ss, a), (2, .ss, b)]
  | .frame _ d a => [(0, .ds, d), (1, .ss, a)]
  | .migrate _ a => [(1, .ss, a)]
  | .sld _ _ _ _ d a b => [(0, .ds, d), (1, .ss, a), (2, .ss, b)]
  | .sst _ _ _ a b c => [(1, .ss, a), (2, .ss, b), (3, .ss, c)]
  | .satom _ op _ nr _ _ d a b c => atomOps true op nr d a b c
  | .lds _ _ _ _ d a b => [(0, .dv, d), (1, .sv, a), (2, .sv, b)]
  | .sts _ _ _ _ a b c => [(1, .sv, a), (2, .sv, b), (3, .sv, c)]
  | .atoms _ op _ _ nr _ _ d a b c => atomOps false op nr d a b c
  | .barcfg _ _ _ a => [(1, .ss, a)]
  | .copyIn _ _ _ _ _ d a b c | .copyOut _ _ _ _ _ d a b c => [(0, .ds, d), (1, .ss, a), (2, .ss, b), (3, .ss, c)]
  | .acopy _ _ a b => [(1, .sv, a), (2, .sv, b)]
  | .spush _ _ _ d a b => [(0, .ds, d), (1, .ss, a), (2, .ss, b)]
  | .spop _ _ a => [(1, .ss, a)]
  | .qcfg _ _ a b => [(1, .ss, a), (2, .ss, b)]
  | .wprd _ _ _ _ d => [(0, .ds, d)]
  | .launch _ _ a | .launchGang _ _ a => [(1, .ss, a)]
  | .mcopyDown _ _ _ _ _ d a b c | .mcopyUp _ _ _ _ _ d a b c => [(0, .ds, d), (1, .mr, a), (2, .ss, b), (3, .ss, c)]
  | .reduce _ _ _ _ d a b c => [(0, .ds, d), (1, .ss, a), (2, .ss, b), (3, .ss, c)]
  | .spawn _ a b => [(1, .ss, a), (2, .mr, b)]
  | .fetchw _ _ a => [(1, .ss, a)]
  | .mma _ _ _ _ asrc bsrc _ _ _ _ _ a b => srcOps 1 asrc a ++ srcOps 2 bsrc b
  | .latch _ _ _ _ src a => srcOps 1 src a
  | .accrd _ _ _ d _ => [(0, .mrd, d)]
  | .accwr _ _ a => [(1, .mr, a)]
  | .accst _ _ a _ => [(1, .mr, a)]
  | .accld _ _ _ _ a => [(1, .mr, a)]
  | .specBegin _ _ a => [(1, .ss, a)]
  | .treemask _ _ _ a b => [(1, .sv, a), (2, .ss, b)]
  | .kvcommit _ _ d a b => [(0, .ds, d), (1, .ss, a), (2, .ss, b)]
  | .grant _ _ _ _ d a b => [(0, .ds, d), (1, .mr, a), (2, .ss, b)]
  | .revoke _ _ a | .expect _ _ a => [(1, .mr, a)]
  | .rsend _ _ _ _ a b => [(1, .mr, a), (2, .ss, b)]
  | .rsendv _ _ _ _ a b => [(1, .mr, a), (2, .sv, b)]
  | .rget _ _ d a | .rgetTk _ _ d a => [(0, .mrd, d), (1, .mr, a)]
  | .skinit _ _ .qsk _ a b => [(1, .ss, a), (2, .ss, b)]
  | .skinit _ _ _ _ a _ => [(1, .ss, a)]
  | .skins _ _ .hhl _ a b c => [(1, .ss, a), (2, .sv, b), (3, .sv, c)]
  | .skins _ _ _ _ a b _ => [(1, .ss, a), (2, .sv, b)]
  | .skmrg _ _ _ a b => [(1, .ss, a), (2, .ss, b)]
  | .skquant _ _ d a b | .skrank _ _ d a b | .skpoint _ _ d a b => [(0, .dv, d), (1, .ss, a), (2, .sv, b)]
  | .sktop _ _ d a b => [(0, .mrd, d), (1, .ss, a), (2, .ss, b)]
  | .skest _ _ d a => [(0, .dv, d), (1, .ss, a)]
  | _ => []

/-- The modifier rules of each instruction: what the typed syntax admits and the encodings refuse. -/
def Instr.modsOk : Instr → Bool
  | .sadd _ v .. | .ssub _ v .. | .smul _ v .. | .smulh _ v .. | .smin _ v .. | .smax _ v .. | .scmp _ v .. => v.scalarOk
  | .srr _ n .. => !decide (n.val = 0x30)
  | .srw _ n .. => !decide (n.val = 0x10) && !decide (n.val = 0x20) && !decide (n.val = 0x21)
  | .iabs _ v .. => v.signedOk
  | .pack _ v .. | .unpk _ v .. => v.packedOk
  | .icmp _ v _ e .. => decide (e.val < v.count)
  | .plog _ op _ _ pb => match op with | .not => decide (pb = 0) | .mov => decide (pb = 0) | _ => true
  | .fadd _ f .. | .fsub _ f .. | .fmul _ f .. | .ffma _ f .. | .fmin _ f .. | .fmax _ f .. | .fabs _ f .. | .fneg _ f ..
  | .fclass _ f .. | .frnd _ f .. => f.floatOk
  | .fcmp _ f _ e .. => f.floatOk && !(decide (f = .f32) && e)
  | .fcvt _ dst src pos sat .. => fcvtPairOk dst src && fcvtPosOk dst src pos.val && (!sat || fcvtSatOk dst src)
  | .nenc _ e .. | .ndec _ e .. => e.narrowOk
  | .scani _ e op rm sat .. | .scanx _ e op rm sat .. | .lred _ e op rm sat .. => laneModOk e op rm sat
  | .ld _ _ m inv .. | .sld _ _ m inv .. => m.loadOk && !(inv && m.acq)
  | .st _ w m .. | .sst _ w m .. | .sts _ w m .. => w.storeOk && m.storeOk
  | .atom _ op m nr sgn sz d _ _ c | .satom _ op m nr sgn sz d _ _ c | .atoms _ op m _ nr sgn sz d _ _ c =>
      atomOk op m nr sgn sz d c
  | .ldmeta _ m .. => m.loadOk
  | .stmeta _ m .. => m.storeOk
  | .flush _ m .. => !m.acq && !m.rel
  | .claim _ m .. => !decide (m.fsel = .none) && !m.acq && !m.rel && decide (m.lvl = .lg)
  | .lds _ _ m .. => m.loadOk
  | .copyIn _ m .. | .copyOut _ m .. | .acopy _ m .. | .spush _ m .. => m.copyOk
  | .wprd _ m .. => decide (m.fsel = .none) && !m.rel && lvlNeeds m.lvl m.acq
  | .mcopyDown _ m n be .. | .mcopyUp _ m n be .. => !decide (m.fsel = .none) && (be || decide (n = 0))
  | .reduce _ m ty op .. => !decide (m.fsel = .none) && !m.rel &&
      match ty with
      | .ef e => e.laneOk && !(e.floatOk && op.bitwise)
      | .sk _ => decide (op = .add)
  | .fence _ _ acq rel .. => acq || rel
  | .fetchw _ f .. => !decide (f = .none)
  | .mma h v lvl acq asrc bsrc ka kb rm _ _ a b =>
      lvlNeeds lvl acq && srcOk asrc ka a && srcOk bsrc kb b && (!v.isInt || decide (rm = .rn)) &&
      (match h.ext with | .lit x => decide (x.toNat < 2 ^ 42) | _ => true)
  | .latch _ _ lvl acq src a => lvlNeeds lvl acq && !decide (src = .latch)
  | .accrd _ e rm .. => e.floatOk && (!decide (e = .f32) || decide (rm = .rn))
  | .accst _ m .. | .kvcommit _ m .. => m.copyOk
  | .accld _ lvl acq .. => lvlNeeds lvl acq
  | .rsend _ f .. | .rsendv _ f .. => !decide (f = .none)
  | .skinit _ f kind coin _ b => !decide (f = .none) && (decide (kind = .qsk) || (decide (coin = .det) && decide (b = .v 0)))
  | .skins _ f kind w64 _ _ c => !decide (f = .none) && (!w64 || decide (kind = .dcr)) && (decide (kind = .hhl) || decide (c = .v 0))
  | .skmrg _ f .. | .skquant _ f .. | .skrank _ f .. | .sktop _ f .. | .skpoint _ f .. | .skest _ f .. => !decide (f = .none)
  | _ => true

/-- Whether an instruction uses its literal in a way of its own (R392: KLEN and EMASK of MMA). -/
def Instr.usesLit : Instr → Bool
  | .mma .. => true
  | _ => false

/-- An instruction that the encodings can hold. -/
def Instr.wf (i : Instr) : Bool := opsOk i.ext i.ops i.usesLit && i.modsOk

end Sys2Proof
end

