-- ==== Sys2Proof/Decode.lean ====
section
/-! DEFINITION. The decoder and the encoder of instruction words (spec/16 R245 to R257, spec/17, and the field tables of
spec/18 to spec/23). The decoder is total; a refusal names the cause of the DECODE trap (R282): 1 an unassigned point,
3 a word-kind, position or reserved-field fault, 4 a reserved mode code. -/

namespace Sys2Proof

/-! ## Codes of the modifiers -/

def LvlCode.code : LvlCode → Nat
  | .lg => 0 | .core => 1 | .clu => 2 | .die => 3 | .pkg => 4 | .pod => 5 | .root => 6 | .self => 7
/-- Level codes (R16); every code of three bits is assigned. -/
def LvlCode.ofCode : Nat → LvlCode
  | 0 => .lg | 1 => .core | 2 => .clu | 3 => .die | 4 => .pkg | 5 => .pod | 6 => .root | _ => .self
def IVar.code : IVar → Nat
  | .i32 => 0 | .u32 => 1 | .i16 => 2 | .u16 => 3 | .i8 => 4 | .u8 => 5 | .i64 => 6 | .u64 => 7
/-- Integer variants (R269). -/
def IVar.ofCode : Nat → Option IVar
  | 0 => some .i32 | 1 => some .u32 | 2 => some .i16 | 3 => some .u16 | 4 => some .i8 | 5 => some .u8 | 6 => some .i64
  | 7 => some .u64 | _ => none
def Cmp.code : Cmp → Nat
  | .eq => 0 | .ne => 1 | .lt => 2 | .le => 3 | .gt => 4 | .ge => 5
/-- Conditions (R288, R313). -/
def Cmp.ofCode : Nat → Option Cmp
  | 0 => some .eq | 1 => some .ne | 2 => some .lt | 3 => some .le | 4 => some .gt | 5 => some .ge | _ => none
def FCmp.code : FCmp → Nat
  | .eq => 0 | .ne => 1 | .lt => 2 | .le => 3 | .gt => 4 | .ge => 5 | .un => 6 | .or => 7
/-- Float conditions (R325). -/
def FCmp.ofCode : Nat → FCmp
  | 0 => .eq | 1 => .ne | 2 => .lt | 3 => .le | 4 => .gt | 5 => .ge | 6 => .un | _ => .or
def EF.code : EF → Nat
  | .f32 => 0 | .bf16 => 1 | .f16 => 2 | .e4m3 => 3 | .e5m2 => 4 | .t8 => 5 | .t6 => 6 | .i8 => 7 | .i16 => 8 | .i32 => 9
  | .i64 => 10 | .e8m0 => 11 | .b1 => 12
/-- Element formats (R268). -/
def EF.ofCode : Nat → Option EF
  | 0 => some .f32 | 1 => some .bf16 | 2 => some .f16 | 3 => some .e4m3 | 4 => some .e5m2 | 5 => some .t8 | 6 => some .t6
  | 7 => some .i8 | 8 => some .i16 | 9 => some .i32 | 10 => some .i64 | 11 => some .e8m0 | 12 => some .b1 | _ => none
def RM.code : RM → Nat
  | .rn => 0 | .rz => 1 | .ru => 2 | .rd => 3 | .rs => 4 | .dyn => 5
/-- Rounding modes (R148). -/
def RM.ofCode : Nat → Option RM
  | 0 => some .rn | 1 => some .rz | 2 => some .ru | 3 => some .rd | 4 => some .rs | 5 => some .dyn | _ => none
def MW.code : MW → Nat
  | .b8 => 0 | .b16 => 1 | .b32 => 2 | .b64 => 3 | .b128 => 4 | .s8 => 8 | .s16 => 9
/-- Access widths (above R274). -/
def MW.ofCode : Nat → Option MW
  | 0 => some .b8 | 1 => some .b16 | 2 => some .b32 | 3 => some .b64 | 4 => some .b128 | 8 => some .s8 | 9 => some .s16
  | _ => none
def AtOp.code : AtOp → Nat
  | .add => 0 | .min => 1 | .max => 2 | .and => 3 | .or => 4 | .xor => 5 | .xchg => 6 | .cas => 7
/-- Atomic operations (above R274). -/
def AtOp.ofCode : Nat → Option AtOp
  | 0 => some .add | 1 => some .min | 2 => some .max | 3 => some .and | 4 => some .or | 5 => some .xor | 6 => some .xchg
  | 7 => some .cas | _ => none
def AtSz.code : AtSz → Nat
  | .b4 => 0 | .b8 => 1 | .b16 => 2
/-- Atomic widths (R344). -/
def AtSz.ofCode : Nat → Option AtSz
  | 0 => some .b4 | 1 => some .b8 | 2 => some .b16 | _ => none
def RedOp.code : RedOp → Nat
  | .add => 0 | .min => 1 | .max => 2 | .and => 3 | .or => 4 | .xor => 5
/-- Reduction operators (R336, R375). -/
def RedOp.ofCode : Nat → Option RedOp
  | 0 => some .add | 1 => some .min | 2 => some .max | 3 => some .and | 4 => some .or | 5 => some .xor | _ => none
def POp.code : POp → Nat
  | .and => 0 | .or => 1 | .xor => 2 | .andn => 3 | .not => 4 | .mov => 5
/-- PLOG operators (R320). -/
def POp.ofCode : Nat → Option POp
  | 0 => some .and | 1 => some .or | 2 => some .xor | 3 => some .andn | 4 => some .not | 5 => some .mov | _ => none
def SKind.code : SKind → Nat
  | .qsk => 0 | .hhl => 1 | .dcr => 2
/-- Summary kinds (R280). -/
def SKind.ofCode : Nat → Option SKind
  | 0 => some .qsk | 1 => some .hhl | 2 => some .dcr | _ => none
def Coin.code : Coin → Nat
  | .det => 0 | .hw => 1 | .alt => 2
/-- Coins (R409). -/
def Coin.ofCode : Nat → Option Coin
  | 0 => some .det | 1 => some .hw | 2 => some .alt | _ => none
def RedTy.code : RedTy → Nat
  | .ef e => e.code | .sk k => 13 + k.code
/-- REDUCE variants (R277). -/
def RedTy.ofCode (n : Nat) : Option RedTy :=
  if n < 13 then (EF.ofCode n).bind (fun e => if e.laneOk then some (.ef e) else none)
  else (SKind.ofCode (n - 13)).map .sk
def MmaV.code : MmaV → Nat
  | .f32 => 0 | .bf16 => 1 | .f16 => 2 | .e4m3 => 3 | .e5m2 => 4 | .t8 => 5 | .t6 => 6 | .i8 => 7 | .bx => 12 | .ba => 13
/-- MMA variants (R278). -/
def MmaV.ofCode : Nat → Option MmaV
  | 0 => some .f32 | 1 => some .bf16 | 2 => some .f16 | 3 => some .e4m3 | 4 => some .e5m2 | 5 => some .t8 | 6 => some .t6
  | 7 => some .i8 | 12 => some .bx | 13 => some .ba | _ => none
def MSrc.code : MSrc → Nat
  | .reg => 0 | .regH => 1 | .desc => 2 | .latch => 3
/-- Operand sources (R392, R397). -/
def MSrc.ofCode : Nat → MSrc
  | 0 => .reg | 1 => .regH | 2 => .desc | _ => .latch
def FSel.code : FSel → Nat
  | .none => 0 | .a => 1 | .b => 2
/-- Flag selection (R251); code 3 is reserved. -/
def FSel.ofCode : Nat → Option FSel
  | 0 => some .none | 1 => some .a | 2 => some .b | _ => Option.none
def ShflOp.code : ShflOp → Nat
  | .idx => 0 | .up => 1 | .dn => 2 | .bfly => 3
/-- SHFL variants (R273). -/
def ShflOp.ofCode : Nat → Option ShflOp
  | 0 => some .idx | 1 => some .up | 2 => some .dn | 3 => some .bfly | _ => none

/-! ## Fields -/

/-- The fields of an instruction word (R251). -/
structure Fields where
  kind01 : Bool
  op : Nat
  gp : Nat
  gn : Bool
  d : Nat
  a : Nat
  b : Nat
  c : Nat
  mod : Nat
  deriving DecidableEq, Repr

/-- The fields of a 64-bit word (R251). -/
def unpack (w : Nat) : Fields :=
  { kind01 := w / 2 ^ 62 % 4 == 1, op := w / 2 ^ 52 % 1024, gp := w / 2 ^ 49 % 8, gn := w / 2 ^ 48 % 2 == 1,
    d := w / 2 ^ 40 % 256, a := w / 2 ^ 32 % 256, b := w / 2 ^ 24 % 256, c := w / 2 ^ 16 % 256, mod := w % 65536 }

/-- 0 or 1. -/
def b2n (b : Bool) : Nat := if b then 1 else 0

/-- The word that holds the fields (R251). -/
def pack (f : Fields) : Nat :=
  b2n f.kind01 * 2 ^ 62 + f.op * 2 ^ 52 + f.gp * 2 ^ 49 + b2n f.gn * 2 ^ 48 + f.d * 2 ^ 40 + f.a * 2 ^ 32 + f.b * 2 ^ 24 +
    f.c * 2 ^ 16 + f.mod

/-- The operand of a code (R253). Code 0xFD never reaches it. -/
def Opnd.ofCode (c : Nat) : Opnd :=
  if h : c < 192 then .v ⟨c, h⟩
  else if h : c - 192 < 48 then .s ⟨c - 192, h⟩
  else if h : c - 240 < 13 then .k ⟨c - 240, h⟩
  else if c = 254 then .ix else .lit

/-- The code of an operand (R253). -/
def Opnd.code : Opnd → Nat
  | .v n => n.val | .s n => 192 + n.val | .k c => 240 + c.val | .ix => 254 | .lit => 255

/-- What the decoder expects of one operand field: zero, an operand of a kind, or a handle in the low `n` bits. -/
inductive FK where
  | z
  | o (k : OpK)
  | h (n : Nat)
  deriving DecidableEq, Repr

/-- Whether a code may stand in a field (R251, R253, R255, R257). -/
def FK.ok : FK → Nat → Bool
  | .z, c => c == 0
  | .h n, c => decide (c < 2 ^ n)
  | .o k, c => !(c == 253) && k.accepts (Opnd.ofCode c)

/-- Whether a field is an operand that holds a given code. -/
def FK.holds (k : FK) (code c : Nat) : Bool :=
  match k with
  | .o _ => code == c
  | _ => false

/-- USE entry `j` of an index word (R257). -/
def ixRef (x j : Nat) : Option IxRef :=
  if x / 2 ^ (11 * j + 10) % 2 == 1 then
    some { base := Fin.ofNat 256 (x / 2 ^ (11 * j)), xsel := Fin.ofNat 4 (x / 2 ^ (11 * j + 8)) }
  else none

/-- The extension of an instruction (R256, R257): `x` is the low 62 bits of the next word; none is a cause-3 fault. -/
def extOf (kd ka kb kc : FK) (uses : Bool) (f : Fields) (x : Nat) : Option Ext :=
  let hasLit := kd.holds f.d 255 || ka.holds f.a 255 || kb.holds f.b 255 || kc.holds f.c 255
  let hasIx := kd.holds f.d 254 || ka.holds f.a 254 || kb.holds f.b 254 || kc.holds f.c 254
  if f.kind01 then
    if hasLit && hasIx then none
    else if hasIx then
      if x / 2 ^ 44 == 0 && ((ixRef x 0).isSome == kd.holds f.d 254) && ((ixRef x 1).isSome == ka.holds f.a 254) &&
          ((ixRef x 2).isSome == kb.holds f.b 254) && ((ixRef x 3).isSome == kc.holds f.c 254) then
        some (.ix (ixRef x 0) (ixRef x 1) (ixRef x 2) (ixRef x 3))
      else none
    else if hasLit || uses then some (.lit (BitVec.ofNat 62 x))
    else none
  else if hasLit || hasIx then none
  else some .none

/-- The literal or index bits of an extension (R256, R257). -/
def IxRef.bits : Option IxRef → Nat → Nat
  | none, _ => 0
  | some r, j => (1024 + r.xsel.val * 256 + r.base.val) * 2 ^ (11 * j)

/-- The word after a kind-0b01 word, without its kind bits. -/
def Ext.word : Ext → Option Nat
  | .none => Option.none
  | .lit x => some x.toNat
  | .ix d a b c => some (IxRef.bits d 0 + IxRef.bits a 1 + IxRef.bits b 2 + IxRef.bits c 3)

/-- A decoded instruction or the cause of its DECODE trap. -/
abbrev DRes := Except Nat Instr

/-- One row of a field table: the kinds of D, A, B and C, a use of the literal of its own, the other cause-3 checks, and the
instruction, which is absent when a mode field holds a reserved code (cause 4). -/
def row (f : Fields) (x : Nat) (kd ka kb kc : FK) (uses c3 : Bool) (mk : Hd → Option Instr) : DRes :=
  if kd.ok f.d && ka.ok f.a && kb.ok f.b && kc.ok f.c && c3 then
    match extOf kd ka kb kc uses f x with
    | none => .error 3
    | some e =>
      match mk { gp := Fin.ofNat 8 f.gp, gn := f.gn, ext := e } with
      | none => .error 4
      | some i => .ok i
  else .error 3

/-- A variant that is not assigned is cause 1 (R266). -/
def opt1 {α : Type} (o : Option α) (k : α → DRes) : DRes :=
  match o with
  | none => .error 1
  | some a => k a

/-- A one-variant group (R266). -/
def only0 (v : Nat) (r : DRes) : DRes := if v == 0 then r else .error 1

/-- The width bit of the two-variant groups: variants 0 and 6 (R270, R271). -/
def wide : Nat → Option Bool
  | 0 => some false
  | 6 => some true
  | _ => none

def IVar.scalar (v : Nat) : Option IVar := (IVar.ofCode v).bind (fun t => if t.scalarOk then some t else none)
def IVar.signed (v : Nat) : Option IVar := (IVar.ofCode v).bind (fun t => if t.signedOk then some t else none)
def IVar.packed (v : Nat) : Option IVar := (IVar.ofCode v).bind (fun t => if t.packedOk then some t else none)
def EF.float (v : Nat) : Option EF := (EF.ofCode v).bind (fun t => if t.floatOk then some t else none)
def EF.lane (v : Nat) : Option EF := (EF.ofCode v).bind (fun t => if t.laneOk then some t else none)
def EF.narrow (v : Nat) : Option EF := (EF.ofCode v).bind (fun t => if t.narrowOk then some t else none)
def MW.store (v : Nat) : Option MW := (MW.ofCode v).bind (fun t => if t.storeOk then some t else none)
/-- Only variant 0. -/
def EF.f32Only (v : Nat) : Option Unit := if v == 0 then some () else none

/-- The field kinds by short names. -/
abbrev fz : FK := .z
abbrev fdv : FK := .o .dv
abbrev fds : FK := .o .ds
abbrev fsv : FK := .o .sv
abbrev fss : FK := .o .ss
abbrev fmr : FK := .o .mr
abbrev fmd : FK := .o .mrd

/-! ## MOD rules of classes 4 to 10 (R338, R362, R383, R409, R419) -/

inductive FRule where | req | opt | zero
inductive BRule where | allow | bad3 | bad4
/-- LVL: always a level operand; zero without an allowed ACQ or REL that is set; zero; zero unless ACQ or REL is set (class 8, R383). -/
inductive LRule where | always | need | zero | scoped

/-- The cause-3 part of a MOD rule. -/
def mod3 (m : Nat) (fr : FRule) (ar rr : BRule) (lr : LRule) : Bool :=
  (match fr with | .zero => m / 2 ^ 14 % 4 == 0 || m / 2 ^ 14 % 4 == 3 | _ => true) &&
  (match ar with | .bad3 => m / 2 ^ 10 % 2 == 0 | _ => true) &&
  (match rr with | .bad3 => m / 2 ^ 9 % 2 == 0 | _ => true) &&
  (match lr with
   | .always => true
   | .zero => m / 2 ^ 11 % 8 == 0
   | .scoped => m / 2 ^ 11 % 8 == 0 || m / 2 ^ 10 % 2 == 1 || m / 2 ^ 9 % 2 == 1
   | .need => m / 2 ^ 11 % 8 == 0 || (match ar with | .allow => m / 2 ^ 10 % 2 == 1 | _ => false) ||
       (match rr with | .allow => m / 2 ^ 9 % 2 == 1 | _ => false))

/-- The MOD fields, absent when one holds a code that is cause 4. -/
def mod4 (m : Nat) (fr : FRule) (ar rr : BRule) : Option MMod :=
  match FSel.ofCode (m / 2 ^ 14 % 4) with
  | none => none
  | some s =>
    if (match fr with | .req => decide (s = .none) | _ => false) ||
       (match ar with | .bad4 => m / 2 ^ 10 % 2 == 1 | _ => false) ||
       (match rr with | .bad4 => m / 2 ^ 9 % 2 == 1 | _ => false) then none
    else some { fsel := s, lvl := LvlCode.ofCode (m / 2 ^ 11 % 8), acq := m / 2 ^ 10 % 2 == 1, rel := m / 2 ^ 9 % 2 == 1 }

/-- A row of classes 4 to 10. -/
def mrow (f : Fields) (x : Nat) (kd ka kb kc : FK) (fr : FRule) (ar rr : BRule) (lr : LRule) (uses c3 : Bool)
    (mk : MMod → Hd → Option Instr) : DRes :=
  row f x kd ka kb kc uses (mod3 f.mod fr ar rr lr && c3) (fun h => (mod4 f.mod fr ar rr).bind (fun m => mk m h))

/-! ## The classes -/

def fin4 (n : Nat) : Fin 4 := Fin.ofNat 4 n
def fin8 (n : Nat) : Fin 8 := Fin.ofNat 8 n
def fin16 (n : Nat) : Fin 16 := Fin.ofNat 16 n

/-- A word of variant B (R252): no literal, DISP in [47:16]; `lk` says what MOD[7:0] holds. -/
def rowB (f : Fields) (c3 : Bool) (mk : Hd → BitVec 32 → Instr) : DRes :=
  if !f.kind01 && c3 then
    .ok (mk { gp := Fin.ofNat 8 f.gp, gn := f.gn, ext := .none } (BitVec.ofNat 32 (f.d * 2 ^ 24 + f.a * 2 ^ 16 + f.b * 2 ^ 8 + f.c)))
  else .error 3

/-- The control instructions (R248, R291 to R296), recognised in the last position of a clause of any class. -/
def decodeControl (f : Fields) (x : Nat) : DRes :=
  let z := f.mod == 0
  only0 (f.op % 16) <|
  match f.op / 16 with
  | 0x30 => rowB f z (fun h p => .br h p)
  | 0x31 => row f x fz fss fz fz false z (fun h => some (.brx h (Opnd.ofCode f.a)))
  | 0x32 => rowB f (fmd.ok f.mod && decide (f.mod < 256)) (fun h p => .call h p (Opnd.ofCode f.mod))
  | 0x33 => row f x fz fmd fz fz false z (fun h => some (.ret h (Opnd.ofCode f.a)))
  | 0x34 => rowB f (decide (f.mod < 256)) (fun h p => .loop h p (Fin.ofNat 256 f.mod))
  | 0x35 => row f x fz fz fz fz false z (fun h => some (.exit h))
  | 0x36 => row f x fz fz fz fz false z (fun h => some (.yield h))
  | _ => .error 1

/-- Class 0 (R270, R286 to R290). -/
def decode0 (f : Fields) (x : Nat) : DRes :=
  let v := f.op % 16
  let d := Opnd.ofCode f.d; let a := Opnd.ofCode f.a; let b := Opnd.ofCode f.b; let c := Opnd.ofCode f.c
  let z := f.mod == 0
  let sat := f.mod % 2 == 1
  let ar (mk : IVar → Hd → Instr) := opt1 (IVar.scalar v) fun t => row f x fds fss fss fz false z (fun h => some (mk t h))
  let lg (mk : Bool → Hd → Instr) := opt1 (wide v) fun w => row f x fds fss fss fz false z (fun h => some (mk w h))
  let un (mk : Bool → Hd → Instr) := opt1 (wide v) fun w => row f x fds fss fz fz false z (fun h => some (mk w h))
  let as (mk : IVar → Hd → Instr) :=
    opt1 (IVar.scalar v) fun t => row f x fds fss fss fz false (f.mod / 2 == 0) (fun h => some (mk t h))
  match f.op / 16 with
  | 0x00 => as (fun t h => .sadd h t sat d a b)
  | 0x01 => as (fun t h => .ssub h t sat d a b)
  | 0x02 => as (fun t h => .smul h t sat d a b)
  | 0x03 => ar (fun t h => .smulh h t d a b)
  | 0x04 => ar (fun t h => .smin h t d a b)
  | 0x05 => ar (fun t h => .smax h t d a b)
  | 0x06 => lg (fun w h => .sand h w d a b)
  | 0x07 => lg (fun w h => .sor h w d a b)
  | 0x08 => lg (fun w h => .sxor h w d a b)
  | 0x09 => un (fun w h => .snot h w d a)
  | 0x0A => lg (fun w h => .sshl h w d a b)
  | 0x0B => lg (fun w h => .sshr h w d a b)
  | 0x0C => lg (fun w h => .ssra h w d a b)
  | 0x0D => opt1 (IVar.scalar v) fun t => row f x (.h 3) fss fss fz false (f.mod / 8 == 0)
      (fun h => (Cmp.ofCode (f.mod % 8)).map (fun q => .scmp h t q (fin8 f.d) a b))
  | 0x0E => opt1 (wide v) fun w => row f x fds fss fss fss false z (fun h => some (.ssel h w d a b c))
  | 0x0F => un (fun w h => .smov h w d a)
  | 0x10 => un (fun w h => .spopc h w d a)
  | 0x11 => un (fun w h => .sclz h w d a)
  | 0x1F => only0 v (row f x fz fz fz fz false z (fun h => some (.nop h)))
  | _ => .error 1

/-- Class 11 (R281, R299 to R304). -/
def decode11 (f : Fields) (x : Nat) : DRes :=
  let d := Opnd.ofCode f.d; let a := Opnd.ofCode f.a; let b := Opnd.ofCode f.b
  let n := f.mod % 1024
  let w64 := f.mod / 1024 % 2 == 1
  let z := f.mod == 0
  only0 (f.op % 16) <|
  match f.op / 16 with
  | 0x00 => row f x fds fz fz fz false (f.mod / 2048 == 0)
      (fun h => some (if n = 0x30 then .srrRfault h w64 d else .srr h (Fin.ofNat 1024 n) w64 d))
  | 0x01 => row f x fz fss fz fz false (f.mod / 2048 == 0)
      (fun h => some (if n = 0x21 then .srwFpstat h w64 a else if n = 0x20 then .srwFpctl h w64 a
        else if n = 0x10 then .srwPntimer h w64 a else .srw h (Fin.ofNat 1024 n) w64 a))
  | 0x02 => row f x fz fz fz fz false true (fun h => some (.trap h (BitVec.ofNat 16 f.mod)))
  | 0x03 =>
    match f.mod % 4 with
    | 0 => row f x fz fz fz fz false (f.mod / 4 == 0) (fun h => some (.trapretResume h))
    | 1 => row f x fz fz fz fz false (f.mod / 4 == 0) (fun h => some (.trapretSkip h))
    | 2 => row f x fz fmr fz fz false (f.mod / 4 == 0) (fun h => some (.trapretReplace h a))
    | _ => row f x fz fz fz fz false (f.mod / 4 == 0) (fun h => some (.trapretAbort h))
  | 0x04 => row f x fz fss fss fz false (f.mod / 8 == 0) (fun h => some (.iflush h (LvlCode.ofCode (f.mod % 8)) a b))
  | 0x05 => row f x fz fss fz fz false z (fun h => some (.prioset h a))
  | _ => .error 1

/-- Class 1 (R271, R311 to R321). -/
def decode1 (f : Fields) (x : Nat) : DRes :=
  let v := f.op % 16
  let d := Opnd.ofCode f.d; let a := Opnd.ofCode f.a; let b := Opnd.ofCode f.b; let c := Opnd.ofCode f.c
  let z := f.mod == 0
  let sat := f.mod % 2 == 1
  let s1 := f.mod / 2 == 0
  let ar (mk : IVar → Hd → Instr) := opt1 (IVar.ofCode v) fun t => row f x fdv fsv fsv fz false z (fun h => some (mk t h))
  let as (mk : IVar → Hd → Instr) := opt1 (IVar.ofCode v) fun t => row f x fdv fsv fsv fz false s1 (fun h => some (mk t h))
  let lg (mk : Bool → Hd → Instr) := opt1 (wide v) fun w => row f x fdv fsv fsv fz false z (fun h => some (mk w h))
  let un (mk : Bool → Hd → Instr) := opt1 (wide v) fun w => row f x fdv fsv fz fz false z (fun h => some (mk w h))
  match f.op / 16 with
  | 0x00 => as (fun t h => .iadd h t sat d a b)
  | 0x01 => as (fun t h => .isub h t sat d a b)
  | 0x02 => as (fun t h => .imul h t sat d a b)
  | 0x03 => ar (fun t h => .imulh h t d a b)
  | 0x04 => opt1 (IVar.ofCode v) fun t => row f x fdv fsv fsv fsv false s1 (fun h => some (.imad h t sat d a b c))
  | 0x05 => ar (fun t h => .imin h t d a b)
  | 0x06 => ar (fun t h => .imax h t d a b)
  | 0x07 => opt1 (IVar.signed v) fun t => row f x fdv fsv fz fz false s1 (fun h => some (.iabs h t sat d a))
  | 0x08 => opt1 (IVar.ofCode v) fun t => row f x (.h 3) fsv fsv fz false (f.mod / 32 == 0)
      (fun h => if f.mod / 8 % 4 < t.count then
        (Cmp.ofCode (f.mod % 8)).map (fun q => .icmp h t q (fin4 (f.mod / 8)) (fin8 f.d) a b) else none)
  | 0x09 => lg (fun w h => .iand h w d a b)
  | 0x0A => lg (fun w h => .ior h w d a b)
  | 0x0B => lg (fun w h => .ixor h w d a b)
  | 0x0C => un (fun w h => .inot h w d a)
  | 0x0D => lg (fun w h => .ishl h w d a b)
  | 0x0E => lg (fun w h => .ishr h w d a b)
  | 0x0F => lg (fun w h => .isra h w d a b)
  | 0x10 => un (fun w h => .ipopc h w d a)
  | 0x11 => un (fun w h => .iclz h w d a)
  | 0x12 => if v < 2 then row f x fdv fsv fsv fsv false z (fun h => some (.ibfe h (v == 1) d a b c)) else .error 1
  | 0x13 => only0 v (row f x fdv fsv fsv fsv false z (fun h => some (.ibfi h d a b c)))
  | 0x14 => opt1 (wide v) fun w => row f x fdv fsv fsv fz false (f.mod / 8 == 0) (fun h => some (.isel h w (fin8 f.mod) d a b))
  | 0x15 => un (fun w h => .imov h w d a)
  | 0x16 => opt1 (IVar.packed v) fun t => row f x fdv fsv fsv fz false s1 (fun h => some (.pack h t sat d a b))
  | 0x17 => opt1 (IVar.packed v) fun t => row f x fdv fsv fz fz false s1 (fun h => some (.unpk h t sat d a))
  | 0x18 => opt1 (wide v) fun w => row f x fdv fsv fsv fz false (f.mod / 8 == 0) (fun h => some (.iaddsh h w (fin8 f.mod) d a b))
  | 0x19 => only0 v (
      if sat then row f x fdv (.h 2) fz fz false s1 (fun h => some (.xsetRd h d (fin4 f.a)))
      else row f x (.h 2) fsv fz fz false s1 (fun h => some (.xset h (fin4 f.d) a)))
  | 0x1A => only0 v (row f x (.h 2) (.h 2) fsv fz false z (fun h => some (.xadd h (fin4 f.d) (fin4 f.a) b)))
  | 0x1B => only0 v (row f x (.h 3) (.h 3) (if f.mod % 8 = 4 ∨ f.mod % 8 = 5 then fz else .h 3) fz false (f.mod / 8 == 0)
      (fun h => (POp.ofCode (f.mod % 8)).map (fun o => .plog h o (fin8 f.d) (fin8 f.a) (fin8 f.b))))
  | 0x1C => only0 v (row f x fmd fmr fss fz false z (fun h => some (.philox h d a b)))
  | _ => .error 1

/-- Class 2 (R272, R322 to R332). -/
def decode2 (f : Fields) (x : Nat) : DRes :=
  let v := f.op % 16
  let d := Opnd.ofCode f.d; let a := Opnd.ofCode f.a; let b := Opnd.ofCode f.b; let c := Opnd.ofCode f.c
  let z := f.mod == 0
  let r8 := f.mod / 8 == 0
  let rm := RM.ofCode (f.mod % 8)
  let bin (mk : EF → RM → Hd → Instr) :=
    opt1 (EF.float v) fun e => row f x fdv fsv fsv fz false r8 (fun h => rm.map (fun r => mk e r h))
  let un (mk : RM → Hd → Instr) := only0 v (row f x fdv fsv fz fz false r8 (fun h => rm.map (fun r => mk r h)))
  match f.op / 16 with
  | 0x00 => bin (fun e r h => .fadd h e r d a b)
  | 0x01 => bin (fun e r h => .fsub h e r d a b)
  | 0x02 => bin (fun e r h => .fmul h e r d a b)
  | 0x03 => opt1 (EF.float v) fun e => row f x fdv fsv fsv fsv false r8 (fun h => rm.map (fun r => .ffma h e r d a b c))
  | 0x04 => opt1 (EF.float v) fun e => row f x fdv fsv fsv fz false z (fun h => some (.fmin h e d a b))
  | 0x05 => opt1 (EF.float v) fun e => row f x fdv fsv fsv fz false z (fun h => some (.fmax h e d a b))
  | 0x06 => opt1 (EF.float v) fun e => row f x fdv fsv fz fz false z (fun h => some (.fabs h e d a))
  | 0x07 => opt1 (EF.float v) fun e => row f x fdv fsv fz fz false z (fun h => some (.fneg h e d a))
  | 0x08 => opt1 (EF.float v) fun e => row f x (.h 3) fsv fsv fz false (f.mod / 256 == 0 && f.mod % 16 == 0)
      (fun h => if decide (e = .f32) && f.mod / 128 == 1 then none
        else some (.fcmp h e (FCmp.ofCode (f.mod / 16 % 8)) (f.mod / 128 % 2 == 1) (fin8 f.d) a b))
  | 0x09 => only0 v (row f x fdv fsv fsv fz false r8 (fun h => rm.map (fun r => .fdiv h r d a b)))
  | 0x0A => un (fun r h => .fsqrt h r d a)
  | 0x0B => un (fun r h => .frcp h r d a)
  | 0x0C => un (fun r h => .frsq h r d a)
  | 0x0D => un (fun r h => .fexp2 h r d a)
  | 0x0E => un (fun r h => .flog2 h r d a)
  | 0x0F => un (fun r h => .fsin h r d a)
  | 0x10 => un (fun r h => .fcos h r d a)
  | 0x11 => un (fun r h => .ftanh h r d a)
  | 0x12 => opt1 (EF.float v) fun e => row f x fdv fsv fz fz false z (fun h => some (.fclass h e d a))
  | 0x13 => opt1 (EF.float v) fun e => row f x fdv fsv fz fz false r8 (fun h => rm.map (fun r => .frnd h e r d a))
  | 0x20 => opt1 (EF.ofCode v) fun dst =>
      let src := EF.ofCode (f.mod / 16 % 16)
      let sat := f.mod / 8 % 2 == 1
      row f x fdv fsv fz fz false
        (f.mod / 8192 == 0 && (!sat || match src with | some s => fcvtSatOk dst s | none => false))
        (fun h => rm.bind fun r => src.bind fun s =>
          if fcvtPairOk dst s && fcvtPosOk dst s (f.mod / 256 % 32) then
            some (.fcvt h dst s (Fin.ofNat 32 (f.mod / 256)) sat r d a) else none)
  | 0x21 => opt1 (EF.narrow v) fun e => row f x fdv fmr fsv fz false r8 (fun h => rm.map (fun r => .nenc h e r d a b))
  | 0x22 => opt1 (EF.narrow v) fun e => row f x fmd fsv fsv fz false r8 (fun h => rm.map (fun r => .ndec h e r d a b))
  | _ => .error 1

/-- Class 3 (R273, R333 to R337). -/
def decode3 (f : Fields) (x : Nat) : DRes :=
  let v := f.op % 16
  let d := Opnd.ofCode f.d; let a := Opnd.ofCode f.a; let b := Opnd.ofCode f.b
  let z := f.mod == 0
  let sc (mk : EF → RedOp → RM → Bool → Hd → Instr) :=
    opt1 (EF.lane v) fun e =>
      let sat := f.mod / 64 % 2 == 1
      let op := RedOp.ofCode (f.mod % 8)
      let isAdd := f.mod % 8 == 0
      row f x fdv fsv fz fz false
        (f.mod / 128 == 0 && (f.mod / 8 % 8 == 0 || (e.floatOk && isAdd)) && (!sat || (e.isInt && isAdd)))
        (fun h => op.bind fun o => (RM.ofCode (f.mod / 8 % 8)).bind fun r =>
          if e.floatOk && o.bitwise then none else some (mk e o r sat h))
  match f.op / 16 with
  | 0x00 =>
    match v with
    | 0 => row f x (.h 3) (.h 3) fz fz false z (fun h => some (.vote h (.all (fin8 f.d) (fin8 f.a))))
    | 1 => row f x (.h 3) (.h 3) fz fz false z (fun h => some (.vote h (.any (fin8 f.d) (fin8 f.a))))
    | 2 => row f x fdv (.h 3) fz fz false z (fun h => some (.vote h (.bal d (fin8 f.a))))
    | 3 => row f x (.h 3) fsv fz fz false z (fun h => some (.vote h (.eq (fin8 f.d) a)))
    | _ => .error 1
  | 0x01 => opt1 (ShflOp.ofCode v) fun o => row f x fdv fsv fsv fz false z (fun h => some (.shfl h o d a b))
  | 0x02 => sc (fun e o r s h => .scani h e o r s d a)
  | 0x03 => sc (fun e o r s h => .scanx h e o r s d a)
  | 0x04 => sc (fun e o r s h => .lred h e o r s d a)
  | 0x05 => only0 v (row f x fz fss fz fz false z (fun h => some (.partset h a)))
  | 0x06 => only0 v (row f x fds fz fz fz false z (fun h => some (.partget h d)))
  | _ => .error 1

/-- The atomics of classes 4 and 5 (R339, R344). -/
def atomRow (f : Fields) (x : Nat) (scalar : Bool) (winOk : Bool) (res : Bool)
    (mk : AtOp → MMod → Bool → Bool → AtSz → Hd → Instr) : DRes :=
  opt1 (AtOp.ofCode (f.op % 16)) fun op =>
    let nr := f.mod / 8 % 2 == 1
    let sgn := f.mod / 4 % 2 == 1
    let s := if scalar then fss else fsv
    mrow f x (if nr then fz else if scalar then fds else fdv) s s (if op = .cas then s else fz)
      (if nr then .opt else .req) .allow .allow .always false
      (res && (!sgn || decide (op = .min) || decide (op = .max)))
      (fun m h => if winOk then (AtSz.ofCode (f.mod % 4)).bind fun sz =>
          if !decide (sz = .b16) || decide (op = .xchg) || decide (op = .cas) then some (mk op m nr sgn sz h) else none
        else none)

/-- Class 4 (R274, R338 to R351). -/
def decode4 (f : Fields) (x : Nat) : DRes :=
  let v := f.op % 16
  let d := Opnd.ofCode f.d; let a := Opnd.ofCode f.a; let b := Opnd.ofCode f.b; let c := Opnd.ofCode f.c
  let inv := f.mod / 256 % 2 == 1
  let p := f.mod % 512
  match f.op / 16 with
  | 0x00 => opt1 (MW.ofCode v) fun w => mrow f x fdv fsv fsv fz .req .allow .bad4 .need false (f.mod % 256 == 0)
      (fun m h => if inv && m.acq then none else some (.ld h w m inv d a b))
  | 0x01 => opt1 (MW.store v) fun w => mrow f x fz fsv fsv fsv .opt .bad4 .allow .need false (p == 0)
      (fun m h => some (.st h w m a b c))
  | 0x02 => atomRow f x false true (p / 16 == 0) (fun op m nr sgn sz h => .atom h op m nr sgn sz d a b c)
  | 0x03 => only0 v (mrow f x fdv fsv fz fz .req .allow .bad4 .need false (p == 0) (fun m h => some (.ldmeta h m d a)))
  | 0x04 => only0 v (mrow f x fz fsv fz fsv .opt .bad4 .allow .need false (p == 0) (fun m h => some (.stmeta h m a c)))
  | 0x05 => only0 v (mrow f x fz fss fss fz .opt .bad3 .bad3 .always false (p == 0) (fun m h => some (.flush h m a b)))
  | 0x06 => only0 v (mrow f x fds fss fz fz .zero .bad3 .bad3 .zero false (p == 0) (fun _ h => some (.frame h d a)))
  | 0x07 => only0 v (mrow f x fz fss fss fz .req .bad3 .bad3 .zero false (p == 0) (fun m h => some (.claim h m a b)))
  | 0x08 => only0 v (mrow f x fz fss fz fz .zero .bad3 .bad3 .zero false (p == 0) (fun _ h => some (.migrate h a)))
  | 0x10 => opt1 (MW.ofCode v) fun w => mrow f x fds fss fss fz .req .allow .bad4 .need false (f.mod % 256 == 0)
      (fun m h => if inv && m.acq then none else some (.sld h w m inv d a b))
  | 0x11 => opt1 (MW.store v) fun w => mrow f x fz fss fss fss .opt .bad4 .allow .need false (p == 0)
      (fun m h => some (.sst h w m a b c))
  | 0x12 => atomRow f x true true (p / 16 == 0) (fun op m nr sgn sz h => .satom h op m nr sgn sz d a b c)
  | _ => .error 1

/-- The window WIN of class 5 (R340): 6 and 7 are cause 4. -/
def winOf (m : Nat) : Option (Fin 6) :=
  if h : m / 64 % 8 < 6 then some ⟨m / 64 % 8, h⟩ else none

/-- Class 5 (R275, R338 to R344, R352). -/
def decode5 (f : Fields) (x : Nat) : DRes :=
  let v := f.op % 16
  let d := Opnd.ofCode f.d; let a := Opnd.ofCode f.a; let b := Opnd.ofCode f.b; let c := Opnd.ofCode f.c
  let p := f.mod % 512
  let bar (mk : Fin 16 → Hd → Instr) :=
    only0 v (mrow f x fz fz fz fz .zero .bad3 .bad3 .zero false (p / 16 == 0) (fun _ h => some (mk (fin16 f.mod) h)))
  match f.op / 16 with
  | 0x00 => opt1 (MW.ofCode v) fun w => mrow f x fdv fsv fsv fz .req .allow .bad4 .need false (p % 64 == 0)
      (fun m h => (winOf f.mod).map (fun n => .lds h w m n d a b))
  | 0x01 => opt1 (MW.store v) fun w => mrow f x fz fsv fsv fsv .opt .bad4 .allow .need false (p % 64 == 0)
      (fun m h => (winOf f.mod).map (fun n => .sts h w m n a b c))
  | 0x02 => atomRow f x false (winOf f.mod).isSome (p / 16 % 4 == 0)
      (fun op m nr sgn sz h => .atoms h op m ((winOf f.mod).getD 0) nr sgn sz d a b c)
  | 0x03 => bar (fun n h => .bararr h n)
  | 0x04 => bar (fun n h => .barwait h n)
  | 0x05 => bar (fun n h => .barsync h n)
  | 0x06 => only0 v (mrow f x fz fss fz fz .zero .bad3 .bad3 .zero false (p / 256 == 0)
      (fun _ h => some (.barcfg h (fin16 f.mod) (fin16 (f.mod / 16)) a)))
  | _ => .error 1

/-- Class 6 (R276, R338, R339, R353 to R359). -/
def decode6 (f : Fields) (x : Nat) : DRes :=
  let v := f.op % 16
  let d := Opnd.ofCode f.d; let a := Opnd.ofCode f.a; let b := Opnd.ofCode f.b; let c := Opnd.ofCode f.c
  let p := f.mod % 512
  match f.op / 16 with
  | 0x00 => if v < 2 then mrow f x fds fss fss fss .req .allow .allow .need false (p / 128 == 0)
      (fun m h => some (if v = 0 then .copyIn h m (fin16 (f.mod / 8)) (f.mod / 4 % 2 == 1) (fin4 f.mod) d a b c
        else .copyOut h m (fin16 (f.mod / 8)) (f.mod / 4 % 2 == 1) (fin4 f.mod) d a b c)) else .error 1
  | 0x01 => only0 v (mrow f x fz fsv fsv fz .req .allow .allow .need false (p == 0) (fun m h => some (.acopy h m a b)))
  | 0x02 => only0 v (mrow f x fds fss fss fz .req .allow .allow .need false (p / 4 == 0)
      (fun m h => some (.spush h m (fin4 f.mod) d a b)))
  | 0x03 => only0 v (mrow f x fz fss fz fz .zero .bad3 .bad3 .zero false (p / 4 == 0) (fun _ h => some (.spop h (fin4 f.mod) a)))
  | 0x04 => only0 v (mrow f x fz fss fss fz .zero .bad3 .bad3 .zero false (p / 4 == 0)
      (fun _ h => some (.qcfg h (fin4 f.mod) a b)))
  | 0x05 => only0 v (mrow f x fds fz fz fz .zero .allow .bad4 .need false (p / 8 == 0)
      (fun m h => some (.wprd h m (f.mod / 4 % 2 == 1) (fin4 f.mod) d)))
  | _ => .error 1

/-- The type and operator pairs that REDUCE refuses (R375). -/
def redBad : RedTy → RedOp → Bool
  | .ef e, o => e.floatOk && o.bitwise
  | .sk _, o => !decide (o = .add)

/-- Class 7 (R277, R361, R362). FENCE takes FSEL 3 as a cause-3 fault (R361). -/
def decode7 (f : Fields) (x : Nat) : DRes :=
  let v := f.op % 16
  let d := Opnd.ofCode f.d; let a := Opnd.ofCode f.a; let b := Opnd.ofCode f.b; let c := Opnd.ofCode f.c
  let p := f.mod % 512
  let be := f.mod / 8 % 2 == 1
  let br := f.mod / 16 % 16
  match f.op / 16 with
  | 0x00 => if v < 2 then mrow f x fz fss fz fz .zero .bad4 .bad4 .always false (p == 0)
      (fun m h => some (if v = 0 then .launch h m.lvl a else .launchGang h m.lvl a)) else .error 1
  | 0x01 => only0 v (mrow f x fz fz fz fz .zero .bad4 .bad4 .always false (p == 0) (fun m h => some (.join h m.lvl)))
  | 0x02 => only0 v (mrow f x fz fz fz fz .zero .bad4 .bad4 .always false (p == 0) (fun m h => some (.bar h m.lvl)))
  | 0x03 => if v < 2 then
      mrow f x fds fmr fss fss .req .allow .allow .always false (p / 256 == 0 && (be || br == 0))
        (fun m h => some (if v = 0 then .mcopyDown h m (fin16 br) be (fin8 f.mod) d a b c
          else .mcopyUp h m (fin16 br) be (fin8 f.mod) d a b c)) else .error 1
  | 0x04 => opt1 (RedTy.ofCode v) fun t => mrow f x fds fss fss fss .req .allow .bad4 .always false (p / 8 == 0)
      (fun m h => (RedOp.ofCode (f.mod % 8)).bind fun o =>
        if redBad t o then none
        else some (.reduce h m t o d a b c))
  | 0x05 => only0 v (row f x fz fz fz fz false (f.mod / 2 ^ 14 == 0 && p / 4 == 0)
      (fun h =>
        let acq := f.mod / 2 ^ 10 % 2 == 1
        let rel := f.mod / 2 ^ 9 % 2 == 1
        if acq || rel then some (.fence h (LvlCode.ofCode (f.mod / 2 ^ 11 % 8)) acq rel (f.mod % 2 == 1) (f.mod / 2 % 2 == 1))
        else none))
  | 0x06 => only0 v (mrow f x fz fss fmr fz .zero .bad4 .bad4 .zero false (p == 0) (fun _ h => some (.spawn h a b)))
  | 0x07 => only0 v (mrow f x fz fss fz fz .req .bad4 .bad4 .zero false (p == 0) (fun m h => some (.fetchw h m.fsel a)))
  | _ => .error 1

/-- The field of one MMA or LATCH source (R392): a latch names no register. -/
def srcFK (s : MSrc) : FK := match s with | .latch => fz | _ => fmr

/-- Class 8 (R278, R383, R392, R397 to R407). -/
def decode8 (f : Fields) (x : Nat) : DRes :=
  let v := f.op % 16
  let d := Opnd.ofCode f.d; let a := Opnd.ofCode f.a; let b := Opnd.ofCode f.b
  let p := f.mod % 512
  match f.op / 16 with
  | 0x00 => opt1 (MmaV.ofCode v) fun t =>
      let asrc := MSrc.ofCode (f.mod / 128 % 4)
      let bsrc := MSrc.ofCode (f.mod / 32 % 4)
      let ka := f.mod / 16 % 2 == 1
      let kb := f.mod / 8 % 2 == 1
      mrow f x (.h 4) (srcFK asrc) (srcFK bsrc) (.h 4) .zero .allow .bad4 .scoped true
        ((f.c / 8 == 1 || f.c == 0) && (!t.isInt || f.mod % 8 == 0) && (!f.kind01 || x / 2 ^ 42 == 0))
        (fun m h => (RM.ofCode (f.mod % 8)).bind fun r =>
          if srcOk asrc ka a && srcOk bsrc kb b then
            some (.mma h t m.lvl m.acq asrc bsrc ka kb r (if f.c / 8 == 1 then some (fin8 f.c) else none) (fin16 f.d)
              (if asrc = .latch then .v 0 else a) (if bsrc = .latch then .v 0 else b))
          else none)
  | 0x01 => if v < 2 then
      let src := MSrc.ofCode (f.mod / 128 % 4)
      mrow f x fz (if src = .latch then fmr else srcFK src) fz fz .zero .allow .bad4 .scoped false (f.mod % 128 == 0)
        (fun m h => if !decide (src = .latch) then some (.latch h (v == 1) m.lvl m.acq src a) else none)
      else .error 1
  | 0x02 => if v < 2 then mrow f x fz fz fz fz .zero .bad4 .bad4 .scoped false (p == 0) (fun _ h => some (.unlatch h (v == 1)))
      else .error 1
  | 0x03 => only0 v (mrow f x (.h 4) fz fz fz .zero .bad4 .bad4 .scoped false (p == 0) (fun _ h => some (.accz h (fin16 f.d))))
  | 0x04 => only0 v (mrow f x fmd (.h 4) fz fz .zero .bad4 .bad4 .scoped false
      (p / 128 == 0 && (!(f.mod % 16 == 0) || f.mod / 16 % 8 == 0))
      (fun _ h => (EF.float (f.mod % 16)).bind fun e => (RM.ofCode (f.mod / 16 % 8)).bind fun r =>
        some (.accrd h e r d (fin16 f.a))))
  | 0x05 => only0 v (mrow f x (.h 4) fmr fz fz .zero .bad4 .bad4 .scoped false (p == 0)
      (fun _ h => some (.accwr h (fin16 f.d) a)))
  | 0x06 => only0 v (mrow f x fz fmr (.h 4) fz .req .allow .allow .scoped false (p == 0)
      (fun m h => some (.accst h m a (fin16 f.b))))
  | 0x07 => only0 v (mrow f x (.h 4) fmr fz fz .zero .allow .bad4 .scoped false (p == 0)
      (fun m h => some (.accld h m.lvl m.acq (fin16 f.d) a)))
  | 0x08 => only0 v (mrow f x (.h 4) (.h 4) fz fz .zero .bad4 .bad4 .scoped false (p / 2 == 0)
      (fun _ h => some (.accmov h (f.mod % 2 == 1) (fin16 f.d) (fin16 f.a))))
  | 0x09 => if v = 0 then mrow f x fz fss fz fz .zero .bad4 .bad4 .scoped false (p / 2 == 0)
        (fun _ h => some (.specBegin h (f.mod % 2 == 1) a))
      else if v = 1 then mrow f x (.h 3) fz fz fz .zero .bad4 .bad4 .scoped false (p == 0)
        (fun _ h => some (.specResolve h (fin8 f.d)))
      else .error 1
  | 0x0A => only0 v (mrow f x (.h 4) fsv fss fz .zero .bad4 .bad4 .scoped false (p / 2 == 0)
      (fun _ h => some (.treemask h (f.mod % 2 == 1) (fin16 f.d) a b)))
  | 0x0B => only0 v (mrow f x fds fss fss fz .req .allow .allow .scoped false (p == 0)
      (fun m h => some (.kvcommit h m d a b)))
  | _ => .error 1

/-- Class 9 (R279, R419). -/
def decode9 (f : Fields) (x : Nat) : DRes :=
  let v := f.op % 16
  let d := Opnd.ofCode f.d; let a := Opnd.ofCode f.a; let b := Opnd.ofCode f.b
  let p := f.mod % 512
  let cnt := fin8 (f.mod / 32)
  match f.op / 16 with
  | 0x00 => only0 v (mrow f x fds fmr fss fz .zero .bad4 .bad4 .always false (p % 32 == 0)
      (fun m h => some (.grant h m.lvl (f.mod / 256 % 2 == 1) cnt d a b)))
  | 0x01 => only0 v (mrow f x fz fmr fz fz .zero .bad4 .bad4 .zero false (p % 32 == 0 && p / 256 == 0)
      (fun _ h => some (.revoke h cnt a)))
  | 0x02 => only0 v (mrow f x fz fmr fz fz .zero .bad4 .bad4 .zero false (p % 32 == 0 && p / 256 == 0)
      (fun _ h => some (.expect h cnt a)))
  | 0x03 => only0 v (mrow f x fz fmr fss fz .req .bad4 .allow .zero false (p / 8 == 0)
      (fun m h => some (.rsend h m.fsel m.rel (fin8 f.mod) a b)))
  | 0x04 => only0 v (mrow f x fz fmr fsv fz .req .bad4 .allow .zero false (p / 8 == 0)
      (fun m h => some (.rsendv h m.fsel m.rel (fin8 f.mod) a b)))
  | 0x05 => only0 v (mrow f x fz fz fz fz .zero .bad4 .bad4 .zero false (p == 0) (fun _ h => some (.rfence h)))
  | 0x06 => if v < 2 then mrow f x fmd fmr fz fz .zero .bad4 .bad4 .zero false (p % 32 == 0 && p / 256 == 0)
      (fun _ h => some (if v = 0 then .rget h cnt d a else .rgetTk h cnt d a)) else .error 1
  | _ => .error 1

/-- Class 10 (R280, R409). -/
def decode10 (f : Fields) (x : Nat) : DRes :=
  let v := f.op % 16
  let d := Opnd.ofCode f.d; let a := Opnd.ofCode f.a; let b := Opnd.ofCode f.b; let c := Opnd.ofCode f.c
  let p := f.mod % 512
  let sk (kd kb kc : FK) (c3 : Bool) (mk : MMod → Hd → Option Instr) :=
    mrow f x kd fss kb kc .req .bad4 .bad4 .zero false c3 mk
  match f.op / 16 with
  | 0x00 => opt1 (SKind.ofCode v) fun k =>
      if k = .qsk then sk fz fss fz (p / 4 == 0) (fun m h => (Coin.ofCode (f.mod % 4)).map (fun q => .skinit h m.fsel k q a b))
      else sk fz fz fz (p == 0) (fun m h => some (.skinit h m.fsel k .det a b))
  | 0x01 => opt1 (SKind.ofCode v) fun k =>
      sk fz fsv (if k = .hhl then fsv else fz) (if k = .dcr then p / 2 == 0 else p == 0)
        (fun m h => some (.skins h m.fsel k (f.mod % 2 == 1) a b c))
  | 0x02 => opt1 (SKind.ofCode v) fun k => sk fz fss fz (p == 0) (fun m h => some (.skmrg h m.fsel k a b))
  | 0x03 => only0 v (sk fdv fsv fz (p == 0) (fun m h => some (.skquant h m.fsel d a b)))
  | 0x04 => only0 v (sk fdv fsv fz (p == 0) (fun m h => some (.skrank h m.fsel d a b)))
  | 0x05 => if v = 1 then sk fmd fss fz (p == 0) (fun m h => some (.sktop h m.fsel d a b)) else .error 1
  | 0x06 => if v = 1 then sk fdv fsv fz (p == 0) (fun m h => some (.skpoint h m.fsel d a b)) else .error 1
  | 0x07 => if v = 2 then sk fdv fz fz (p == 0) (fun m h => some (.skest h m.fsel d a)) else .error 1
  | _ => .error 1

/-- The LIVE word (R250, R270): class-0 points 0x3F0 to 0x3FF, in a clause of any class. -/
def isLiveWord (w : Nat) : Bool := w / 2 ^ 56 % 64 == 0x3F

/-- Whether an opcode is in the control groups 0x30 to 0x36 (R270). -/
def isControlOp (op : Nat) : Bool := decide (0x30 ≤ op / 16) && decide (op / 16 ≤ 0x36)

/-- Decode one instruction word of a clause of class `cls`; `x` is the low 62 bits of the next word, used when the word
is of kind 0b01. Position rules stand in `decodeAt`. -/
def decodeWord (cls w x : Nat) : DRes :=
  if isLiveWord w then
    if w / 2 ^ 62 % 4 == 0 && w / 2 ^ 24 % 256 == 0 then
      .ok (.liveWord (BitVec.ofNat 24 (w / 2 ^ 32)) (BitVec.ofNat 24 w))
    else .error 3
  else
    let f := unpack w
    if isControlOp f.op then decodeControl f x else
    match cls with
    | 0 => decode0 f x | 1 => decode1 f x | 2 => decode2 f x | 3 => decode3 f x | 4 => decode4 f x | 5 => decode5 f x
    | 6 => decode6 f x | 7 => decode7 f x | 8 => decode8 f x | 9 => decode9 f x | 10 => decode10 f x | 11 => decode11 f x
    | _ => .error 1

/-- The control instructions, TRAP and TRAPRET stand last in their clause (R248, R281). -/
def Instr.standsLast : Instr → Bool
  | .br .. | .brx .. | .call .. | .ret .. | .loop .. | .exit .. | .yield .. | .trap .. | .trapretResume .. | .trapretSkip ..
  | .trapretReplace .. | .trapretAbort .. => true
  | _ => false

/-- The LIVE word. -/
def Instr.isLive : Instr → Bool
  | .liveWord .. => true
  | _ => false

/-- Decode the word at position `pos` of a clause (R245, R248, R250, R281, R282): the class and SAFE bit of its header
and its words, position 0 first. The result holds the number of positions the instruction fills. A word of kind 0b01 without its
literal traps at that word (DEDUCED, log 64). -/
def decodeAt (cls : Nat) (safe : Bool) (words : List Nat) (pos : Nat) : Except Nat (Instr × Nat) :=
  let w := words.getD pos 0
  let kind := w / 2 ^ 62 % 4
  if kind == 2 || kind == 3 then .error 3
  else
    let nxt := words.getD (pos + 1) 0
    let two := kind == 1
    let bad := two && (!decide (pos + 1 < words.length) || !(nxt / 2 ^ 62 % 4 == 3))
    match decodeWord cls w (nxt % 2 ^ 62) with
    | .error 1 => .error 1
    | .error c => if bad || (pos == 0 && safe) then .error 3 else .error c
    | .ok i =>
      let size := if two then 2 else 1
      if bad then .error 3
      else if i.isLive then if pos == 0 && safe then .ok (i, 1) else .error 3
      else if pos == 0 && safe then .error 3
      else if i.standsLast && !(pos + size == words.length) then .error 3
      else .ok (i, size)

/-! ## The clause header (R246) -/

structure Header where
  cls : Nat
  wcnt : Nat
  wait : Nat
  seta : Nat
  setb : Nat
  prio : Nat
  yield : Bool
  safe : Bool
  deriving DecidableEq, Repr

/-- Decode a clause header, or the cause of its DECODE trap (R245, R246). -/
def decodeHeader (w : Nat) : Except Nat Header :=
  let seta := w / 2 ^ 38 % 16
  let setb := w / 2 ^ 34 % 16
  if !(w / 2 ^ 62 % 4 == 2) then .error 3
  else if w / 2 ^ 58 % 16 ≥ 12 then .error 2
  else if (12 ≤ seta && seta ≤ 14) || (12 ≤ setb && setb ≤ 14) || !(w % 65536 == 0) then .error 3
  else .ok { cls := w / 2 ^ 58 % 16, wcnt := w / 2 ^ 54 % 16, wait := w / 2 ^ 42 % 4096, seta := seta, setb := setb,
             prio := w / 2 ^ 18 % 65536, yield := w / 2 ^ 17 % 2 == 1, safe := w / 2 ^ 16 % 2 == 1 }

/-- The word of a clause header (R246). -/
def Header.encode (h : Header) : Nat :=
  2 * 2 ^ 62 + h.cls * 2 ^ 58 + h.wcnt * 2 ^ 54 + h.wait * 2 ^ 42 + h.seta * 2 ^ 38 + h.setb * 2 ^ 34 + h.prio * 2 ^ 18 +
    b2n h.yield * 2 ^ 17 + b2n h.safe * 2 ^ 16

/-! ## The encoder -/

/-- An encoded instruction: the class of its clause, its word, and the low 62 bits of the word after it. -/
structure Enc where
  cls : Nat
  word : Nat
  lit : Option Nat
  deriving DecidableEq, Repr

/-- Assemble a word of the common layout (R251). -/
def enc (cls grp var : Nat) (h : Hd) (d a b c mod : Nat) : Option Enc :=
  some { cls := cls, lit := h.ext.word,
         word := pack { kind01 := h.ext.word.isSome, op := grp * 16 + var, gp := h.gp.val, gn := h.gn, d := d, a := a, b := b,
                        c := c, mod := mod } }

/-- Assemble a word of variant B (R252). -/
def encB (grp : Nat) (h : Hd) (disp : BitVec 32) (mod : Nat) : Option Enc :=
  enc 0 grp 0 h (disp.toNat / 2 ^ 24) (disp.toNat / 2 ^ 16 % 256) (disp.toNat / 2 ^ 8 % 256) (disp.toNat % 256) mod

def w06 (w : Bool) : Nat := if w then 6 else 0
/-- FSEL, LVL, ACQ and REL (R251). -/
def MMod.bits (m : MMod) : Nat := m.fsel.code * 2 ^ 14 + m.lvl.code * 2 ^ 11 + b2n m.acq * 2 ^ 10 + b2n m.rel * 2 ^ 9
/-- The bits of an atomic (R339). -/
def atomBits (m : MMod) (nr sgn : Bool) (sz : AtSz) : Nat := m.bits + b2n nr * 8 + b2n sgn * 4 + sz.code
def srrNum (n : Nat) (w64 : Bool) : Nat := n + b2n w64 * 1024
def cvCode : Option (Fin 8) → Nat
  | none => 0
  | some k => 8 + k.val

/-- The encoding of an instruction (spec/17 to spec/23); steps have none. -/
def Instr.encode : Instr → Option Enc
  | .sadd h v s d a b => enc 0 0x00 v.code h d.code a.code b.code 0 (b2n s)
  | .ssub h v s d a b => enc 0 0x01 v.code h d.code a.code b.code 0 (b2n s)
  | .smul h v s d a b => enc 0 0x02 v.code h d.code a.code b.code 0 (b2n s)
  | .smulh h v d a b => enc 0 0x03 v.code h d.code a.code b.code 0 0
  | .smin h v d a b => enc 0 0x04 v.code h d.code a.code b.code 0 0
  | .smax h v d a b => enc 0 0x05 v.code h d.code a.code b.code 0 0
  | .sand h w d a b => enc 0 0x06 (w06 w) h d.code a.code b.code 0 0
  | .sor h w d a b => enc 0 0x07 (w06 w) h d.code a.code b.code 0 0
  | .sxor h w d a b => enc 0 0x08 (w06 w) h d.code a.code b.code 0 0
  | .snot h w d a => enc 0 0x09 (w06 w) h d.code a.code 0 0 0
  | .sshl h w d a b => enc 0 0x0A (w06 w) h d.code a.code b.code 0 0
  | .sshr h w d a b => enc 0 0x0B (w06 w) h d.code a.code b.code 0 0
  | .ssra h w d a b => enc 0 0x0C (w06 w) h d.code a.code b.code 0 0
  | .scmp h v q p a b => enc 0 0x0D v.code h p.val a.code b.code 0 q.code
  | .ssel h w d a b c => enc 0 0x0E (w06 w) h d.code a.code b.code c.code 0
  | .smov h w d a => enc 0 0x0F (w06 w) h d.code a.code 0 0 0
  | .spopc h w d a => enc 0 0x10 (w06 w) h d.code a.code 0 0 0
  | .sclz h w d a => enc 0 0x11 (w06 w) h d.code a.code 0 0 0
  | .nop h => enc 0 0x1F 0 h 0 0 0 0 0
  | .br h p => encB 0x30 h p 0
  | .brx h a => enc 0 0x31 0 h 0 a.code 0 0 0
  | .call h p l => encB 0x32 h p l.code
  | .ret h l => enc 0 0x33 0 h 0 l.code 0 0 0
  | .loop h p k => encB 0x34 h p k.val
  | .exit h => enc 0 0x35 0 h 0 0 0 0 0
  | .yield h => enc 0 0x36 0 h 0 0 0 0 0
  | .liveWord sm vm => some { cls := 0, word := 0x3F * 2 ^ 56 + sm.toNat * 2 ^ 32 + vm.toNat, lit := none }
  | .srr h n w d => enc 11 0x00 0 h d.code 0 0 0 (srrNum n.val w)
  | .srrRfault h w d => enc 11 0x00 0 h d.code 0 0 0 (srrNum 0x30 w)
  | .srw h n w a => enc 11 0x01 0 h 0 a.code 0 0 (srrNum n.val w)
  | .srwFpstat h w a => enc 11 0x01 0 h 0 a.code 0 0 (srrNum 0x21 w)
  | .srwFpctl h w a => enc 11 0x01 0 h 0 a.code 0 0 (srrNum 0x20 w)
  | .srwPntimer h w a => enc 11 0x01 0 h 0 a.code 0 0 (srrNum 0x10 w)
  | .trap h n => enc 11 0x02 0 h 0 0 0 0 n.toNat
  | .trapretResume h => enc 11 0x03 0 h 0 0 0 0 0
  | .trapretSkip h => enc 11 0x03 0 h 0 0 0 0 1
  | .trapretReplace h a => enc 11 0x03 0 h 0 a.code 0 0 2
  | .trapretAbort h => enc 11 0x03 0 h 0 0 0 0 3
  | .iflush h l a b => enc 11 0x04 0 h 0 a.code b.code 0 l.code
  | .prioset h a => enc 11 0x05 0 h 0 a.code 0 0 0
  | .iadd h v s d a b => enc 1 0x00 v.code h d.code a.code b.code 0 (b2n s)
  | .isub h v s d a b => enc 1 0x01 v.code h d.code a.code b.code 0 (b2n s)
  | .imul h v s d a b => enc 1 0x02 v.code h d.code a.code b.code 0 (b2n s)
  | .imulh h v d a b => enc 1 0x03 v.code h d.code a.code b.code 0 0
  | .imad h v s d a b c => enc 1 0x04 v.code h d.code a.code b.code c.code (b2n s)
  | .imin h v d a b => enc 1 0x05 v.code h d.code a.code b.code 0 0
  | .imax h v d a b => enc 1 0x06 v.code h d.code a.code b.code 0 0
  | .iabs h v s d a => enc 1 0x07 v.code h d.code a.code 0 0 (b2n s)
  | .icmp h v q e p a b => enc 1 0x08 v.code h p.val a.code b.code 0 (q.code + e.val * 8)
  | .iand h w d a b => enc 1 0x09 (w06 w) h d.code a.code b.code 0 0
  | .ior h w d a b => enc 1 0x0A (w06 w) h d.code a.code b.code 0 0
  | .ixor h w d a b => enc 1 0x0B (w06 w) h d.code a.code b.code 0 0
  | .inot h w d a => enc 1 0x0C (w06 w) h d.code a.code 0 0 0
  | .ishl h w d a b => enc 1 0x0D (w06 w) h d.code a.code b.code 0 0
  | .ishr h w d a b => enc 1 0x0E (w06 w) h d.code a.code b.code 0 0
  | .isra h w d a b => enc 1 0x0F (w06 w) h d.code a.code b.code 0 0
  | .ipopc h w d a => enc 1 0x10 (w06 w) h d.code a.code 0 0 0
  | .iclz h w d a => enc 1 0x11 (w06 w) h d.code a.code 0 0 0
  | .ibfe h u d a b c => enc 1 0x12 (b2n u) h d.code a.code b.code c.code 0
  | .ibfi h d a b c => enc 1 0x13 0 h d.code a.code b.code c.code 0
  | .isel h w p d a b => enc 1 0x14 (w06 w) h d.code a.code b.code 0 p.val
  | .imov h w d a => enc 1 0x15 (w06 w) h d.code a.code 0 0 0
  | .pack h v s d a b => enc 1 0x16 v.code h d.code a.code b.code 0 (b2n s)
  | .unpk h v s d a => enc 1 0x17 v.code h d.code a.code 0 0 (b2n s)
  | .iaddsh h w n d a b => enc 1 0x18 (w06 w) h d.code a.code b.code 0 n.val
  | .xset h k a => enc 1 0x19 0 h k.val a.code 0 0 0
  | .xsetRd h d k => enc 1 0x19 0 h d.code k.val 0 0 1
  | .xadd h k j b => enc 1 0x1A 0 h k.val j.val b.code 0 0
  | .plog h o p q r => enc 1 0x1B 0 h p.val q.val r.val 0 o.code
  | .philox h d a b => enc 1 0x1C 0 h d.code a.code b.code 0 0
  | .fadd h e r d a b => enc 2 0x00 e.code h d.code a.code b.code 0 r.code
  | .fsub h e r d a b => enc 2 0x01 e.code h d.code a.code b.code 0 r.code
  | .fmul h e r d a b => enc 2 0x02 e.code h d.code a.code b.code 0 r.code
  | .ffma h e r d a b c => enc 2 0x03 e.code h d.code a.code b.code c.code r.code
  | .fmin h e d a b => enc 2 0x04 e.code h d.code a.code b.code 0 0
  | .fmax h e d a b => enc 2 0x05 e.code h d.code a.code b.code 0 0
  | .fabs h e d a => enc 2 0x06 e.code h d.code a.code 0 0 0
  | .fneg h e d a => enc 2 0x07 e.code h d.code a.code 0 0 0
  | .fcmp h e q k p a b => enc 2 0x08 e.code h p.val a.code b.code 0 (q.code * 16 + b2n k * 128)
  | .fdiv h r d a b => enc 2 0x09 0 h d.code a.code b.code 0 r.code
  | .fsqrt h r d a => enc 2 0x0A 0 h d.code a.code 0 0 r.code
  | .frcp h r d a => enc 2 0x0B 0 h d.code a.code 0 0 r.code
  | .frsq h r d a => enc 2 0x0C 0 h d.code a.code 0 0 r.code
  | .fexp2 h r d a => enc 2 0x0D 0 h d.code a.code 0 0 r.code
  | .flog2 h r d a => enc 2 0x0E 0 h d.code a.code 0 0 r.code
  | .fsin h r d a => enc 2 0x0F 0 h d.code a.code 0 0 r.code
  | .fcos h r d a => enc 2 0x10 0 h d.code a.code 0 0 r.code
  | .ftanh h r d a => enc 2 0x11 0 h d.code a.code 0 0 r.code
  | .fclass h e d a => enc 2 0x12 e.code h d.code a.code 0 0 0
  | .frnd h e r d a => enc 2 0x13 e.code h d.code a.code 0 0 r.code
  | .fcvt h dst src pos s r d a =>
      enc 2 0x20 dst.code h d.code a.code 0 0 (r.code + b2n s * 8 + src.code * 16 + pos.val * 256)
  | .nenc h e r d a b => enc 2 0x21 e.code h d.code a.code b.code 0 r.code
  | .ndec h e r d a b => enc 2 0x22 e.code h d.code a.code b.code 0 r.code
  | .vote h (.all p q) => enc 3 0x00 0 h p.val q.val 0 0 0
  | .vote h (.any p q) => enc 3 0x00 1 h p.val q.val 0 0 0
  | .vote h (.bal d q) => enc 3 0x00 2 h d.code q.val 0 0 0
  | .vote h (.eq p a) => enc 3 0x00 3 h p.val a.code 0 0 0
  | .shfl h o d a b => enc 3 0x01 o.code h d.code a.code b.code 0 0
  | .scani h e o r s d a => enc 3 0x02 e.code h d.code a.code 0 0 (o.code + r.code * 8 + b2n s * 64)
  | .scanx h e o r s d a => enc 3 0x03 e.code h d.code a.code 0 0 (o.code + r.code * 8 + b2n s * 64)
  | .lred h e o r s d a => enc 3 0x04 e.code h d.code a.code 0 0 (o.code + r.code * 8 + b2n s * 64)
  | .partset h a => enc 3 0x05 0 h 0 a.code 0 0 0
  | .partget h d => enc 3 0x06 0 h d.code 0 0 0 0
  | .ld h w m inv d a b => enc 4 0x00 w.code h d.code a.code b.code 0 (m.bits + b2n inv * 256)
  | .st h w m a b c => enc 4 0x01 w.code h 0 a.code b.code c.code m.bits
  | .atom h o m nr sg sz d a b c => enc 4 0x02 o.code h d.code a.code b.code c.code (atomBits m nr sg sz)
  | .ldmeta h m d a => enc 4 0x03 0 h d.code a.code 0 0 m.bits
  | .stmeta h m a c => enc 4 0x04 0 h 0 a.code 0 c.code m.bits
  | .flush h m a b => enc 4 0x05 0 h 0 a.code b.code 0 m.bits
  | .frame h d a => enc 4 0x06 0 h d.code a.code 0 0 0
  | .claim h m a b => enc 4 0x07 0 h 0 a.code b.code 0 m.bits
  | .migrate h a => enc 4 0x08 0 h 0 a.code 0 0 0
  | .sld h w m inv d a b => enc 4 0x10 w.code h d.code a.code b.code 0 (m.bits + b2n inv * 256)
  | .sst h w m a b c => enc 4 0x11 w.code h 0 a.code b.code c.code m.bits
  | .satom h o m nr sg sz d a b c => enc 4 0x12 o.code h d.code a.code b.code c.code (atomBits m nr sg sz)
  | .lds h w m n d a b => enc 5 0x00 w.code h d.code a.code b.code 0 (m.bits + n.val * 64)
  | .sts h w m n a b c => enc 5 0x01 w.code h 0 a.code b.code c.code (m.bits + n.val * 64)
  | .atoms h o m n nr sg sz d a b c => enc 5 0x02 o.code h d.code a.code b.code c.code (atomBits m nr sg sz + n.val * 64)
  | .bararr h n => enc 5 0x03 0 h 0 0 0 0 n.val
  | .barwait h n => enc 5 0x04 0 h 0 0 0 0 n.val
  | .barsync h n => enc 5 0x05 0 h 0 0 0 0 n.val
  | .barcfg h n e a => enc 5 0x06 0 h 0 a.code 0 0 (e.val * 16 + n.val)
  | .copyIn h m n be ch d a b c => enc 6 0x00 0 h d.code a.code b.code c.code (m.bits + n.val * 8 + b2n be * 4 + ch.val)
  | .copyOut h m n be ch d a b c => enc 6 0x00 1 h d.code a.code b.code c.code (m.bits + n.val * 8 + b2n be * 4 + ch.val)
  | .acopy h m a b => enc 6 0x01 0 h 0 a.code b.code 0 m.bits
  | .spush h m q d a b => enc 6 0x02 0 h d.code a.code b.code 0 (m.bits + q.val)
  | .spop h q a => enc 6 0x03 0 h 0 a.code 0 0 q.val
  | .qcfg h q a b => enc 6 0x04 0 h 0 a.code b.code 0 q.val
  | .wprd h m s n d => enc 6 0x05 0 h d.code 0 0 0 (m.bits + b2n s * 4 + n.val)
  | .launch h l a => enc 7 0x00 0 h 0 a.code 0 0 (l.code * 2048)
  | .launchGang h l a => enc 7 0x00 1 h 0 a.code 0 0 (l.code * 2048)
  | .join h l => enc 7 0x01 0 h 0 0 0 0 (l.code * 2048)
  | .bar h l => enc 7 0x02 0 h 0 0 0 0 (l.code * 2048)
  | .mcopyDown h m n be k d a b c => enc 7 0x03 0 h d.code a.code b.code c.code (m.bits + n.val * 16 + b2n be * 8 + k.val)
  | .mcopyUp h m n be k d a b c => enc 7 0x03 1 h d.code a.code b.code c.code (m.bits + n.val * 16 + b2n be * 8 + k.val)
  | .reduce h m t o d a b c => enc 7 0x04 t.code h d.code a.code b.code c.code (m.bits + o.code)
  | .fence h l acq rel mx cp =>
      enc 7 0x05 0 h 0 0 0 0 (l.code * 2048 + b2n acq * 1024 + b2n rel * 512 + b2n mx + b2n cp * 2)
  | .spawn h a b => enc 7 0x06 0 h 0 a.code b.code 0 0
  | .fetchw h s a => enc 7 0x07 0 h 0 a.code 0 0 (s.code * 2 ^ 14)
  | .mma h v l acq as bs ka kb r cv t a b =>
      enc 8 0x00 v.code h t.val a.code b.code (cvCode cv)
        (l.code * 2048 + b2n acq * 1024 + as.code * 128 + bs.code * 32 + b2n ka * 16 + b2n kb * 8 + r.code)
  | .latch h s l acq src a => enc 8 0x01 (b2n s) h 0 a.code 0 0 (l.code * 2048 + b2n acq * 1024 + src.code * 128)
  | .unlatch h s => enc 8 0x02 (b2n s) h 0 0 0 0 0
  | .accz h t => enc 8 0x03 0 h t.val 0 0 0 0
  | .accrd h e r d t => enc 8 0x04 0 h d.code t.val 0 0 (e.code + r.code * 16)
  | .accwr h t a => enc 8 0x05 0 h t.val a.code 0 0 0
  | .accst h m a t => enc 8 0x06 0 h 0 a.code t.val 0 m.bits
  | .accld h l acq t a => enc 8 0x07 0 h t.val a.code 0 0 (l.code * 2048 + b2n acq * 1024)
  | .accmov h tr d a => enc 8 0x08 0 h d.val a.val 0 0 (b2n tr)
  | .specBegin h p a => enc 8 0x09 0 h 0 a.code 0 0 (b2n p)
  | .specResolve h p => enc 8 0x09 1 h p.val 0 0 0 0
  | .treemask h ap t a b => enc 8 0x0A 0 h t.val a.code b.code 0 (b2n ap)
  | .kvcommit h m d a b => enc 8 0x0B 0 h d.code a.code b.code 0 m.bits
  | .grant h l o n d a b => enc 9 0x00 0 h d.code a.code b.code 0 (l.code * 2048 + b2n o * 256 + n.val * 32)
  | .revoke h n a => enc 9 0x01 0 h 0 a.code 0 0 (n.val * 32)
  | .expect h n a => enc 9 0x02 0 h 0 a.code 0 0 (n.val * 32)
  | .rsend h s rel i a b => enc 9 0x03 0 h 0 a.code b.code 0 (s.code * 2 ^ 14 + b2n rel * 512 + i.val)
  | .rsendv h s rel i a b => enc 9 0x04 0 h 0 a.code b.code 0 (s.code * 2 ^ 14 + b2n rel * 512 + i.val)
  | .rfence h => enc 9 0x05 0 h 0 0 0 0 0
  | .rget h n d a => enc 9 0x06 0 h d.code a.code 0 0 (n.val * 32)
  | .rgetTk h n d a => enc 9 0x06 1 h d.code a.code 0 0 (n.val * 32)
  | .skinit h s k q a b => enc 10 0x00 k.code h 0 a.code b.code 0 (s.code * 2 ^ 14 + q.code)
  | .skins h s k w a b c => enc 10 0x01 k.code h 0 a.code b.code c.code (s.code * 2 ^ 14 + b2n w)
  | .skmrg h s k a b => enc 10 0x02 k.code h 0 a.code b.code 0 (s.code * 2 ^ 14)
  | .skquant h s d a b => enc 10 0x03 0 h d.code a.code b.code 0 (s.code * 2 ^ 14)
  | .skrank h s d a b => enc 10 0x04 0 h d.code a.code b.code 0 (s.code * 2 ^ 14)
  | .sktop h s d a b => enc 10 0x05 1 h d.code a.code b.code 0 (s.code * 2 ^ 14)
  | .skpoint h s d a b => enc 10 0x06 1 h d.code a.code b.code 0 (s.code * 2 ^ 14)
  | .skest h s d a => enc 10 0x07 2 h d.code a.code 0 0 (s.code * 2 ^ 14)
  | _ => none

/-! ## The host's table words

The table gives no bits, so a word may come bare or as a clause. A first word of kind 0b10 is read as a clause header
(R245) and the instruction is the word after it, with its literal; otherwise the first word is read as an instruction of
class 0. -/

/-- The 64-bit words of a little-endian layout (R8), from the first, `n` of them. -/
def tableWords (n w : Nat) : List Nat := (List.range n).map (fun k => w / 2 ^ (64 * k) % 2 ^ 64)

/-- The header class, the SAFE bit and the words of a clause laid out as a table word. -/
def tableClause (w : Nat) : Nat × Bool × List Nat :=
  match decodeHeader (w % 2 ^ 64) with
  | .ok h => (h.cls, h.safe, (tableWords (h.wcnt + 2) w).drop 1)
  | .error _ => (0, isLiveWord (w % 2 ^ 64),
      if w / 2 ^ 62 % 4 == 1 then tableWords 2 w else tableWords 1 w)

/-- The instruction that the decoder reads from a table word. -/
def decodeTableWord (nbits w : Nat) : Option Instr :=
  if nbits = 0 then none
  else
    let c := tableClause w
    match decodeAt c.1 c.2.1 c.2.2 0 with
    | .ok (i, _) => some i
    | .error _ => none

end Sys2Proof
end

