-- ==== Sys2Proof/Machine/State.lean ====
section
/-! DEFINITION. The state of a pod of JD-6800 packages as plain data: every register, memory, table, queue and piece of
work in progress that the spec names. INVENTORY.md lists each field with its rule and its reset value. A table is a list
of key and value pairs with rising keys. Fields marked MODEL are the model's own bookkeeping. -/

namespace Sys2Proof.Machine

/-- A table: key and value pairs with rising keys. -/
abbrev Tab (α : Type) := List (Nat × α)

/-! ## Threads: waves and frames -/

/-- One frontier entry (spec/03 R51): PC, block priority, lane mask, pass count. The priority is absent from the moment the PC
moves to a clause until the header there has been read (R50) (DEDUCED, log 19). -/
structure FEntry where
  pc : Nat
  prio : Option Nat
  lanes : Lanes
  pass : Nat
  deriving DecidableEq, Repr

/-- A clause in progress (spec/16 R246, R247; spec/03 R72): the VA of its header, the header, its words, the position of
the next word and the active lanes of the chosen frontier entry. After a save or a move the words are fetched again (R260). -/
structure Clause where
  pc : Nat
  hdr : Header
  words : List Nat
  pos : Nat
  lanes : Lanes
  refetch : Bool := false
  deriving DecidableEq, Repr

/-- Why a thread does not issue its next word. Each is the wait of a rule of the spec; the word is tried again when the
awaited condition holds (DESIGN CHOICE, log 57). -/
inductive Wait where
  /-- R72: an arrival bit that the word reads is clear. -/
  | arrival
  /-- R72: suspended, with bits that have since arrived; the slot may resume the clause. -/
  | resume
  /-- R105: the flag stands at 63. -/
  | flagFull
  /-- R32: children of the frame not yet retired. -/
  | join
  /-- R34: arrived at a level barrier, level code and generation. -/
  | bar (lvl gen : Nat)
  /-- R352: arrived at crew barrier `b` in phase number `ph`. -/
  | crewBar (b ph : Nat)
  /-- R352: BARARR, BARSYNC or BARCFG before its own effect. -/
  | crewBarBusy
  /-- R108: parked at FRAME with the requested offset. -/
  | park (n : Nat)
  /-- R65, R380: a SPAWN with the lanes still to place. -/
  | spawn (left : Lanes)
  /-- R381: an open request on the same mailbox. -/
  | fetchw
  /-- R425: sends not yet acknowledged. -/
  | rfence
  /-- R134, R361: the accesses before a release, or after a fence, are not yet performed. -/
  | order
  /-- R393: the convergence register belongs to another wave. -/
  | cv
  /-- R393: UNLATCH of a latch that a partly signed step names. -/
  | latch
  /-- R358: SPOP of `n` bytes before they are in stream `q`, with the order in which it reached the stream. -/
  | spop (q n came : Nat)
  /-- R356: QCFG before earlier SPUSHes have completed. -/
  | qcfg
  /-- R368: eight crews already wait on the core. -/
  | launch
  /-- R214: TRAPRET before the operations of trap mode have counted. -/
  | trapret
  /-- R410: earlier summary instructions, or the wave's own accesses to the object, are pending. -/
  | summary
  deriving DecidableEq, Repr

/-- The phase of a frame (spec/01 R23); a wave is always `active`. `onBehalf` is a frame withdrawn by FETCHW (R70), with the
requesting wave and the mailbox. -/
inductive Phase where
  | held
  | pending
  | active
  | draining
  | onBehalf (wave : Nat) (mailbox : Nat)
  deriving DecidableEq, Repr

/-- Trap classes (spec/13 R206). -/
inductive TrapClass where | decode | level | operand | access | error | overwrite | growth | software
  deriving DecidableEq, Repr

/-- One destination word of a trapped access (spec/13 R214): register code, lane. -/
structure DestWord where
  reg : Nat
  lane : Nat
  deriving DecidableEq, Repr

/-- The trap record of R212, in its own fields, with the destination words that REPLACE of an ERROR trap writes. -/
structure TrapRec where
  cls : TrapClass
  opidx : Nat
  kinds : Nat
  kind : Nat
  mask : Lanes
  pc : Nat
  addr : W64
  synd : W64
  word : W64
  faddr : W64
  time : Nat
  dests : List (List DestWord)
  /-- met while fetching a clause (R260). -/
  fetch : Bool := false
  /-- the destination is a 64-bit value (R303). -/
  wide : Bool := false
  deriving DecidableEq, Repr

/-- A pending asynchronous trap (spec/13 R209), ERROR or OVERWRITE. -/
structure PendTrap where
  trap : TrapRec
  deriving DecidableEq, Repr

/-- The lanes that a TRAPRET.REPLACE excluded from the re-executed word and their replacement words, keyed by
32 × word + lane (spec/13 R214). -/
structure Repl where
  mask : Lanes
  words : Tab W32
  deriving DecidableEq, Repr

/-- The control state that R211 freezes: frontier and clause in progress, and per flag the operations issued in trap mode
that have not counted (R214). `atHeader` is set when no clause was in progress. -/
structure Frozen where
  front : List FEntry
  clause : Option Clause
  entryPc : Nat
  deriving DecidableEq, Repr

/-- A register file (spec/16 R258). Absent entries hold the creation values: zero, arrival bits set, open bits clear. -/
structure Regs where
  /-- s0 to s47. -/
  s : Tab W32
  /-- vector registers, keyed by 32 × register + lane. -/
  v : Tab W32
  /-- p0 to p6; p7 is hard-wired (R259). -/
  p : Tab Lanes
  /-- index registers, keyed by 32 × register + lane. -/
  x : Tab (BitVec 16)
  /-- completion flags (R105). -/
  f : Tab Nat
  /-- PART (R53). -/
  part : W32
  /-- the lanes of each vector register whose arrival bit is clear (R194). -/
  clear : Tab Lanes
  /-- open bits of the vector registers, one bit a register (R194). -/
  openBits : Nat
  /-- what holds an uncorrectable error (R206): words of vector registers, keyed as `v`, and s registers. -/
  badV : List Nat := []
  badS : List Nat := []
  deriving DecidableEq, Repr

/-- The special registers that a thread holds (spec/18 R297, R298). -/
structure SRegs where
  fpctl : W32
  fpstat : W32
  srkey0 : W32
  srkey1 : W32
  srctr0 : W32
  srctr1 : W32
  rfault : W32
  rfsrc : W32
  rsstat : W32
  sp : Nat
  tblk : W32
  prio : Nat
  deriving DecidableEq, Repr

/-- The speculation window of a wave (spec/22 R401, R404). -/
structure Spec where
  isOpen : Bool
  pred : Bool
  reg : Nat
  deriving DecidableEq, Repr

/-- A translation held by a TLB entry or a last-page register (spec/05 R97, R98): the VA range, the fabric address of its
first byte, the attributes and the expiry time. -/
structure TlbEntry where
  ctx : Nat
  base : Nat
  limit : Nat
  faddr : Nat
  attr : Nat
  expiry : Nat
  deriving DecidableEq, Repr

/-- A release's mark on a write that is still to be performed (spec/06 R123, R134): the unit at whose level it was made, its order
stamp, and whether every agent of the unit finds the write performed (a full fence, R124) or an agent that has synchronised with it. -/
structure Mark where
  unit : UnitId
  stamp : Nat
  all : Bool
  deriving DecidableEq, Repr

/-- What synchronises with a release (spec/06 R122, R135): a read of the bytes it wrote, the acquire of a primitive, flag or crew
barrier, or the consumption of a send. -/
inductive RelTo where
  | bytes (l : List (Nat × Nat))
  | direct
  | send
  deriving DecidableEq, Repr

/-- A release that has passed writes not yet performed (spec/06 R121, R123): its stamp, the unit of its scope, the scope units of the
agent that made it, and what synchronises with it. -/
structure Release where
  stamp : Nat
  unit : UnitId
  froms : List UnitId
  via : RelTo
  deriving DecidableEq, Repr

/-- An earlier FENCE (spec/06 R124, R125): the identifier that later operations exceed, its form (0 full, 1 release, 2 acquire,
with the path bits above) and the issuer's scope unit at its level. -/
structure FenceRec where
  id : Nat
  form : Nat
  scope : UnitId
  deriving DecidableEq, Repr

/-- A wave (level LG) or a frame. -/
structure Thread where
  uid : Nat
  ctx : Nat
  level : Level
  tree : Nat
  /-- the frame that launched it (R21). -/
  parent : Option Nat
  /-- identifier of the LAUNCH that created it (R367). -/
  launch : Nat
  /-- sr.tile, sr.ntiles (R298). -/
  tile : Nat
  ntiles : Nat
  /-- VA of the launch descriptor (R69). -/
  desc : Nat
  /-- where it runs now: a core, or the unit of a sequencer. -/
  unit : UnitId
  /-- residence slot of a wave, 0 to 51 (R54). -/
  slot : Nat
  /-- sr.waveid, sr.wavegen (R54). -/
  waveid : W32
  wavegen : W32
  /-- crew identifier and wave number within the crew (R57). -/
  crew : Nat
  wnum : Nat
  /-- sr.role (R62). -/
  role : Nat
  /-- created from a punnet (R66). -/
  spawned : Bool
  /-- vector allocation (R55). -/
  alloc : Nat
  /-- age stamp (R71, R73): MODEL numbering of creation, arrival or activation. -/
  age : Nat
  phase : Phase
  regs : Regs
  sr : SRegs
  front : List FEntry
  clause : Option Clause
  wait : Option Wait
  /-- trap mode (R210, R211, R215). -/
  tm : Bool
  halted : Bool
  /-- PC of the instruction whose trap halted it (R76). -/
  haltPc : Nat
  bank : Tab W32
  record : Option TrapRec
  frozen : Option Frozen
  tmCounts : Tab Nat
  pend : List PendTrap
  repl : Option Repl
  /-- barrier generations and reduce sequence numbers by level code (R34, R41). -/
  barGen : Tab Nat
  redSeq : Tab Nat
  /-- pending bits of b0 to b15 with the phase number of the arrival (R352). -/
  pbar : Tab Nat
  spec : Spec
  /-- last-page registers, by lane (R97). -/
  lastPage : Tab TlbEntry
  /-- promoted by R71 or R73 after 4,096 eligible cycles. -/
  promoted : Bool
  /-- passed over at the next choice (R249, R296). -/
  yielded : Bool
  /-- the fences that still order the thread's later accesses (R124). -/
  fences : List FenceRec
  /-- the wave is saved: it is out of its core (R75). -/
  saved : Bool
  /-- aborted (R49): it counts as retired for barriers and reduces. -/
  aborted : Bool
  /-- consecutive eligible cycles at its slot or sequencer since it was last chosen (R71, R73). -/
  eligible : Nat
  /-- MIGRATE at the end of its clause: target package and berth (R80, R351). -/
  mig : Option (Nat × Nat)
  /-- on its way: the core and slot kept for it at the target (R80, R205). -/
  going : Option (Nat × Nat) := none
  /-- scope of the last acquire fence with the matrix path bit, and with the copy path bit: every later command of the path acts
  as if it carried the acquire modifier (R125). -/
  acqMx : Option Level := none
  acqCp : Option Level := none
  /-- the least value that the reference timer may read for this agent (R300). -/
  rtFloor : Nat := 0
  /-- words issued since the drain of its context began (R79). -/
  drained : Nat
  /-- the releases that it has synchronised with, by stamp, and the identifier that its later accesses exceed (spec/06 R122, R123). -/
  acqd : List (Nat × Nat) := []
  /-- the releases whose values its plain loads have read: a later acquire fence synchronises with them (R124). -/
  readRels : List Nat := []
  /-- values that released sends have delivered and that no RGET.TK has consumed: register, lanes, scope and release (R135). -/
  relArr : List (Nat × Lanes × Level × Nat) := []
  deriving DecidableEq, Repr

/-! ## Crews -/

/-- A crew barrier (spec/03 R58). `phase` counts completions; the 1-bit phase is its parity (DESIGN CHOICE, log 9). -/
structure CrewBar where
  members : Nat
  arrived : Nat
  e : Nat
  count : Nat
  heldEngine : Nat
  phase : Nat
  deriving DecidableEq, Repr

/-- A checked scratchpad descriptor (spec/22 R389, R390): fabric address and VA of row 0, and the stride. -/
structure RowDesc where
  addr : Nat
  va : Nat
  stride : Nat
  deriving DecidableEq, Repr

/-- An operand of a matrix step or a latch record (spec/22 R388, R397): the 16 words of granule `r` under keys 16r to
16r + 15, the headers by row, the presence mask and the valid bit. -/
structure Frag where
  data : Tab W32
  hdr : Tab (BitVec 16)
  present : Lanes
  valid : Bool
  deriving DecidableEq, Repr

/-- A convergence register (spec/03 R59; spec/22 R393), with the word that took it and its operands so far. -/
structure Cv where
  expected : Lanes
  /-- wave number within the crew. -/
  owner : Nat
  signed : Lanes
  word : W64
  lit : Option Nat
  a : Frag
  b : Frag
  descA : Option RowDesc
  descB : Option RowDesc
  rm : Nat
  /-- the signing began in an open window: the step is speculative (R402). -/
  spec : Bool
  pc : Nat
  opidx : Nat
  deriving DecidableEq, Repr

/-- A stream (spec/20 R356). -/
structure Stream where
  base : Nat
  cap : Nat
  wp : Nat
  rp : Nat
  rs : Nat
  deriving DecidableEq, Repr

/-- One role of a gang block (spec/03 R61). -/
structure RoleDesc where
  waves : Nat
  vregs : Nat
  pc : Nat
  deriving DecidableEq, Repr

/-- A crew (spec/03 R57), waiting or started. -/
structure Crew where
  id : Nat
  core : Nat
  pkg : Nat
  num : Nat
  ctx : Nat
  tree : Nat
  parent : Nat
  launch : Nat
  order : Nat
  started : Bool
  arg : W64
  /-- loader, computer, storer, or one role for a crew without a gang block. -/
  roles : List RoleDesc
  gang : Bool
  spadReq : Nat
  base : Nat
  size : Nat
  acc : Nat
  nbar : Nat
  ncv : Nat
  nq : Nat
  /-- wave numbers that have been created, and those live. -/
  count : Nat
  live : Nat
  bars : Tab CrewBar
  cvs : Tab Cv
  streams : Tab Stream
  /-- copy-channel write pointers (R111). -/
  chans : Tab Nat
  /-- tiles, keyed by 1024 × tile + 32 × row + column; shadows alike (R385, R402). -/
  tiles : Tab W32
  shadows : Tab W32
  /-- rows of the banks that hold an uncorrectable error: 32 × tile + row, shadows at tile + 16 (R396). -/
  badRows : List Nat
  latchA : Frag
  latchB : Frag
  /-- uid of the wave whose window holds each shadow (R402). -/
  shadowOwner : Tab Nat
  /-- saved: the crew holds nothing on its core (R75). -/
  out : Bool
  deriving DecidableEq, Repr

/-- A launch tree (spec/01 R21, R22). -/
structure Tree where
  id : Nat
  rootLevel : Level
  unit : UnitId
  ctx : Nat
  cls : Nat
  failed : Bool
  aborted : Bool
  queue : Nat
  cmd : Nat
  root : Nat
  /-- how many units of a level have retired under an ancestor, by 8 × ancestor + level code (R43). -/
  gone : Tab Nat
  /-- the current generation of each barrier instance, by 64 × ancestor + 8 × L + level code (R33, R34). -/
  bars : Tab Nat := []
  deriving DecidableEq, Repr

/-- States of a punnet (spec/03 R65). -/
inductive PState where | empty | filling | ready
  deriving DecidableEq, Repr

/-- A punnet (spec/03 R64, R65). -/
structure Punnet where
  state : PState
  crew : Nat
  pc : Nat
  recs : List (List W32)
  /-- cycle count of the berth at which the timer reaches its period. -/
  deadline : Nat
  alloc : Nat
  deriving DecidableEq, Repr

/-! ## Memory path and engines -/

/-- Whose virtual addresses an access uses (spec/05 R85, R86): the context, the package whose page table translates, and for
the fixed windows the thread, its crew, and the core, cluster and berth on package `wpkg` that its ancestors name. -/
structure Agent where
  ctx : Nat
  pkg : Nat
  uid : Nat
  crew : Option Nat
  wpkg : Nat
  core : Option Nat
  clu : Option Nat
  die : Option Nat
  deriving DecidableEq, Repr

/-- One contiguous part of a lane's access within one 128-byte block: the lane, its offset in the access, the fabric
address and the length. -/
structure Piece where
  lane : Nat
  off : Nat
  addr : Nat
  len : Nat
  /-- the line-buffer key of a cacheable page (R106), if any. -/
  line : Option Nat
  /-- attributes of the page (R93). -/
  attr : Nat
  deriving DecidableEq, Repr

/-- One memory request (spec/05 R104, R109) with the expiry of its translation (R98). `half` holds the writes still to be made
of an atomic that has read and not yet written (spec/06 R129). -/
structure MemReq where
  id : Nat
  pieces : List Piece
  expiry : Nat
  done : Bool
  half : Option (List (Nat × List Byte)) := none
  deriving DecidableEq, Repr

/-- What a memory operation does. Lane data are keyed by 16 × lane + byte. -/
inductive MemWhat where
  /-- load of width `n` bytes: first destination register code per lane, sign extension. -/
  | load (n : Nat) (sext : Bool) (dest : Tab Nat)
  | store (n : Nat) (data : Tab Byte)
  /-- atomic of width `n`: operation, signed order, operands b and c per lane, destination unless NR. -/
  | atom (n : Nat) (op : AtOp) (sgn : Bool) (b c : Tab Nat) (dest : Tab Nat)
  /-- metadata load: first destination register code per lane. -/
  | ldmeta (dest : Tab Nat)
  | stmeta (data : Tab Nat)
  /-- ACOPY: destination fabric address per lane. -/
  | acopy (dst : Tab Nat)
  deriving DecidableEq, Repr

/-- A memory operation and the order that it takes part in (spec/06 R116, R120, R124, R134). -/
structure MemOp where
  id : Nat
  uid : Nat
  what : MemWhat
  reqs : List MemReq
  /-- bytes landed, keyed by 16 × lane + byte. -/
  buf : Tab Byte
  flag : Option Nat
  tm : Bool
  acq : Bool
  rel : Bool
  /-- the issuer's scope unit at the level that the word names (R115), and those of the acquires that this load performs: its own
  and those of later acquire fences (R124). -/
  scope : UnitId
  /-- with each, the identifier that the accesses it orders exceed. -/
  acqs : List (UnitId × Nat) := []
  /-- the releases that have passed these writes while they were still to be performed (R123, R134). -/
  seen : List Mark := []
  /-- one access for the wave, and not one of each lane (R341). -/
  single : Bool := false
  /-- a load with the invariant modifier (R130, R343). -/
  inv : Bool := false
  ag : Agent
  /-- VA of each lane's access, the instruction word and its PC, for an ERROR record (R213). -/
  vas : Tab Nat
  pc : Nat
  word : Nat
  opidx : Nat
  /-- lanes and granules that met an uncorrectable granule (R216). -/
  errLanes : Lanes
  errGran : List Nat
  /-- protection grade of the page of the first of these granules. -/
  grade : Nat
  /-- destination words written with zero for an error: register code, lane (R214). -/
  errDests : List DestWord
  deriving DecidableEq, Repr

/-- One end of a copy: a virtual address of an agent, raw physical memory, the register tile of a wave, or the scratchpad of
a chosen core at an offset, for a context (R373). -/
inductive End where
  | va (ag : Agent) (addr : Nat)
  | phys (addr : Nat)
  /-- a fabric address of a PHYS WRITE, with its queue's world (R229). -/
  | fabric (world : Bool) (addr : Nat)
  | regs (uid : Nat) (reg : Nat)
  | spad (pkg core off ctx : Nat)
  deriving DecidableEq, Repr

/-- One leg of a copy command: source, destination, bytes, bytes done, the rank that a failure reports, and the wave whose
flag falls with it (R373). `ahead` holds the offsets of the 16-byte units above `done` that are done too (R128). -/
structure Leg where
  src : End
  dst : End
  size : Nat
  done : Nat
  rank : Nat
  wave : Option Nat
  ahead : List Nat := []
  deriving DecidableEq, Repr

/-- Kinds of engine commands (spec/06 R126). -/
inductive CmdKind where
  | copyIn (ch : Nat)
  | copyOut
  | copySeq
  | spush (q : Nat) (admitted : Bool) (base : Nat)
  | mcopy (level : Level) (up : Bool)
  | kvcommit
  | queueCopy
  | queueWrite (data : List Byte)
  | accst (d : RowDesc) (data : Option (Tab W32))
  /-- CLAIM: the range, the target berth, and the reference time at which the old mapping is retired, once rewritten. -/
  | claim (addr size : Nat) (pkg berth : Nat) (retire : Nat)
  deriving DecidableEq, Repr

/-- Who issued an engine command: a thread, or a command of a queue. -/
inductive Owner where
  | thread (uid : Nat)
  | queue (pkg queue cmd : Nat)
  deriving DecidableEq, Repr

/-- An engine command in progress. -/
structure Cmd where
  id : Nat
  owner : Owner
  ctx : Nat
  pkg : Nat
  ag : Agent
  kind : CmdKind
  legs : List Leg
  flag : Option Nat
  tm : Bool
  acq : Bool
  rel : Bool
  /-- the issuer's scope unit at the level that the word names (R115, R126). -/
  scope : UnitId := { level := .pod, pkg := 0, idx := 0 }
  status : Option Nat
  /-- crew barrier named by the command (R58, R373). -/
  bar : Option Nat
  noarr : Bool
  statCode : Nat
  kindCode : Nat
  memCode : Nat
  pc : Nat
  word : Nat
  opidx : Nat
  /-- waiting for RETRY after UNMAPPED or TABLE (R107). -/
  faulted : Bool
  /-- CLAIM: step 5 done (R350). -/
  committed : Bool
  /-- MCOPY.DOWN at CLU: the crews at whose barrier it will arrive (R373). -/
  arrive : List Nat
  deriving DecidableEq, Repr

/-- One contribution of a reduce instance (spec/01 R41, spec/21 R376). -/
structure Contrib where
  id : Nat
  uid : Nat
  ag : Agent
  addr : Nat
  flag : Nat
  tm : Bool
  status : Nat
  acq : Bool
  ty : RedTy
  op : RedOp
  count : Nat
  dst : Nat
  arrived : Bool
  faulted : Bool
  /-- the flag is held for the save (R382). -/
  saved : Bool
  deriving DecidableEq, Repr

/-- A reduce instance (spec/01 R41, spec/21 R377). -/
structure Red where
  id : Nat
  tree : Nat
  ctx : Nat
  pkg : Nat
  anc : Nat
  level : Level
  issuerLevel : Level
  seq : Nat
  contribs : List Contrib
  first : Option Contrib
  /-- accumulated elements in wire format (R242) or summary bytes; empty when the destination could not be read. -/
  acc : List Nat
  status : Nat
  writeFaulted : Bool
  /-- complete; its saved contributors have not yet had the status (R382). -/
  fin : Bool
  deriving DecidableEq, Repr

/-- An operation of an MX slice (spec/22 R386). -/
inductive SliceWhat where
  | mma (v : MmaV) (t : Nat) (a b : Frag) (klen rm : Nat) (keepA keepB : Bool) (key ctr : Nat)
  | latch (b : Bool) (f : Frag)
  | unlatch (b : Bool)
  | accz (t : Nat)
  | accwr (t : Nat) (data : Tab W32)
  | accmov (d s : Nat) (tr : Bool)
  | accrd (t : Nat) (e : EF) (rm : Nat) (reg : Nat) (key ctr : Nat)
  | accst (t : Nat) (cmd : Nat)
  | accld (t : Nat) (d : RowDesc)
  | treemask (t : Nat) (ap : Bool) (ancestors : Tab Lanes) (val : W32)
  | resolve (commit : Bool)
  deriving DecidableEq, Repr

/-- A queued slice operation: the wave, its crew, the descriptors whose data it still reads, whether its write is
speculative, and whether it issued under the wave's open window (R402); `part` is P of the step or the lanes that take
part. -/
structure SliceOp where
  id : Nat
  uid : Nat
  crew : Nat
  what : SliceWhat
  descA : Option RowDesc
  descB : Option RowDesc
  spec : Bool
  window : Bool
  /-- its reads make an acquire (R126, R395). -/
  acq : Bool := false
  pc : Nat
  word : Nat
  opidx : Nat
  part : Lanes
  deriving DecidableEq, Repr

/-- ACCRD results on their way to the register file (spec/22 R399). -/
structure Landing where
  id : Nat
  uid : Nat
  regs : Tab W32
  rows : Lanes
  first : Nat
  count : Nat
  flags : Nat
  /-- the ERROR trap of rows that could not be read, which is pending from the landing on (R396). -/
  err : Option TrapRec := none
  deriving DecidableEq, Repr

/-- A register send in flight (spec/11 R197 to R204). -/
structure Send where
  id : Nat
  sender : Nat
  senderPkg : Nat
  flag : Nat
  tm : Bool
  ctx : Nat
  cap : List W32
  idx : Nat
  lanes : Lanes
  vals : Tab W32
  senderId : Nat
  rel : Bool
  /-- the sender lies inside the target's scope unit (R200). -/
  inScope : Bool
  /-- none while in transit, the status code once answered (R204). -/
  status : Option Nat
  deriving DecidableEq, Repr

/-- A summary instruction in its unit (spec/10 R186, spec/23 R411). -/
inductive SumWhat where
  | init (k : SKind) (seed : W64) (coin : Coin)
  | insQ (vals : List W32)
  | insH (keys weights : List W32)
  | insD (keys : List W64)
  | merge (k : SKind) (b : Nat)
  | quant (reg : Tab Nat) (q : Tab W32)
  | rank (reg : Tab Nat) (v : Tab W32)
  | top (reg : Nat) (base : Nat) (lanes : Lanes)
  | point (reg : Tab Nat) (keys : Tab W32)
  | est (reg : Tab Nat)
  deriving DecidableEq, Repr

structure SumOp where
  id : Nat
  uid : Nat
  ctx : Nat
  core : Nat
  addr : Nat
  va : Nat
  what : SumWhat
  /-- QSKs that the unit read and checked while the word held its slot (R410): address and bytes, with their uncorrectable
  granules. -/
  read : Tab (List Byte) := []
  badRead : List Nat := []
  flag : Nat
  tm : Bool
  pc : Nat
  word : Nat
  opidx : Nat
  part : Lanes
  deriving DecidableEq, Repr

/-- A fetch-work request (spec/03 R68, R69). -/
structure Fetch where
  id : Nat
  /-- what the distributor has withdrawn: a frame, or nothing. -/
  chosen : Option (Option Nat) := none
  uid : Nat
  pkg : Nat
  tree : Nat
  core : Nat
  crew : Nat
  mailbox : Nat
  flag : Nat
  tm : Bool
  deriving DecidableEq, Repr

/-! ## Front end -/

/-- A live context on a package (spec/05 R96, spec/13 R210, spec/14 R233). -/
structure Ctx where
  root : Nat
  privBase : Nat
  pstride : Nat
  hwm : Nat
  lease : Nat
  world : Bool
  handler : Nat
  aborting : Option Nat
  tagRefusals : Nat
  deriving DecidableEq, Repr

/-- A command packet as taken or held (spec/14 R224, R225). -/
structure Packet where
  seq : Nat
  bytes : List Byte
  port : Nat
  session : Nat
  deriving DecidableEq, Repr

/-- A command in a queue, with its state: begun; ended (its record is sent). -/
structure QCmd where
  id : Nat
  seq : Nat
  bytes : List Byte
  begun : Bool
  /-- its row has acted. -/
  started : Bool
  faulted : Bool
  deriving DecidableEq, Repr

/-- A queue (spec/14 R226). -/
structure Queue where
  ctx : Option Nat
  cls : Nat
  driver : Bool
  expect : Nat
  held : List Packet
  cmds : List QCmd
  port : Nat
  destroying : Option Nat
  deriving DecidableEq, Repr

/-- A report of the front end (spec/14 R234, R235, spec/30 R443). -/
inductive Report where
  | completion (status queue detail : Nat) (seq cookie : Nat) (time : Nat)
  | event (code ctx detail arg0 arg1 time : Nat)
  | capability (bytes : List Byte)
  deriving DecidableEq, Repr

/-- One Ethernet port of a package (spec/30 R430 to R433, R436). -/
structure Port where
  up : Bool
  session : Option Nat
  /-- how many COMMAND datagrams of the session it took, and REPORT datagrams it sent; PSNs count modulo 2^32. -/
  lastTaken : Nat
  lastSent : Nat
  /-- REPORT datagrams not yet acknowledged: number, time last sent, report. -/
  unacked : List (Nat × Nat × Report)
  waiting : List Report
  /-- datagrams sent on the wire, oldest first. -/
  sent : List (List Byte)
  /-- stage of the SPDM exchange. -/
  spdm : Nat
  deriving DecidableEq, Repr

/-- Boot stage of a package (spec/30 R434). -/
inductive Boot where | off | failed | up | ready
  deriving DecidableEq, Repr

/-- Where the parts of a saved wave lie in its image (spec/13 R223): its record, its frontier entries and, of these, the
handler's, its saved registers, and its held REDUCEs by instance, flag and trap mode. -/
structure ImageWave where
  uid : Nat
  off : Nat
  front : Nat
  own : Nat
  regs : List Nat
  reds : Nat
  deriving DecidableEq, Repr

/-- Where the parts of a saved crew lie in its image (spec/13 R221, R222): its record, and its punnet records, scratchpad region
and accumulator allocation, with the tiles whose shadows follow. -/
structure ImageCrew where
  crew : Nat
  off : Nat
  punnets : List Nat
  punnetOff : Nat
  regionOff : Nat
  accOff : Nat
  shadows : List Nat
  deriving DecidableEq, Repr

/-- The image of one context on one core (spec/13 R221 to R223): its place, and where its parts lie. What the layout of the
image does not hold stays in the tables of the machine, marked as saved. -/
structure Image where
  ctx : Nat
  pkg : Nat
  core : Nat
  offset : Nat
  room : Nat
  /-- the context is OUT on the core. -/
  out : Bool
  punnets : Tab Punnet
  waves : List ImageWave
  crews : List ImageCrew
  size : Nat
  bad : Bool
  deriving DecidableEq, Repr

/-- A pre-emption, resume or switch in progress (spec/03 R75, R76). -/
structure Pre where
  id : Nat
  pkg : Nat
  ctx : Nat
  cores : List Nat
  began : Nat
  cmd : Option Nat
  resume : Bool
  switchTo : Option Nat
  saved : List Nat
  reported : List Nat
  /-- cores whose waves are all at safe points, where the save is in progress, or whose restore is (R75, R202). -/
  busy : List Nat := []
  /-- a switch of a resident pair, and the cores whose budget event it has sent (R79). -/
  switch : Bool := false
  budget : List Nat := []
  deriving DecidableEq, Repr

/-- A resident pair (spec/03 R78). -/
structure Pair where
  a : Nat
  b : Nat
  slotsA : Nat
  slotsB : Nat
  cores : List Nat
  deriving DecidableEq, Repr

/-! ## Collectives -/

/-- A flight entry (spec/14 R237). -/
structure FlightEntry where
  op : Nat
  dtype : Nat
  red : Nat
  sw : Bool
  dw : Bool
  push : Bool
  acq : Bool
  rel : Bool
  init : Nat
  rnext : Nat
  nelem : Nat
  sbase : Nat
  dbase : Nat
  dpkg : Nat
  soff : Nat
  doff : Nat
  succ : List Nat
  deriving DecidableEq, Repr

/-- A communicator on one package (spec/14 R236). -/
structure Comm where
  queue : Nat
  /-- the queue's context and class when the communicator was created (R236). -/
  ctx : Nat
  cls : Nat
  world : Bool
  push : Bool
  members : List Nat
  bufs : Nat
  sendUsed : Nat
  recvUsed : Nat
  lastServed : Nat
  destroying : Option Nat
  aborted : Bool
  deriving DecidableEq, Repr

/-- A loaded flight (spec/14 R237, R238): its entries, last replay number, and the contribution bitmap of R241 as
(replay, entry, rank) triples. -/
structure Flight where
  entries : List FlightEntry
  lastReplay : Nat
  applied : List (Nat × Nat × Nat)
  deriving DecidableEq, Repr

/-- A replay in progress (spec/14 R238). -/
structure Replay where
  id : Nat
  pkg : Nat
  comm : Nat
  flight : Nat
  n : Nat
  /-- its command and that command's SEQ. -/
  cmd : Nat
  seq : Nat
  entries : List FlightEntry
  bases : List Nat
  cnt : List Nat
  started : List Bool
  doneE : List Bool
  status : Nat
  lastProgress : Nat
  aborted : Bool
  /-- completed; kept while arrivals of it may still come (R241). -/
  fin : Bool
  deriving DecidableEq, Repr

/-- A chunk the collective engine runs (spec/14 R240). -/
structure Chunk where
  id : Nat
  replay : Nat
  entry : Nat
  faulted : Bool
  /-- the entry is resent after a fault, point to point (R243). -/
  direct : Bool
  deriving DecidableEq, Repr

/-- An arrival in flight or held (spec/14 R239, R241). -/
structure Arrival where
  id : Nat
  src : Nat
  dst : Nat
  comm : Nat
  flight : Nat
  n : Nat
  entry : Nat
  rank : Nat
  replay : Nat
  /-- wire-format elements or bytes; absent when the source read failed. -/
  data : Option (List Nat)
  /-- metadata count and bits of the source granules of a COPY, by offset (R101). -/
  metas : Tab (Nat × Nat)
  desc : FlightEntry
  /-- resent point to point after a fault, although the entry is pushed (R243). -/
  direct : Bool
  /-- order of arrival at DPKG or at the switch (R239, R243). -/
  came : Option Nat
  acked : Bool
  faulted : Bool
  deriving DecidableEq, Repr

/-! ## Platform -/

/-- A firewall region of an HBM stack (spec/30 R439). -/
structure FwRegion where
  base : Nat
  limit : Nat
  world : Bool
  deriving DecidableEq, Repr

/-- A package. -/
structure Pkg where
  timerOff : Int
  locked : Bool
  boot : Boot
  session0 : Option Nat
  session0Ended : Bool
  nextSession : Nat
  lostReports : Nat
  heldReports : List Report
  collWorld : Bool
  capacity : List Nat
  poolBase : Nat
  poolSize : Nat
  firewall : Tab FwRegion
  /-- the limits that POWER_CFG has set, in W and °C (R442). -/
  powerLimit : Option Nat
  warnTemp : Option Nat
  corrThreshold : Nat
  corrCount : Tab Nat
  ports : List Port
  /-- the nine measurements, 48 bytes each, fixed at boot (R435); none before it. -/
  digests : List (List Byte)
  badFrames : Nat
  /-- the queue of each class that was served last (R227). -/
  lastQueue : Tab Nat
  railOff : Bool
  reports : List Report
  deriving DecidableEq, Repr

/-- A berth (key 4 × package + berth). -/
structure Berth where
  mhz : Nat
  cycles : Nat
  cycFrac : Nat
  rcAcc : Nat
  /-- relock: ns left, the stall so far, the new frequency, the command. -/
  relock : Option (Nat × Nat × Nat × Nat)
  held : Bool
  area : Nat
  world : Bool
  clusterWorld : Nat
  coreWorld : Nat
  /-- an HBM layer copy in progress: the command (R444). -/
  mapout : Option Nat
  deriving DecidableEq, Repr

/-! ## The state -/

/-- A line: its fabric address, its 128 bytes, and whether its aperture has been written since through another node (spec/05
R106, spec/06 R131, R132). -/
structure Line where
  base : Nat
  bytes : List Byte
  old : Bool
  deriving DecidableEq, Repr

/-- Entries of the wave locator table (spec/11 R205). -/
inductive LocState where | retired | resident | saving | saved | restoring | moving
  deriving DecidableEq, Repr

/-- A wave locator table entry, keyed by package × 9216 + core × 48 + slot (spec/11 R205). -/
structure Loc where
  ctx : Nat
  gen : Nat
  state : LocState
  uid : Nat
  queue : List Nat
  deriving DecidableEq, Repr

/-- What can happen next: a step of the opcode table, the next word of a thread, or the passing of time (MODEL). -/
inductive Happening where
  | event (i : Instr)
  | issue (uid : Nat)
  | elapse (ns : Nat)
  deriving DecidableEq, Repr

/-- Everything but memory bytes and the model's order of happenings. -/
structure Arch where
  /-- the package numbers, of the 1,024, that no package of the pod bears or whose package cannot be reached (R200): the
  installation's (DESIGN CHOICE, log 1). -/
  missing : List Nat
  pkgs : Tab Pkg
  berths : Tab Berth
  /-- sr.pntimer of each core, keyed 192 × package + core (R67). -/
  pntimer : Tab Nat
  /-- generation counter of each ordinary slot, keyed by package × 9216 + core × 48 + slot (R54). -/
  slotGen : Tab Nat
  locs : Tab Loc
  punnets : Tab Punnet
  /-- metadata of granules, keyed by fabric address div 64 (R100). -/
  gmeta : Tab W64
  /-- uncorrectable granules, by fabric address div 64 (R100). -/
  bad : Tab Nat
  /-- line buffers and remote line caches, by node, context and VA ÷ 128 (R106). -/
  lines : Tab Line
  /-- bytes that writes have replaced while a launch tree lives, newest first (R130): MODEL, the order of the write, the fabric
  address and the bytes. -/
  held : List (Nat × Nat × List Byte)
  /-- releases that have passed writes still to be performed (spec/06 R123). -/
  rels : List Release
  /-- 16-byte units that an engine command has read before the rest of its source: command, offset and bytes (spec/06 R126). -/
  early : List (Nat × Nat × List Byte)
  tlb : Tab TlbEntry
  /-- instruction cache words by core (192 × package + core), context and VA ÷ 8 (R261, R304). -/
  icache : List (Nat × Nat × Nat × Nat)
  ctxs : Tab Ctx
  /-- tag keys by package and context (R192). -/
  keys : Tab W64
  images : List Image
  pairs : List Pair
  queues : Tab Queue
  comms : Tab Comm
  flights : Tab Flight
  replays : Tab Replay
  chunks : Tab Chunk
  arrivals : Tab Arrival
  trees : Tab Tree
  crews : Tab Crew
  threads : Tab Thread
  ops : Tab MemOp
  cmds : Tab Cmd
  reds : Tab Red
  slice : Tab SliceOp
  landings : Tab Landing
  sends : Tab Send
  sums : Tab SumOp
  fetches : Tab Fetch
  pres : Tab Pre
  /-- MODEL: the next fresh identifier. -/
  nextId : Nat
  /-- MODEL: free values drawn. -/
  free : Nat
  deriving DecidableEq, Repr

/-- The memory: bytes keyed by fabric address, package × 2^52 + PA (spec/05 R88); an unlisted byte reads 0. -/
abbrev Memory := List Host.Cell

/-- The machine. -/
structure State where
  /-- physical memories of every package. -/
  mem : Memory
  /-- ns since reset, from which every reference timer counts (R300). -/
  time : Nat
  /-- MODEL: the thread whose word executes. -/
  cur : Option Nat
  /-- MODEL: what moves next, first to last. -/
  agenda : List Happening
  /-- every other piece of state. -/
  a : Arch
  deriving DecidableEq, Repr

/-! ## Stops -/

/-- Why the machine stops. -/
inductive Fault where
  /-- An instruction word is executed while no thread issues (State.cur names none). A step comes to it only where the model's agenda
  names an instruction word as an event; no program does that. Safe. -/
  | noIssuer
  deriving DecidableEq, Repr

/-- Why a meaning is refused. -/
inductive Refusal where
  /-- An instruction without a meaning, by its mnemonic. Safe. -/
  | notModelled (mnemonic : String)
  deriving DecidableEq, Repr

/-! ## Reset -/

/-- The nominal clock in MHz (spec/00 R4) (DESIGN CHOICE, log 5). -/
def nominalMhz : Nat := 1200

/-- A port before any session (R430). -/
def Port.reset : Port :=
  { up := false, session := none, lastTaken := 0, lastSent := 0, unacked := [], waiting := [], sent := [], spdm := 0 }

/-- A package at reset: security processor not yet run (R434) (DESIGN CHOICE, log 3) (DESIGN CHOICE, log 4). -/
def Pkg.reset : Pkg :=
  { timerOff := 0, locked := false, boot := .off, session0 := none, session0Ended := false, nextSession := 1,
    lostReports := 0, heldReports := [], collWorld := false, capacity := [16, 16, 16, 16],
    poolBase := 0, poolSize := 0, firewall := [], powerLimit := none, warnTemp := none, corrThreshold := 0, corrCount := [],
    ports := [Port.reset, Port.reset], digests := [], badFrames := 0, lastQueue := [],
    railOff := false, reports := [] }

/-- A berth at reset. -/
def Berth.reset : Berth :=
  { mhz := nominalMhz, cycles := 0, cycFrac := 0, rcAcc := 0, relock := none, held := false, area := 0, world := false,
    clusterWorld := 0, coreWorld := 0, mapout := none }

/-- Everything but memory at reset. Absent table entries stand for their reset values. -/
def Arch.reset : Arch :=
  { missing := [], pkgs := [], berths := [], pntimer := [], slotGen := [], locs := [], punnets := [], gmeta := [], bad := [], lines := [], held := [], rels := [], early := [],
    tlb := [], icache := [], ctxs := [], keys := [], images := [], pairs := [], queues := [], comms := [], flights := [], replays := [],
    chunks := [], arrivals := [], trees := [], crews := [], threads := [], ops := [], cmds := [], reds := [], slice := [],
    landings := [], sends := [], sums := [], fetches := [], pres := [], nextId := 1, free := 0 }

/-- The machine right after reset. -/
def State.reset : State := { mem := [], time := 0, cur := none, agenda := [], a := Arch.reset }

end Sys2Proof.Machine
end

