-- ==== Sys2Proof/Machine/Ops.lean ====
section
/-! DEFINITION. The named operations over tables, memory, registers and threads; reports; taking a trap and returning from
one (spec/13 R206 to R215); and the frame that every instruction word runs in (spec/16 R248, spec/18 R284, R291). -/

namespace Sys2Proof

def Level.code : Level → Nat
  | .lg => 0 | .core => 1 | .clu => 2 | .die => 3 | .pkg => 4 | .pod => 5
def Level.ofCode : Nat → Level
  | 0 => .lg | 1 => .core | 2 => .clu | 3 => .die | 4 => .pkg | _ => .pod

/-- The unit of level `l` that contains a unit (R16, R19). -/
def UnitId.up (u : UnitId) (l : Level) : UnitId :=
  match l, u.level with
  | .clu, .core => { u with level := .clu, idx := u.idx / 6 }
  | .die, .core => { u with level := .die, idx := u.idx / 48 }
  | .die, .clu => { u with level := .die, idx := u.idx / 8 }
  | .pkg, _ => { level := .pkg, pkg := u.pkg, idx := 0 }
  | .pod, _ => { level := .pod, pkg := u.pkg, idx := 0 }
  | _, _ => u

/-- How many positions a word fills: two with its literal or index word (R256). -/
def Hd.size (h : Hd) : Nat := match h.ext with | .none => 1 | _ => 2

end Sys2Proof

namespace Sys2Proof.Machine

/-! ## Tables -/

/-- The value at a key. -/
def tget {α : Type} : Tab α → Nat → Option α
  | [], _ => none
  | (k', v) :: r, k => if k' = k then some v else tget r k

/-- Write a key, keeping keys rising. -/
def tset {α : Type} : Tab α → Nat → α → Tab α
  | [], k, v => [(k, v)]
  | (k', v') :: r, k, v => if k < k' then (k, v) :: (k', v') :: r else if k = k' then (k, v) :: r else (k', v') :: tset r k v

/-- Remove a key. -/
def tdel {α : Type} : Tab α → Nat → Tab α
  | [], _ => []
  | (k', v') :: r, k => if k' = k then tdel r k else (k', v') :: tdel r k

/-- The value at a key, or a default. -/
def tgetD {α : Type} (t : Tab α) (k : Nat) (d : α) : α := (tget t k).getD d

/-- Change the value at a key, where there is one. -/
def tmod {α : Type} (t : Tab α) (k : Nat) (f : α → α) : Tab α :=
  match tget t k with
  | none => t
  | some v => tset t k (f v)

/-- The values of a table, by rising key. -/
def tvals {α : Type} (t : Tab α) : List α := t.map (·.2)

/-- Write several keys. -/
def tsets {α : Type} (t : Tab α) (l : List (Nat × α)) : Tab α := l.foldl (fun t p => tset t p.1 p.2) t

/-! ## Memory -/

/-- The byte at a fabric address; a byte that nothing has written reads 0 (DESIGN CHOICE, log 6). -/
def mget (m : Memory) (a : Nat) : Byte := tgetD m a 0

/-- Write one byte, keeping the canonical form: no entry holds the unlisted value 0. -/
def mput (m : Memory) (a : Nat) (b : Byte) : Memory := if b = 0 then tdel m a else tset m a b

/-- Write consecutive bytes. -/
def mputs (m : Memory) (a : Nat) : List Byte → Memory
  | [] => m
  | b :: r => mputs (mput m a b) (a + 1) r

/-- Bytes to write: each run's first address and its bytes. -/
abbrev Writes := List (Nat × List Byte)

/-- Write every run, first to last. -/
def mwrites (m : Memory) (ws : Writes) : Memory := ws.foldl (fun m w => mputs m w.1 w.2) m

/-- Consecutive bytes. -/
def mbytes (m : Memory) (a n : Nat) : List Byte := (List.range n).map (fun i => mget m (a + i))

/-- The little-endian value of bytes (R8). -/
def leVal : List Byte → Nat
  | [] => 0
  | b :: r => b.toNat + 256 * leVal r

/-- The little-endian bytes of a value (R8). -/
def leBytes : Nat → Nat → List Byte
  | 0, _ => []
  | n + 1, v => BitVec.ofNat 8 v :: leBytes n (v / 256)

/-- A little-endian number in memory. -/
def mnum (m : Memory) (a n : Nat) : Nat := leVal (mbytes m a n)

/-- Whether a memory is in its canonical form: addresses strictly rising and no entry equal to the unlisted value. -/
def Memory.wf : Memory → Bool
  | [] => true
  | [c] => !decide (c.2 = 0)
  | c :: d :: r => !decide (c.2 = 0) && decide (c.1 < d.1) && Memory.wf (d :: r)

/-! ## Packages, berths and units -/

/-- A package's state; an absent entry is a package at reset. -/
def Arch.pkg (a : Arch) (p : Nat) : Pkg := tgetD a.pkgs p Pkg.reset
def Arch.setPkg (a : Arch) (p : Nat) (v : Pkg) : Arch := { a with pkgs := tset a.pkgs p v }
/-- A berth's state; an absent entry is a berth at reset. -/
def Arch.berth (a : Arch) (p b : Nat) : Berth := tgetD a.berths (4 * p + b) Berth.reset
def Arch.setBerth (a : Arch) (p b : Nat) (v : Berth) : Arch := { a with berths := tset a.berths (4 * p + b) v }

/-- The reference timer of a package (R300, R440) (DESIGN CHOICE, log 2). -/
def refTimer (a : Arch) (time p : Nat) : Nat := ((time : Int) + (a.pkg p).timerOff).toNat % 2 ^ 64

/-- The berth of a core index (R54). -/
def coreBerth (core : Nat) : Nat := core / 48

/-- The world of a unit (R439): a core, cluster or berth; the hub's sequencers take either world. -/
def unitWorld (a : Arch) (u : UnitId) : Option Bool :=
  match u.level with
  | .core => some ((a.berth u.pkg (u.idx / 48)).coreWorld / 2 ^ (u.idx % 48) % 2 == 1)
  | .clu => some ((a.berth u.pkg (u.idx / 8)).clusterWorld / 2 ^ (u.idx % 8) % 2 == 1)
  | .die => some (a.berth u.pkg u.idx).world
  | _ => none

/-- Whether nothing of a berth acts: it is held in reset (R438), or its package has no core rail power (R442). -/
def berthStill (a : Arch) (p b : Nat) : Bool := (a.berth p b).held || (a.pkg p).railOff

/-- Whether a unit exists: its numbers are in range, its package is in the pod and its berth is not held in reset (R438). -/
def unitExists (a : Arch) (u : UnitId) : Bool :=
  decide (u.pkg < Config.maxPkgs) && !a.missing.contains u.pkg &&
  match u.level with
  | .core => decide (u.idx < 192) && !(a.berth u.pkg (u.idx / 48)).held
  | .clu => decide (u.idx < 32) && !(a.berth u.pkg (u.idx / 8)).held
  | .die => decide (u.idx < 4) && !(a.berth u.pkg u.idx).held
  | .pkg => decide (u.idx = 0)
  | .pod => decide (u.idx = 0)
  | .lg => false

/-- The key of a context on a package. -/
def ctxKey (p c : Nat) : Nat := p * 65536 + c
def Arch.ctx (a : Arch) (p c : Nat) : Option Ctx := tget a.ctxs (ctxKey p c)
/-- The world of a context (R96, R298); an absent context is non-secure. -/
def Arch.ctxWorld (a : Arch) (p c : Nat) : Bool := ((a.ctx p c).map (·.world)).getD false

/-- A fresh identifier. -/
def Arch.fresh (a : Arch) : Nat × Arch := (a.nextId, { a with nextId := a.nextId + 1 })

/-! ## Reports (spec/14 R234, R235, spec/30 R431 to R433) -/

/-- The bytes of a report. -/
def Report.bytes : Report → List Byte
  | .completion st q d seq ck tm =>
      leBytes 1 0x80 ++ leBytes 1 st ++ leBytes 2 q ++ leBytes 4 d ++ leBytes 8 seq ++ leBytes 8 ck ++ leBytes 8 tm
  | .event code ctx d a0 a1 tm =>
      leBytes 1 0x81 ++ leBytes 1 code ++ leBytes 2 ctx ++ leBytes 4 d ++ leBytes 8 a0 ++ leBytes 8 a1 ++ leBytes 8 tm
  | .capability b => b

/-- A transport datagram (R431). -/
def datagram (type psn apsn : Nat) (body : List Byte) : List Byte :=
  leBytes 1 1 ++ leBytes 1 type ++ leBytes 2 body.length ++ leBytes 4 psn ++ leBytes 4 apsn ++ leBytes 4 0 ++ body

/-- Send waiting reports of a port while it has a session and fewer than 256 REPORT datagrams are unacknowledged
(R430, R432). -/
def Port.pump (time : Nat) : Nat → Port → Port
  | 0, p => p
  | n + 1, p =>
    match p.waiting with
    | [] => p
    | r :: rest =>
      if p.session.isSome && p.up && decide (p.unacked.length < 256) then
        Port.pump time n { p with waiting := rest, lastSent := p.lastSent + 1, unacked := p.unacked ++ [(p.lastSent + 1, time, r)],
                                  sent := p.sent ++ [datagram 3 ((p.lastSent + 1) % 2 ^ 32) 0 r.bytes] }
      else p

/-- Queue a report on a port. -/
def Port.queue (time : Nat) (p : Port) (r : Report) : Port :=
  let q := { p with waiting := p.waiting ++ [r] }
  Port.pump time q.waiting.length q

/-- The port that carries a session. -/
def Pkg.portOf (k : Pkg) (session : Nat) : Option Nat :=
  (List.range k.ports.length).find? (fun i => decide (((k.ports.getD i Port.reset).session) = some session))

def Pkg.modPort (k : Pkg) (i : Nat) (f : Port → Port) : Pkg :=
  { k with ports := k.ports.set i (f (k.ports.getD i Port.reset)) }

/-- Whether a report goes to the platform endpoint (R433): events, queue 0 and capability blocks. -/
def Report.platform : Report → Bool
  | .completion _ q _ _ _ _ => q == 0
  | _ => true

/-- Send a report of a package's front end; `port` is the port of the queue's last command (R433). With no platform
session the platform's reports are held in order, and after that session has ended at most 256 of them (R437). -/
def Arch.report (a : Arch) (time p port : Nat) (r : Report) : Arch :=
  let k := a.pkg p
  let k := { k with reports := k.reports ++ [r] }
  a.setPkg p <|
    if r.platform then
      match k.session0.bind k.portOf with
      | some i => k.modPort i (fun q => q.queue time r)
      | none =>
        if k.session0Ended && decide (256 ≤ k.heldReports.length) then { k with lostReports := k.lostReports + 1 }
        else { k with heldReports := k.heldReports ++ [r] }
    else k.modPort port (fun q => q.queue time r)

/-- Send an event packet (R235). -/
def Arch.event (a : Arch) (time p code ctx detail a0 a1 : Nat) : Arch :=
  a.report time p 0 (.event code ctx detail a0 a1 (refTimer a time p))

/-! ## Threads and registers -/

def Regs.zero : Regs := { s := [], v := [], p := [], x := [], f := [], part := 4, clear := [], openBits := 0 }
def SRegs.zero : SRegs :=
  { fpctl := 0, fpstat := 0, srkey0 := 0, srkey1 := 0, srctr0 := 0, srctr1 := 0, rfault := 0, rfsrc := 0, rsstat := 0,
    sp := 0, tblk := 0, prio := 0 }
def Spec.closed : Spec := { isOpen := false, pred := false, reg := 0 }

def Arch.thread (a : Arch) (u : Nat) : Option Thread := tget a.threads u
def Arch.setThread (a : Arch) (t : Thread) : Arch := { a with threads := tset a.threads t.uid t }
def Arch.modThread (a : Arch) (u : Nat) (f : Thread → Thread) : Arch := { a with threads := tmod a.threads u f }
def Arch.crew (a : Arch) (c : Nat) : Option Crew := tget a.crews c
def Arch.setCrew (a : Arch) (c : Crew) : Arch := { a with crews := tset a.crews c.id c }
def Arch.tree (a : Arch) (i : Nat) : Option Tree := tget a.trees i

/-- A wave, and not a frame on a sequencer. -/
def Thread.isWave (t : Thread) : Bool := decide (t.level = .lg)

/-- The root level of a thread's launch tree (R17). -/
def Arch.rootLevel (a : Arch) (t : Thread) : Level := ((a.tree t.tree).map (·.rootLevel)).getD t.level

/-- A level operand resolved for a thread (R17). -/
def Arch.resolve (a : Arch) (t : Thread) : LvlCode → Level
  | .lg => .lg | .core => .core | .clu => .clu | .die => .die | .pkg => .pkg | .pod => .pod
  | .root => a.rootLevel t
  | .self => t.level

/-- Read an s register; in trap mode s40 to s47 name the bank (R211). -/
def Thread.getS (t : Thread) (n : Nat) : W32 :=
  if t.tm && decide (40 ≤ n) then tgetD t.bank (n - 40) 0 else tgetD t.regs.s n 0

/-- The s registers after a write of one; a write clears its error mark (R206). -/
def Regs.putS (r : Regs) (n : Nat) (v : W32) : Regs := { r with s := tset r.s n v, badS := r.badS.filter (fun k => !(k == n)) }

/-- The vector registers after words are written, by their keys; a write clears the words' error marks (R206). -/
def Regs.putV (r : Regs) (l : Tab W32) : Regs :=
  { r with v := tsets r.v l, badV := r.badV.filter (fun k => !(l.any (fun p => p.1 == k))) }

/-- Write an s register; in trap mode s40 to s47 name the bank (R211). -/
def Thread.setS (t : Thread) (n : Nat) (v : W32) : Thread :=
  if t.tm && decide (40 ≤ n) then { t with bank := tset t.bank (n - 40) v }
  else { t with regs := t.regs.putS n v }

/-- Write a 64-bit value to an s pair, low word in the even register (R138). -/
def Thread.setS64 (t : Thread) (n : Nat) (v : W64) : Thread :=
  (t.setS n (v.setWidth 32)).setS (n + 1) ((v >>> 32).setWidth 32)

def vkey (r l : Nat) : Nat := 32 * r + l

/-- Read a vector register in one lane. -/
def Thread.getV (t : Thread) (r l : Nat) : W32 := tgetD t.regs.v (vkey r l) 0
/-- Write a vector register in one lane. -/
def Thread.setV (t : Thread) (r l : Nat) (v : W32) : Thread :=
  { t with regs := t.regs.putV [(vkey r l, v)] }

/-- Write several vector register words: register, lane, value. -/
def Thread.setVs (t : Thread) (l : List (Nat × Nat × W32)) : Thread :=
  { t with regs := t.regs.putV (l.map (fun p => (vkey p.1 p.2.1, p.2.2))) }

/-- Read a predicate; p7 reads true in every lane (R259). -/
def Thread.getP (t : Thread) (k : Nat) : Lanes := if k = 7 then BitVec.allOnes 32 else tgetD t.regs.p k 0

/-- Write a predicate in the lanes of `m`; a write to p7 is ignored (R259). -/
def Thread.setP (t : Thread) (k : Nat) (m v : Lanes) : Thread :=
  if k = 7 then t else { t with regs := { t.regs with p := tset t.regs.p k ((t.getP k &&& ~~~m) ||| (v &&& m)) } }

/-- Read an index register, as a signed 16-bit value (R257). -/
def Thread.getX (t : Thread) (k l : Nat) : BitVec 16 := tgetD t.regs.x (vkey k l) 0
def Thread.setXs (t : Thread) (l : List (Nat × Nat × BitVec 16)) : Thread :=
  { t with regs := { t.regs with x := l.foldl (fun x p => tset x (vkey p.1 p.2.1) p.2.2) t.regs.x } }

/-- A completion flag (R105). -/
def Thread.getF (t : Thread) (k : Nat) : Nat := tgetD t.regs.f k 0
def Thread.setF (t : Thread) (k n : Nat) : Thread := { t with regs := { t.regs with f := tset t.regs.f k n } }

/-- Count one operation on a flag, and on its trap-mode count where the thread is in trap mode (R105, R214). -/
def Thread.raise (t : Thread) (k : Nat) : Thread :=
  let t' := t.setF k (t.getF k + 1)
  if t.tm then { t' with tmCounts := tset t.tmCounts k (tgetD t.tmCounts k 0 + 1) } else t'

/-- Subtract one operation from a flag; `tm` says that it was issued in trap mode (R105, R214). -/
def Thread.lower (t : Thread) (k : Nat) (tm : Bool) : Thread :=
  let t' := t.setF k (t.getF k - 1)
  if tm then { t' with tmCounts := tset t.tmCounts k (tgetD t.tmCounts k 0 - 1) } else t'

/-- Lower a flag of a thread, where the thread still exists. -/
def Arch.lowerFlag (a : Arch) (u : Nat) (flag : Option Nat) (tm : Bool) : Arch :=
  match flag with
  | none => a
  | some k => a.modThread u (fun t => t.lower k tm)

/-- Arrival bits of a vector register that are set (R194). -/
def Thread.arrived (t : Thread) (r : Nat) : Lanes := ~~~(tgetD t.regs.clear r 0)
def Thread.clearArr (t : Thread) (r : Nat) (m : Lanes) : Thread :=
  { t with regs := { t.regs with clear := tset t.regs.clear r (tgetD t.regs.clear r 0 ||| m) } }
/-- Set arrival bits; a clause suspended for an arrival may then resume (R72). -/
def Thread.setArr (t : Thread) (r : Nat) (m : Lanes) : Thread :=
  { t with regs := { t.regs with clear := tset t.regs.clear r (tgetD t.regs.clear r 0 &&& ~~~m) },
           wait := if t.wait = some .arrival then some .resume else t.wait }
/-- The open bit of a vector register (R194). -/
def Thread.isOpen (t : Thread) (r : Nat) : Bool := t.regs.openBits / 2 ^ r % 2 == 1
def Thread.setOpen (t : Thread) (r : Nat) (b : Bool) : Thread :=
  { t with regs := { t.regs with openBits :=
      if b then (if t.isOpen r then t.regs.openBits else t.regs.openBits + 2 ^ r)
      else (if t.isOpen r then t.regs.openBits - 2 ^ r else t.regs.openBits) } }

/-- The live lanes: those of every frontier entry (R51). -/
def frontLanes (f : List FEntry) : Lanes := f.foldl (fun m e => m ||| e.lanes) 0

/-- The live lanes of a thread, in trap mode those of its frozen frontier too. -/
def Thread.live (t : Thread) : Lanes := frontLanes t.front

/-- The tile width in lanes that PART sets (R53). -/
def Thread.tileWidth (t : Thread) : Nat := 2 ^ (t.regs.part.toNat % 8 + 1)

/-! ## Frontier (spec/03 R51) -/

/-- Add lanes at a PC: entries that meet merge, with the smaller pass count. -/
def frontAdd (f : List FEntry) (pc : Nat) (prio : Option Nat) (m : Lanes) (pass : Nat) : List FEntry :=
  match f with
  | [] => [{ pc := pc, prio := prio, lanes := m, pass := pass }]
  | e :: r =>
    if e.pc = pc then { e with lanes := e.lanes ||| m, pass := min e.pass pass } :: r
    else e :: frontAdd r pc prio m pass

/-- Remove lanes from every entry; entries left empty go. -/
def frontDrop (f : List FEntry) (m : Lanes) : List FEntry :=
  (f.map (fun e => { e with lanes := e.lanes &&& ~~~m })).filter (fun e => !decide (e.lanes = 0))

/-! ## The trap record (spec/13 R212, R213) -/

def TrapClass.code : TrapClass → Nat
  | .decode => 1 | .level => 2 | .operand => 3 | .access => 4 | .error => 5 | .overwrite => 6 | .growth => 7 | .software => 8

/-- INFO, with NOBLK as given (R212). -/
def TrapRec.info (r : TrapRec) (lvl : Level) (noblk : Bool) : Nat :=
  lvl.code * 2 ^ 24 + r.opidx * 2 ^ 16 + r.kinds * 2 ^ 8 + b2n noblk * 2 ^ 7 + r.kind * 2 ^ 4 + r.cls.code

/-- Bytes 0 to 31 of the record as the banked s40 to s47 (R212). -/
def TrapRec.bank (r : TrapRec) (lvl : Level) (noblk : Bool) : Tab W32 :=
  [(0, BitVec.ofNat 32 (r.info lvl noblk)), (1, r.mask), (2, BitVec.ofNat 32 r.pc), (3, BitVec.ofNat 32 (r.pc / 2 ^ 32)),
   (4, r.addr.setWidth 32), (5, (r.addr >>> 32).setWidth 32), (6, r.synd.setWidth 32), (7, (r.synd >>> 32).setWidth 32)]

/-- The 64 bytes of the record block (R212). -/
def TrapRec.block (r : TrapRec) (lvl : Level) : List Byte :=
  leBytes 4 (r.info lvl false) ++ leBytes 4 r.mask.toNat ++ leBytes 8 r.pc ++ leBytes 8 r.addr.toNat ++
    leBytes 8 r.synd.toNat ++ leBytes 8 r.word.toNat ++ leBytes 8 r.faddr.toNat ++ leBytes 8 r.time ++ leBytes 8 0

/-- What a failed check says; the rest of the record comes from the word that raised it. -/
structure Bad where
  cls : TrapClass
  addr : W64
  synd : Nat
  mask : Option Lanes
  kind : Nat
  kinds : Nat
  /-- the granule that an ERROR names. -/
  faddr : Nat := 0
  /-- no failure: the word's table walk waits (R428, R444), and the word with it. -/
  waits : Bool := false
  deriving DecidableEq, Repr

/-- A failed OPERAND check (R213): operand, cause, lowest failing lane and offending value. -/
def operandBad (operand cause lane : Nat) (addr : W64) : Bad :=
  { cls := .operand, addr := addr, synd := operand + cause * 256 + lane * 65536, mask := none, kind := 0, kinds := 0 }

/-- A failed DECODE check (R213). -/
def decodeBad (cause : Nat) : Bad := { cls := .decode, addr := 0, synd := cause, mask := none, kind := 0, kinds := 0 }

/-- A failed ACCESS check of one or more lanes (R213) (DEDUCED, log 65). -/
def accessBad (kind kinds : Nat) (mask : Lanes) (addr : W64) (isStore isFetch : Bool) (size : Nat) : Bad :=
  { cls := .access, addr := addr, synd := b2n isStore + b2n isFetch * 2 + size % 256 * 256, mask := some mask, kind := kind,
    kinds := kinds }

/-- The record of a failed check at the word `word` of VA `pc` and position `opidx`. -/
def Bad.record (b : Bad) (t : Thread) (opidx pc : Nat) (word time : Nat) : TrapRec :=
  { cls := b.cls, opidx := opidx, kinds := b.kinds, kind := b.kind, mask := b.mask.getD t.live, pc := pc, addr := b.addr,
    synd := BitVec.ofNat 64 b.synd, word := BitVec.ofNat 64 word, faddr := BitVec.ofNat 64 b.faddr, time := time, dests := [],
    fetch := false }

/-- The wave ID that an event names. -/
def Thread.eventId (t : Thread) : Nat := if t.isWave then t.waveid.toNat else 0xFFFFFF

/-- The event of an uncorrectable granule that a table walk of a word has met (R218). -/
def Bad.note (b : Bad) (a : Arch) (time : Nat) (t : Thread) : Arch :=
  if b.cls = .error then a.event time (b.faddr / 2 ^ 52) 7 t.ctx (b.synd % 16) b.faddr t.eventId else a

/-! ## Taking a trap (spec/13 R211) -/

/-- The PA of a core's scratchpad, as a fabric address (R88). -/
def spadAddr (pkg core : Nat) : Nat := pkg * 2 ^ 52 + 0x300000000000 + core * 0x200000

/-- Where the record block lies, when sr.tblk.EN is set and the block is inside the crew region (R211). -/
def blockAddr (a : Arch) (t : Thread) : Option Nat :=
  let off := t.sr.tblk.toNat / 64 % 2 ^ 15 * 64
  if t.isWave && t.sr.tblk.getLsbD 0 then
    match a.crew t.crew with
    | some c => if c.base ≤ off && off + 64 ≤ c.base + c.size then some (spadAddr c.pkg c.core + off) else none
    | none => none
  else none

/-- The handler PC of a thread's context (R210). -/
def handlerPc (a : Arch) (t : Thread) : Nat := ((a.ctx t.unit.pkg t.ctx).map (·.handler)).getD 0

/-- Enter the handler: freeze the frontier, bank s40 to s47, set TM, start at the handler PC (R211). `entryPc` is the PC of
the frontier entry concerned. -/
def enterTrap (a : Arch) (t : Thread) (r : TrapRec) (entryPc : Nat) : Arch × Writes :=
  let blk := blockAddr a t
  (a.setThread { t with
      tm := true, record := some r, bank := r.bank t.level blk.isNone,
      frozen := some { front := t.front, clause := t.clause, entryPc := entryPc },
      front := [{ pc := handlerPc a t, prio := some 0xFFFF, lanes := t.live, pass := 0 }], clause := none, wait := none,
      tmCounts := [], repl := none },
   match blk with
   | some ad => [(ad, r.block t.level)]
   | none => [])

/-- A synchronous trap in trap mode halts the thread and is reported (R215). -/
def doubleTrap (a : Arch) (time : Nat) (t : Thread) (pc : Nat) : Arch :=
  (a.setThread { t with halted := true, haltPc := pc }).event time t.unit.pkg 8 t.ctx 0 t.waveid.toNat pc

/-- Take a synchronous trap (R211, R215). -/
def takeTrap (a : Arch) (time : Nat) (t : Thread) (r : TrapRec) (entryPc : Nat) : Arch × Writes :=
  if t.tm then (doubleTrap a time t r.pc, []) else enterTrap a t r entryPc

/-! ## The end of a clause (spec/18 R291) -/

/-- The VA of the word at position `k` (R260). -/
def Clause.va (c : Clause) (k : Nat) : Nat := c.pc + 8 * (k + 1)

/-- End the clause of a thread: lanes of `exit` leave, lanes named in `moves` go to a target, the others to the word after
the clause; lanes of equal PC form one entry with pass count 0 and the priority of the header there (R50), and entries that meet
merge. The header's YIELD takes effect for the next choice (R249). -/
def endClause (t : Thread) (c : Clause) (exit : Lanes) (moves : List (Nat × Nat)) : Thread :=
  let f0 := frontDrop t.front c.lanes
  let stay := c.lanes &&& ~~~exit
  let fall := c.pc + 8 * (c.words.length + 1)
  let pcs := (Lanes.toList stay).map (fun l => (l, tgetD moves l fall))
  let f1 := pcs.foldl (fun f p => frontAdd f p.2 none (BitVec.ofNat 32 (2 ^ p.1)) 0) f0
  { t with front := f1, clause := none, wait := none, repl := none, yielded := t.yielded || (c.hdr.yield && t.isWave) }

/-- Go on after the word at the current position, which fills `size` positions. -/
def advance (t : Thread) (c : Clause) (size : Nat) : Thread :=
  if c.pos + size < c.words.length then
    { t with clause := some { c with pos := c.pos + size }, wait := none, repl := none }
  else endClause t c 0 []

/-! ## Returning from a trap (spec/13 R214) -/

/-- How many positions the word at position `k` of a clause fills. -/
def Clause.sizeAt (c : Clause) (k : Nat) : Nat := if c.words.getD k 0 / 2 ^ 62 % 4 == 1 then 2 else 1

/-- Leave trap mode: restore s40 to s47, thaw the frontier, clear TM. -/
def thaw (t : Thread) : Thread :=
  match t.frozen with
  | none => { t with tm := false, record := none, bank := [] }
  | some f => { t with tm := false, record := none, bank := [], frozen := none, front := f.front, clause := f.clause,
                       wait := none, tmCounts := [] }

/-- Whether a record is of a trap that is taken between clauses and leaves its instruction done (R209, R216). -/
def TrapRec.async (r : TrapRec) : Bool := !r.fetch && (decide (r.cls = .error) || decide (r.cls = .overwrite))

/-- Continue after the instruction at PC: the next word of the frozen clause, or, when the trap was met at a header or while
fetching, the word after PC; an uncorrectable granule met while fetching moves the lanes of its record (DEDUCED, log 12). -/
def resumeAfter (t : Thread) (r : TrapRec) : Thread :=
  let entry := (t.frozen.map (·.entryPc)).getD 0
  let t' := thaw t
  match t'.clause with
  | some c => advance t' c (c.sizeAt c.pos)
  | none =>
    if r.async then t'
    else
      let m := if r.cls = .error then r.mask &&& t'.live
        else (t'.front.filter (fun e => e.pc = entry)).foldl (fun m e => m ||| e.lanes) 0
      { t' with front := frontAdd (frontDrop t'.front m) (r.pc + 8) none m 0 }

/-! ## The frame of an instruction word -/

/-- What an instruction word sees: the machine, its thread and clause, the head of the word, the active lanes whose guard is
true (R259, R307), and of these the lanes that take part: a TRAPRET.REPLACE leaves out its lanes (R214). -/
structure W where
  a : Arch
  mem : Memory
  time : Nat
  t : Thread
  c : Clause
  h : Hd
  full : Lanes
  part : Lanes

/-- What the meaning of an instruction word answers. -/
inductive WRes where
  /-- the effect is made and the next word follows -/
  | done (a : Arch) (ws : Writes)
  /-- the word waits; a part of its effect may have been made -/
  | stay (a : Arch) (w : Wait)
  /-- the word ends its clause: lanes that exit, and targets by lane -/
  | ctl (a : Arch) (exit : Lanes) (moves : List (Nat × Nat))
  /-- the thread's own control state is already as the word leaves it -/
  | raw (a : Arch) (ws : Writes)
  /-- a failed check -/
  | bad (b : Bad)

/-- The outcome type of the machine. -/
abbrev Out := Host.Outcome State Fault Refusal

/-- The guard of an instruction in the active lanes (R259). -/
def guardLanes (t : Thread) (c : Clause) (h : Hd) : Lanes :=
  let g := t.getP h.gp.val
  (if h.gn then ~~~g else g) &&& c.lanes

/-- The lanes that a REPLACE leaves out of the word it re-executes (R214). -/
def Thread.replaced (t : Thread) : Lanes := match t.repl with | some r => r.mask | none => 0

/-- Where an instruction is legal (R26, R27). -/
inductive LvRule where | any | lg | seq
  deriving DecidableEq, Repr

def LvRule.ok : LvRule → Level → Bool
  | .any, _ => true
  | .lg, l => decide (l = .lg)
  | .seq, l => !decide (l = .lg)

/-- The byte that stands at an address after some runs have been written over memory. -/
def byteAfter (m : Memory) (ws : Writes) (ad : Nat) : Byte :=
  match ws.reverse.find? (fun w => decide (w.1 ≤ ad) && decide (ad < w.1 + w.2.length)) with
  | some w => w.2.getD (ad - w.1) 0
  | none => mget m ad

/-- Keep the bytes that writes replace, for invariant loads (R130); nothing is kept while no launch tree lives. -/
def Arch.remember (a : Arch) (m : Memory) (ws : Writes) : Arch :=
  match ws with
  | [] => a
  | w :: r =>
    if a.trees.isEmpty then { a with held := [] }
    else { a with held := ((List.range (r.length + 1)).map (fun i =>
        let x := (w :: r).getD i (0, [])
        (a.nextId, x.1, (List.range x.2.length).map (fun k => byteAfter m ((w :: r).take i) (x.1 + k))))).reverse ++ a.held }

/-- Put an answered architecture and its writes into the state. -/
def State.commit (s : State) (a : Arch) (ws : Writes) : State :=
  { s with a := a.remember s.mem ws, mem := mwrites s.mem ws }

/-- The trap of a word (R206 to R215). A word whose table walk waits is tried again. -/
def trapWord (s : State) (t : Thread) (c : Clause) (b : Bad) : State :=
  if b.waits then s.commit (s.a.modThread t.uid (fun t => { t with wait := some .order })) []
  else
    let r := b.record t c.pos (c.va c.pos) (c.words.getD c.pos 0) (refTimer s.a s.time t.unit.pkg)
    let x := takeTrap (b.note s.a s.time t) s.time t r c.pc
    s.commit x.1 x.2

/-- The thread that issues, with its clause (DESIGN CHOICE, log 11). -/
def issuer (s : State) : Option (Thread × Clause) :=
  match s.cur with
  | none => none
  | some u =>
    match s.a.thread u with
    | none => none
    | some t =>
      match t.clause with
      | none => none
      | some c => some (t, c)

/-- What the thread becomes after its word's answer. -/
def finishThread (a : Arch) (u : Nat) (f : Thread → Thread) : Arch := a.modThread u f

/-- What the word of head `h` sees when thread `t` issues it from clause `c`. -/
def State.view (s : State) (t : Thread) (c : Clause) (h : Hd) : W :=
  { a := s.a, mem := s.mem, time := s.time, t := t, c := c, h := h, full := guardLanes t c h,
    part := guardLanes t c h &&& ~~~t.replaced }

/-- Run an instruction word of engine class `cls` (R207, R208, R284): the LEVEL check, then its meaning; a word that is done
moves on to the next, a control word ends its clause, a failed check traps. -/
def runWord (cls : Nat) (lv : LvRule) (h : Hd) (s : State) (body : W → WRes) : Out :=
  match issuer s with
  | none => .fault .noIssuer
  | some (t, c) =>
    if lv.ok t.level then
      match body (s.view t c h) with
      | .done a ws => .next (s.commit (a.modThread t.uid (fun t' => advance t' c h.size)) ws)
      | .stay a w => .next (s.commit (a.modThread t.uid (fun t' => { t' with wait := some w })) [])
      | .ctl a exit moves => .next (s.commit (a.modThread t.uid (fun t' => endClause t' c exit moves)) [])
      | .raw a ws => .next (s.commit a ws)
      | .bad b => .next (trapWord s t c b)
    else .next (trapWord s t c { cls := .level, addr := 0, synd := cls + t.level.code * 256, mask := none, kind := 0, kinds := 0 })

/-- A word whose only effect is on its own thread. -/
def WRes.own (w : W) (t : Thread) : WRes := .done (w.a.setThread t) []

/-- Nothing happens beyond the checks when no lane takes part (R208, R284). -/
def W.acts (w : W) (r : WRes) : WRes := if w.part = 0 then .done w.a [] else r

/-- Run a step that is not an instruction word: it changes the architecture and writes memory, and an agenda entry that it
puts first. A step whose condition does not hold changes nothing (DEDUCED, log 10). -/
def runEvent (s : State) (f : Arch → Memory → Nat → Arch × Writes) : Out :=
  let x := f s.a s.mem s.time
  .next (s.commit x.1 x.2)

/-- Run checks in order: the first that fails is the trap (R207). -/
def firstBad (l : List (Option Bad)) : Option Bad := l.findSome? id

/-- Continue when no check fails. -/
def checked (b : Option Bad) (k : WRes) : WRes :=
  match b with
  | some x => .bad x
  | none => k

end Sys2Proof.Machine
end

