-- ==== Sys2Proof/Machine/Life.lean ====
section
/-! DEFINITION. The life of threads: completion of queue commands (spec/14 R234), ancestors and the participants of level
barriers (spec/01 R21, R33, R34), crew barriers (spec/03 R58), and retirement (spec/01 R23, R49, spec/03 R83). -/

namespace Sys2Proof.Machine

/-! ## Queue commands -/

/-- The status codes of R234. -/
inductive Status where
  | ok | malformed | owner | level | world | window | access | error | aborted | failed | desc | coll | busy | notFaulted
  | unknown
  deriving DecidableEq, Repr

def Status.code : Status → Nat
  | .ok => 0 | .malformed => 1 | .owner => 2 | .level => 3 | .world => 4 | .window => 5 | .access => 6 | .error => 7
  | .aborted => 8 | .failed => 9 | .desc => 10 | .coll => 11 | .busy => 12 | .notFaulted => 13 | .unknown => 14

/-- The key of a queue on a package. -/
def qKey (p q : Nat) : Nat := 256 * p + q
def Arch.queue (a : Arch) (p q : Nat) : Option Queue := tget a.queues (qKey p q)
def Arch.setQueue (a : Arch) (p q : Nat) (k : Queue) : Arch := { a with queues := tset a.queues (qKey p q) k }

/-- The little-endian number of `n` bytes at byte `i` of a packet. -/
def numAt (b : List Byte) (i n : Nat) : Nat := leVal ((b.drop i).take n)
def QCmd.num (c : QCmd) (i n : Nat) : Nat := numAt c.bytes i n
/-- FLAGS of the header (R224). -/
def QCmd.tf (c : QCmd) : Bool := c.num 2 1 % 2 == 1
def QCmd.async (c : QCmd) : Bool := c.num 2 1 / 2 % 2 == 1
def QCmd.crec (c : QCmd) : Bool := c.num 2 1 / 4 % 2 == 1

/-- A command of a queue by its identifier. -/
def Queue.cmd (k : Queue) (id : Nat) : Option QCmd := k.cmds.find? (fun c => c.id == id)

/-- A command leaves its queue, and a record is sent for a status other than OK and under CREC (R234). -/
def Arch.endCommand (a : Arch) (time p q id : Nat) (st : Status) (detail : Nat) : Arch :=
  match a.queue p q with
  | none => a
  | some k =>
    match k.cmd id with
    | none => a
    | some c =>
      let a := a.setQueue p q { k with cmds := k.cmds.filter (fun x => !(x.id == id)) }
      if !(st.code == 0) || c.crec then
        a.report time p k.port (.completion st.code q detail c.seq (c.num 16 8) (refTimer a time p))
      else a

/-- Complete a command; a queue that is being destroyed goes with its last one (R233). -/
def Arch.complete (a : Arch) (time p q id : Nat) (st : Status) (detail : Nat) : Arch :=
  let a := a.endCommand time p q id st detail
  match a.queue p q with
  | none => a
  | some k => match k.destroying with
    | some d => if k.cmds.isEmpty then { a with queues := tdel a.queues (qKey p q) }.endCommand time p 0 d .ok 0 else a
    | none => a

/-! ## Ancestors and level barriers -/

/-- The ancestor of a thread at a level, on its chain of launches (R21); `n` bounds the chain. -/
def ancestorAt (a : Arch) : Nat → Thread → Level → Option Nat
  | 0, _, _ => none
  | n + 1, t, l =>
    if t.level = l then some t.uid
    else match t.parent.bind a.thread with
      | none => none
      | some p => ancestorAt a n p l

/-- The ancestor of a thread at a level. -/
def ancestor (a : Arch) (t : Thread) (l : Level) : Option Nat := ancestorAt a 7 t l

/-- The units of the thread's tree and level under one ancestor at level `l`, that have not retired (R33, R41, R49). -/
def participants (a : Arch) (t : Thread) (l : Level) : List Thread :=
  (tvals a.threads).filter (fun p => p.tree == t.tree && decide (p.level = t.level) && !p.aborted &&
    decide (ancestor a p l = ancestor a t l))

def Thread.gen (t : Thread) (l : Level) : Nat := tgetD t.barGen l.code 0

/-- Whether a thread has arrived at its current generation at level `l` (R34); one that is swapped out has not (R48). -/
def Thread.atBar (t : Thread) (l : Level) : Bool := !t.saved && decide (t.wait = some (.bar l.code (t.gen l)))

/-- The key of a barrier instance in its tree (R33): the level-`l` ancestor, `l`, and the level of the participants. -/
def barKey (anc : Nat) (l s : Level) : Nat := 64 * anc + 8 * l.code + s.code

/-- If every participant has arrived, the generation completes and each advances (R34). -/
def barCheck (a : Arch) (u : Nat) (l : Level) : Arch :=
  match a.thread u with
  | none => a
  | some t =>
    let ps := participants a t l
    if t.atBar l && ps.all (fun p => p.atBar l) then
      let a := { a with trees := tmod a.trees t.tree (fun r =>
        { r with bars := tset r.bars (barKey ((ancestor a t l).getD 0) l t.level) (t.gen l + 1) }) }
      ps.foldl (fun a p => a.modThread p.uid (fun q => { q with barGen := tset q.barGen l.code (q.gen l + 1) })) a
    else a

/-- Check the instances of every waiting unit of a tree at one level, after a retirement (R34). -/
def barSweep (a : Arch) (tree : Nat) (lvl : Level) : Arch :=
  (tvals a.threads).foldl (fun a t =>
    if t.tree == tree && decide (t.level = lvl) then
      match t.wait with
      | some (.bar l _) => barCheck a t.uid (Level.ofCode l)
      | _ => a
    else a) a

/-- The barrier generations of a new unit: the current generation of each instance that it joins (R34). -/
def initGens (a : Arch) (t : Thread) : Tab Nat :=
  [Level.lg, .core, .clu, .die, .pkg, .pod].filterMap (fun l =>
    match ancestor a t l with
    | none => none
    | some u =>
      let g := tgetD (((a.tree t.tree).map (·.bars)).getD []) (barKey u l t.level) 0
      if g = 0 then none else some (l.code, g))

/-! ## Crew barriers (R58) -/

/-- Complete the phase when both conditions hold; engine arrivals held back count in the next phase, which they may complete in turn
where the barrier has no member. With neither members nor an engine target one phase completes (DEDUCED, log 23). -/
def CrewBar.settle : Nat → CrewBar → CrewBar
  | 0, b => b
  | n + 1, b =>
    if b.arrived = b.members ∧ b.count = b.e then
      let b' := { b with arrived := 0, count := min b.e b.heldEngine, heldEngine := b.heldEngine - b.e, phase := b.phase + 1 }
      if b.e = 0 then b' else CrewBar.settle n b'
    else b

/-- Complete the barrier's phase when both of its conditions hold. -/
def CrewBar.check (b : CrewBar) : CrewBar := CrewBar.settle (b.heldEngine + 1) b

/-- New members and a new engine target (R352): arrivals that the old target held back count up to the new one. -/
def CrewBar.config (b : CrewBar) (members e : Nat) : CrewBar :=
  let n := min (e - b.count) b.heldEngine
  CrewBar.check { b with members := members, e := e, count := b.count + n, heldEngine := b.heldEngine - n }

/-- One engine arrival (R40, R58). -/
def CrewBar.engine (b : CrewBar) : CrewBar :=
  if b.count < b.e then CrewBar.check { b with count := b.count + 1 } else { b with heldEngine := b.heldEngine + 1 }

/-- Clear a bit of a mask. -/
def clearBit (m n : Nat) : Nat := if m / 2 ^ n % 2 = 1 then m - 2 ^ n else m
/-- Set a bit of a mask. -/
def setBit (m n : Nat) : Nat := if m / 2 ^ n % 2 = 1 then m else m + 2 ^ n

/-- A retired wave leaves every member mask. -/
def CrewBar.depart (b : CrewBar) (n : Nat) : CrewBar :=
  if b.members / 2 ^ n % 2 = 1 then CrewBar.check { b with members := clearBit b.members n, arrived := clearBit b.arrived n }
  else b

/-- An engine arrival at a crew barrier of a crew. -/
def Arch.engineArrive (a : Arch) (crew b : Nat) : Arch :=
  { a with crews := tmod a.crews crew (fun c => { c with bars := tmod c.bars b CrewBar.engine }) }

/-- The wave of a crew that bears a number (R57). -/
def Arch.crewWave (a : Arch) (crew n : Nat) : Option Thread :=
  (tvals a.threads).find? (fun t => t.isWave && t.crew == crew && t.wnum == n)

/-! ## Accesses of a thread that a release of its own awaits (spec/06 R120, R134, R135; spec/23 R411) -/

/-- Whether a piece is an invariant load of a page with INV = 1, which nothing but its flag orders (R130, R343). -/
def MemOp.freePiece (o : MemOp) (p : Piece) : Bool := o.inv && p.attr / 2 ^ 12 % 2 == 1

/-- Whether a request is still to be performed and takes part in the order of its agent. -/
def MemOp.waits (o : MemOp) (q : MemReq) : Bool := !q.done && q.pieces.any (fun p => !o.freePiece p)

def MemWhat.isLoad : MemWhat → Bool
  | .store .. => false | .stmeta .. => false | _ => true
def MemWhat.isStore : MemWhat → Bool
  | .load .. => false | .ldmeta .. => false | _ => true
def MemWhat.isAtom : MemWhat → Bool
  | .atom .. => true | _ => false

/-- Whether an access, send or summary write that a thread issued before number `lim` is not yet performed. -/
def pendingBefore (a : Arch) (u lim : Nat) : Bool :=
  (tvals a.ops).any (fun o => o.uid == u && decide (o.id < lim) && o.reqs.any o.waits) ||
  (tvals a.sends).any (fun x => x.sender == u && decide (x.id < lim)) ||
  (tvals a.sums).any (fun x => x.uid == u && decide (x.id < lim))

/-- Whether an access, send or summary write of a thread is not yet performed. A primitive's release awaits them all (DESIGN CHOICE, log 15). -/
def ownPending (a : Arch) (u : Nat) : Bool := pendingBefore a u a.nextId

/-- The releases that a thread's accesses numbered `lim` are ordered after (spec/06 R123). -/
def acquired (a : Arch) (u lim : Nat) : List Nat :=
  match a.thread u with
  | none => []
  | some t => (t.acqd.filter (fun x => decide (x.2 < lim))).map (·.1)

/-- Whether writes that releases have passed to a thread, by accesses before number `lim`, are not yet performed (R123). -/
def passedPending (a : Arch) (u lim : Nat) : Bool :=
  let got := acquired a u lim
  !got.isEmpty && (tvals a.ops).any (fun x => x.reqs.any x.waits && x.seen.any (fun m => got.contains m.stamp))

/-- Whether a write that a load of the thread would have to see is not yet performed: its own, or one that a release has passed to it
(R120, R123). -/
def writesPending (a : Arch) (u : Nat) : Bool :=
  (tvals a.ops).any (fun o => o.uid == u && o.what.isStore && o.reqs.any o.waits) ||
  (tvals a.sums).any (fun x => x.uid == u) || passedPending a u a.nextId

/-! ## Scope units and releases (spec/06 R115, R116, R121 to R123, R134) -/

/-- The highest ancestor of a thread: the root frame of its tree, or the thread itself. -/
def topUnit (a : Arch) (t : Thread) : UnitId := ((a.tree t.tree).map (·.unit)).getD t.unit

/-- The scope unit of a thread at a level: its ancestor's unit up to the root level, above it the unit that contains the
root unit (R115). -/
def scopeUnit (a : Arch) (t : Thread) (l : Level) : UnitId :=
  let l' := if l.code < t.level.code then t.level else l
  match (ancestor a t l').bind a.thread with
  | some p => p.unit
  | none => (topUnit a t).up l'

/-- The scope unit of a thread at a level (R115): a wave at LG is a unit of its own, with its identifier as its number. -/
def scopeOf (a : Arch) (t : Thread) (l : Level) : UnitId :=
  if l = .lg ∧ t.isWave then { level := .lg, pkg := t.unit.pkg, idx := t.uid } else scopeUnit a t l

/-- Whether a thread lies inside a unit: its own scope unit at the unit's level is that unit (R116). -/
def insideUnit (a : Arch) (uid : Nat) (u : UnitId) : Bool :=
  match a.thread uid with
  | none => false
  | some t => match u.level with
    | .pod => true
    | l => decide (scopeOf a t l = u)

/-- The scope units of a thread from LG to PKG (R115). -/
def unitsOf (a : Arch) (u : Nat) : List UnitId :=
  match a.thread u with
  | none => []
  | some t => [Level.lg, .core, .clu, .die, .pkg].map (scopeOf a t)

/-- Whether a marked write is performed as far as a thread's accesses are concerned that come after the releases `got` (R116, R123). -/
def Mark.met (a : Arch) (uid : Nat) (got : List Nat) (m : Mark) : Bool := if m.all then insideUnit a uid m.unit else got.contains m.stamp

/-- Whether a release by thread `uid`, which covers its accesses before number `lim`, passes writes of an operation that are not yet
performed: writes of its own, and writes that an earlier release of another agent has passed to it (R123, cumulative). -/
def passes (a : Arch) (uid lim : Nat) (x : MemOp) : Bool :=
  let got := acquired a uid (lim + 1)
  x.what.isStore && x.reqs.any x.waits && ((x.uid == uid && decide (x.id < lim)) || x.seen.any (Mark.met a uid got))

/-- A release at the level of unit `u` is performed: the writes that it passes are marked, for every agent of `u` at once (`all`), or for
those that come to synchronise with it. -/
def markSeen (a : Arch) (uid lim : Nat) (u : UnitId) (all : Bool) (via : RelTo) : Arch :=
  if (tvals a.ops).any (passes a uid lim) then
    { a with nextId := a.nextId + 1,
             ops := a.ops.map (fun p => if passes a uid lim p.2 then
               (p.1, { p.2 with seen := p.2.seen ++ [{ unit := u, stamp := a.nextId, all := all }] }) else p),
             rels := if all then a.rels else a.rels ++ [{ stamp := a.nextId, unit := u, froms := unitsOf a uid, via := via }] }
  else a

/-- The release of a primitive by a thread at a level: of everything that it has done (R46). -/
def releaseAt (a : Arch) (t : Thread) (l : Level) : Arch := markSeen a t.uid a.nextId (scopeOf a t l) false .direct

/-- The scope unit of the acquire that a child makes before its first instruction, and of the release that it makes when it retires: at its
parent's level (R31, R32, R46), and for a root frame, whose parent is the front end, at POD. -/
def childScope (a : Arch) (t : Thread) : UnitId :=
  scopeOf a t (((t.parent.bind a.thread).map (·.level)).getD .pod)

/-- The release of a child that retires (R32, R46). -/
def retireRelease (a : Arch) (t : Thread) : Arch := markSeen a t.uid a.nextId (childScope a t) false .direct

/-! ## Retirement -/

/-- Whether a frame has children outstanding (R23): live waves and frames that it launched or that were spawned below it,
crews that have not started, and punnet records of its crews. -/
def hasChildren (a : Arch) (u : Nat) : Bool :=
  (tvals a.threads).any (fun t => decide (t.parent = some u)) ||
  (tvals a.crews).any (fun c => c.parent == u && !c.started) ||
  (tvals a.punnets).any (fun p => !p.recs.isEmpty && (match a.crew p.crew with | some c => c.parent == u | none => false)) ||
  a.images.any (fun g => (tvals g.punnets).any (fun p =>
    !p.recs.isEmpty && (match a.crew p.crew with | some c => c.parent == u | none => false)))

/-- The completion status of a launch tree (R49, R219, R230). -/
def Tree.status (t : Tree) : Status := if t.aborted then .aborted else if t.failed then .failed else .ok

/-- Count a retired unit under each of its ancestors, itself among them (R43). -/
def noteGone (a : Arch) (t : Thread) : Arch :=
  let us := [Level.lg, .core, .clu, .die, .pkg, .pod].filterMap (fun l => ancestor a t l)
  { a with trees := tmod a.trees t.tree (fun r =>
      { r with gone := us.foldl (fun g u => tset g (8 * u + t.level.code) (tgetD g (8 * u + t.level.code) 0 + 1)) r.gone }) }

/-- Remove a frame; the root's retirement completes the LAUNCH command (R230). -/
def dropFrame (a : Arch) (time : Nat) (t : Thread) : Arch :=
  let a := if t.aborted then a else noteGone a t
  let a := { a with threads := tdel a.threads t.uid }
  let a := barSweep a t.tree t.level
  match a.tree t.tree with
  | none => a
  | some r =>
    if r.root = t.uid then
      ({ a with trees := tdel a.trees r.id }).complete time r.unit.pkg r.queue r.cmd r.status 0
    else a

/-- A child of frame `u` has gone: a DRAINING frame whose last child has retired retires, and so upward (R23). -/
def retireUp : Nat → Arch → Nat → Option Nat → Arch
  | 0, a, _, _ => a
  | n + 1, a, time, u =>
    match u.bind a.thread with
    | none => a
    | some t =>
      if decide (t.phase = .draining) && !hasChildren a t.uid then retireUp n (dropFrame a time t) time t.parent else a

/-- Set the failed bit of a tree (R49). -/
def Arch.failTree (a : Arch) (id : Nat) (aborted : Bool) : Arch :=
  if aborted then { a with trees := tmod a.trees id (fun t => { t with failed := true }) } else a

/-- A frame leaves at EXIT or by an abort: RETIRED without children, else DRAINING (R23, R49). -/
def retireFrame (a : Arch) (time : Nat) (t : Thread) (aborted : Bool) : Arch :=
  let a := retireRelease (a.failTree t.tree aborted) t
  if hasChildren a t.uid then
    let a := if aborted && !t.aborted then noteGone a t else a
    let a := a.setThread { t with phase := .draining, front := [], clause := none, wait := none, tm := false, frozen := none,
                                  record := none, pend := [], aborted := t.aborted || aborted }
    if aborted then barSweep a t.tree t.level else a
  else retireUp 7 (dropFrame a time t) time t.parent

/-- The locator entry of a wave: number CORE × 48 + SLOT of its creation package (R54, R205). -/
def locKey (waveid : W32) : Nat :=
  let w := waveid.toNat
  bits w 14 10 * 9216 + bits w 6 8 * 48 + w % 64

/-- Answer a send with a status code (R204). -/
def Arch.answer (a : Arch) (send code : Nat) : Arch :=
  { a with sends := tmod a.sends send (fun x => { x with status := some code }) }

/-- Whether a send has been answered OK. -/
def Arch.sendOk (a : Arch) (send : Nat) : Bool := decide ((tget a.sends send).bind (·.status) = some 0)

/-- Retire the locator entry; sends queued in it are refused with STALE (R202, R205). -/
def retireLoc (a : Arch) (waveid : W32) : Arch :=
  match tget a.locs (locKey waveid) with
  | none => a
  | some e =>
    let a := { a with locs := tset a.locs (locKey waveid) { e with state := .retired, queue := [] } }
    e.queue.foldl (fun a n => a.answer n 2) a

/-- A crew loses a wave: barriers, live count, windows (R58, R83). -/
def Crew.lose (c : Crew) (t : Thread) : Crew :=
  { c with live := c.live - 1, bars := c.bars.map (fun p => (p.1, p.2.depart t.wnum)),
           cvs := c.cvs.filter (fun p => !(p.2.owner == t.wnum)),
           shadowOwner := c.shadowOwner.filter (fun p => !(p.2 == t.uid)) }

/-- Frames withdrawn by FETCHW retire with the requesting wave `u`, or at the next FETCHW that names their mailbox, each with a release of
that wave at PKG (R70). -/
def retireBehalf (a : Arch) (time : Nat) (u : Nat) (mailbox : Option Nat) : Arch :=
  (tvals a.threads).foldl (fun a t =>
    match t.phase with
    | .onBehalf w m =>
      if (match mailbox with | none => w == u | some b => m == b) then
        let a := match a.thread w with | some x => releaseAt a x .pkg | none => a
        retireUp 7 (dropFrame a time t) time t.parent
      else a
    | _ => a) a

/-- A wave retires (R49, R83), with its release (R32), and with it the frames withdrawn for it (R70). -/
def retireWave (a : Arch) (time : Nat) (t : Thread) (aborted : Bool) : Arch :=
  let a := a.failTree t.tree aborted
  let a := retireBehalf (retireRelease a t) time t.uid none
  let a := noteGone a t
  let a := { a with threads := tdel a.threads t.uid }
  let a := retireLoc a t.waveid
  let a := { a with crews := tmod a.crews t.crew (fun c => c.lose t) }
  let a := barSweep a t.tree .lg
  retireUp 7 a time t.parent

/-- A wave or frame retires as its kind does. -/
def retireThread (a : Arch) (time : Nat) (t : Thread) (aborted : Bool) : Arch :=
  if t.isWave then retireWave a time t aborted else retireFrame a time t aborted

end Sys2Proof.Machine
end

