-- ==== Sys2Proof/Machine/Operands.lean ====
section
/-! DEFINITION. The operand forms (spec/16 R252 to R257): the OPERAND checks of each kind of field, reading a source and
writing a destination. Positions are numbered 0 D, 1 A, 2 B, 3 C; the record names them so (spec/13 R213). -/

namespace Sys2Proof

/-- The index references of the extension, for position `j`. -/
def Hd.ref (h : Hd) (j : Nat) : Option IxRef := h.ext.ref j

/-- The literal sign-extended from bit 61 (R256); zero where there is none. -/
def Hd.lit64 (h : Hd) : W64 :=
  match h.ext with
  | .lit x => x.signExtend 64
  | _ => 0

end Sys2Proof

namespace Sys2Proof.Machine

/-- The pattern of a constant code 0xF0 + c in one lane (R253). -/
def W.const (w : W) (c l : Nat) : W32 :=
  match c with
  | 0 => 0 | 1 => 1 | 2 => 0xFFFFFFFF | 3 => 0x3F800000 | 4 => 0xBF800000 | 5 => 0x3F000000 | 6 => 0x40000000
  | 7 => BitVec.ofNat 32 l
  | 8 => BitVec.ofNat 32 (l % w.t.tileWidth)
  | 9 => BitVec.ofNat 32 (l / w.t.tileWidth)
  | 10 => BitVec.ofNat 32 w.t.tileWidth
  | 11 => w.c.lanes
  | _ => BitVec.ofNat 32 (if w.t.isWave then w.t.wnum else 0)

/-- The register an index-relative field names in a lane (R257), as a signed number. -/
def W.ixReg (w : W) (j l : Nat) : Int :=
  match w.h.ref j with
  | some r => (r.base.val : Int) + (w.t.getX r.xsel.val l).toInt
  | none => 0

/-- Read a 32-bit source in one lane. -/
def W.rd (w : W) (j : Nat) (o : Opnd) (l : Nat) : W32 :=
  match o with
  | .v n => w.t.getV n.val l
  | .s n => w.t.getS n.val
  | .k c => w.const c.val l
  | .ix => w.t.getV (w.ixReg j l).toNat l
  | .lit => w.h.lit64.setWidth 32

/-- A pair's 64 bits, low word first (R138). -/
def pair64 (lo hi : W32) : W64 := hi ++ lo

/-- Read a 64-bit source in one lane: an even-odd pair, a constant sign-extended, or the whole literal (R253, R256). -/
def W.rd64 (w : W) (j : Nat) (o : Opnd) (l : Nat) : W64 :=
  match o with
  | .v n => pair64 (w.t.getV n.val l) (w.t.getV (n.val + 1) l)
  | .s n => pair64 (w.t.getS n.val) (w.t.getS (n.val + 1))
  | .k c => (w.const c.val l).signExtend 64
  | .ix => pair64 (w.t.getV (w.ixReg j l).toNat l) (w.t.getV ((w.ixReg j l).toNat + 1) l)
  | .lit => w.h.lit64

/-- Read a scalar 32-bit source; wave-uniform operands are read once (R284). -/
def W.rs (w : W) (o : Opnd) : W32 := w.rd 0 o 0
/-- Read a scalar 64-bit source. -/
def W.rs64 (w : W) (o : Opnd) : W64 := w.rd64 0 o 0

/-- The register code of an operand, as a number (R253). -/
def Opnd.num (o : Opnd) : Nat := Sys2Proof.Opnd.code o

/-- Number of the register in an s or v operand. -/
def regNo : Opnd → Nat
  | .v n => n.val | .s n => n.val | _ => 0

/-- An OPERAND failure of a whole field: operand, cause, and the code as the offending value. -/
def opBad (j cause : Nat) (o : Opnd) : Option Bad := some (operandBad j cause 0 (BitVec.ofNat 64 (Opnd.num o)))

/-! ## Scalar fields -/

/-- A source of classes 0 and 11 (R283): s codes, constants 0xF0 to 0xF6, 0xFB, 0xFC and the literal. -/
def srcS (j : Nat) (o : Opnd) : Option Bad :=
  match o with
  | .v _ => opBad j 1 o
  | .ix => opBad j 1 o
  | .k c => if 7 ≤ c.val ∧ c.val ≤ 10 then opBad j 1 o else none
  | _ => none

/-- A 64-bit source of classes 0 and 11: an odd register is cause 6 (R285). -/
def srcS64 (j : Nat) (o : Opnd) : Option Bad :=
  match o with
  | .s n => if n.val % 2 = 1 then opBad j 6 o else none
  | _ => srcS j o

/-- A scalar field of classes 3 to 10 (R337, R339, R362, R384, R409, R419): s codes, constants 0xF0 to 0xF6 and the
literal. -/
def srcU (j : Nat) (o : Opnd) : Option Bad :=
  match o with
  | .v _ => opBad j 1 o
  | .ix => opBad j 1 o
  | .k c => if 7 ≤ c.val then opBad j 1 o else none
  | _ => none

/-- A 64-bit scalar field. -/
def srcU64 (j : Nat) (o : Opnd) : Option Bad :=
  match o with
  | .s n => if n.val % 2 = 1 then opBad j 6 o else none
  | _ => srcU j o

/-- A value field that a rule opens to every s code, constant and the literal (R306, R321, R337): a vector code is cause 1, an odd
register of a pair cause 6. -/
def uniformBad (j n : Nat) (o : Opnd) : Option Bad :=
  match o with
  | .v _ => opBad j 1 o
  | .ix => opBad j 1 o
  | .s k => if k.val % n = 0 then none else opBad j 6 o
  | _ => none

/-- A source that a word reads once for the wave, with the next free value: of a constant that varies by lane (R253) the value is that of
a free lane (DESIGN CHOICE, log 72). -/
def W.once (w : W) (j : Nat) (o : Opnd) : W32 × Nat :=
  match o with
  | .k c => if 7 ≤ c.val ∧ c.val ≤ 9 then (w.rd j o ((Config.openByte w.a.free).toNat % 32), w.a.free + 1) else (w.rs o, w.a.free)
  | _ => (w.rs o, w.a.free)

/-- A scalar destination of `n` registers (R283, R339): an s code aligned to `n`. -/
def dstS (n : Nat) (o : Opnd) : Option Bad :=
  match o with
  | .s k => if k.val % n = 0 then none else opBad 0 6 o
  | _ => opBad 0 1 o

/-- A run of `n` s registers as a source field, aligned to `n` (R362, R384, R419). -/
def srcRunS (j n : Nat) (o : Opnd) : Option Bad :=
  match o with
  | .s k => if k.val % n = 0 then none else opBad j 6 o
  | _ => opBad j 1 o

/-- Write a scalar destination of 32 bits. -/
def Thread.wr (t : Thread) (o : Opnd) (v : W32) : Thread :=
  match o with
  | .s n => t.setS n.val v
  | _ => t

/-- Write a scalar destination of 64 bits. -/
def Thread.wr64 (t : Thread) (o : Opnd) (v : W64) : Thread :=
  match o with
  | .s n => t.setS64 n.val v
  | _ => t

/-! ## Vector fields -/

/-- A value field of a vector form: its position, its operand, the number of consecutive registers of its width, and
whether it is the destination. -/
structure VF where
  j : Nat
  o : Opnd
  n : Nat
  dst : Bool

/-- The check of one field that needs no index (R254, R306, R308): registers in the allocation, pairs even, no scalar
destination. -/
def VF.bad (w : W) (f : VF) : Option Bad :=
  match f.o with
  | .v r => if w.t.alloc ≤ r.val then opBad f.j 1 f.o else if r.val % f.n = 0 then none else opBad f.j 6 f.o
  | .s r => if f.dst then opBad 0 1 f.o else if r.val % f.n = 0 then none else opBad f.j 6 f.o
  | _ => none

/-- The index check of one field in one lane (R257): below v0 or beyond the allocation is cause 2, off the run's alignment
cause 6. -/
def VF.ixBad (w : W) (f : VF) (l : Nat) : Option Bad :=
  match f.o with
  | .ix =>
    let i := w.ixReg f.j l
    if i < 0 ∨ (w.t.alloc : Int) ≤ i then some (operandBad f.j 2 l (BitVec.ofInt 64 i))
    else if i.toNat % f.n = 0 then none else some (operandBad f.j 6 l (BitVec.ofInt 64 i))
  | _ => none

/-- The operand checks of a vector form: each field, then the index check in every active lane, lowest lane first and D, A,
B, C within it (R257). -/
def vecBad (w : W) (fs : List VF) : Option Bad :=
  match fs.findSome? (fun f => f.bad w) with
  | some b => some b
  | none => (Lanes.toList w.c.lanes).findSome? (fun l => fs.findSome? (fun f => f.ixBad w l))

/-- A run of `n` registers named by a multi-register field (R306): a vector code, inside the allocation, aligned to
`align`. -/
def runBad (w : W) (j : Nat) (o : Opnd) (n align : Nat) : Option Bad :=
  match o with
  | .v r => if w.t.alloc < r.val + n then opBad j 1 o else if r.val % align = 0 then none else opBad j 6 o
  | _ => opBad j 1 o

/-- The first register a vector field names in a lane. -/
def W.vreg (w : W) (j : Nat) (o : Opnd) (l : Nat) : Nat :=
  match o with
  | .v n => n.val
  | .ix => (w.ixReg j l).toNat
  | _ => 0

/-- Write one 32-bit word of a vector destination in a lane. -/
def W.wrV (w : W) (t : Thread) (j : Nat) (o : Opnd) (l : Nat) (v : W32) : Thread := t.setV (w.vreg j o l) l v

/-- Write a 64-bit vector destination in a lane. -/
def W.wrV64 (w : W) (t : Thread) (j : Nat) (o : Opnd) (l : Nat) (v : W64) : Thread :=
  (t.setV (w.vreg j o l) l (v.setWidth 32)).setV (w.vreg j o l + 1) l ((v >>> 32).setWidth 32)

/-- Whether the arrival bits of a source field are set in the lanes it is read from (R72, R309). -/
def W.fieldArrived (w : W) (f : VF) (lanes : Lanes) : Bool :=
  match f.o with
  | .v n => (List.range f.n).all (fun i => decide (lanes &&& ~~~(w.t.arrived (n.val + i)) = 0))
  | .ix => (Lanes.toList lanes).all (fun l => (List.range f.n).all (fun i => (w.t.arrived (w.vreg f.j f.o l + i)).getLsbD l))
  | _ => true

/-- Whether every source field has arrived in the lanes that take part. -/
def W.arrived (w : W) (fs : List VF) : Bool := fs.all (fun f => w.fieldArrived f w.part)

/-- Whether a run of registers has arrived in some lanes. -/
def W.runArrived (w : W) (r n : Nat) (lanes : Lanes) : Bool :=
  (List.range n).all (fun i => decide (lanes &&& ~~~(w.t.arrived (r + i)) = 0))

/-- Fold a change of the thread over the lanes that take part, in ascending order. -/
def W.eachLane (w : W) (f : Thread → Nat → Thread) : Thread := (Lanes.toList w.part).foldl f w.t

/-- A vector form: its checks, the wait for arrival bits of its sources, then one change per lane that takes part. -/
def W.vector (w : W) (fs : List VF) (f : Thread → Nat → Thread) : WRes :=
  checked (vecBad w fs) <|
    if w.arrived (fs.filter (fun x => !x.dst)) then w.acts (WRes.own w (w.eachLane f)) else .stay w.a .arrival

end Sys2Proof.Machine
end

