-- ==== Sys2Proof/Machine/Flags.lean ====
section
/-! DEFINITION. Flags: the floating-point flags of sr.fpstat (spec/08 R154), and the selection and counting of completion
flags (spec/16 R247, spec/05 R105). -/

namespace Sys2Proof.Machine

/-- IV, DZ, OF, UF and NX as one operation raises them (R154). -/
structure FFlags where
  iv : Bool
  dz : Bool
  of : Bool
  uf : Bool
  nx : Bool
  deriving DecidableEq, Repr

def FFlags.none : FFlags := { iv := false, dz := false, of := false, uf := false, nx := false }
def FFlags.or (a b : FFlags) : FFlags :=
  { iv := a.iv || b.iv, dz := a.dz || b.dz, of := a.of || b.of, uf := a.uf || b.uf, nx := a.nx || b.nx }
/-- The bits of sr.fpstat (R154). -/
def FFlags.bits (f : FFlags) : Nat := b2n f.iv * 16 + b2n f.dz * 8 + b2n f.of * 4 + b2n f.uf * 2 + b2n f.nx
def FFlags.invalid : FFlags := { FFlags.none with iv := true }
def FFlags.divZero : FFlags := { FFlags.none with dz := true }

/-- OR flags into sr.fpstat (R154). -/
def Thread.orFlags (t : Thread) (f : FFlags) : Thread :=
  { t with sr := { t.sr with fpstat := t.sr.fpstat ||| BitVec.ofNat 32 f.bits } }

/-- The completion flag that a selector names, if it is bound (R246, R247) (DEDUCED, log 64). -/
def W.sel (w : W) (f : FSel) : Option Nat :=
  match f with
  | .none => none
  | .a => if w.c.hdr.seta < 12 then some w.c.hdr.seta else none
  | .b => if w.c.hdr.setb < 12 then some w.c.hdr.setb else none

/-- A selector bound to 15 is an OPERAND trap with cause 3, operand 4, under any guard (R247). -/
def W.selBad (w : W) (f : FSel) : Option Bad :=
  match f with
  | .none => none
  | _ => if (w.sel f).isSome then none else some (operandBad 4 3 0 15)

/-- Whether a flag stands at 63, so that the issue waits (R105). -/
def W.flagFull (w : W) (f : FSel) : Bool :=
  match w.sel f with
  | none => false
  | some k => decide (63 ≤ w.t.getF k)

/-- Count an operation on the selected flag, if any (R105). -/
def Thread.raiseSel (t : Thread) (k : Option Nat) : Thread :=
  match k with
  | none => t
  | some n => t.raise n

end Sys2Proof.Machine
end

