-- ==== Sys2Proof/Machine/Float.lean ====
section
/-! DEFINITION. Numbers (spec/08 R138 to R158): formats, exact values, the roundings of R148 and R149, the generator of R150,
and the exact results that the float instructions round once (spec/19 R323 to R332). -/

namespace Sys2Proof.Machine

/-- The resolved modes of R148. -/
inductive RMode where | rn | rz | ru | rd | rs
  deriving DecidableEq, Repr

end Sys2Proof.Machine

namespace Sys2Proof

/-- Resolve a mode, .DYN reading sr.fpctl (R148). -/
def RM.resolve (r : RM) (fpctl : W32) : Machine.RMode :=
  match r with
  | .rn => .rn | .rz => .rz | .ru => .ru | .rd => .rd | .rs => .rs
  | .dyn => match fpctl.toNat % 8 with | 0 => .rn | 1 => .rz | 2 => .ru | 3 => .rd | _ => .rs

/-- The bits of one element (R138). -/
def EF.width : EF → Nat
  | .f32 => 32 | .bf16 => 16 | .f16 => 16 | .e4m3 => 8 | .e5m2 => 8 | .t8 => 8 | .t6 => 6 | .i8 => 8 | .i16 => 16
  | .i32 => 32 | .i64 => 64 | .e8m0 => 8 | .b1 => 1

end Sys2Proof

namespace Sys2Proof.Machine

/-! ## The generator (R150) -/

/-- Ten rounds of Philox-4x32, as R150 writes them. -/
def philoxRounds : Nat → Nat → Nat → Nat → Nat → Nat → Nat → Nat × Nat × Nat × Nat
  | 0, c0, c1, c2, c3, _, _ => (c0, c1, c2, c3)
  | n + 1, c0, c1, c2, c3, k0, k1 =>
    let p0 := 0xD2511F53 * c0
    let p1 := 0xCD9E8D57 * c2
    philoxRounds n (((p1 / 2 ^ 32) ^^^ c1) ^^^ k0) (p1 % 2 ^ 32) (((p0 / 2 ^ 32) ^^^ c3) ^^^ k1) (p0 % 2 ^ 32)
      ((k0 + 0x9E3779B9) % 2 ^ 32) ((k1 + 0xBB67AE85) % 2 ^ 32)

/-- philox(c0, c1, c2, c3, k0, k1) of R150. -/
def philox (c0 c1 c2 c3 k0 k1 : Nat) : Nat × Nat × Nat × Nat := philoxRounds 10 c0 c1 c2 c3 k0 k1

/-- The key and counter of a wave's generator, low word first (R151). -/
def SRegs.key (r : SRegs) : Nat := r.srkey0.toNat + r.srkey1.toNat * 2 ^ 32
def SRegs.ctr (r : SRegs) : Nat := r.srctr0.toNat + r.srctr1.toNat * 2 ^ 32

/-- The draw U of element `e` of lane `l` (R149, R150) (DEDUCED, log 25). -/
def draw (key ctr e l : Nat) : Nat :=
  (philox e l (ctr % 2 ^ 32) (ctr / 2 ^ 32) (key % 2 ^ 32) (key / 2 ^ 32)).1 % 65536

/-- Advance the generator's counter by 1, modulo 2^64 (R150). -/
def Thread.advanceCtr (t : Thread) : Thread :=
  let n := (t.sr.ctr + 1) % 2 ^ 64
  { t with sr := { t.sr with srctr0 := BitVec.ofNat 32 n, srctr1 := BitVec.ofNat 32 (n / 2 ^ 32) } }

/-! ## Formats -/

/-- A binary format of R139. -/
structure Fmt where
  eb : Nat
  fb : Nat
  bias : Nat
  /-- OCP E4M3: no infinity, NaN only at 0x7F and 0xFF. -/
  e4m3 : Bool

def Fmt.f32 : Fmt := { eb := 8, fb := 23, bias := 127, e4m3 := false }
def Fmt.bf16 : Fmt := { eb := 8, fb := 7, bias := 127, e4m3 := false }
def Fmt.f16 : Fmt := { eb := 5, fb := 10, bias := 15, e4m3 := false }
def Fmt.fp8e4m3 : Fmt := { eb := 4, fb := 3, bias := 7, e4m3 := true }
def Fmt.fp8e5m2 : Fmt := { eb := 5, fb := 2, bias := 15, e4m3 := false }
def Fmt.f19 : Fmt := { eb := 8, fb := 10, bias := 127, e4m3 := false }

def Fmt.bits (f : Fmt) : Nat := f.eb + f.fb + 1
/-- The sign bit as a number. -/
def Fmt.signBit (f : Fmt) : Nat := 2 ^ (f.eb + f.fb)
/-- The code of +infinity; in E4M3 the NaN code 0x7F. -/
def Fmt.infCode (f : Fmt) : Nat := if f.e4m3 then 0x7F else (2 ^ f.eb - 1) * 2 ^ f.fb
/-- The code of the largest finite magnitude. -/
def Fmt.maxCode (f : Fmt) : Nat := f.infCode - 1
/-- The default NaN (R153). -/
def Fmt.defNaN (f : Fmt) : Nat := if f.e4m3 then 0x7F else (2 ^ f.eb - 1) * 2 ^ f.fb + 2 ^ (f.fb - 1)

/-- A decoded value: a NaN, an infinity, or (-1)^s m 2^e. -/
inductive FV where
  | nan (signalling : Bool)
  | inf (s : Bool)
  | fin (s : Bool) (m : Nat) (e : Int)
  deriving DecidableEq, Repr

def Fmt.isNeg (f : Fmt) (c : Nat) : Bool := c / f.signBit % 2 == 1
def Fmt.isNaN (f : Fmt) (c : Nat) : Bool :=
  let mag := c % f.signBit
  if f.e4m3 then mag == 0x7F else decide (f.infCode < mag)
/-- A signalling NaN: the top fraction bit is clear; every FP8 NaN counts as quiet (R139). -/
def Fmt.isSNaN (f : Fmt) (c : Nat) : Bool := f.isNaN c && decide (8 < f.bits) && (c / 2 ^ (f.fb - 1) % 2 == 0)
/-- Quieted by setting the top fraction bit (R153). -/
def Fmt.quiet (f : Fmt) (c : Nat) : Nat := if f.e4m3 then c else if c / 2 ^ (f.fb - 1) % 2 == 1 then c else c + 2 ^ (f.fb - 1)

/-- The value of a code (R139). -/
def Fmt.decode (f : Fmt) (c : Nat) : FV :=
  let mag := c % f.signBit
  let s := f.isNeg c
  if f.isNaN c then .nan (f.isSNaN c)
  else if !f.e4m3 && mag == f.infCode then .inf s
  else
    let e := mag / 2 ^ f.fb
    let fr := mag % 2 ^ f.fb
    if e = 0 then .fin s fr (1 - (f.bias : Int) - f.fb) else .fin s (fr + 2 ^ f.fb) ((e : Int) - f.bias - f.fb)

/-! ## Rounding -/

/-- The number of significant bits. -/
def bitLen (m : Nat) : Nat := if m = 0 then 0 else m.log2 + 1

/-- Whether the magnitude n + r/d (a little more under `sticky`) rounds away from n: the modes of R148 and the draw of R149. -/
def roundsUp (mode : RMode) (u : Nat) (s odd : Bool) (r d : Nat) (sticky : Bool) : Bool :=
  match mode with
  | .rn => decide (d < 2 * r) || (decide (2 * r = d) && (sticky || odd))
  | .rz => false
  | .ru => !s && (!(r == 0) || sticky)
  | .rd => s && (!(r == 0) || sticky)
  | .rs => decide (u < r * 65536 / d)

/-- m 2^e in units of 2^q: the quotient, the rest and the divisor. -/
def atQuantum (m : Nat) (e q : Int) : Nat × Nat × Nat :=
  if q ≤ e then (m * 2 ^ (e - q).toNat, 0, 1) else (m / 2 ^ (q - e).toNat, m % 2 ^ (q - e).toNat, 2 ^ (q - e).toNat)

/-- The rounding of a non-zero magnitude (m 2^e, a little more under `sticky`) in a format: the magnitude code, unless it is
above the largest finite, whether it is inexact, and whether it is tiny after a rounding with an unbounded exponent
(R152). -/
def roundMag (f : Fmt) (mode : RMode) (u : Nat) (s : Bool) (m : Nat) (e : Int) (sticky : Bool) : Option Nat × Bool × Bool :=
  let lead := e + (bitLen m : Int) - 1
  let emin : Int := 1 - (f.bias : Int)
  let q := (if lead < emin then emin else lead) - f.fb
  let (n, r, d) := atQuantum m e q
  let inexact := !(r == 0) || sticky
  let n' := if roundsUp mode u s (n % 2 == 1) r d sticky then n + 1 else n
  let q0 := lead - f.fb
  let (n0, r0, d0) := atQuantum m e q0
  let n0' := if roundsUp mode u s (n0 % 2 == 1) r0 d0 sticky then n0 + 1 else n0
  let tiny := decide (lead < emin) && !(decide (lead + 1 = emin) && decide (n0' = 2 ^ (f.fb + 1)))
  let code := if n' < 2 ^ f.fb then n' else
    if n' = 2 ^ (f.fb + 1) then (q + 1 + f.fb + f.bias).toNat * 2 ^ f.fb
    else (q + f.fb + f.bias).toNat * 2 ^ f.fb + (n' - 2 ^ f.fb)
  (if code ≤ f.maxCode then some code else none, inexact, tiny)

/-- The result of a finite overflow (R157): the infinity or the largest finite of the sign, by mode; in E4M3 the NaN. -/
def overflowCode (f : Fmt) (mode : RMode) (s sat : Bool) : Nat :=
  if sat then f.maxCode
  else if f.e4m3 then f.infCode
  else match mode with
    | .rn => f.infCode
    | .rz => f.maxCode
    | .ru => if s then f.maxCode else f.infCode
    | .rd => if s then f.infCode else f.maxCode
    | .rs => f.infCode

def Fmt.signed (f : Fmt) (s : Bool) (mag : Nat) : Nat := b2n s * f.signBit + mag

/-- Round (-1)^s m 2^e (a little more in magnitude under `sticky`) once into a format. -/
def roundTo (f : Fmt) (mode : RMode) (u : Nat) (sat s : Bool) (m : Nat) (e : Int) (sticky : Bool) : Nat × FFlags :=
  if m = 0 then (f.signed s 0, FFlags.none)
  else
    let (c, nx, tiny) := roundMag f mode u s m e sticky
    match c with
    | some c => (f.signed s c, { FFlags.none with nx := nx, uf := nx && tiny })
    | none => (f.signed s (overflowCode f mode s sat), { FFlags.none with of := true, nx := true })

/-! ## Exact arithmetic -/

/-- The sign of an exact zero sum (R153, IEEE 754-2019). -/
def zeroSum (mode : RMode) (s1 s2 : Bool) : Bool := if s1 == s2 then s1 else decide (mode = .rd)

/-- The exact sum of two finite values: sign, magnitude and exponent. -/
def exactAdd (mode : RMode) (s1 : Bool) (m1 : Nat) (e1 : Int) (s2 : Bool) (m2 : Nat) (e2 : Int) : Bool × Nat × Int :=
  let e := if e1 ≤ e2 then e1 else e2
  let a := m1 * 2 ^ (e1 - e).toNat
  let b := m2 * 2 ^ (e2 - e).toNat
  if s1 == s2 then (s1, a + b, e)
  else if a = b then (zeroSum mode s1 s2, 0, e)
  else if b < a then (s1, a - b, e) else (s2, b - a, e)

/-- The first NaN of the sources, quieted (R153), and whether one signals. -/
def nanOf (f : Fmt) (cs : List Nat) : Option Nat := (cs.find? (fun c => f.isNaN c)).map f.quiet
def anySNaN (f : Fmt) (cs : List Nat) : Bool := cs.any (fun c => f.isSNaN c)

/-- The NaN rule of R153 around an operation on values that are not NaN. -/
def withNaN (f : Fmt) (cs : List Nat) (iv : Bool) (k : Nat × FFlags) : Nat × FFlags :=
  match nanOf f cs with
  | some n => (n, { FFlags.none with iv := iv || anySNaN f cs })
  | none => k

/-- An invalid operation without a NaN operand (R153). -/
def invalidRes (f : Fmt) : Nat × FFlags := (f.defNaN, FFlags.invalid)

/-- The sum of two values that are not NaN. -/
def addFV (f : Fmt) (mode : RMode) (u : Nat) (x y : FV) : Nat × FFlags :=
  match x, y with
  | .inf s, .inf t => if s == t then (f.signed s f.infCode, FFlags.none) else invalidRes f
  | .inf s, _ => (f.signed s f.infCode, FFlags.none)
  | _, .inf t => (f.signed t f.infCode, FFlags.none)
  | .fin s m e, .fin t n g =>
    let (s', m', e') := exactAdd mode s m e t n g
    roundTo f mode u false s' m' e' false
  | _, _ => (f.defNaN, FFlags.none)

def negFV : FV → FV
  | .nan q => .nan q
  | .inf s => .inf (!s)
  | .fin s m e => .fin (!s) m e

/-- The product of two values that are not NaN, exact; none for zero times infinity. -/
def mulFV (x y : FV) : Option FV :=
  match x, y with
  | .inf s, .inf t => some (.inf (s != t))
  | .inf s, .fin t n _ => if n = 0 then none else some (.inf (s != t))
  | .fin s m _, .inf t => if m = 0 then none else some (.inf (s != t))
  | .fin s m e, .fin t n g => some (.fin (s != t) (m * n) (e + g))
  | _, _ => none

/-- Round an exact value. -/
def roundFV (f : Fmt) (mode : RMode) (u : Nat) (x : FV) : Nat × FFlags :=
  match x with
  | .nan _ => (f.defNaN, FFlags.none)
  | .inf s => (f.signed s f.infCode, FFlags.none)
  | .fin s m e => roundTo f mode u false s m e false

/-- FADD, FSUB, FMUL and FFMA on codes of one format (R323). -/
def fAdd (f : Fmt) (mode : RMode) (u a b : Nat) : Nat × FFlags :=
  withNaN f [a, b] false (addFV f mode u (f.decode a) (f.decode b))
def fSub (f : Fmt) (mode : RMode) (u a b : Nat) : Nat × FFlags :=
  withNaN f [a, b] false (addFV f mode u (f.decode a) (negFV (f.decode b)))
def fMul (f : Fmt) (mode : RMode) (u a b : Nat) : Nat × FFlags :=
  withNaN f [a, b] false (match mulFV (f.decode a) (f.decode b) with
    | none => invalidRes f
    | some p => roundFV f mode u p)
def fFma (f : Fmt) (mode : RMode) (u a b c : Nat) : Nat × FFlags :=
  let p := mulFV (f.decode a) (f.decode b)
  let badProd := !f.isNaN a && !f.isNaN b && p.isNone
  withNaN f [a, b, c] badProd (match p with
    | none => invalidRes f
    | some x => addFV f mode u x (f.decode c))

/-- The order key of a code that is not NaN: −0 below +0 (R153). -/
def Fmt.key (f : Fmt) (c : Nat) : Int :=
  let mag := c % f.signBit
  if f.isNeg c then -(mag : Int) - 1 else mag

/-- FMIN and FMAX (R153, R324). -/
def fMin (f : Fmt) (a b : Nat) : Nat × FFlags := withNaN f [a, b] false (if f.key b < f.key a then b else a, FFlags.none)
def fMax (f : Fmt) (a b : Nat) : Nat × FFlags := withNaN f [a, b] false (if f.key a < f.key b then b else a, FFlags.none)

/-- The order of two codes that are not NaN, zeros equal (R325). -/
def fLt (f : Fmt) (a b : Nat) : Bool :=
  if a % f.signBit = 0 ∧ b % f.signBit = 0 then false else decide (f.key a < f.key b)
def fEq (f : Fmt) (a b : Nat) : Bool := (decide (a % f.signBit = 0) && decide (b % f.signBit = 0)) || a == b

/-- FCMP: the condition and its invalid flag (R325). -/
def fCmp (f : Fmt) (c : FCmp) (a b : Nat) : Bool × FFlags :=
  let n := f.isNaN a || f.isNaN b
  let s := f.isSNaN a || f.isSNaN b
  let q := { FFlags.none with iv := s }
  let o := { FFlags.none with iv := n }
  match c with
  | .eq => (!n && fEq f a b, q)
  | .ne => (n || !fEq f a b, q)
  | .lt => (!n && fLt f a b, o)
  | .le => (!n && (fLt f a b || fEq f a b), o)
  | .gt => (!n && fLt f b a, o)
  | .ge => (!n && (fLt f b a || fEq f a b), o)
  | .un => (n, q)
  | .or => (!n, q)

/-- FCLASS (R327). -/
def fClass (f : Fmt) (c : Nat) : Nat :=
  let n := f.isNeg c
  let mag := c % f.signBit
  if f.isNaN c then (if f.isSNaN c then 2 ^ 8 else 2 ^ 9)
  else if mag = f.infCode then (if n then 2 ^ 0 else 2 ^ 7)
  else if mag = 0 then (if n then 2 ^ 3 else 2 ^ 4)
  else if mag < 2 ^ f.fb then (if n then 2 ^ 2 else 2 ^ 5)
  else (if n then 2 ^ 1 else 2 ^ 6)

/-- FRND: to an integral value of the same format; NX is not raised (R328). -/
def fRnd (f : Fmt) (mode : RMode) (u a : Nat) : Nat × FFlags :=
  match f.decode a with
  | .nan sg => (f.quiet a, { FFlags.none with iv := sg })
  | .inf _ => (a, FFlags.none)
  | .fin s m e =>
    if 0 ≤ e ∨ m = 0 then (a, FFlags.none)
    else
      let (n, r, d) := atQuantum m e 0
      let n' := if roundsUp mode u s (n % 2 == 1) r d false then n + 1 else n
      ((roundTo f .rz 0 false s n' 0 false).1, FFlags.none)

/-! ## Division, roots and the transcendental functions (R326) -/

/-- FDIV. -/
def fDiv (f : Fmt) (mode : RMode) (u a b : Nat) : Nat × FFlags :=
  withNaN f [a, b] false (match f.decode a, f.decode b with
    | .inf _, .inf _ => invalidRes f
    | .inf s, .fin t _ _ => (f.signed (s != t) f.infCode, FFlags.none)
    | .fin s _ _, .inf t => (f.signed (s != t) 0, FFlags.none)
    | .fin s m e, .fin t n g =>
      if n = 0 then
        if m = 0 then invalidRes f else (f.signed (s != t) f.infCode, FFlags.divZero)
      else if m = 0 then (f.signed (s != t) 0, FFlags.none)
      else roundTo f mode u false (s != t) (m * 2 ^ 120 / n) (e - g - 120) (!(m * 2 ^ 120 % n == 0))
    | _, _ => (f.defNaN, FFlags.none))

/-- Integer square root by bits: the largest r with r * r ≤ x among r < 2 ^ n, above `acc`. -/
def isqrtFrom (x : Nat) : Nat → Nat → Nat
  | 0, acc => acc
  | n + 1, acc => if (acc + 2 ^ n) * (acc + 2 ^ n) ≤ x then isqrtFrom x n (acc + 2 ^ n) else isqrtFrom x n acc

def isqrt (x : Nat) : Nat := isqrtFrom x (bitLen x / 2 + 1) 0

/-- Round the square root of m 2^e, m ≠ 0. -/
def roundSqrt (f : Fmt) (mode : RMode) (u m : Nat) (e : Int) : Nat × FFlags :=
  let k : Nat := if e % 2 = 0 then 160 else 161
  let x := m * 2 ^ k
  let r := isqrt x
  roundTo f mode u false false r ((e - k) / 2) (!(r * r == x))

/-- FSQRT. -/
def fSqrt (f : Fmt) (mode : RMode) (u a : Nat) : Nat × FFlags :=
  withNaN f [a] false (match f.decode a with
    | .inf s => if s then invalidRes f else (a, FFlags.none)
    | .fin s m e => if m = 0 then (a, FFlags.none) else if s then invalidRes f else roundSqrt f mode u m e
    | .nan _ => (f.defNaN, FFlags.none))

/-- FRCP. -/
def fRcp (f : Fmt) (mode : RMode) (u a : Nat) : Nat × FFlags :=
  withNaN f [a] false (match f.decode a with
    | .inf s => (f.signed s 0, FFlags.none)
    | .fin s m e =>
      if m = 0 then (f.signed s f.infCode, FFlags.divZero)
      else roundTo f mode u false s (2 ^ 160 / m) (-e - 160) (!(2 ^ 160 % m == 0))
    | .nan _ => (f.defNaN, FFlags.none))

/-- FRSQ. -/
def fRsq (f : Fmt) (mode : RMode) (u a : Nat) : Nat × FFlags :=
  withNaN f [a] false (match f.decode a with
    | .inf s => if s then invalidRes f else (0, FFlags.none)
    | .fin s m e =>
      if m = 0 then (f.signed s f.infCode, FFlags.divZero)
      else if s then invalidRes f
      else
        let k : Nat := if e % 2 = 0 then 400 else 401
        let r := isqrt (2 ^ k / m)
        roundTo f mode u false false r (-(e + k) / 2) (!(r * r * m == 2 ^ k))
    | .nan _ => (f.defNaN, FFlags.none))

/-- Fixed point with 400 fraction bits: π/2 and ln 2, rounded down. -/
def fx : Nat := 400
def piHalf : Nat := 0x1921fb54442d18469898cc51701b839a252049c1114cf98e804177d4c76273644a29410f31c6809bbdf2a33679a7486366056
def lnTwo : Nat := 0xb17217f7d1cf79abc9e3b39803f2f6af40f343267298b62d8a0d175b8baafa2be7b876206debac98559552fb4afa1b10ed2e

/-- Σ terms of a power series in fixed point: term n+1 is term n times y / (a(n) b(n)), with alternating sign when `alt`. -/
def series (y : Nat) (alt : Bool) (step : Nat → Nat) : Nat → Nat → Nat → Int → Int
  | 0, _, _, acc => acc
  | k + 1, n, term, acc =>
    let term' := term * y / 2 ^ fx / step n
    series y alt step k (n + 1) term' (if alt && n % 2 == 0 then acc - term' else acc + term')

/-- sin r and cos r for fixed-point r in [0, π/2). -/
def fxSin (r : Nat) : Int := series (r * r / 2 ^ fx) true (fun n => (2 * n + 2) * (2 * n + 3)) 60 0 r r
def fxCos (r : Nat) : Int := series (r * r / 2 ^ fx) true (fun n => (2 * n + 1) * (2 * n + 2)) 60 0 (2 ^ fx) ((2 : Int) ^ fx)
/-- e^r − 1 for fixed-point r in [0, 1). -/
def fxExpm1 (r : Nat) : Int := series r false (fun n => n + 2) 100 0 r r
/-- ln y for fixed-point y in [1, 2): twice the inverse hyperbolic tangent of (y − 1)/(y + 1). -/
def lnTerms (z2 : Nat) : Nat → Nat → Nat → Nat → Nat
  | 0, _, _, acc => acc
  | k + 1, n, p, acc => lnTerms z2 k (n + 1) (p * z2 / 2 ^ fx) (acc + p / (2 * n + 1))
def fxLn (y : Nat) : Nat :=
  let z := (y - 2 ^ fx) * 2 ^ fx / (y + 2 ^ fx)
  2 * lnTerms (z * z / 2 ^ fx) 140 0 z 0

/-- m 2^e in fixed point, rounded down. -/
def toFx (m : Nat) (e : Int) : Nat := if 0 ≤ e + fx then m * 2 ^ (e + fx).toNat else m / 2 ^ (-(e + fx)).toNat

/-- Round an irrational magnitude known to lie just above `r - err` in units of 2^-(400 - sh) (UNVERIFIED, log 27). -/
def roundFx (f : Fmt) (mode : RMode) (u : Nat) (s : Bool) (r : Int) (err : Nat) (sh : Int) : Nat × FFlags :=
  roundTo f mode u false s (r - err).toNat (sh - fx) true

/-- FEXP2. -/
def fExp2 (f : Fmt) (mode : RMode) (u a : Nat) : Nat × FFlags :=
  withNaN f [a] false (match f.decode a with
    | .inf s => (if s then 0 else f.infCode, FFlags.none)
    | .fin s m e =>
      if m = 0 then roundTo f .rn 0 false false 1 0 false
      else if 0 ≤ e + (bitLen m : Int) - 10 then
        if s then roundTo f mode u false false 1 (-600) true else roundTo f mode u false false 1 600 true
      else
        let x := toFx m e
        let n : Int := if s then -(((x + 2 ^ fx - 1) / 2 ^ fx : Nat) : Int) else (x / 2 ^ fx : Nat)
        let fr := if s then (2 ^ fx - x % 2 ^ fx) % 2 ^ fx else x % 2 ^ fx
        if fr = 0 then roundTo f mode u false false 1 n false
        else roundFx f mode u false ((2 : Int) ^ fx + fxExpm1 (fr * lnTwo / 2 ^ fx)) (2 ^ 40) n
    | .nan _ => (f.defNaN, FFlags.none))

/-- FLOG2. -/
def fLog2 (f : Fmt) (mode : RMode) (u a : Nat) : Nat × FFlags :=
  withNaN f [a] false (match f.decode a with
    | .inf s => if s then invalidRes f else (a, FFlags.none)
    | .fin s m e =>
      if m = 0 then (f.signed true f.infCode, FFlags.divZero)
      else if s then invalidRes f
      else
        let k := bitLen m - 1
        let ex : Int := e + k
        if m = 2 ^ k then roundTo f mode u false (decide (ex < 0)) ex.natAbs 0 false
        else
          let v : Int := ex * 2 ^ fx + ((fxLn (m * 2 ^ (fx - k)) * 2 ^ fx / lnTwo : Nat) : Int)
          roundFx f mode u (decide (v < 0)) (v.natAbs : Int) (2 ^ 40) 0
    | .nan _ => (f.defNaN, FFlags.none))

/-- The quadrant and the rest of |x| divided by π/2, in fixed point. -/
def quadrant (m : Nat) (e : Int) : Nat × Nat := (toFx m e / piHalf % 4, toFx m e % piHalf)

/-- FSIN and FCOS. -/
def fSin (f : Fmt) (mode : RMode) (u a : Nat) : Nat × FFlags :=
  withNaN f [a] false (match f.decode a with
    | .inf _ => invalidRes f
    | .fin s m e =>
      if m = 0 then (a, FFlags.none)
      else
        let (k, r) := quadrant m e
        roundFx f mode u (s != decide (2 ≤ k)) (if k % 2 = 0 then fxSin r else fxCos r) (2 ^ 140) 0
    | .nan _ => (f.defNaN, FFlags.none))
def fCos (f : Fmt) (mode : RMode) (u a : Nat) : Nat × FFlags :=
  withNaN f [a] false (match f.decode a with
    | .inf _ => invalidRes f
    | .fin _ m e =>
      if m = 0 then roundTo f .rn 0 false false 1 0 false
      else
        let (k, r) := quadrant m e
        roundFx f mode u (k == 1 || k == 2) (if k % 2 = 0 then fxCos r else fxSin r) (2 ^ 140) 0
    | .nan _ => (f.defNaN, FFlags.none))

/-- FTANH: (e^2x − 1)/(e^2x + 1). -/
def fTanh (f : Fmt) (mode : RMode) (u a : Nat) : Nat × FFlags :=
  withNaN f [a] false (match f.decode a with
    | .inf s => (roundTo f .rn 0 false s 1 0 false)
    | .fin s m e =>
      if m = 0 then (a, FFlags.none)
      else if 0 ≤ e + (bitLen m : Int) - 7 then roundFx f mode u s ((2 : Int) ^ fx) (2 ^ 40) 0
      else
        let y := 2 * toFx m e
        let n := y / lnTwo
        let em1 : Int := fxExpm1 (y % lnTwo) * 2 ^ n + ((2 : Int) ^ n - 1) * 2 ^ fx
        roundFx f mode u s (em1 * 2 ^ fx / (em1 + 2 * 2 ^ fx)) (2 ^ 40) 0
    | .nan _ => (f.defNaN, FFlags.none))

/-! ## Tapered formats (R142 to R146, R158) -/

/-- Leading bits of `g` (n bits) equal to the top one, counted from bit `i` downward. -/
def runLen (g b : Nat) : Nat → Nat
  | 0 => 0
  | i + 1 => if g / 2 ^ i % 2 = b then runLen g b i + 1 else 0

/-- The magnitude of a tapered magnitude field of n bits: m 2^e (R142). -/
def taperMag (n g : Nat) : Nat × Int :=
  if g = 0 then (0, 0)
  else
    let b := g / 2 ^ (n - 1) % 2
    let m := runLen g b n
    let k : Int := if b = 1 then (m : Int) - 1 else -(m : Int)
    let rest := n - m - 1
    let e := if 1 ≤ rest then g / 2 ^ (rest - 1) % 2 else 0
    let nf := rest - 1
    (2 ^ nf + g % 2 ^ nf, 2 * k + e - nf)

/-- The value of a tapered code with an n-bit magnitude field; NaR is a quiet NaN (R142, R153). -/
def taperDecode (n c : Nat) : FV :=
  let g := c % 2 ^ n
  let s := c / 2 ^ n % 2 == 1
  if g = 0 then (if s then .nan false else .fin false 0 0) else let (m, e) := taperMag n g; .fin s m e

/-- Compare m 2^e with n 2^g. -/
def dyadLe (m : Nat) (e : Int) (n : Nat) (g : Int) : Bool :=
  let k := if e ≤ g then e else g
  decide (m * 2 ^ (e - k).toNat ≤ n * 2 ^ (g - k).toNat)

/-- The largest magnitude code whose value is at most m 2^e. -/
def taperFloor (n m : Nat) (e : Int) : Nat :=
  (List.range (2 ^ n)).foldl (fun best g => let v := taperMag n g; if dyadLe v.1 v.2 m e then g else best) 0

/-- Round a finite value to a tapered code: by value between the two bracketing codes (R158). -/
def taperRound (n : Nat) (mode : RMode) (u : Nat) (s : Bool) (m : Nat) (e : Int) : Nat × FFlags :=
  let mk (g : Nat) : Nat := if g = 0 then 0 else b2n s * 2 ^ n + g
  if m = 0 then (0, FFlags.none)
  else
    let g := taperFloor n m e
    let lo := taperMag n g
    let ex : Int := if e < -20 then e else -20
    let x := m * 2 ^ (e - ex).toNat
    let l := lo.1 * 2 ^ (lo.2 - ex).toNat
    if x = l then (mk g, FFlags.none)
    else if g = 2 ^ n - 1 then (mk g, { FFlags.none with of := true, nx := true })
    else
      let hi := taperMag n (g + 1)
      let h := hi.1 * 2 ^ (hi.2 - ex).toNat
      let up := roundsUp mode u s (g % 2 == 1) (x - l) (h - l) false
      let g' := if up then g + 1 else g
      (mk g', { FFlags.none with nx := true, uf := g' == 0 })

/-! ## Conversions (R157) -/

/-- The FP format of an element format, where it is one of R139. -/
def EF.fmt : EF → Option Fmt
  | .f32 => some Fmt.f32 | .bf16 => some Fmt.bf16 | .f16 => some Fmt.f16 | .e4m3 => some Fmt.fp8e4m3
  | .e5m2 => some Fmt.fp8e5m2 | _ => none

/-- The value of a code of a float, tapered or scale format (R139, R140, R142, R146). -/
def EF.value (e : EF) (c : Nat) : FV :=
  match e with
  | .t8 => taperDecode 7 c
  | .t6 => taperDecode 5 c
  | .e8m0 => if c % 256 = 255 then .nan false else .fin false 1 ((c % 256 : Nat) - (127 : Int))
  | _ => match EF.fmt e with
    | some f => f.decode c
    | none => .fin (decide (signedOf e.width c < 0)) (signedOf e.width c).natAbs 0

/-- The FP32 code that a NaN of a source format converts to (R146, R153, R157): sign and fraction kept, quieted; that of an FP8 NaN is
the model's choice (DESIGN CHOICE, log 83). -/
def EF.nan32 (e : EF) (c : Nat) : Nat :=
  match EF.fmt e with
  | none => 0x7FC00000
  | some f =>
    if f.e4m3 then b2n (f.isNeg c) * 2 ^ 31 + 0x7FC00000
    else
      let q := b2n (f.isNeg c) * 2 ^ 31 + 0x7F800000 + c % 2 ^ f.fb * 2 ^ (23 - f.fb)
      if q / 2 ^ 22 % 2 == 1 then q else q + 2 ^ 22

/-- Round to an integer of n bits: limits with IV, NX for a discarded fraction (R157). -/
def toInt (n : Nat) (mode : RMode) (u : Nat) (s : Bool) (m : Nat) (e : Int) : Nat × FFlags :=
  let (q, r, d) := atQuantum m e 0
  let q' := if roundsUp mode u s (q % 2 == 1) r d false then q + 1 else q
  let v : Int := if s then -(q' : Int) else q'
  let lo : Int := -(2 : Int) ^ (n - 1)
  let hi : Int := (2 : Int) ^ (n - 1) - 1
  if v < lo then (wrapTo n lo, FFlags.invalid)
  else if hi < v then (wrapTo n hi, FFlags.invalid)
  else (wrapTo n v, { FFlags.none with nx := !(r == 0) })

/-- Round to a power of two (R149, R157, E8M0). The code of x ≤ 0, the tie of .RN and the upper neighbour of the largest under .RS
are the model's choice (DESIGN CHOICE, log 84). -/
def toE8m0 (mode : RMode) (u : Nat) (s : Bool) (m : Nat) (e : Int) : Nat × FFlags :=
  if m = 0 ∨ s then (0xFF, FFlags.invalid)
  else
    let k := bitLen m - 1
    let lead : Int := e + k
    let rest := m - 2 ^ k
    if lead < -127 then (0, { FFlags.none with uf := true, nx := true })
    else
      let c := (lead + 127).toNat
      let up := roundsUp mode u false (c % 2 == 1) rest (2 ^ k) false
      let c' := if up then c + 1 else c
      if 0xFE < c' then (0xFE, { FFlags.none with of := true, nx := true })
      else (c', { FFlags.none with nx := !(rest == 0) })

/-- Convert an infinity (R157). -/
def convertInf (dst : EF) (sat s : Bool) : Nat × FFlags :=
  match dst with
  | .t8 => (0x80, FFlags.invalid)
  | .t6 => (0x20, FFlags.invalid)
  | .e8m0 => (0xFF, FFlags.invalid)
  | .b1 => (b2n (!s), FFlags.none)
  | _ => match EF.fmt dst with
    | some f =>
      if sat then (f.signed s f.maxCode, FFlags.none)
      else (f.signed s f.infCode, { FFlags.none with iv := f.e4m3 })
    | none =>
      (wrapTo dst.width (if s then -(2 : Int) ^ (dst.width - 1) else (2 : Int) ^ (dst.width - 1) - 1), FFlags.invalid)

/-- Convert a NaN, given as its FP32 code (R157); IV for a signalling source, and where the row says so. -/
def convertNaN (dst : EF) (c32 : Nat) (sg : Bool) : Nat × FFlags :=
  let fl := { FFlags.none with iv := sg }
  let s := c32 / 2 ^ 31 % 2
  match dst with
  | .f32 => (c32, fl)
  | .bf16 => (c32 / 65536, fl)
  | .f16 => (s * 0x8000 + 0x7C00 + c32 % 2 ^ 23 / 2 ^ 13, fl)
  | .e4m3 => (s * 0x80 + 0x7F, fl)
  | .e5m2 => (s * 0x80 + 0x7E, fl)
  | .t8 => (0x80, fl)
  | .t6 => (0x20, fl)
  | .e8m0 => (0xFF, fl)
  | _ => (0, FFlags.invalid)

/-- Convert a finite value (R157). -/
def convertFin (dst : EF) (mode : RMode) (u : Nat) (sat s : Bool) (m : Nat) (e : Int) : Nat × FFlags :=
  match dst with
  | .t8 => taperRound 7 mode u s m e
  | .t6 => taperRound 5 mode u s m e
  | .e8m0 => toE8m0 mode u s m e
  | .b1 => (b2n (!s && !(m == 0)), FFlags.none)
  | _ => match EF.fmt dst with
    | some f => roundTo f mode u sat s m e false
    | none => toInt dst.width mode u s m e

/-- Convert one element (R157). Integer to integer wraps or clamps; every other source is widened exactly and rounded
once. -/
def convert (dst src : EF) (mode : RMode) (u : Nat) (sat : Bool) (c : Nat) : Nat × FFlags :=
  if src.isInt && dst.isInt then
    let v := signedOf src.width c
    let n := dst.width
    if sat then (wrapTo n (max (-(2 : Int) ^ (n - 1)) (min ((2 : Int) ^ (n - 1) - 1) v)), FFlags.none)
    else (wrapTo n v, FFlags.none)
  else
    match EF.value src c with
    | .nan sg => convertNaN dst (EF.nan32 src c) sg
    | .inf s => convertInf dst sat s
    | .fin s m e => convertFin dst mode u sat s m e

/-! ## Packed elements (R138) -/

/-- Element `k` of width `n` in a value. -/
def elemAt (n x k : Nat) : Nat := x / 2 ^ (n * k) % 2 ^ n

/-- Replace element `k` of width `n`. -/
def elemSet (n x k v : Nat) : Nat := x - elemAt n x k * 2 ^ (n * k) + v % 2 ^ n * 2 ^ (n * k)

/-- Apply a function to each of `cnt` elements of width `n`, collecting flags. -/
def mapElems (n cnt : Nat) (f : Nat → Nat × FFlags) : Nat × FFlags :=
  (List.range cnt).foldl (fun acc k =>
    let r := f k
    (acc.1 + r.1 % 2 ^ n * 2 ^ (n * k), acc.2.or r.2)) (0, FFlags.none)

end Sys2Proof.Machine
end

