-- ==== Sys2Proof/Machine/Int.lean ====
section
/-! DEFINITION. The integer results of spec/18 R286 to R289 and spec/19 R312 to R318: exact, then wrapped or clamped to
the element type. -/

namespace Sys2Proof

/-- Bits of one element of a variant (spec/17 R269). -/
def IVar.bits : IVar → Nat
  | .i32 => 32 | .u32 => 32 | .i16 => 16 | .u16 => 16 | .i8 => 8 | .u8 => 8 | .i64 => 64 | .u64 => 64
def IVar.isSigned : IVar → Bool
  | .i32 => true | .i16 => true | .i8 => true | .i64 => true | _ => false
/-- Whether operands are 64-bit pairs (R138). -/
def IVar.wide (v : IVar) : Bool := v.bits == 64
/-- The value of an element as its type reads it. -/
def IVar.val (v : IVar) (x : Nat) : Int := if v.isSigned then signedOf v.bits x else ((x % 2 ^ v.bits : Nat) : Int)
def IVar.lo (v : IVar) : Int := if v.isSigned then -(2 : Int) ^ (v.bits - 1) else 0
def IVar.hi (v : IVar) : Int := if v.isSigned then (2 : Int) ^ (v.bits - 1) - 1 else (2 : Int) ^ v.bits - 1
/-- The result of an exact value: clamped under SAT, else modulo 2^n (R286, R312). -/
def IVar.fit (v : IVar) (sat : Bool) (t : Int) : Nat :=
  if sat then wrapTo v.bits (max v.lo (min v.hi t)) else wrapTo v.bits t

/-- The relation of SCMP and ICMP (R288, R313). -/
def Cmp.holds (c : Cmp) (a b : Int) : Bool :=
  match c with
  | .eq => decide (a = b) | .ne => !decide (a = b) | .lt => decide (a < b) | .le => decide (a ≤ b)
  | .gt => decide (b < a) | .ge => decide (b ≤ a)

end Sys2Proof

namespace Sys2Proof.Machine

/-! ## One element -/

def iAdd (v : IVar) (sat : Bool) (a b : Nat) : Nat := v.fit sat (v.val a + v.val b)
def iSub (v : IVar) (sat : Bool) (a b : Nat) : Nat := v.fit sat (v.val a - v.val b)
def iMul (v : IVar) (sat : Bool) (a b : Nat) : Nat := v.fit sat (v.val a * v.val b)
/-- Bits [2n−1:n] of the 2n-bit product. -/
def iMulh (v : IVar) (a b : Nat) : Nat := wrapTo (2 * v.bits) (v.val a * v.val b) / 2 ^ v.bits
def iMad (v : IVar) (sat : Bool) (a b c : Nat) : Nat := v.fit sat (v.val a * v.val b + v.val c)
def iMin (v : IVar) (a b : Nat) : Nat := if v.val a ≤ v.val b then a else b
def iMax (v : IVar) (a b : Nat) : Nat := if v.val b ≤ v.val a then a else b
def iAbs (v : IVar) (sat : Bool) (a : Nat) : Nat := v.fit sat (v.val a).natAbs

/-- Bitwise complement of n bits. -/
def iNot (n a : Nat) : Nat := 2 ^ n - 1 - a % 2 ^ n
/-- Shifts by an unsigned count (R287). -/
def iShl (n a c : Nat) : Nat := if c < n then a * 2 ^ c % 2 ^ n else 0
def iShr (n a c : Nat) : Nat := if c < n then a % 2 ^ n / 2 ^ c else 0
def iSra (n a c : Nat) : Nat :=
  if c < n then wrapTo n (signedOf n a / (2 : Int) ^ c) else if bitAt a (n - 1) then 2 ^ n - 1 else 0
/-- Leading zero bits of n bits (R289). -/
def iClz (n a : Nat) : Nat := if a % 2 ^ n = 0 then n else n - 1 - (a % 2 ^ n).log2

/-- The width of the .I32 and .I64 forms. -/
def wbits (wide : Bool) : Nat := if wide then 64 else 32

end Sys2Proof.Machine
end

