-- ==== Sys2Proof/Machine/VecInt.lean ====
section
/-! DEFINITION. Class 1: vector integer, address, index and predicate instructions (spec/19 R306 to R321). -/

namespace Sys2Proof.Machine

/-! ## Shared operations -/

/-- A vector value field: position, operand, width; position 0 is the destination. -/
def fld (j : Nat) (o : Opnd) (wide : Bool) : VF := { j := j, o := o, n := if wide then 2 else 1, dst := j == 0 }

/-- Read a source of either width in a lane. -/
def W.get (w : W) (wide : Bool) (j : Nat) (o : Opnd) (l : Nat) : Nat :=
  if wide then (w.rd64 j o l).toNat else (w.rd j o l).toNat

/-- Write a vector destination of either width in a lane. -/
def W.put (w : W) (t : Thread) (wide : Bool) (o : Opnd) (l : Nat) (x : Nat) : Thread :=
  if wide then w.wrV64 t 0 o l (BitVec.ofNat 64 x) else w.wrV t 0 o l (BitVec.ofNat 32 x)

/-- Build a packed value from its elements (R138). -/
def packN (n cnt : Nat) (f : Nat → Nat) : Nat :=
  (List.range cnt).foldl (fun acc k => acc + f k % 2 ^ n * 2 ^ (n * k)) 0

/-- One result for each element position (R308). -/
def imap1 (v : IVar) (f : Nat → Nat) (a : Nat) : Nat := packN v.bits v.count (fun k => f (elemAt v.bits a k))
def imap2 (v : IVar) (f : Nat → Nat → Nat) (a b : Nat) : Nat :=
  packN v.bits v.count (fun k => f (elemAt v.bits a k) (elemAt v.bits b k))
def imap3 (v : IVar) (f : Nat → Nat → Nat → Nat) (a b c : Nat) : Nat :=
  packN v.bits v.count (fun k => f (elemAt v.bits a k) (elemAt v.bits b k) (elemAt v.bits c k))

/-- A vector form with D and A. -/
def vec1 (cls : Nat) (h : Hd) (dw aw : Bool) (d a : Opnd) (f : Nat → Nat) (s : State) : Out :=
  runWord cls .lg h s fun w =>
    w.vector [fld 0 d dw, fld 1 a aw] fun t l => w.put t dw d l (f (w.get aw 1 a l))

/-- A vector form with D, A and B. -/
def vec2 (cls : Nat) (h : Hd) (dw aw bw : Bool) (d a b : Opnd) (f : Nat → Nat → Nat) (s : State) : Out :=
  runWord cls .lg h s fun w =>
    w.vector [fld 0 d dw, fld 1 a aw, fld 2 b bw] fun t l => w.put t dw d l (f (w.get aw 1 a l) (w.get bw 2 b l))

/-- A vector form with D, A, B and C of one width. -/
def vec3 (cls : Nat) (h : Hd) (wd : Bool) (d a b c : Opnd) (f : Nat → Nat → Nat → Nat) (s : State) : Out :=
  runWord cls .lg h s fun w =>
    w.vector [fld 0 d wd, fld 1 a wd, fld 2 b wd, fld 3 c wd] fun t l =>
      w.put t wd d l (f (w.get wd 1 a l) (w.get wd 2 b l) (w.get wd 3 c l))

/-- One bit of a predicate. -/
def Thread.setPBit (t : Thread) (p l : Nat) (b : Bool) : Thread :=
  let m := BitVec.ofNat 32 (2 ^ l)
  t.setP p m (if b then m else 0)

/-- A vector form that writes a predicate in each lane that takes part. -/
def vecPred (cls : Nat) (h : Hd) (fs : List VF) (p : Nat) (f : W → Nat → Bool) (s : State) : Out :=
  runWord cls .lg h s fun w => w.vector fs fun t l => t.setPBit p l (f w l)

/-! ## Arithmetic (R312, R313) -/

/-- IADD. -/
def execIadd (h : Hd) (v : IVar) (sat : Bool) (d a b : Opnd) (s : State) : Out :=
  vec2 1 h v.wide v.wide v.wide d a b (imap2 v (iAdd v sat)) s
/-- ISUB. -/
def execIsub (h : Hd) (v : IVar) (sat : Bool) (d a b : Opnd) (s : State) : Out :=
  vec2 1 h v.wide v.wide v.wide d a b (imap2 v (iSub v sat)) s
/-- IMUL. -/
def execImul (h : Hd) (v : IVar) (sat : Bool) (d a b : Opnd) (s : State) : Out :=
  vec2 1 h v.wide v.wide v.wide d a b (imap2 v (iMul v sat)) s
/-- IMULH. -/
def execImulh (h : Hd) (v : IVar) (d a b : Opnd) (s : State) : Out :=
  vec2 1 h v.wide v.wide v.wide d a b (imap2 v (iMulh v)) s
/-- IMAD. -/
def execImad (h : Hd) (v : IVar) (sat : Bool) (d a b c : Opnd) (s : State) : Out :=
  vec3 1 h v.wide d a b c (imap3 v (iMad v sat)) s
/-- IMIN. -/
def execImin (h : Hd) (v : IVar) (d a b : Opnd) (s : State) : Out :=
  vec2 1 h v.wide v.wide v.wide d a b (imap2 v (iMin v)) s
/-- IMAX. -/
def execImax (h : Hd) (v : IVar) (d a b : Opnd) (s : State) : Out :=
  vec2 1 h v.wide v.wide v.wide d a b (imap2 v (iMax v)) s
/-- IABS. -/
def execIabs (h : Hd) (v : IVar) (sat : Bool) (d a : Opnd) (s : State) : Out :=
  vec1 1 h v.wide v.wide d a (imap1 v (iAbs v sat)) s

/-- ICMP (R313). -/
def execIcmp (h : Hd) (v : IVar) (c : Cmp) (elem : Fin 4) (p : Fin 8) (a b : Opnd) (s : State) : Out :=
  vecPred 1 h [fld 1 a v.wide, fld 2 b v.wide] p.val (fun w l =>
    c.holds (v.val (elemAt v.bits (w.get v.wide 1 a l) elem.val)) (v.val (elemAt v.bits (w.get v.wide 2 b l) elem.val))) s

/-! ## Logic and shifts (R314, R315) -/

/-- IAND. -/
def execIand (h : Hd) (w : Bool) (d a b : Opnd) (s : State) : Out := vec2 1 h w w w d a b (fun x y => x &&& y) s
/-- IOR. -/
def execIor (h : Hd) (w : Bool) (d a b : Opnd) (s : State) : Out := vec2 1 h w w w d a b (fun x y => x ||| y) s
/-- IXOR. -/
def execIxor (h : Hd) (w : Bool) (d a b : Opnd) (s : State) : Out := vec2 1 h w w w d a b (fun x y => x ^^^ y) s
/-- INOT. -/
def execInot (h : Hd) (w : Bool) (d a : Opnd) (s : State) : Out := vec1 1 h w w d a (iNot (wbits w)) s
/-- ISHL: B is a 32-bit count. -/
def execIshl (h : Hd) (w : Bool) (d a b : Opnd) (s : State) : Out := vec2 1 h w w false d a b (iShl (wbits w)) s
/-- ISHR. -/
def execIshr (h : Hd) (w : Bool) (d a b : Opnd) (s : State) : Out := vec2 1 h w w false d a b (iShr (wbits w)) s
/-- ISRA. -/
def execIsra (h : Hd) (w : Bool) (d a b : Opnd) (s : State) : Out := vec2 1 h w w false d a b (iSra (wbits w)) s
/-- IPOPC: D is one register. -/
def execIpopc (h : Hd) (w : Bool) (d a : Opnd) (s : State) : Out := vec1 1 h false w d a (popCount (wbits w)) s
/-- ICLZ: D is one register. -/
def execIclz (h : Hd) (w : Bool) (d a : Opnd) (s : State) : Out := vec1 1 h false w d a (iClz (wbits w)) s

/-- pos and len of a bit field (R315). -/
def fieldPos (b : Nat) : Nat := b % 32
def fieldLen (b c : Nat) : Nat := min (c % 64) (32 - fieldPos b)

/-- IBFE on one lane. -/
def bfe (u : Bool) (a b c : Nat) : Nat :=
  let len := fieldLen b c
  let x := a / 2 ^ fieldPos b % 2 ^ len
  if len = 0 then 0 else if u then x else wrapTo 32 (signedOf len x)

/-- IBFE. -/
def execIbfe (h : Hd) (u : Bool) (d a b c : Opnd) (s : State) : Out := vec3 1 h false d a b c (bfe u) s

/-- IBFI on one lane: `x` is the old D. -/
def bfi (x a b c : Nat) : Nat :=
  let pos := fieldPos b
  let len := fieldLen b c
  x - x / 2 ^ pos % 2 ^ len * 2 ^ pos + a % 2 ^ len * 2 ^ pos

/-- IBFI: D is also a source (R308). -/
def execIbfi (h : Hd) (d a b c : Opnd) (s : State) : Out :=
  runWord 1 .lg h s fun w =>
    w.vector [fld 0 d false, { fld 0 d false with dst := false }, fld 1 a false, fld 2 b false, fld 3 c false] fun t l =>
      w.put t false d l (bfi (w.get false 0 d l) (w.get false 1 a l) (w.get false 2 b l) (w.get false 3 c l))

/-! ## Select, move, pack, address, index (R316 to R320) -/

/-- ISEL. -/
def execIsel (h : Hd) (wd : Bool) (p : Fin 8) (d a b : Opnd) (s : State) : Out :=
  runWord 1 .lg h s fun w =>
    w.vector [fld 0 d wd, fld 1 a wd, fld 2 b wd] fun t l =>
      w.put t wd d l (if (w.t.getP p.val).getLsbD l then w.get wd 1 a l else w.get wd 2 b l)

/-- IMOV. -/
def execImov (h : Hd) (w : Bool) (d a : Opnd) (s : State) : Out := vec1 1 h w w d a (fun x => x) s

/-- Narrow one element of 2n bits to n bits (R317). -/
def narrow (v : IVar) (sat : Bool) (x : Nat) : Nat :=
  let y : Int := if v.isSigned then signedOf (2 * v.bits) x else ((x % 2 ^ (2 * v.bits) : Nat) : Int)
  v.fit sat y

/-- PACK: the elements of A, then those of B, narrowed. -/
def execPack (h : Hd) (v : IVar) (sat : Bool) (d a b : Opnd) (s : State) : Out :=
  vec2 1 h false false false d a b (fun x y =>
    packN v.bits v.count (fun k =>
      let half := v.count / 2
      narrow v sat (if k < half then elemAt (2 * v.bits) x k else elemAt (2 * v.bits) y (k - half)))) s

/-- UNPK: elements SEL · (count / 2) onward, widened. -/
def execUnpk (h : Hd) (v : IVar) (sel : Bool) (d a : Opnd) (s : State) : Out :=
  vec1 1 h false false d a (fun x =>
    let half := v.count / 2
    packN (2 * v.bits) half (fun k => wrapTo (2 * v.bits) (v.val (elemAt v.bits x (b2n sel * half + k))))) s

/-- IADDSH: B is a 32-bit value, sign-extended in .I64 (R318). -/
def execIaddsh (h : Hd) (w : Bool) (sh : Fin 8) (d a b : Opnd) (s : State) : Out :=
  vec2 1 h w w false d a b (fun x y => wrapTo (wbits w) ((x : Int) + signedOf 32 y * 2 ^ sh.val)) s

/-- XSET (R319). -/
def execXset (h : Hd) (x : Fin 4) (a : Opnd) (s : State) : Out :=
  runWord 1 .lg h s fun w =>
    w.vector [fld 1 a false] fun t l => t.setXs [(x.val, l, (w.rd 1 a l).setWidth 16)]

/-- XSET.RD. -/
def execXsetRd (h : Hd) (d : Opnd) (x : Fin 4) (s : State) : Out :=
  runWord 1 .lg h s fun w =>
    w.vector [fld 0 d false] fun t l => w.wrV t 0 d l ((w.t.getX x.val l).signExtend 32)

/-- XADD. -/
def execXadd (h : Hd) (xd xa : Fin 4) (b : Opnd) (s : State) : Out :=
  runWord 1 .lg h s fun w =>
    w.vector [fld 2 b false] fun t l => t.setXs [(xd.val, l, w.t.getX xa.val l + (w.rd 2 b l).setWidth 16)]

/-- PLOG on one lane (R320). -/
def plogBit (o : POp) (a b : Bool) : Bool :=
  match o with
  | .and => a && b | .or => a || b | .xor => a != b | .andn => a && !b | .not => !a | .mov => a

/-- PLOG. -/
def execPlog (h : Hd) (op : POp) (pd pa pb : Fin 8) (s : State) : Out :=
  vecPred 1 h [] pd.val (fun w l => plogBit op ((w.t.getP pa.val).getLsbD l) ((w.t.getP pb.val).getLsbD l)) s

/-- A change of the thread for each lane that takes part, without fields to check. -/
def W.lanes (w : W) (f : Thread → Nat → Thread) : WRes := w.acts (WRes.own w (w.eachLane f))

/-- PHILOX (R321): runs of four registers, a 64-bit scalar key. -/
def execPhilox (h : Hd) (d a b : Opnd) (s : State) : Out :=
  runWord 1 .lg h s fun w =>
    checked (firstBad [runBad w 0 d 4 1, runBad w 1 a 4 1, uniformBad 2 2 b]) <|
      if w.runArrived (regNo a) 4 w.part then
        w.lanes fun t l =>
          let g (k : Nat) : Nat := (w.t.getV (regNo a + k) l).toNat
          let key := (w.rd64 2 b l).toNat
          let r := philox (g 0) (g 1) (g 2) (g 3) (key % 2 ^ 32) (key / 2 ^ 32)
          t.setVs [(regNo d, l, BitVec.ofNat 32 r.1), (regNo d + 1, l, BitVec.ofNat 32 r.2.1),
            (regNo d + 2, l, BitVec.ofNat 32 r.2.2.1), (regNo d + 3, l, BitVec.ofNat 32 r.2.2.2)]
      else .stay w.a .arrival

end Sys2Proof.Machine
end

