-- ==== Sys2Proof/Machine/VecFloat.lean ====
section
/-! DEFINITION. Class 2: vector float, conversion and the block-scaled encodings (spec/19 R322 to R332). -/

namespace Sys2Proof.Machine

/-! ## Shared operations -/

/-- The mode of an instruction (R148). -/
def W.mode (w : W) (rm : RM) : RMode := rm.resolve w.t.sr.fpctl

/-- The draw of element `e` of lane `l` under .RS (R150). -/
def W.draw (w : W) (mode : RMode) (e l : Nat) : Nat :=
  match mode with
  | .rs => Machine.draw w.t.sr.key w.t.sr.ctr e l
  | _ => 0

/-- The counter advances once after an instruction that rounds with .RS (R150). -/
def Thread.afterRs (t : Thread) (mode : Option RMode) : Thread :=
  match mode with
  | some .rs => t.advanceCtr
  | _ => t

/-- A float form: its checks and arrivals, then for each lane that takes part a change of the thread; the counter advances
once (R322). -/
def W.float (w : W) (fs : List VF) (mode : Option RMode) (f : Thread → Nat → Thread) : WRes :=
  checked (vecBad w fs) <|
    if w.arrived (fs.filter (fun x => !x.dst)) then w.acts (WRes.own w ((w.eachLane f).afterRs mode)) else .stay w.a .arrival

/-- Write a result with its flags (R154). -/
def W.putF (w : W) (t : Thread) (wide : Bool) (d : Opnd) (l : Nat) (r : Nat × FFlags) : Thread :=
  (w.put t wide d l r.1).orFlags r.2

/-- The format of a float variant. -/
def fmtOf (e : EF) : Fmt := (EF.fmt e).getD Fmt.f32

/-- A float form with D and A. -/
def float1 (h : Hd) (e : EF) (rm : Option RM) (d a : Opnd) (op : Fmt → RMode → Nat → Nat → Nat × FFlags) (s : State) : Out :=
  runWord 2 .lg h s fun w =>
    let mode := rm.map w.mode
    let m := mode.getD .rn
    w.float [fld 0 d false, fld 1 a false] mode fun t l =>
      w.putF t false d l (mapElems e.width e.count (fun k =>
        op (fmtOf e) m (w.draw m k l) (elemAt e.width (w.get false 1 a l) k)))

/-- A float form with D, A and B. -/
def float2 (h : Hd) (e : EF) (rm : Option RM) (d a b : Opnd) (op : Fmt → RMode → Nat → Nat → Nat → Nat × FFlags)
    (s : State) : Out :=
  runWord 2 .lg h s fun w =>
    let mode := rm.map w.mode
    let m := mode.getD .rn
    w.float [fld 0 d false, fld 1 a false, fld 2 b false] mode fun t l =>
      w.putF t false d l (mapElems e.width e.count (fun k =>
        op (fmtOf e) m (w.draw m k l) (elemAt e.width (w.get false 1 a l) k) (elemAt e.width (w.get false 2 b l) k)))

/-! ## Arithmetic (R323 to R328) -/

/-- FADD. -/
def execFadd (h : Hd) (f : EF) (rm : RM) (d a b : Opnd) (s : State) : Out := float2 h f (some rm) d a b fAdd s
/-- FSUB. -/
def execFsub (h : Hd) (f : EF) (rm : RM) (d a b : Opnd) (s : State) : Out := float2 h f (some rm) d a b fSub s
/-- FMUL. -/
def execFmul (h : Hd) (f : EF) (rm : RM) (d a b : Opnd) (s : State) : Out := float2 h f (some rm) d a b fMul s
/-- FFMA. -/
def execFfma (h : Hd) (f : EF) (rm : RM) (d a b c : Opnd) (s : State) : Out :=
  runWord 2 .lg h s fun w =>
    let m := w.mode rm
    w.float [fld 0 d false, fld 1 a false, fld 2 b false, fld 3 c false] (some m) fun t l =>
      w.putF t false d l (mapElems f.width f.count (fun k =>
        fFma (fmtOf f) m (w.draw m k l) (elemAt f.width (w.get false 1 a l) k) (elemAt f.width (w.get false 2 b l) k)
          (elemAt f.width (w.get false 3 c l) k)))
/-- FMIN (R324). -/
def execFmin (h : Hd) (f : EF) (d a b : Opnd) (s : State) : Out := float2 h f none d a b (fun g _ _ x y => fMin g x y) s
/-- FMAX. -/
def execFmax (h : Hd) (f : EF) (d a b : Opnd) (s : State) : Out := float2 h f none d a b (fun g _ _ x y => fMax g x y) s
/-- FABS. -/
def execFabs (h : Hd) (f : EF) (d a : Opnd) (s : State) : Out :=
  float1 h f none d a (fun g _ _ x => (x % g.signBit, FFlags.none)) s
/-- FNEG. -/
def execFneg (h : Hd) (f : EF) (d a : Opnd) (s : State) : Out :=
  float1 h f none d a (fun g _ _ x => (x ^^^ g.signBit, FFlags.none)) s

/-- FCMP: the predicate of each lane that takes part, with its flags (R325). -/
def execFcmp (h : Hd) (f : EF) (c : FCmp) (elem : Bool) (p : Fin 8) (a b : Opnd) (s : State) : Out :=
  runWord 2 .lg h s fun w =>
    w.float [fld 1 a false, fld 2 b false] none fun t l =>
      let r := fCmp (fmtOf f) c (elemAt f.width (w.get false 1 a l) (b2n elem)) (elemAt f.width (w.get false 2 b l) (b2n elem))
      (t.setPBit p.val l r.1).orFlags r.2

/-- FDIV (R326). -/
def execFdiv (h : Hd) (rm : RM) (d a b : Opnd) (s : State) : Out := float2 h .f32 (some rm) d a b fDiv s
/-- FSQRT. -/
def execFsqrt (h : Hd) (rm : RM) (d a : Opnd) (s : State) : Out := float1 h .f32 (some rm) d a fSqrt s
/-- FRCP. -/
def execFrcp (h : Hd) (rm : RM) (d a : Opnd) (s : State) : Out := float1 h .f32 (some rm) d a fRcp s
/-- FRSQ. -/
def execFrsq (h : Hd) (rm : RM) (d a : Opnd) (s : State) : Out := float1 h .f32 (some rm) d a fRsq s
/-- FEXP2. -/
def execFexp2 (h : Hd) (rm : RM) (d a : Opnd) (s : State) : Out := float1 h .f32 (some rm) d a fExp2 s
/-- FLOG2. -/
def execFlog2 (h : Hd) (rm : RM) (d a : Opnd) (s : State) : Out := float1 h .f32 (some rm) d a fLog2 s
/-- FSIN. -/
def execFsin (h : Hd) (rm : RM) (d a : Opnd) (s : State) : Out := float1 h .f32 (some rm) d a fSin s
/-- FCOS. -/
def execFcos (h : Hd) (rm : RM) (d a : Opnd) (s : State) : Out := float1 h .f32 (some rm) d a fCos s
/-- FTANH. -/
def execFtanh (h : Hd) (rm : RM) (d a : Opnd) (s : State) : Out := float1 h .f32 (some rm) d a fTanh s
/-- FCLASS (R327). -/
def execFclass (h : Hd) (f : EF) (d a : Opnd) (s : State) : Out :=
  float1 h f none d a (fun g _ _ x => (fClass g x, FFlags.none)) s
/-- FRND (R328). -/
def execFrnd (h : Hd) (f : EF) (rm : RM) (d a : Opnd) (s : State) : Out := float1 h f (some rm) d a fRnd s

/-! ## Conversion (R329) -/

/-- Whether an element format fills a register pair (R138, R329). -/
def EF.isPair : EF → Bool
  | .i64 => true | .t6 => true | _ => false

/-- FCVT of one lane: the old D with the converted elements. -/
def cvtLane (dst src : EF) (pos : Nat) (sat : Bool) (mode : RMode) (u : Nat → Nat) (old x : Nat) : Nat × FFlags :=
  let cs := src.count
  let cd := dst.count
  let c := min cs cd
  let r := (List.range c).foldl (fun (acc : Nat × FFlags) k =>
    let si := if cd ≤ cs then pos * c + k else k
    let ti := if cd ≤ cs then k else pos * c + k
    if si < cs ∧ ti < cd then
      let y := convert dst src mode (u ti) sat (elemAt src.width x si)
      (elemSet dst.width acc.1 ti y.1, acc.2.or y.2)
    else acc) (old, FFlags.none)
  (if dst = .t6 then r.1 % 2 ^ 60 else r.1, r.2)

/-- FCVT: D is also a source (R308). -/
def execFcvt (h : Hd) (dst src : EF) (pos : Fin 32) (sat : Bool) (rm : RM) (d a : Opnd) (s : State) : Out :=
  runWord 2 .lg h s fun w =>
    let m := w.mode rm
    let dw := EF.isPair dst
    let sw := EF.isPair src
    w.float [fld 0 d dw, { fld 0 d dw with dst := false }, fld 1 a sw] (some m) fun t l =>
      w.putF t dw d l (cvtLane dst src pos.val sat m (fun k => w.draw m k l) (w.get dw 0 d l) (w.get sw 1 a l))

/-! ## Block-scaled encodings (R330 to R332) -/

/-- The FORMAT code of a variant (R330). -/
def formatOf : EF → Nat
  | .e4m3 => 1 | .e5m2 => 2 | .t8 => 3 | .t6 => 4 | .i8 => 5 | _ => 8

/-- The scale that a header gives (R330). -/
def scaleOf (hdr : Nat) : Nat := if hdr % 256 = 0 then 127 else hdr / 256 % 256

/-- The FORMAT check in every active lane (R330), once B has arrived where the instruction reads it (R309). -/
def formatBad (w : W) (e : EF) (b : Opnd) : Option Bad :=
  if !w.arrived [fld 2 b false] then none
  else (Lanes.toList w.c.lanes).findSome? (fun l =>
    let x := w.get false 2 b l
    if x % 256 = 0 ∨ x % 256 = formatOf e then none else some (operandBad 2 9 l (BitVec.ofNat 64 (x % 65536))))

/-- Encode one FP32 value under a scale (R331). -/
def encodeScaled (e : EF) (mode : RMode) (u s x : Nat) : Nat × FFlags :=
  let sat := decide (e = .e4m3) || decide (e = .e5m2)
  if s = 255 then convertNaN e 0x7FC00000 false
  else match Fmt.f32.decode x with
    | .nan sg => convertNaN e (EF.nan32 .f32 x) sg
    | .inf sn => convertInf e sat sn
    | .fin sn m ex => convertFin e mode u sat sn m (ex + 127 - s)

/-- Decode one code under a scale to FP32 (R332). -/
def decodeScaled (e : EF) (mode : RMode) (u s c : Nat) : Nat × FFlags :=
  let v := if e = .b1 then FV.fin false (c % 2) 0 else EF.value e c
  match v with
  | .nan _ => (0x7FC00000 + (match EF.fmt e with | some f => b2n (f.isNeg c) * 2 ^ 31 | none => 0), FFlags.none)
  | .inf sn => if s = 255 then (0x7FC00000, FFlags.none) else (Fmt.f32.signed sn Fmt.f32.infCode, FFlags.none)
  | .fin sn m ex => if s = 255 then (0x7FC00000, FFlags.none) else roundTo Fmt.f32 mode u false sn m (ex + s - 127) false

/-- NENC. -/
def execNenc (h : Hd) (e : EF) (rm : RM) (d a b : Opnd) (s : State) : Out :=
  runWord 2 .lg h s fun w =>
    let m := w.mode rm
    let dw := EF.isPair e
    checked (firstBad [(fld 0 d dw).bad w, runBad w 1 a e.count 1, vecBad w [fld 0 d dw, fld 2 b false], formatBad w e b]) <|
      if w.runArrived (regNo a) e.count w.part && w.arrived [fld 2 b false] then
        w.acts (WRes.own w ((w.eachLane (fun t l =>
          let sc := scaleOf (w.get false 2 b l)
          w.putF t dw d l (mapElems e.width e.count (fun k =>
            encodeScaled e m (w.draw m k l) sc (w.t.getV (regNo a + k) l).toNat)))).afterRs (some m)))
      else .stay w.a .arrival

/-- NDEC. -/
def execNdec (h : Hd) (e : EF) (rm : RM) (d a b : Opnd) (s : State) : Out :=
  runWord 2 .lg h s fun w =>
    let m := w.mode rm
    let aw := EF.isPair e
    checked (firstBad [runBad w 0 d e.count 1, vecBad w [fld 1 a aw, fld 2 b false], formatBad w e b]) <|
      if w.arrived [fld 1 a aw, fld 2 b false] then
        w.acts (WRes.own w ((w.eachLane (fun t l =>
          let sc := scaleOf (w.get false 2 b l)
          let x := w.get aw 1 a l
          (List.range e.count).foldl (fun t k =>
            let r := decodeScaled e m (w.draw m k l) sc (elemAt e.width x k)
            (t.setV (regNo d + k) l (BitVec.ofNat 32 r.1)).orFlags r.2) t)).afterRs (some m)))
      else .stay w.a .arrival

end Sys2Proof.Machine
end

