-- ==== Sys2Proof/Machine/Slice.lean ====
section
/-! DEFINITION. The MX slice (spec/22 R385 to R405, spec/08 R159 to R161): operand fragments, one matrix step, tiles with
their shadows, and the queue of operations that each core's slice performs in issue order. -/

namespace Sys2Proof.Machine

/-! ## Fragments (R388) -/

def Frag.empty : Frag := { data := [], hdr := [], present := 0, valid := false }

/-- The fragment that a run of registers gives in some lanes (R388). -/
def fragOfRegs (t : Thread) (reg : Nat) (withHdr : Bool) (lanes : Lanes) : Frag :=
  let ls := Lanes.toList lanes
  { data := ls.flatMap (fun l => (List.range 16).map (fun j => (16 * l + j, t.getV (reg + j) l))),
    hdr := if withHdr then ls.map (fun l => (l, (t.getV (reg + 16) l).setWidth 16)) else [],
    present := lanes, valid := true }

/-- The union of two fragments with disjoint rows (R393). -/
def Frag.join (a b : Frag) : Frag :=
  { data := tsets a.data b.data, hdr := tsets a.hdr b.hdr, present := a.present ||| b.present, valid := true }

/-- Header of a row; absent, the variant's format and scale 127 (R391). -/
def Frag.header (f : Frag) (r : Nat) : Nat := (tgetD f.hdr r 0).toNat

/-- Bits `n` of element `k` of row `r` (R138, R145). -/
def Frag.elem (f : Frag) (r n k : Nat) : Nat :=
  let w (j : Nat) : Nat := (tgetD f.data (16 * r + j) 0).toNat
  if n = 6 then elemAt 6 (w (2 * (k / 10)) + w (2 * (k / 10) + 1) * 2 ^ 32) (k % 10)
  else elemAt n (w (k * n / 32)) (k % (32 / n))

/-! ## Variants -/

/-- The element format of a variant under a header's FORMAT (R391). -/
def mmaFormat (v : MmaV) (format : Nat) : EF :=
  match format with
  | 1 => .e4m3 | 2 => .e5m2 | 3 => .t8 | 4 => .t6 | 5 => .i8 | 6 => .bf16 | 7 => .f16 | 8 => .b1
  | _ => match v with
    | .f32 => .f32 | .bf16 => .bf16 | .f16 => .f16 | .e4m3 => .e4m3 | .e5m2 => .e5m2 | .t8 => .t8 | .t6 => .t6
    | .i8 => .i8 | .bx => .b1 | .ba => .b1

/-- K positions of one granule (R159, R392). -/
def mmaDepth : MmaV → Nat
  | .f32 => 16 | .bf16 => 32 | .f16 => 32 | .e4m3 => 64 | .e5m2 => 64 | .t8 => 64 | .t6 => 80 | .i8 => 64 | .bx => 512
  | .ba => 512

/-- Whether a variant accepts a block header (R391). -/
def headerOk (v : MmaV) (hdr : Nat) : Bool :=
  let f := hdr % 256
  let s := hdr / 256 % 256
  f == 0 || match v with
    | .f32 => false
    | .bf16 => f == 6 || f == 7
    | .f16 => f == 6 || f == 7
    | .e4m3 => f == 1 || f == 2 || f == 3
    | .e5m2 => f == 1 || f == 2 || f == 3
    | .t8 => f == 1 || f == 2 || f == 3
    | .t6 => f == 4
    | .i8 => f == 5 && s == 127
    | .bx => f == 8 && s == 127
    | .ba => f == 8 && s == 127

/-- The rows of a fragment whose header a check refuses; the lowest is named. -/
def Frag.badHeader (f : Frag) (ok : Nat → Bool) : Option Nat :=
  (Lanes.toList f.present).find? (fun r => !ok (f.header r))

/-! ## One step (R159 to R161, R394) -/

/-- An operand element as the matrix path widens it (R146, R147): FP32 is rounded to F19. -/
def mmaElem (v : MmaV) (f : Frag) (r k : Nat) : FV :=
  let h := f.header r
  let e := mmaFormat v (h % 256)
  let s := scaleOf h
  let c := f.elem r e.width k
  if s = 255 then .nan false
  else
    let x := match e with
      | .f32 => match Fmt.f32.decode c with
        | .fin sg m ex => Fmt.f19.decode (roundTo Fmt.f19 .rn 0 false sg m ex false).1
        | y => y
      | _ => EF.value e c
    match x with
    | .fin sg m ex => .fin sg m (ex + s - 127)
    | y => y

/-- What a group of products comes to: a NaN with its invalid flag, or an exact value. -/
def mmaGroup (ps : List (FV × FV)) : Bool × Bool × FV :=
  ps.foldl (fun (acc : Bool × Bool × FV) p =>
    let iv := p.1 == .nan true || p.2 == .nan true
    match p.1, p.2 with
    | .nan _, _ => (true, acc.2.1 || iv, acc.2.2)
    | _, .nan _ => (true, acc.2.1 || iv, acc.2.2)
    | a, b => match mulFV a b with
      | none => (true, true, acc.2.2)
      | some x => match acc.2.2, x with
        | .inf s, .inf t => if s == t then acc else (true, true, acc.2.2)
        | .inf s, _ => (acc.1, acc.2.1, .inf s)
        | _, .inf t => (acc.1, acc.2.1, .inf t)
        | .fin s m e, .fin t n g =>
          let r := exactAdd .rn s m e t n g
          (acc.1, acc.2.1, .fin r.1 r.2.1 r.2.2)
        | y, _ => (acc.1, acc.2.1, y)) (false, false, .fin true 0 0)

/-- An FP32 addition of the step, forced to the default NaN (R160). -/
def mmaAdd (mode : RMode) (u a b : Nat) : Nat × FFlags :=
  let r := fAdd Fmt.f32 mode u a b
  (if Fmt.f32.isNaN r.1 then Fmt.f32.defNaN else r.1, r.2)

/-- The tree of R159 over one to five group sums. -/
def mmaTree (g : List Nat) (fl : FFlags) : Nat × FFlags :=
  let node (x y : Nat × FFlags) : Nat × FFlags := let r := mmaAdd .rn 0 x.1 y.1; (r.1, (x.2.or y.2).or r.2)
  let z (i : Nat) : Nat × FFlags := (g.getD i 0, FFlags.none)
  let r := match g.length with
    | 1 => z 0
    | 2 => node (z 0) (z 1)
    | 4 => node (node (z 0) (z 1)) (node (z 2) (z 3))
    | _ => node (node (node (z 0) (z 1)) (node (z 2) (z 3))) (z 4)
  (r.1, r.2.or fl)

/-- One element of a float step: accumulator `c`, with the flags that it raises. -/
def mmaFloat (v : MmaV) (fa fb : Frag) (i j klen : Nat) (mode : RMode) (u c : Nat) : Nat × FFlags :=
  let gs := (List.range (mmaDepth v / 16)).map (fun g =>
    mmaGroup ((List.range 16).map (fun p =>
      let k := 16 * g + p
      if k < klen then (mmaElem v fa i k, mmaElem v fb j k) else (.fin false 0 0, .fin false 0 0))))
  let rs := gs.map (fun g => if g.1 then (Fmt.f32.defNaN, FFlags.none) else roundFV Fmt.f32 .rn 0 g.2.2)
  let t := mmaTree (rs.map (·.1)) (rs.foldl (fun f r => f.or r.2) { FFlags.none with iv := gs.any (fun g => g.2.1) })
  let r := mmaAdd mode u c t.1
  (r.1, t.2.or r.2)

/-- One element of an integer or binary step (R161). -/
def mmaInt (v : MmaV) (fa fb : Frag) (i j klen c : Nat) : Nat :=
  match v with
  | .i8 =>
    let t := (List.range klen).foldl (fun (acc : Int) k => acc + signedOf 8 (fa.elem i 8 k) * signedOf 8 (fb.elem j 8 k)) 0
    wrapTo 32 ((c : Int) + t)
  | .bx => (c + (List.range klen).foldl (fun acc k => acc + (fa.elem i 1 k ^^^ fb.elem j 1 k)) 0) % 2 ^ 32
  | _ => (c + (List.range klen).foldl (fun acc k => acc + (fa.elem i 1 k &&& fb.elem j 1 k)) 0) % 2 ^ 32

/-- Whether a variant sums in float (R278). -/
def mmaIsFloat : MmaV → Bool
  | .i8 => false | .bx => false | .ba => false | _ => true

/-- The rounding mode code held by a queued operation. -/
def RMode.ofCode : Nat → RMode
  | 0 => .rn | 1 => .rz | 2 => .ru | 3 => .rd | _ => .rs
def RMode.code : RMode → Nat
  | .rn => 0 | .rz => 1 | .ru => 2 | .rd => 3 | .rs => 4

/-- One step on a tile's words, keyed 32 × row + column: the new words and the flags (R394). -/
def mmaStep (v : MmaV) (fa fb : Frag) (klen : Nat) (mode : RMode) (key ctr : Nat) (tile : Nat → W32) : Tab W32 × FFlags :=
  (Lanes.toList fa.present).foldl (fun acc i =>
    (Lanes.toList fb.present).foldl (fun (acc : Tab W32 × FFlags) j =>
      let e := 32 * i + j
      let c := (tile e).toNat
      let r := if mmaIsFloat v then
          mmaFloat v fa fb i j klen mode (match mode with | .rs => draw key ctr e 0xFFFFFFFF | _ => 0) c
        else (mmaInt v fa fb i j klen c, FFlags.none)
      (tset acc.1 e (BitVec.ofNat 32 r.1), acc.2.or r.2)) acc) ([], FFlags.none)

/-! ## Tiles and shadows (R385, R402) -/

/-- Whether a wave uses the shadow of a tile (R402). -/
def Crew.shadowed (c : Crew) (o : SliceOp) (t : Nat) : Bool :=
  o.window && decide (tget c.shadowOwner t = some o.uid)

/-- A word of a tile as an operation reads it; a row with an uncorrectable error reads zero (R396). -/
def Crew.tileWord (c : Crew) (shadow : Bool) (t e : Nat) : W32 :=
  if c.badRows.contains (32 * (if shadow then t + 16 else t) + e / 32) then 0
  else if shadow then tgetD c.shadows (1024 * t + e) 0 else tgetD c.tiles (1024 * t + e) 0

/-- Write words of a tile. -/
def Crew.setTile (c : Crew) (shadow : Bool) (t : Nat) (ws : Tab W32) : Crew :=
  let put (m : Tab W32) : Tab W32 := ws.foldl (fun m p => tset m (1024 * t + p.1) p.2) m
  if shadow then { c with shadows := put c.shadows } else { c with tiles := put c.tiles }

/-- The words of a tile. -/
def tileOf (m : Tab W32) (t : Nat) : Tab W32 := (m.filter (fun p => p.1 / 1024 == t)).map (fun p => (p.1, tgetD m p.1 0))

/-- Before a window's first speculative write to a tile, its main contents go to the shadow (R402). -/
def Crew.beginShadow (c : Crew) (o : SliceOp) (t : Nat) : Crew :=
  if o.spec && !decide (tget c.shadowOwner t = some o.uid) then
    { c with shadows := tsets (c.shadows.filter (fun p => !(p.1 / 1024 == t))) (tileOf c.tiles t),
             badRows := c.badRows.filter (fun r => !(r / 32 == t + 16)) ++
               (c.badRows.filter (fun r => r / 32 == t)).map (fun r => r + 512),
             shadowOwner := tset c.shadowOwner t o.uid }
  else c

/-- Apply a RESOLVE: the shadows that the wave holds are dropped, on a commit after they have become the main contents (R403). -/
def Crew.resolve (c : Crew) (uid : Nat) (commit : Bool) : Crew :=
  let own (t : Nat) : Bool := decide (tget c.shadowOwner t = some uid)
  let rest (m : Tab W32) : Tab W32 := m.filter (fun p => !own (p.1 / 1024))
  let c := if commit then
      { c with tiles := tsets (rest c.tiles) ((c.shadows.filter (fun p => own (p.1 / 1024))).map (fun p => (p.1, tgetD c.shadows p.1 0))),
               badRows := c.badRows.filter (fun r => !own (r / 32)) ++
                 (c.badRows.filter (fun r => decide (16 ≤ r / 32) && own (r / 32 - 16))).map (fun r => r - 512) }
    else c
  { c with shadows := rest c.shadows, shadowOwner := c.shadowOwner.filter (fun p => !own p.1) }

/-! ## Queueing -/

/-- Queue an operation for the slice of the wave's crew's core. -/
def Arch.queueSlice (a : Arch) (t : Thread) (what : SliceWhat) (da db : Option RowDesc) (spec : Bool) (pc word opidx : Nat)
    (part : Lanes) (acq : Bool := false) : Arch :=
  let o := { id := a.nextId, uid := t.uid, crew := t.crew, what := what, descA := da, descB := db, spec := spec, acq := acq,
             window := t.spec.isOpen, pc := pc, word := word, opidx := opidx, part := part : SliceOp }
  { a with nextId := a.nextId + 1, slice := tset a.slice o.id o }

/-- The tile that an operation writes, if any. -/
def SliceWhat.writes : SliceWhat → Option Nat
  | .mma _ t .. => some t
  | .accz t => some t
  | .accwr t _ => some t
  | .accmov d _ _ => some d
  | .accld t _ => some t
  | .treemask t .. => some t
  | _ => none

/-- Whether an operation writes latch A or latch B. -/
def SliceWhat.writesLatch (b : Bool) : SliceWhat → Bool
  | .mma _ _ _ _ _ _ ka kb _ _ => if b then kb else ka
  | .latch x _ => x == b
  | .unlatch x => x == b
  | _ => false

/-- Whether another wave's open window holds the shadow of a tile, or will when its queued writes are performed (R402). -/
def shadowTaken (a : Arch) (t : Thread) (c : Crew) (m : Nat) : Bool :=
  let settled (u id : Nat) : Bool := (tvals a.slice).any (fun o => o.uid == u && decide (id < o.id) && (match o.what with
    | .resolve _ => true
    | _ => false))
  (match tget c.shadowOwner m with
    | some u => !(u == t.uid) && !settled u 0
    | none => false) ||
  (tvals a.slice).any (fun o => o.crew == c.id && o.spec && !(o.uid == t.uid) && decide (o.what.writes = some m) &&
    (a.thread o.uid).isSome && !settled o.uid o.id)

/-- The presence mask of an operand by its source, under the participation set P (R394). -/
def Frag.rowsFor (f : Frag) (s : MSrc) (p : Lanes) : Frag :=
  match s with
  | .latch => f
  | .desc => { f with present := BitVec.allOnes 32 }
  | _ => { f with present := p }

/-- Issue a step of a convergence register, and empty the register (R393, R395): the owner's counter advances under .RS. -/
def issueCv (a : Arch) (k : Nat) (c : Crew) (v : Cv) (i : Instr) : Arch :=
  match a.crewWave c.id v.owner, i with
  | some t, .mma _ mv _ acq asrc bsrc ka kb _ _ tile _ _ =>
    let klen := match v.lit with | some x => x % 1024 | none => mmaDepth mv
    let what := SliceWhat.mma mv tile.val (v.a.rowsFor asrc v.signed) (v.b.rowsFor bsrc v.signed) klen v.rm ka kb t.sr.key
      t.sr.ctr
    let a := a.queueSlice t what v.descA v.descB v.spec v.pc v.word.toNat v.opidx v.signed
      (acq || t.acqMx.isSome)
    let a := if v.rm = 4 then a.modThread t.uid Thread.advanceCtr else a
    a.setCrew { c with cvs := tdel c.cvs k }
  | _, _ => a.setCrew { c with cvs := tdel c.cvs k }

/-- The MMA instruction that a convergence register recorded. -/
def Cv.instr (v : Cv) : Option Instr :=
  match decodeWord 8 v.word.toNat (v.lit.getD 0) with
  | .ok i => some i
  | .error _ => none

/-- A speculative step that would issue because lanes of the owning wave exit, on a tile whose shadow another wave's window has
taken since the signing: the word that ends the lanes raises the trap of R402 (DEDUCED, log 89). -/
def cvExitBad (a : Arch) (t : Thread) (lanes : Lanes) : Option Bad :=
  (a.crew t.crew).bind (fun c => c.cvs.findSome? (fun p =>
    let e := p.2.expected &&& ~~~lanes
    if p.2.owner = t.wnum ∧ p.2.spec = true ∧ e = p.2.signed &&& ~~~lanes ∧ ¬ e = 0 then
      match p.2.instr with
      | some (.mma _ _ _ _ _ _ _ _ _ _ tile _ _) =>
        if shadowTaken a t c tile.val then some (operandBad 0 5 0 (BitVec.ofNat 64 tile.val)) else none
      | _ => none
    else none))

/-- Lanes of the owning wave exit: they leave the masks of its registers (DEDUCED, log 13); a register whose masks become equal
issues, and one whose masks are both empty becomes empty (R393). -/
def cvExit (a : Arch) (t : Thread) (lanes : Lanes) : Arch :=
  match a.crew t.crew with
  | none => a
  | some c0 =>
    c0.cvs.foldl (fun a p =>
      match a.crew t.crew with
      | none => a
      | some c =>
        match tget c.cvs p.1 with
        | none => a
        | some v =>
          if v.owner = t.wnum then
            let e := v.expected &&& ~~~lanes
            let g := v.signed &&& ~~~lanes
            let v' := { v with expected := e, signed := g }
            if e = g ∧ ¬ e = 0 then
              match v.instr with
              | some i => issueCv a p.1 c v' i
              | none => a
            else if e = 0 ∧ g = 0 then a.setCrew { c with cvs := tdel c.cvs p.1 }
            else a.setCrew { c with cvs := tset c.cvs p.1 v' }
          else a) a

end Sys2Proof.Machine
end

