-- ==== Sys2Proof/Machine/Control.lean ====
section
/-! DEFINITION. The control instructions of class 0 (spec/18 R291 to R296). -/

namespace Sys2Proof.Machine

/-- The VA of the word that executes. -/
def W.va (w : W) : Nat := w.c.va w.c.pos

/-- The target of a variant-B word (R252). -/
def W.target (w : W) (disp : BitVec 32) : Nat := wrapTo 64 ((w.va : Int) + 8 * disp.toInt)

/-- Transfer the lanes that take part to one target. -/
def W.jump (w : W) (a : Arch) (pc : Nat) : WRes := .ctl a 0 ((Lanes.toList w.part).map (fun l => (l, pc)))

/-- BR (R292). -/
def execBr (h : Hd) (disp : BitVec 32) (s : State) : Out := runWord 0 .any h s fun w => w.jump w.a (w.target disp)

/-- A target off the word alignment (R291). -/
def targetBad (lane : Nat) (va : W64) : Option Bad := if va.toNat % 8 = 0 then none else some (operandBad 1 6 lane va)

/-- BRX (R292). -/
def execBrx (h : Hd) (a : Opnd) (s : State) : Out :=
  runWord 0 .any h s fun w =>
    checked (firstBad [srcS64 1 a, targetBad 0 (w.rs64 a)]) (w.jump w.a (w.rs64 a).toNat)

/-- The checks of a link (R293): an even vector pair inside the allocation, or an even s pair. -/
def linkBad (w : W) (j : Nat) (o : Opnd) : Option Bad :=
  match o with
  | .v n => if w.t.alloc ≤ n.val then opBad j 1 o else if n.val % 2 = 0 then none else opBad j 6 o
  | .s n => if n.val % 2 = 0 then none else opBad j 6 o
  | _ => opBad j 1 o

/-- CALL: a vector link is written per lane, a scalar link once (R293). -/
def execCall (h : Hd) (disp : BitVec 32) (link : Opnd) (s : State) : Out :=
  runWord 0 .any h s fun w =>
    checked (linkBad w 4 link) <|
      if w.part = 0 then .ctl w.a 0 []
      else
        let ret := BitVec.ofNat 64 (w.va + 8)
        let t := match link with
          | .v n => w.eachLane (fun t l => (t.setV n.val l (ret.setWidth 32)).setV (n.val + 1) l ((ret >>> 32).setWidth 32))
          | o => w.t.wr64 o ret
        w.jump (w.a.setThread t) (w.target disp)

/-- RET: each lane that takes part goes to its link (R293); the target's alignment is checked in those lanes. -/
def execRet (h : Hd) (link : Opnd) (s : State) : Out :=
  runWord 0 .any h s fun w =>
    checked (linkBad w 1 link) <|
      if w.arrived [{ j := 1, o := link, n := 2, dst := false }] then
        checked ((Lanes.toList w.part).findSome? (fun l => targetBad l (w.rd64 1 link l))) <|
          .ctl w.a 0 ((Lanes.toList w.part).map (fun l => (l, (w.rd64 1 link l).toNat)))
      else .stay w.a .arrival

/-- LOOP: the counter is written once; lanes that take part transfer while it is not zero (R294). -/
def execLoop (h : Hd) (disp : BitVec 32) (code : Fin 256) (s : State) : Out :=
  runWord 0 .any h s fun w =>
    if 0xC0 ≤ code.val ∧ code.val < 0xF0 then
      if w.part = 0 then .ctl w.a 0 []
      else
        let k := code.val - 0xC0
        let c := w.t.getS k - 1
        let a := w.a.setThread (w.t.setS k c)
        if c = 0 then .ctl a 0 [] else w.jump a (w.target disp)
    else .bad (operandBad 4 1 0 (BitVec.ofNat 64 code.val))

/-- What follows when a thread's last lane has left: a frame retires or drains (R23); a wave in trap mode retires as
aborted (R295); any other wave retires at WAVE_RETIRE. -/
def afterExit (a : Arch) (time u : Nat) : Arch :=
  match a.thread u with
  | none => a
  | some t =>
    if t.live = 0 then
      if t.isWave then (if t.tm then retireWave a time t true else a) else retireFrame a time t false
    else a

/-- Lanes that exit in a handler leave the frozen frontier and the frozen clause too (R51, R211). -/
def Frozen.exit (f : Frozen) (m : Lanes) : Frozen :=
  { f with front := frontDrop f.front m,
           clause := f.clause.bind (fun c => if c.lanes &&& ~~~m = 0 then none else some { c with lanes := c.lanes &&& ~~~m }) }

/-- EXIT (R295): the lanes leave the frontier and the wave's convergence registers (R393). The release that a frame, or a wave in trap
mode, makes when it retires awaits its accesses here (R32, R46); another wave's awaits them at WAVE_RETIRE. -/
def execExit (h : Hd) (s : State) : Out :=
  runWord 0 .any h s fun w =>
    if (!w.t.isWave || w.t.tm) && !decide (w.part = 0) && ownPending w.a w.t.uid then .stay w.a .order
    else checked (if w.part = 0 then none else cvExitBad w.a w.t w.part) <|
      let a := if w.part = 0 then w.a else cvExit w.a w.t w.part
      let a := a.modThread w.t.uid (fun t =>
        let t' := endClause t w.c w.part []
        { t' with frozen := t'.frozen.map (fun f => f.exit w.part) })
      .raw (afterExit a w.time w.t.uid) []

/-- YIELD: as the header's bit, for the choice that follows; no effect at a sequencer (R296). -/
def execYield (h : Hd) (s : State) : Out :=
  runWord 0 .any h s fun w =>
    .raw (w.a.modThread w.t.uid (fun t =>
      let t' := endClause t w.c 0 []
      { t' with yielded := t'.yielded || (w.t.isWave && !decide (w.part = 0)) })) []

end Sys2Proof.Machine
end

