-- ==== Sys2Proof/Machine/System.lean ====
section
/-! DEFINITION. Class 11: special registers, traps, instruction-cache maintenance, priority (spec/18 R297 to R304;
returning from a trap, spec/13 R214). -/

namespace Sys2Proof.Machine

/-- Whether a core of a package lies in a unit. -/
def coreIn (u : UnitId) (pkg core : Nat) : Bool :=
  match u.level with
  | .pod => true
  | .pkg => u.pkg == pkg
  | .die => u.pkg == pkg && u.idx == core / 48
  | .clu => u.pkg == pkg && u.idx == core / 6
  | _ => u.pkg == pkg && u.idx == core

/-! ## Special registers (R297 to R300) -/

/-- The berth of a thread; a PKG or POD frame has none (R298). -/
def Thread.berthOf (t : Thread) : Option Nat :=
  match t.unit.level with
  | .lg => some (t.unit.idx / 48) | .core => some (t.unit.idx / 48) | .clu => some (t.unit.idx / 8) | .die => some t.unit.idx
  | _ => none

/-- Whether nothing of a thread's berth acts (R438, R442). -/
def threadStill (a : Arch) (t : Thread) : Bool :=
  match t.berthOf with
  | some b => berthStill a t.unit.pkg b
  | none => false

/-- The core whose sr.pntimer a thread holds (R297). -/
def Thread.coreKey (t : Thread) : Nat := 192 * t.unit.pkg + t.unit.idx

/-- Whether a thread holds special register `n` (R297). -/
def srHeld (t : Thread) (n : Nat) : Bool :=
  match n with
  | 0x000 => true | 0x001 => true | 0x006 => true | 0x007 => true | 0x00A => true | 0x032 => true
  | 0x040 => true | 0x041 => true | 0x043 => true
  | 0x050 => true | 0x051 => true | 0x052 => true | 0x053 => true | 0x054 => true | 0x055 => true | 0x056 => true
  | 0x002 => t.isWave | 0x003 => t.isWave | 0x004 => t.isWave | 0x005 => t.isWave | 0x011 => t.isWave
  | 0x020 => t.isWave | 0x021 => t.isWave | 0x022 => t.isWave | 0x023 => t.isWave | 0x024 => t.isWave | 0x025 => t.isWave
  | 0x030 => t.isWave | 0x031 => t.isWave | 0x042 => t.isWave
  | 0x008 => !t.isWave | 0x009 => !t.isWave
  | 0x010 => t.isWave || decide (t.level = .core)
  | _ => false

/-- The numbers that .W64 accepts (R299). -/
def srWideOk (n : Nat) : Bool := n == 0x022 || n == 0x024 || n == 0x050 || n == 0x052 || n == 0x054

/-- The cycle counter and the rescaled counter of a thread's berth; a hub frame reads ⌊1.2 × RT⌋ for both (R298, R300). -/
def srCycles (a : Arch) (time : Nat) (t : Thread) : Nat :=
  match t.berthOf with
  | some b => (a.berth t.unit.pkg b).cycles
  | none => refTimer a time t.unit.pkg * 6 / 5
def srRescaled (a : Arch) (time : Nat) (t : Thread) : Nat :=
  match t.berthOf with
  | some b => (a.berth t.unit.pkg b).rcAcc / 2 ^ 32
  | none => refTimer a time t.unit.pkg * 6 / 5

/-- The reference timer as a thread reads it: that of its package, never below what it could have read before a move (R300). -/
def timerOf (a : Arch) (time : Nat) (t : Thread) : Nat := max t.rtFloor (refTimer a time t.unit.pkg)

/-- The value of a special register as a number; counters give all 64 bits at their low number (R298). -/
def srValue (a : Arch) (time : Nat) (t : Thread) (n : Nat) : Nat :=
  match n with
  | 0x000 => t.level.code
  | 0x001 => (a.rootLevel t).code
  | 0x002 => t.waveid.toNat
  | 0x003 => t.wavegen.toNat
  | 0x004 => ((a.crew t.crew).map (·.num)).getD 0
  | 0x005 => t.role
  | 0x006 => b2n (a.ctxWorld t.unit.pkg t.ctx) * 65536 + t.ctx
  | 0x007 => t.unit.pkg * 256 + t.unit.idx
  | 0x008 => t.tile
  | 0x009 => t.ntiles
  | 0x00A => t.sr.prio
  | 0x010 => tgetD a.pntimer t.coreKey 256
  | 0x011 => t.sr.sp
  | 0x020 => t.sr.fpctl.toNat
  | 0x021 => t.sr.fpstat.toNat
  | 0x022 => t.sr.srkey0.toNat
  | 0x023 => t.sr.srkey1.toNat
  | 0x024 => t.sr.srctr0.toNat
  | 0x025 => t.sr.srctr1.toNat
  | 0x030 => t.sr.rfault.toNat
  | 0x031 => t.sr.rfsrc.toNat
  | 0x032 => t.sr.rsstat.toNat
  | 0x040 => handlerPc a t / 8 * 8 % 2 ^ 32
  | 0x041 => handlerPc a t / 2 ^ 32 % 2 ^ 24
  | 0x042 => t.sr.tblk.toNat
  | 0x043 => b2n t.tm
  | 0x050 => timerOf a time t
  | 0x051 => timerOf a time t / 2 ^ 32
  | 0x052 => srCycles a time t
  | 0x053 => srCycles a time t / 2 ^ 32
  | 0x054 => srRescaled a time t
  | 0x055 => srRescaled a time t / 2 ^ 32
  | _ => match t.berthOf with
    | some b => (a.berth t.unit.pkg b).mhz
    | none => nominalMhz

/-- Read a special register of one word, or a pair at one instant (R299). -/
def srRead (a : Arch) (time : Nat) (t : Thread) (n : Nat) (w64 : Bool) : Nat :=
  let lo := srValue a time t n % 2 ^ 32
  if w64 then (if n == 0x022 || n == 0x024 then lo + srValue a time t (n + 1) % 2 ^ 32 * 2 ^ 32 else srValue a time t n % 2 ^ 64)
  else lo

/-- The OPERAND check of the number (R297, R299). -/
def srBad (w : W) (n : Nat) (w64 : Bool) : Option Bad :=
  if srHeld w.t n && (!w64 || srWideOk n) then none else some (operandBad 4 11 0 (BitVec.ofNat 64 n))

/-- SRR of a register; a read of sr.rfault clears FCNT (R203, R299). -/
def readSpecial (h : Hd) (n : Nat) (w64 : Bool) (d : Opnd) (s : State) : Out :=
  runWord 11 .any h s fun w =>
    checked (firstBad [dstS (if w64 then 2 else 1) d, srBad w n w64]) <|
      let v := srRead w.a w.time w.t n w64
      let t := if w64 then w.t.wr64 d (BitVec.ofNat 64 v) else w.t.wr d (BitVec.ofNat 32 v)
      let t := if n = 0x030 then { t with sr := { t.sr with rfault := t.sr.rfault &&& 0xFF00FFFF } } else t
      w.acts (WRes.own w t)

/-- SRR (R299). -/
def execSrr (h : Hd) (n : Fin 1024) (w64 : Bool) (d : Opnd) (s : State) : Out := readSpecial h n.val w64 d s
/-- SRR of sr.rfault (R203). -/
def execSrrRfault (h : Hd) (w64 : Bool) (d : Opnd) (s : State) : Out := readSpecial h 0x030 w64 d s

/-- The effect of a 32-bit write by the access codes of R9; RO registers and fields ignore it. -/
def srWrite1 (t : Thread) (n : Nat) (v : W32) : Thread :=
  match n with
  | 0x020 => { t with sr := { t.sr with fpctl := v &&& 7 } }
  | 0x021 => { t with sr := { t.sr with fpstat := t.sr.fpstat &&& ~~~v } }
  | 0x022 => { t with sr := { t.sr with srkey0 := v } }
  | 0x023 => { t with sr := { t.sr with srkey1 := v } }
  | 0x024 => { t with sr := { t.sr with srctr0 := v } }
  | 0x025 => { t with sr := { t.sr with srctr1 := v } }
  | 0x030 => { t with sr := { t.sr with rfault := (t.sr.rfault &&& 0x7FFFFFFF) ||| (v &&& 0x80000000) } }
  | 0x032 => { t with sr := { t.sr with rsstat := t.sr.rsstat &&& ~~~(v &&& 0xFE) } }
  | 0x042 => { t with sr := { t.sr with tblk := v &&& 0x1FFFC1 } }
  | _ => t

/-- A value that the register's rule forbids (R148, R299). -/
def srValueBad (n : Nat) (v : W32) : Option Bad :=
  if n = 0x020 ∧ 4 < v.toNat % 8 then some (operandBad 1 11 0 (v.setWidth 64)) else none

/-- SRW of a register (R299). -/
def writeSpecial (h : Hd) (n : Nat) (w64 : Bool) (a : Opnd) (s : State) : Out :=
  runWord 11 .any h s fun w =>
    let v := w.rs64 a
    checked (firstBad [if w64 then srcS64 1 a else srcS 1 a, srBad w n w64, srValueBad n (w.rs a)]) <|
      w.acts <|
        if n = 0x010 then
          .done { w.a with pntimer := tset w.a.pntimer w.t.coreKey (max 16 ((w.rs a).toNat % 65536)) } []
        else
          let t := srWrite1 w.t n (w.rs a)
          WRes.own w (if w64 then srWrite1 t (n + 1) ((v >>> 32).setWidth 32) else t)

/-- SRW (R299). -/
def execSrw (h : Hd) (n : Fin 1024) (w64 : Bool) (a : Opnd) (s : State) : Out := writeSpecial h n.val w64 a s
/-- SRW of sr.fpstat: W1C (R154, R155). -/
def execSrwFpstat (h : Hd) (w64 : Bool) (a : Opnd) (s : State) : Out := writeSpecial h 0x021 w64 a s
/-- SRW of sr.fpctl (R148). -/
def execSrwFpctl (h : Hd) (w64 : Bool) (a : Opnd) (s : State) : Out := writeSpecial h 0x020 w64 a s
/-- SRW of sr.pntimer: 0 to 15 stores 16 (R67). -/
def execSrwPntimer (h : Hd) (w64 : Bool) (a : Opnd) (s : State) : Out := writeSpecial h 0x010 w64 a s

/-! ## Traps (R302, R303) -/

/-- TRAP raises a SOFTWARE trap (R302). -/
def execTrap (h : Hd) (imm : BitVec 16) (s : State) : Out :=
  runWord 11 .any h s fun w =>
    w.acts (.bad { cls := .software, addr := 0, synd := imm.toNat, mask := none, kind := 0, kinds := 0 })

/-- TRAPRET outside trap mode is an OPERAND trap (R303). -/
def tmBad (w : W) : Option Bad := if w.t.tm then none else some (operandBad 4 5 0 0)

/-- The wait of TRAPRET: operations issued in trap mode have made their subtractions (R214). -/
def Thread.tmBusy (t : Thread) : Bool := t.tmCounts.any (fun p => !(p.2 == 0))

/-- The header's YIELD of a clause that TRAPRET ends (R249). -/
def yieldAfter (a : Arch) (w : W) : Arch :=
  if w.c.hdr.yield then a.modThread w.t.uid (fun t => { t with yielded := t.yielded || t.isWave }) else a

/-- A return in one of the modes of R214: `f` is its effect on the thread, `wait` what else it awaits. -/
def trapReturn (h : Hd) (bad : W → Option Bad) (f : Arch → Nat → Thread → TrapRec → Arch) (s : State)
    (wait : W → Bool := fun _ => false) : Out :=
  runWord 11 .any h s fun w =>
    checked (firstBad [tmBad w, bad w]) <|
      if w.part = 0 then .done w.a []
      else if w.t.tmBusy then .stay w.a .trapret
      else if wait w then .stay w.a .order
      else match w.t.record with
        | some r => .raw (yieldAfter (f w.a w.time w.t r) w) []
        | none => .raw w.a []

/-- RESUME on the thread: SOFTWARE continues after the TRAP, asynchronous classes after the trap, the others re-execute. -/
def resumeThread (t : Thread) (r : TrapRec) : Thread := if r.cls = .software then resumeAfter t r else thaw t

/-- SKIP on the thread. -/
def skipThread (t : Thread) (r : TrapRec) : Thread := resumeAfter t r

/-- TRAPRET.RESUME. -/
def execTrapretResume (h : Hd) (s : State) : Out :=
  trapReturn h (fun _ => none) (fun a _ t r => a.setThread (resumeThread t r)) s
/-- TRAPRET.SKIP. -/
def execTrapretSkip (h : Hd) (s : State) : Out :=
  trapReturn h (fun _ => none) (fun a _ t r => a.setThread (skipThread t r)) s
/-- TRAPRET.ABORT (R49); the release that the thread makes when it retires awaits its accesses (R32, R46). -/
def execTrapretAbort (h : Hd) (s : State) : Out :=
  trapReturn h (fun _ => none) (fun a time t _ => retireThread a time t true) s (fun w => ownPending w.a w.t.uid)

/-- The destination field of an instruction with its 32-bit words, and whether it is one 64-bit value (R253, R303): from the operand tables
of spec/18 to spec/23. -/
def destOf : Instr → Option (Opnd × Nat × Bool)
  | .sadd _ v _ d _ _ | .ssub _ v _ d _ _ | .smul _ v _ d _ _ | .smulh _ v d _ _ | .smin _ v d _ _ | .smax _ v d _ _
  | .iadd _ v _ d _ _ | .isub _ v _ d _ _ | .imul _ v _ d _ _ | .imulh _ v d _ _ | .imad _ v _ d _ _ _ | .imin _ v d _ _
  | .imax _ v d _ _ | .iabs _ v _ d _ => value d v.wide
  | .sand _ w d _ _ | .sor _ w d _ _ | .sxor _ w d _ _ | .snot _ w d _ | .sshl _ w d _ _ | .sshr _ w d _ _ | .ssra _ w d _ _
  | .ssel _ w d _ _ _ | .smov _ w d _ | .iand _ w d _ _ | .ior _ w d _ _ | .ixor _ w d _ _ | .inot _ w d _ | .ishl _ w d _ _
  | .ishr _ w d _ _ | .isra _ w d _ _ | .isel _ w _ d _ _ | .imov _ w d _ | .iaddsh _ w _ d _ _ | .srr _ _ w d | .srrRfault _ w d =>
    value d w
  | .spopc _ _ d _ | .sclz _ _ d _ | .ipopc _ _ d _ | .iclz _ _ d _ | .ibfe _ _ d _ _ _ | .ibfi _ d _ _ _ | .pack _ _ _ d _ _
  | .unpk _ _ _ d _ | .xsetRd _ d _ | .fadd _ _ _ d _ _ | .fsub _ _ _ d _ _ | .fmul _ _ _ d _ _ | .ffma _ _ _ d _ _ _
  | .fmin _ _ d _ _ | .fmax _ _ d _ _ | .fabs _ _ d _ | .fneg _ _ d _ | .fdiv _ _ d _ _ | .fsqrt _ _ d _ | .frcp _ _ d _
  | .frsq _ _ d _ | .fexp2 _ _ d _ | .flog2 _ _ d _ | .fsin _ _ d _ | .fcos _ _ d _ | .ftanh _ _ d _ | .fclass _ _ d _
  | .frnd _ _ _ d _ | .vote _ (.bal d _) | .shfl _ _ d _ _ | .partget _ d | .copyIn _ _ _ _ _ d _ _ _ | .copyOut _ _ _ _ _ d _ _ _
  | .spush _ _ _ d _ _ | .mcopyDown _ _ _ _ _ d _ _ _ | .mcopyUp _ _ _ _ _ d _ _ _ | .reduce _ _ _ _ d _ _ _
  | .kvcommit _ _ d _ _ | .skquant _ _ d _ _ | .skrank _ _ d _ _ | .skpoint _ _ d _ _ | .skest _ _ d _ => value d false
  | .call _ _ d | .frame _ d _ | .ldmeta _ _ d _ | .wprd _ _ _ _ d => value d true
  | .fcvt _ e _ _ _ _ d _ | .nenc _ e _ d _ _ | .scani _ e _ _ _ d _ | .scanx _ e _ _ _ d _ | .lred _ e _ _ _ d _ => value d (EF.isPair e)
  | .ld _ w _ _ d _ _ | .sld _ w _ _ d _ _ | .lds _ w _ _ d _ _ => some (d, mwWords w, decide (w = .b64))
  | .atom _ _ _ nr _ z d _ _ _ | .satom _ _ _ nr _ z d _ _ _ | .atoms _ _ _ _ nr _ z d _ _ _ =>
    if nr then none else some (d, szWords z, decide (z = .b8))
  | .ndec _ e _ d _ _ => some (d, e.count, false)
  | .philox _ d _ _ => some (d, 4, false)
  | .accrd _ e _ d _ => some (d, match e with | .f32 => 32 | _ => 16, false)
  | .grant _ _ _ _ d _ _ => some (d, 4, false)
  | .rget _ n d _ | .rgetTk _ n d _ => some (d, n.val + 1, false)
  | .sktop _ _ d _ _ => some (d, 2, false)
  | _ => none
where
  /-- A value of one word or two. -/
  value (d : Opnd) (wide : Bool) : Option (Opnd × Nat × Bool) := some (d, if wide then 2 else 1, wide)
  /-- Destination words of a width. -/
  mwWords : MW → Nat
    | .b64 => 2 | .b128 => 4 | _ => 1
  /-- Destination words of an atomic width. -/
  szWords : AtSz → Nat
    | .b4 => 1 | .b8 => 2 | .b16 => 4

/-- The instruction of the trapped word in the frozen clause. -/
def frozenInstr (t : Thread) : Option Instr :=
  match t.frozen.bind (·.clause) with
  | none => none
  | some c => match decodeAt c.hdr.cls c.hdr.safe c.words c.pos with
    | .ok (i, _) => some i
    | .error _ => none

/-- How many replacement registers REPLACE names, one for each destination word of the trapped instruction, and whether they hold one
64-bit value (R214, R303). -/
def replRun (t : Thread) : Nat × Bool :=
  match t.record with
  | some r =>
    if r.fetch then (0, false)
    else match frozenInstr t with
      | some i => ((destOf i).map (fun x => x.2)).getD (0, false)
      | none => (r.dests.length, r.wide)
  | none => (0, false)

/-- The destination words of the trapped instruction. -/
def replCount (t : Thread) : Nat := (replRun t).1

/-- The checks of the replacement base (R303). -/
def replBad (w : W) (o : Opnd) : Option Bad :=
  let n := replRun w.t
  match o with
  | .v k =>
    if !w.t.isWave then opBad 1 1 o else if w.t.alloc ≤ k.val ∨ w.t.alloc < k.val + n.1 then opBad 1 1 o
    else if n.2 = true ∧ k.val % 2 = 1 then opBad 1 6 o else none
  | .s k =>
    if w.t.isWave then opBad 1 1 o else if 48 < k.val + n.1 then opBad 1 1 o
    else if n.2 = true ∧ k.val % 2 = 1 then opBad 1 6 o else none
  | _ => opBad 1 1 o

/-- The replacement word `i` of a lane. -/
def replWord (t : Thread) (o : Opnd) (i l : Nat) : W32 :=
  match o with
  | .v k => t.getV (k.val + i) l
  | .s k => t.getS (k.val + i)
  | _ => 0

/-- Write a register word by its code: 0xC0 onward are the s registers (R253). -/
def Thread.setReg (t : Thread) (reg l : Nat) (v : W32) : Thread := if 0xC0 ≤ reg then t.setS (reg - 0xC0) v else t.setV reg l v

/-- Execute the trapped word in the lanes outside MASK (R214). -/
def replaceWord (t : Thread) (r : TrapRec) (o : Opnd) : Thread :=
  match t.frozen.bind (·.clause) with
  | none => skipThread t r
  | some _ =>
    let ws := (List.range (replCount t)).flatMap (fun i => (Lanes.toList r.mask).map (fun l => (32 * i + l, replWord t o i l)))
    { thaw t with repl := some { mask := r.mask, words := tsets [] ws } }

/-- REPLACE on the thread (R214). An ERROR that a word's own table walk met is replaced as an ACCESS is (DESIGN CHOICE, log 94). -/
def replaceThread (t : Thread) (r : TrapRec) (o : Opnd) : Thread :=
  match r.cls with
  | .access => replaceWord t r o
  | .error =>
    if r.fetch then skipThread t r
    else if (t.frozen.bind (·.clause)).isSome then replaceWord t r o else
    let vals := (List.range r.dests.length).flatMap (fun i => (r.dests.getD i []).map (fun d => (d.reg, d.lane, replWord t o i d.lane)))
    vals.foldl (fun t p => t.setReg p.1 p.2.1 p.2.2) (thaw t)
  | _ => skipThread t r

/-- TRAPRET.REPLACE. -/
def execTrapretReplace (h : Hd) (a : Opnd) (s : State) : Out :=
  trapReturn h (fun w => replBad w a) (fun ar _ t r => ar.setThread (replaceThread t r a)) s

/-! ## IFLUSH and PRIOSET (R301, R304) -/

/-- The cores that IFLUSH acts on (R304). -/
def iflushUnit (w : W) (lvl : LvlCode) : UnitId :=
  match w.a.resolve w.t lvl with
  | .lg => w.t.unit
  | .core => w.t.unit
  | l => scopeUnit w.a w.t l

/-- IFLUSH drops the cached instruction words of the range, once the writes that a load by its issuer would see are performed, so that a
later fetch finds them in memory (R304). -/
def execIflush (h : Hd) (lvl : LvlCode) (a b : Opnd) (s : State) : Out :=
  runWord 11 .any h s fun w =>
    checked (firstBad [srcS64 1 a, srcS 2 b]) <|
      let va := (w.rs64 a).toNat
      let n := (w.rs b).toNat
      let u := iflushUnit w lvl
      w.acts <| if writesPending w.a w.t.uid then .stay w.a .order else .done { w.a with icache := w.a.icache.filter (fun e =>
        !(coreIn u (e.1 / 192) (e.1 % 192) && e.2.1 == w.t.ctx && decide (0 < n) && decide (va < 8 * e.2.2.1 + 8) &&
          decide (8 * e.2.2.1 < va + n))) } []

/-- PRIOSET (R301). -/
def execPrioset (h : Hd) (a : Opnd) (s : State) : Out :=
  runWord 11 .any h s fun w =>
    let v := (w.rs a).toNat
    checked (firstBad [srcS 1 a, if 3 < v then some (operandBad 1 11 0 (BitVec.ofNat 64 v)) else none])
      (w.acts (WRes.own w { w.t with sr := { w.t.sr with prio := v } }))

end Sys2Proof.Machine
end

