-- ==== Sys2Proof/Machine/Trans.lean ====
section
/-! DEFINITION. Addresses: windows, the physical map, page tables, protection, translation caches (spec/05 R85 to R99). -/

namespace Sys2Proof.Machine

/-- The access kinds of R107, and two ends of a walk that are none: an uncorrectable granule of a table, by its fabric address (R100)
(DESIGN CHOICE, log 94), and a wait for a table's memory (R428, R444). -/
inductive AKind where
  | unmapped | prot | table | format | bounds | absent | align
  | error (fa : Nat)
  | waits
  deriving DecidableEq, Repr

def AKind.code : AKind → Nat
  | .unmapped => 0 | .prot => 1 | .table => 2 | .format => 3 | .bounds => 4 | .absent => 5 | .align => 6 | .error _ => 7 | .waits => 7
/-- Whether a failure is one of the access kinds of R107. -/
def AKind.isAccess : AKind → Bool
  | .error _ => false | .waits => false | _ => true
def AKind.ofCode : Nat → AKind
  | 0 => .unmapped | 1 => .prot | 2 => .table | 3 => .format | 4 => .bounds | 5 => .absent | _ => .align

/-- The right that an access needs (R94). -/
inductive Right where | rd | w | rdw | x
  deriving DecidableEq, Repr

/-! ## The physical map (R88) -/

/-- A memory of a package, with its berth and, for scratchpads, its core. -/
inductive Place where
  | hbm (berth : Nat)
  | die (berth : Nat)
  | clu (berth cluster : Nat)
  | spad (core : Nat)
  | reserved
  deriving DecidableEq, Repr

/-- Where a PA lies. -/
def placeOf (pa : Nat) : Place :=
  if pa < 0x8000000000 then .hbm (pa / 2 ^ 37)
  else if 0x100000000000 ≤ pa ∧ pa < 0x100040000000 then .die ((pa - 0x100000000000) / 0x10000000)
  else if 0x200000000000 ≤ pa ∧ pa < 0x200010000000 then
    .clu ((pa - 0x200000000000) / 0x4000000) ((pa - 0x200000000000) % 0x4000000 / 0x800000)
  else if 0x300000000000 ≤ pa ∧ pa < 0x300000000000 + 192 * 0x200000 ∧ (pa - 0x300000000000) % 0x200000 < 0x180000 then
    .spad ((pa - 0x300000000000) / 0x200000)
  else .reserved

/-- The berth of a place. -/
def Place.berth : Place → Nat
  | .hbm b => b | .die b => b | .clu b _ => b | .spad k => k / 48 | .reserved => 0
/-- Whether a place is SRAM. -/
def Place.sram : Place → Bool
  | .hbm _ => false | .reserved => false | _ => true
/-- The memory code of an ERROR record (R213). -/
def Place.mem : Place → Nat
  | .hbm _ => 0 | .die _ => 1 | .clu .. => 2 | _ => 3

/-- The package and PA of a fabric address (R88). -/
def faPkg (fa : Nat) : Nat := fa / 2 ^ 52
def faPa (fa : Nat) : Nat := fa % 2 ^ 52
def fabric (pkg pa : Nat) : Nat := pkg * 2 ^ 52 + pa
def faPlace (fa : Nat) : Place := placeOf (faPa fa)

/-- Whether memory at a fabric address is marked absent or above the capacity register, or its package missing (R88, R438, R444). -/
def isAbsent (a : Arch) (fa : Nat) : Bool :=
  let p := faPlace fa
  a.missing.contains (faPkg fa) || (a.berth (faPkg fa) p.berth).held ||
  match p with
  | .hbm b => decide (((a.pkg (faPkg fa)).capacity.getD b 0) * 2 ^ 33 ≤ faPa fa % 2 ^ 37)
  | _ => false

/-- Whether a region firewall refuses a non-secure access (R439): stack 2 × berth + PA[7], regions keyed 16 × stack + n (DESIGN CHOICE, log 33). -/
def firewalled (a : Arch) (world : Bool) (fa : Nat) : Bool :=
  match faPlace fa with
  | .hbm b =>
    let stack := 2 * b + faPa fa / 128 % 2
    !world && (a.pkg (faPkg fa)).firewall.any (fun r =>
      r.1 / 16 == stack && r.2.world && decide (r.2.base ≤ faPa fa) && decide (faPa fa < r.2.limit))
  | _ => false

/-! ## Attributes (R93) -/

def attrKind (x : Nat) : Nat := x % 4
def attrGrade (x : Nat) : Nat := x / 4 % 4
def attrHome (x : Nat) : Nat := x / 16 % 4
def attrWorld (x : Nat) : Bool := bitAt x 7
def attrC (x : Nat) : Bool := bitAt x 8
def attrRd (x : Nat) : Bool := bitAt x 9
def attrW (x : Nat) : Bool := bitAt x 10
def attrX (x : Nat) : Bool := bitAt x 11
/-- The fixed windows (R87): release-consistent, uncached, SEC-DED, R and W. -/
def fixedAttr : Nat := 1 + 4 + 2 ^ 9 + 2 ^ 10 + 2 ^ 12
/-- The metadata bits of a grade (R100). -/
def gradeCount : Nat → Nat
  | 1 => 32 | 2 => 56 | _ => 0

/-- The address of the granule that holds a byte, ÷ 64. -/
def granule (fa : Nat) : Nat := fa / 64
/-- The granules that [fa, fa + n) touches. -/
def granules (fa n : Nat) : List Nat := (List.range ((fa % 64 + n + 63) / 64)).map (fun i => fa / 64 + i)
def isBad (a : Arch) (g : Nat) : Bool := (tget a.bad g).isSome

/-- Whether an address lies in the HBM window of a berth that copies a layer (R444, step 2). -/
def mapoutHeld (a : Arch) (fa : Nat) : Bool :=
  match faPlace fa with
  | .hbm b => (a.berth (faPkg fa) b).mapout.isSome
  | _ => false

/-- The berth in which an agent works; the hub's agents work in none. -/
def Agent.berth (g : Agent) : Option Nat :=
  g.core.map (fun c => c / 48) |>.orElse (fun _ => g.clu.map (fun c => c / 8)) |>.orElse (fun _ => g.die)

/-- Whether an agent's berth is still, so that neither its waves nor its engines act (R438, R442). -/
def agentStill (a : Arch) (g : Agent) : Bool :=
  match g.berth with
  | some b => berthStill a g.wpkg b
  | none => false

/-- Whether a message between an agent and a memory waits: at a berth's clock crossing (R428), for a layer copy (R444), or with its
agent's berth (R438, R442). -/
def crossingStalled (a : Arch) (g : Agent) (fa : Nat) : Bool :=
  let tb := (faPlace fa).berth
  let home (p b : Nat) : Bool := (a.berth p b).relock.isSome
  mapoutHeld a fa || agentStill a g ||
  match g.berth with
  | some b => !(g.wpkg == faPkg fa && b == tb) && (home g.wpkg b || home (faPkg fa) tb)
  | none => home (faPkg fa) tb

/-! ## The walk (R89 to R95) -/

/-- Why a walk cannot read `n` bytes of a table (R100, R428, R444). -/
def tableStop (a : Arch) (g : Agent) (fa n : Nat) : Option AKind :=
  if crossingStalled a g fa then some .waits else ((granules fa n).find? (isBad a)).map (fun x => .error (64 * x))

/-- A translation: the fabric address of `base`, the VA range it serves, and the attributes. -/
structure Trans where
  base : Nat
  limit : Nat
  faddr : Nat
  attr : Nat
  deriving DecidableEq, Repr

/-- Whether [pa, pa + n) lies inside the table pool of a package (R95). -/
def inPool (a : Arch) (pkg pa n : Nat) : Bool :=
  let k := a.pkg pkg
  decide (k.poolBase ≤ pa) && decide (pa + n ≤ k.poolBase + k.poolSize)

/-- The target checks of R94 on the PA reached. -/
def targetOk (attr pa : Nat) : Bool :=
  let p := placeOf pa
  !decide (p = .reserved) && p.berth == attrHome attr && (!p.sram || attrGrade attr == 1)

/-- The three levels of paging tables (R91): the page's PA and its size, or a failure. -/
def walkPages (a : Arch) (mem : Memory) (g : Agent) (off : Nat) : Nat → Nat → Except AKind (Nat × Nat)
  | 0, _ => .error .format
  | n + 1, t =>
    -- n + 1 = 3, 2, 1 for the first, second and third level
    let shift := if n = 2 then 30 else if n = 1 then 21 else 16
    let idx := if n = 0 then off / 2 ^ 16 % 32 else off / 2 ^ shift % 512
    let pe := mnum mem (fabric g.pkg (t + 8 * idx)) 8
    let ty := pe % 4
    let pa := pe / 256 % 2 ^ 44 * 256
    if !inPool a g.pkg t (if n = 0 then 256 else 4096) then .error .table
    else match tableStop a g (fabric g.pkg (t + 8 * idx)) 8 with
    | some k => .error k
    | none =>
      if ty = 0 then .error .unmapped
      else if ty = 3 ∨ ¬ pe / 4 % 64 = 0 ∨ ¬ pe / 2 ^ 52 = 0 ∨ (ty = 2 ∧ n = 0) then .error .format
      else if ty = 1 then
        if pa % 2 ^ shift = 0 then .ok (pa, 2 ^ shift) else .error .format
      else if pa % (if n = 2 then 4096 else 256) = 0 then walkPages a mem g off n pa else .error .format

/-- Whether bytes are all zero. -/
def allZero (b : List Byte) : Bool := b.all (fun x => decide (x = 0))

/-- The entry checks of R90, R93 and R94, without the target checks. -/
def entryOk (pkg va : Nat) (w0 w1 w2 attr : Nat) : Bool :=
  let base := w0 / 2 ^ 16 % 2 ^ 40 * 2 ^ 16
  let limit := w1 / 2 ^ 16 % 2 ^ 40 * 2 ^ 16 + 0xFFFF
  let tk := w2 / 2 ^ 62
  let tpkg := w2 / 2 ^ 52 % 1024
  let tpa := w2 / 2 ^ 12 % 2 ^ 40 * 2 ^ 12
  w0 / 2 ^ 56 == 0 && w0 / 2 % 2 ^ 15 == 0 && w1 / 2 ^ 56 == 0 && w1 % 2 ^ 16 == 0 && w2 % 2 ^ 12 == 0 &&
  decide (tk ≤ 1) && attr / 2 ^ 14 == 0 && attr / 64 % 2 == 0 && !(attrGrade attr == 3) && !(attrKind attr == 3) &&
  decide (base ≤ limit) && (base / 2 ^ 55 == limit / 2 ^ 55) &&
  (if base < 2 ^ 55 then tpkg == pkg else tpkg == va / 2 ^ 45 % 1024) &&
  (if tk == 0 then tpa % 2 ^ 16 == 0 else decide (limit - base < 2 ^ 39))

/-- The leaf slot that covers a VA, searched among `n` slots. -/
def findLeaf (mem : Memory) (node va : Nat) : Nat → Nat → Option Nat
  | 0, _ => none
  | n + 1, i =>
    let s := node + 32 + 32 * i
    let base := mnum mem s 8 / 2 ^ 16 % 2 ^ 40 * 2 ^ 16
    let limit := mnum mem (s + 8) 8 / 2 ^ 16 % 2 ^ 40 * 2 ^ 16 + 0xFFFF
    if base ≤ va ∧ va ≤ limit then some s else findLeaf mem node va n (i + 1)

/-- The last interior slot with KEY ≤ VA among `n` slots, from slot `i` on. -/
def findChild (mem : Memory) (node va : Nat) : Nat → Nat → Option Nat → Option Nat
  | 0, _, best => best
  | n + 1, i, best =>
    let s := node + 32 + 32 * i
    findChild mem node va n (i + 1) (if mnum mem s 8 ≤ va then some s else best)

/-- The table slots that a walk read, for CLAIM: the leaf slot, and the paging entry's address or none. -/
structure Slots where
  leaf : Nat
  page : Option Nat
  deriving DecidableEq, Repr

/-- The walk of R92 from a node, at most `n` nodes deep: the leaf slot's fabric address. The slots that the search does not take
are not checked (DESIGN CHOICE, log 81). -/
def walkNodes (a : Arch) (mem : Memory) (g : Agent) (va : Nat) : Nat → Nat → Except AKind Nat
  | 0, _ => .error .format
  | n + 1, pa =>
    let node := fabric g.pkg pa
    let ty := mnum mem node 1
    let st := mnum mem (node + 1) 1
    let cnt := mnum mem (node + 2) 1
    if !inPool a g.pkg pa 4096 then .error .table
    else match tableStop a g node (if cnt ≤ 127 then 32 * (cnt + 1) else 32) with
    | some k => .error k
    | none =>
      if st = 1 ∨ st = 2 then .error .table
      else if !(ty == 1 || ty == 2) || !(st == 0) || cnt == 0 || decide (127 < cnt) || !allZero (mbytes mem (node + 3) 29)
      then .error .format
      else if ty = 1 then
        match findChild mem node va cnt 0 none with
        | none => .error .unmapped
        | some s =>
          let key := mnum mem s 8
          let child := mnum mem (s + 8) 8
          if key / 2 ^ 56 = 0 ∧ key % 2 ^ 16 = 0 ∧ child % 4096 = 0 ∧ child < 2 ^ 52 ∧ allZero (mbytes mem (s + 16) 16) then
            walkNodes a mem g va n child
          else .error .format
      else
        match findLeaf mem node va cnt 0 with
        | none => .error .unmapped
        | some s => if mnum mem s 8 % 2 = 1 then .ok s else .error .unmapped

/-- The walk of R92 for an agent's context on its package (DEDUCED, log 67). -/
def walk (a : Arch) (mem : Memory) (g : Agent) (va : Nat) : Except AKind Trans :=
  match a.ctx g.pkg g.ctx with
  | none => .error .unmapped
  | some c =>
    match walkNodes a mem g va 6 c.root with
    | .error k => .error k
    | .ok s =>
      let w0 := mnum mem s 8
      let w1 := mnum mem (s + 8) 8
      let w2 := mnum mem (s + 16) 8
      let attr := mnum mem (s + 24) 8
      let base := w0 / 2 ^ 16 % 2 ^ 40 * 2 ^ 16
      let limit := w1 / 2 ^ 16 % 2 ^ 40 * 2 ^ 16 + 0xFFFF
      let tpkg := w2 / 2 ^ 52 % 1024
      let tpa := w2 / 2 ^ 12 % 2 ^ 40 * 2 ^ 12
      if !entryOk g.pkg va w0 w1 w2 attr then .error .format
      else if w2 / 2 ^ 62 = 0 then
        if targetOk attr (tpa + (va - base)) then .ok { base := base, limit := limit, faddr := fabric tpkg tpa, attr := attr }
        else .error .format
      else
        match walkPages a mem g (va - base) 3 tpa with
        | .error k => .error k
        | .ok (pa, size) =>
          let pbase := base + (va - base) / size * size
          if targetOk attr (pa + (va - pbase)) then
            .ok { base := pbase, limit := min limit (pbase + size - 1), faddr := fabric tpkg pa, attr := attr }
          else .error .format

/-! ## Agents and windows (R85, R86) -/

/-- The agent that a thread is: its windows follow its ancestry (R24, R81). -/
def agentOf (a : Arch) (t : Thread) : Agent :=
  let inside (l : Level) : Option UnitId := if t.level.code ≤ l.code then some (scopeUnit a t l) else none
  let core := inside .core
  { ctx := t.ctx, pkg := t.unit.pkg, uid := t.uid, crew := if t.isWave then some t.crew else none,
    wpkg := ((inside .pkg).map (·.pkg)).getD t.unit.pkg, core := core.map (·.idx), clu := (inside .clu).map (·.idx),
    die := (inside .die).map (·.idx) }

/-- The regions of a core that the own-core window admits for an agent (R86): base and size. -/
def ownRegions (a : Arch) (g : Agent) : List (Nat × Nat) :=
  match g.crew with
  | some c => match a.crew c with
    | some c => [(c.base, c.size)]
    | none => []
  | none => ((tvals a.crews).filter (fun c => c.parent == g.uid && c.started && !c.out)).map (fun c => (c.base, c.size))

/-- The regions that crews of a context hold on a core (R86). -/
def peerRegions (a : Arch) (ctx pkg core : Nat) : List (Nat × Nat) :=
  ((tvals a.crews).filter (fun c => c.ctx == ctx && c.pkg == pkg && c.core == core && c.started && !c.out)).map
    (fun c => (c.base, c.size))

/-- The bytes, of `n` from offset `off`, that lie inside one of some regions before the first that does not. -/
def runInside (rs : List (Nat × Nat)) (off n : Nat) : Nat :=
  match rs.find? (fun r => decide (r.1 ≤ off) && decide (off < r.1 + r.2)) with
  | some r => min n (r.1 + r.2 - off)
  | none => 0

/-- A fixed-window access of `n` bytes within one 128-byte block: the fabric address, or how many bytes lie inside. -/
def fixedWindow (a : Arch) (g : Agent) (va n : Nat) : Except Nat Nat :=
  let off := va % 2 ^ 48
  if off < 0x180000 then
    match g.core with
    | some k =>
      let m := runInside (ownRegions a g) off n
      if m < n then .error m else .ok (spadAddr g.wpkg k + off)
    | none => .error 0
  else if 0x200000 ≤ off ∧ off < 0xC00000 ∧ off % 0x200000 < 0x180000 then
    match g.core with
    | some k =>
      let tgt := k / 6 * 6 + (k % 6 + off / 0x200000) % 6
      let o := off % 0x200000
      let m := runInside (peerRegions a g.ctx g.wpkg tgt) o n
      if m < n then .error m else .ok (spadAddr g.wpkg tgt + o)
    | none => .error 0
  else if 0x1000000 ≤ off ∧ off < 0x1800000 then
    match g.clu with
    | some c => .ok (fabric g.wpkg (0x200000000000 + c / 8 * 0x4000000 + c % 8 * 0x800000 + (off - 0x1000000)))
    | none => .error 0
  else if 0x10000000 ≤ off ∧ off < 0x20000000 then
    match g.die with
    | some b =>
      let size := 0x10000000 - (a.berth g.wpkg b).area * 0x100000
      let m := if off - 0x10000000 < size then min n (size - (off - 0x10000000)) else 0
      if m < n then .error m else .ok (fabric g.wpkg (0x100000000000 + b * 0x10000000 + (off - 0x10000000)))
    | none => .error 0
  else .error 0

/-! ## Translation with the caches of R97, R98 -/

/-- One translated piece: fabric address, attributes, expiry of the translation, and whether the window is fixed. -/
structure Xl where
  fa : Nat
  attr : Nat
  expiry : Nat
  fixed : Bool
  deriving DecidableEq, Repr

/-- The lease of a context in ns (R96). -/
def leaseNs (c : Ctx) : Nat := (if c.lease = 0 then 8 else c.lease) * 1000

/-- The checks on the byte reached: rights and world, a target that exists, presence, firewall (R88, R93, R94). -/
def rightsBad (a : Arch) (world : Bool) (r : Right) (x : Xl) : Option AKind :=
  let ok := match r with
    | .rd => attrRd x.attr
    | .w => attrW x.attr
    | .rdw => attrRd x.attr && attrW x.attr
    | .x => attrX x.attr
  if !x.fixed && !targetOk x.attr (faPa x.fa) then some .format
  else if !ok || (attrWorld x.attr && !world) then some .prot
  else if isAbsent a x.fa then some .absent
  else if firewalled a world x.fa then some .prot
  else none

/-- A translation entry that serves a VA now. -/
def TlbEntry.serves (e : TlbEntry) (ctx va now : Nat) : Bool :=
  e.ctx == ctx && decide (e.base ≤ va) && decide (va ≤ e.limit) && decide (now ≤ e.expiry)

/-- The byte that an entry gives for a VA; one past the last PA of its package stays on that package, in reserved space (R88). -/
def TlbEntry.xl (e : TlbEntry) (va : Nat) : Xl :=
  { fa := fabric (faPkg e.faddr) (min (faPa e.faddr + (va - e.base)) (2 ^ 52 - 1)), attr := e.attr, expiry := e.expiry, fixed := false }

/-- The 64 KiB page of a translation, for a last-page register (R97). -/
def TlbEntry.page (e : TlbEntry) (va : Nat) : TlbEntry :=
  let p := va / 65536 * 65536
  { e with base := p, limit := p + 65535, faddr := e.faddr + (p - e.base) }

/-- The key of entry `n` of a core's TLB (R97). -/
def tlbKey (core n : Nat) : Nat := 256 * core + n
/-- The core TLB of a package's core, entries in order. -/
def tlbOf (a : Arch) (core : Nat) : Tab TlbEntry := a.tlb.filter (fun p => p.1 / 256 == core)

/-- Where a new TLB entry goes: the lowest free number, else that of the entry which expires first (DESIGN CHOICE, log 80). -/
def tlbSlot (t : Tab TlbEntry) : Nat :=
  match (List.range 256).find? (fun n => t.all (fun p => !(p.1 % 256 == n))) with
  | some n => n
  | none => ((t.foldl (fun (b : Option (Nat × Nat)) p => match b with
      | none => some (p.2.expiry, p.1 % 256)
      | some q => if p.2.expiry < q.1 then some (p.2.expiry, p.1 % 256) else b) none).map (·.2)).getD 0

/-- Walk as an engine or a sequencer above CORE does: no cache. -/
def walkXl (a : Arch) (mem : Memory) (time : Nat) (g : Agent) (va : Nat) : Except AKind (Xl × TlbEntry) :=
  match walk a mem g va with
  | .error k => .error k
  | .ok t =>
    let ex := refTimer a time g.pkg + (match a.ctx g.pkg g.ctx with | some c => leaseNs c | none => 0)
    let e : TlbEntry := { ctx := g.ctx, base := t.base, limit := t.limit, faddr := t.faddr, attr := t.attr, expiry := ex }
    .ok (e.xl va, e)

/-- A failed translation: its kind and the VA of the first failing byte. -/
abbrev XFail := AKind × Nat

/-- Translate `n` bytes within one 128-byte block for an engine or front-end access. -/
def translate (a : Arch) (mem : Memory) (time : Nat) (g : Agent) (r : Right) (va n : Nat) : Except XFail Xl :=
  if 2 ^ 56 ≤ va then .error (.bounds, va)
  else
    let world := a.ctxWorld g.pkg g.ctx
    let fin (x : Xl) : Except XFail Xl := match rightsBad a world r x with
      | some k => .error (k, va)
      | none => .ok x
    if va / 2 ^ 48 = 0x7F then
      match fixedWindow a g va n with
      | .error m => .error (.bounds, va + m)
      | .ok fa => fin { fa := fa, attr := fixedAttr, expiry := 2 ^ 64, fixed := true }
    else match walkXl a mem time g va with
      | .error k => .error (k, va)
      | .ok x => fin x.1

/-- Translate for a lane of a thread: last-page register, core TLB, walk (R97). A frame has one last-page register, as lane 0, and a frame
of a CORE sequencer uses its core's TLB (DESIGN CHOICE, log 95). The architecture answered holds the refills. -/
def translateLane (a : Arch) (mem : Memory) (time : Nat) (g : Agent) (u : Nat) (core : Option Nat) (r : Right) (l va n : Nat) :
    Except XFail (Xl × Arch) :=
  if 2 ^ 56 ≤ va then .error (.bounds, va)
  else if va / 2 ^ 48 = 0x7F then (translate a mem time g r va n).map (fun x => (x, a))
  else
    let now := refTimer a time g.pkg
    let world := a.ctxWorld g.pkg g.ctx
    let fin (x : Xl) (a : Arch) : Except XFail (Xl × Arch) := match rightsBad a world r x with
      | some k => .error (k, va)
      | none => .ok (x, a)
    let refill (e : TlbEntry) (a : Arch) : Arch := a.modThread u (fun t => { t with lastPage := tset t.lastPage l (e.page va) })
    match (a.thread u).bind (fun t => tget t.lastPage l) with
    | some e => if e.serves g.ctx va now then fin (e.xl va) a else miss now fin refill
    | none => miss now fin refill
where
  /-- The look-up after a miss in the last-page register. -/
  miss (now : Nat) (fin : Xl → Arch → Except XFail (Xl × Arch)) (refill : TlbEntry → Arch → Arch) : Except XFail (Xl × Arch) :=
    match core.bind (fun k => ((tlbOf a k).find? (fun p => p.2.serves g.ctx va now)).map (·.2)) with
    | some e => fin (e.xl va) (refill e a)
    | none => match walkXl a mem time g va with
      | .error k => .error (k, va)
      | .ok (x, e) =>
        let a := match core with
          | some k => { a with tlb := tset a.tlb (tlbKey k (tlbSlot (tlbOf a k))) e }
          | none => a
        fin x (refill e a)

/-- The TLB a thread uses: that of the core it runs on. -/
def Thread.tlbCore (t : Thread) : Option Nat :=
  match t.unit.level with
  | .lg => some (192 * t.unit.pkg + t.unit.idx)
  | .core => some (192 * t.unit.pkg + t.unit.idx)
  | _ => none

/-- Cut [va, va + n) at 128-byte blocks: VA, offset and length of each part; `k` bounds the number of parts. -/
def blocks : Nat → Nat → Nat → Nat → List (Nat × Nat × Nat)
  | 0, _, _, _ => []
  | k + 1, va, off, n =>
    if n = 0 then []
    else
      let m := min n (128 - va % 128)
      (va, off, m) :: blocks k (va + m) (off + m) (n - m)

end Sys2Proof.Machine
end

