-- ==== Sys2Proof/Machine/Mem.lean ====
section
/-! DEFINITION. Accesses to memory: what an access word issues (spec/20 R338 to R345, spec/05 R104, R105, R109), and what a
memory request does when it is performed (spec/05 R98, R101, R105, R106; spec/06 R120; spec/13 R216). -/

namespace Sys2Proof

/-- Bytes of an access width, and its 32-bit words (R340). -/
def MW.bytes : MW → Nat
  | .b8 => 1 | .s8 => 1 | .b16 => 2 | .s16 => 2 | .b32 => 4 | .b64 => 8 | .b128 => 16
def MW.words : MW → Nat
  | .b64 => 2 | .b128 => 4 | _ => 1
def MW.signed : MW → Bool
  | .s8 => true | .s16 => true | _ => false
/-- Bytes and words of an atomic (R344). -/
def AtSz.bytes : AtSz → Nat
  | .b4 => 4 | .b8 => 8 | .b16 => 16
def AtSz.words : AtSz → Nat
  | .b4 => 1 | .b8 => 2 | .b16 => 4

end Sys2Proof

namespace Sys2Proof.Machine

/-! ## Agents and scope units (spec/06 R112, R115, R116, R134) -/

/-- Whether a unit contains a location: the memories that R24 gives to it and to the units inside it. -/
def unitHolds (u : UnitId) (fa : Nat) : Bool :=
  match u.level with
  | .pod => true
  | .pkg => faPkg fa == u.pkg
  | .die => faPkg fa == u.pkg && (faPlace fa).sram && (faPlace fa).berth == u.idx
  | .clu => faPkg fa == u.pkg && (match faPlace fa with
    | .clu b c => 8 * b + c == u.idx
    | .spad k => k / 6 == u.idx
    | _ => false)
  | .core => faPkg fa == u.pkg && decide (faPlace fa = .spad u.idx)
  | .lg => false

/-! ## Locations (spec/06 R113, R119) -/

/-- Whether an operation acts on metadata: a granule's metadata is one location of its own (R345). -/
def MemWhat.isMeta : MemWhat → Bool
  | .ldmeta .. => true | .stmeta .. => true | _ => false

/-- Bytes that a lane's access touches: fabric address, length, and whether it writes them. -/
structure Touch where
  lane : Nat
  addr : Nat
  len : Nat
  st : Bool
  md : Bool
  free : Bool

/-- Whether two runs of bytes meet. -/
def runsMeet (a n b m : Nat) : Bool := decide (a < b + m) && decide (b < a + n)

/-- The unit of R104 and R109 that a part lies in: a 16-byte row of a scratchpad bank, else a 128-byte block. -/
def unitOf (fa : Nat) : Nat := match faPlace fa with | .spad _ => fa / 16 * 16 | _ => fa / 128 * 128

/-- Whether a location lies in a scratchpad. -/
def inSpad (fa : Nat) : Bool := match faPlace fa with | .spad _ => true | _ => false

/-- What a piece of an operation touches; an ACOPY reads its source and writes its destination (R355). -/
def MemOp.pieceTouches (o : MemOp) (p : Piece) : List Touch :=
  match o.what with
  | .acopy dst =>
    { lane := p.lane, addr := p.addr, len := p.len, st := false, md := false, free := false } ::
      (tget dst p.lane).toList.map (fun d => { lane := p.lane, addr := d + p.off, len := p.len, st := true, md := false, free := false })
  | w =>
    if w.isMeta then [{ lane := p.lane, addr := p.addr / 64 * 64, len := 64, st := w.isStore, md := true, free := false }]
    else [{ lane := p.lane, addr := p.addr, len := p.len, st := w.isStore, md := false, free := o.freePiece p }]

/-- What a request of an operation touches. -/
def MemOp.touches (o : MemOp) (r : MemReq) : List Touch := r.pieces.flatMap o.pieceTouches

/-- Whether two accesses meet in a location; data and metadata are apart. -/
def Touch.meets (x y : Touch) : Bool := x.md == y.md && runsMeet x.addr x.len y.addr y.len

/-- The ordering kind of a lane's access: the weakest of the pages that its bytes lie on (R118, R119). -/
def MemOp.laneKind (o : MemOp) (single : Bool) (l : Nat) : Nat :=
  o.reqs.foldl (fun m q => q.pieces.foldl (fun m p => if single || p.lane == l then max m (attrKind p.attr) else m) m) 0

/-- The ordering kind of a touch: that of its lane's access, and release-consistent for the destination of an ACOPY. -/
def MemOp.kindOf (o : MemOp) (x : Touch) : Nat :=
  match o.what with
  | .acopy _ => if x.st then 1 else o.laneKind o.single x.lane
  | _ => o.laneKind o.single x.lane

/-! ## Program order (spec/06 R120, R134) -/

/-- Whether two touches of operations of one thread are made by one agent: the same lane, or an access of the wave (R112, R341). -/
def sameAgent (x o : MemOp) (l k : Nat) : Bool := x.single || o.single || l == k

/-- Whether two accesses of one thread, one after the other, are ordered by their pages or a common location (R120). A bank of a
scratchpad performs one wave's accesses to a row in issue order (R109). -/
def touchBefore (x o : MemOp) (p q : Touch) : Bool :=
  !p.free && !q.free &&
  ((sameAgent x o p.lane q.lane &&
      ((x.kindOf p == 0 && o.kindOf q == 0) ||
       (p.meets q && !(x.kindOf p == 2) && !(o.kindOf q == 2) && (p.st || q.st)))) ||
    (!p.md && !q.md && inSpad p.addr && unitOf p.addr == unitOf q.addr))

/-- Whether a request only writes bytes outside a unit: a release at that unit's level does not await it (R134). -/
def MemOp.outside (o : MemOp) (q : MemReq) (u : UnitId) : Bool :=
  o.what.isStore && !o.what.isLoad && (o.touches q).all (fun x => !unitHolds u x.addr)

/-- Whether request `q` of operation `x`, issued before `o` by the same thread and not yet performed, must be performed before
request `r` of `o` (R120, R134). Acquires and releases of a word order the accesses of all its wave's lanes (DESIGN CHOICE, log 15). -/
def reqBefore (x : MemOp) (q : MemReq) (o : MemOp) (r : MemReq) : Bool :=
  x.waits q && o.waits r &&
  (x.acq || (o.rel && !x.outside q o.scope) ||
    (x.touches q).any (fun p => (o.touches r).any (touchBefore x o p)))

/-- Whether an operation must be performed, in part, before a request of a later one of the same thread. -/
def opBefore (x o : MemOp) (r : MemReq) : Bool := x.reqs.any (fun q => reqBefore x q o r)

/-! ## Fences (spec/06 R124, R125) -/

/-- Forms of a recorded fence: 0 full, 1 release, 2 acquire, with the path bits above. -/
def fenceForm (c : Nat) : Nat := c % 4
def fenceMx (c : Nat) : Bool := bitAt c 2
def fenceCp (c : Nat) : Bool := bitAt c 3

/-- Whether a command runs on the copy and stream engines (R125). -/
def CmdKind.isCopy : CmdKind → Bool
  | .copyIn .. => true | .copyOut => true | .copySeq => true | .spush .. => true | .mcopy .. => true | _ => false
/-- Whether a command runs on the matrix path (R125). -/
def CmdKind.isMatrix : CmdKind → Bool
  | .accst .. => true | .kvcommit => true | _ => false

/-- Whether an earlier access or command that a fence orders is not yet performed. Stores outside the fence's unit are not awaited:
the agents inside it find them performed (R123, R124). -/
def fencePending (a : Arch) (u : Nat) (f : FenceRec) : Bool :=
  let acqOnly := fenceForm f.form == 2
  (tvals a.ops).any (fun o => o.uid == u && decide (o.id < f.id) && (!acqOnly || o.what.isLoad) &&
    o.reqs.any (fun q => o.waits q && !o.outside q f.scope)) ||
  (tvals a.sums).any (fun x => x.uid == u && decide (x.id < f.id)) ||
  (!acqOnly &&
    ((tvals a.sends).any (fun x => x.sender == u && decide (x.id < f.id)) ||
     (fenceMx f.form && ((tvals a.slice).any (fun o => o.uid == u && decide (o.id < f.id)) ||
       (tvals a.cmds).any (fun c => decide (c.owner = .thread u) && c.kind.isMatrix && decide (c.id < f.id)))) ||
     (fenceCp f.form && (tvals a.cmds).any (fun c => decide (c.owner = .thread u) && c.kind.isCopy && decide (c.id < f.id)))))

/-- Whether a fence is still to be kept: an access before it is not yet performed, or a write that a release has passed to the thread
before it, which the release of a later store passes on (R121, R123). -/
def fenceLive (a : Arch) (u : Nat) (f : FenceRec) : Bool :=
  fencePending a u f || (tvals a.ops).any (fun o => o.uid == u && decide (o.id < f.id) && o.reqs.any o.waits) ||
  passedPending a u (f.id + 1)

/-- Whether the thread's own access must wait for a fence: every access after a full or acquire fence, a store also after a
release fence. -/
def fenceWait (a : Arch) (t : Thread) (isStore : Bool) : Bool :=
  t.fences.any (fun f => (isStore || !(fenceForm f.form == 1)) && fencePending a t.uid f)

/-- Whether a command of a path must wait for a fence with that path's bit (R125). -/
def fenceWaitPath (a : Arch) (t : Thread) (mx : Bool) : Bool :=
  t.fences.any (fun f => (if mx then fenceMx f.form else fenceCp f.form) && !(fenceForm f.form == 1) && fencePending a t.uid f)

/-- A word that an earlier fence or release orders waits; else it goes on. -/
def W.ordered (w : W) (wait : Bool) (k : WRes) : WRes := if wait then .stay w.a .order else k

/-! ## Releases and acquires (spec/06 R116, R121 to R123, R134, R135) -/

/-- Whether the agent that made a release lies inside a unit (R116). -/
def Release.within (r : Release) (u : UnitId) : Bool := decide (u.level = .pod) || r.froms.contains u

/-- Releases that pass nothing any more are forgotten. -/
def tidyRels (a : Arch) : Arch :=
  { a with rels := a.rels.filter (fun r => (tvals a.ops).any (fun x => x.seen.any (fun m => m.stamp == r.stamp))) }

/-- Whether one of some runs of bytes meets one of others. -/
def anyMeet (l k : List (Nat × Nat)) : Bool := l.any (fun x => k.any (fun y => runsMeet x.1 x.2 y.1 y.2))

/-- Whether a read of some bytes reads what a release wrote, or an atomic's value after it (R122). -/
def RelTo.readBy (r : RelTo) (bs : List (Nat × Nat)) : Bool := match r with | .bytes l => anyMeet l bs | _ => false

/-- An acquire by thread `uid` at the level of unit `u`: it synchronises with those of the releases `p` with which it is scope-matched, and
orders its accesses numbered above `since` after them (R116, R122). -/
def gain (a : Arch) (uid since : Nat) (u : UnitId) (p : Release → Bool) : Arch :=
  let got := a.rels.filter (fun r => p r && r.within u && insideUnit a uid r.unit)
  if got.isEmpty then a
  else a.modThread uid (fun t =>
    let old := t.acqd.filter (fun x => a.rels.any (fun r => r.stamp == x.1))
    { t with acqd := old ++ got.map (fun r => (r.stamp, since)) })

/-- A plain write of some bytes: a later read of them reads no release's value (R122). -/
def forgetRels (a : Arch) (bs : List (Nat × Nat)) : Arch :=
  if a.rels.isEmpty then a
  else { a with rels := a.rels.map (fun r => match r.via with
    | .bytes l => { r with via := .bytes (l.filter (fun x => !anyMeet [x] bs)) }
    | _ => r) }

/-- Whether an access of thread `uid`, numbered `lim`, to some bytes waits for a write that a release has passed to it (R123): by marks
made before any mark of the access's own operation. -/
def heldSeen (a : Arch) (uid lim : Nat) (mine : List Mark) (md : Bool) (fa n : Nat) : Bool :=
  let got := acquired a uid lim
  (tvals a.ops).any (fun x => !(x.uid == uid) &&
    x.seen.any (fun m => m.met a uid got && mine.all (fun k => decide (m.stamp < k.stamp))) &&
    x.reqs.any (fun q => x.waits q && (x.touches q).any (fun t => t.st && t.md == md && runsMeet t.addr t.len fa n)))

/-! ## Line buffers (spec/05 R106, spec/06 R131, R132) -/

/-- The key of a line: node, context and VA div 128. The node is 64 × package + cluster, or + 63 for the hub. -/
def lineKey (node ctx va : Nat) : Nat := (node * 65536 + ctx) * 2 ^ 49 + va / 128
def lineNode (k : Nat) : Nat := k / 2 ^ 65
def lineCtx (k : Nat) : Nat := k / 2 ^ 49 % 65536
def lineVa (k : Nat) : Nat := k % 2 ^ 49 * 128

/-- The line that an agent's access to a page goes through, if any. -/
def lineOf (g : Agent) (va : Nat) (x : Xl) : Option Nat :=
  if x.fixed || !attrC x.attr || attrKind x.attr == 0 then none
  else if 2 ^ 55 ≤ va then some (lineKey (64 * g.wpkg + 63) g.ctx va)
  else match faPlace x.fa, g.clu with
    | .die _, some c => some (lineKey (64 * g.wpkg + c) g.ctx va)
    | .clu .., some c => some (lineKey (64 * g.wpkg + c) g.ctx va)
    | _, _ => none

/-- Whether a node lies in a unit: the line buffers of its clusters, and at PKG and POD the hub's cache (R346). -/
def nodeIn (u : UnitId) (node : Nat) : Bool :=
  let p := node / 64
  let c := node % 64
  match u.level with
  | .pod => true
  | .pkg => u.pkg == p
  | .die => u.pkg == p && decide (c < 32) && c / 8 == u.idx
  | .clu => u.pkg == p && c == u.idx
  | _ => false

/-- Whether a node serves an agent: its cluster's, and its package's hub. -/
def Agent.served (g : Agent) (node : Nat) : Bool :=
  node == 64 * g.wpkg + 63 || decide (some node = g.clu.map (fun c => 64 * g.wpkg + c))

/-- An acquire at the level of unit `u`: the lines inside `u` that serve the agent, and whose aperture has been written since they were
filled, are dropped (R131, R132) (DEDUCED, log 59). -/
def dropLines (a : Arch) (g : Agent) (u : UnitId) : Arch :=
  { a with lines := a.lines.filter (fun p =>
      !(p.2.old && lineCtx p.1 == g.ctx && g.served (lineNode p.1) && nodeIn u (lineNode p.1))) }

/-- The acquire of a primitive, flag or crew barrier by a thread at the level of a unit (R46, R58, R127, R131). -/
def acquireIn (a : Arch) (t : Thread) (u : UnitId) : Arch :=
  gain (dropLines a (agentOf a t) u) t.uid (a.nextId - 1) u (fun r => decide (r.via = .direct))
def acquireAt (a : Arch) (t : Thread) (l : Level) : Arch := acquireIn a t (scopeOf a t l)

/-- A write through an aperture, at fabric address `fa` of a context's `va`: lines of the aperture in nodes other than that of line
`own` no longer hold its latest contents. -/
def ageLines (a : Arch) (ctx va fa : Nat) (own : Option Nat) : Arch :=
  { a with lines := a.lines.map (fun p =>
      if lineCtx p.1 == ctx && lineVa p.1 == va / 128 * 128 && p.2.base == fa / 128 * 128 && !decide (some p.1 = own) then
        (p.1, { p.2 with old := true })
      else p) }

/-- The lines that a write of a run of bytes leaves old, by an agent that no line buffer serves. -/
def ageRun (a : Arch) (ctx va fa n : Nat) : Arch :=
  (List.range ((fa % 128 + n + 127) / 128)).foldl (fun a i => ageLines a ctx (va / 128 * 128 + 128 * i) (fa / 128 * 128 + 128 * i) none) a

/-! ## Issue -/

/-- One translated part of a lane's access. -/
structure Part where
  lane : Nat
  off : Nat
  va : Nat
  len : Nat
  x : Xl

/-- Translate the parts of one lane's access, up to the first that fails. -/
def laneParts (mem : Memory) (time : Nat) (g : Agent) (u : Nat) (core : Option Nat) (r : Right) (l : Nat) :
    List (Nat × Nat × Nat) → Arch → Except XFail (List Part × Arch)
  | [], a => .ok ([], a)
  | (va, off, m) :: rest, a =>
    match translateLane a mem time g u core r l va m with
    | .error e => .error e
    | .ok (x, a) => match laneParts mem time g u core r l rest a with
      | .error e => .error e
      | .ok (ps, a) => .ok ({ lane := l, off := off, va := va, len := m, x := x } :: ps, a)

/-- Translate every lane's access: the parts, the failing lanes with kind and VA, and the refilled caches (R107, R340). A lane
named in `bad` fails so beforehand. -/
def gather (a : Arch) (mem : Memory) (time : Nat) (t : Thread) (r : Right) (n : Nat) (bad : Nat → Nat → Option AKind)
    (accs : List (Nat × Nat)) : List Part × List (Nat × XFail) × Arch :=
  let g := agentOf a t
  accs.foldl (fun acc p =>
    match bad p.1 p.2 with
    | some k => (acc.1, acc.2.1 ++ [(p.1, (k, p.2))], acc.2.2)
    | none => match laneParts mem time g t.uid t.tlbCore r p.1 (blocks (n + 1) p.2 0 n) acc.2.2 with
      | .error e => (acc.1, acc.2.1 ++ [(p.1, e)], acc.2.2)
      | .ok (ps, a) => (acc.1 ++ ps, acc.2.1, a)) ([], [], a)

/-- The ERROR of lanes whose table walk met an uncorrectable granule (R100, R213) (DESIGN CHOICE, log 94). -/
def walkErrorBad (fa n : Nat) (mask : Lanes) (va : Nat) : Bad :=
  { cls := .error, addr := BitVec.ofNat 64 va, synd := (faPlace fa).mem + min 255 n * 256, mask := some mask, kind := 0, kinds := 0,
    faddr := fa }

/-- A word that waits for a table's memory. -/
def walkWaits : Bad := { cls := .error, addr := 0, synd := 0, mask := none, kind := 0, kinds := 0, waits := true }

/-- The lanes of a failure; `all` is the mask of a single access that lanes share. -/
def failLanes (fs : List (Nat × XFail)) (all : Option Lanes) : Lanes := all.getD (Lanes.ofPred (fun l => fs.any (fun x => x.1 == l)))

/-- The table granules that walks found uncorrectable. -/
def walkErrors (fs : List (Nat × XFail)) : List Nat :=
  (fs.filterMap (fun x => match x.2.1 with | .error fa => some fa | _ => none)).eraseDups

/-- The trap of failing lanes: the ACCESS record (R207, R213), or where no lane fails so, that of walks which met an uncorrectable
granule. A lane whose walk waits holds the word. -/
def gatherBad (fs : List (Nat × XFail)) (all : Option Lanes) (isStore : Bool) (size : Nat) : Option Bad :=
  if fs.any (fun x => decide (x.2.1 = .waits)) then some walkWaits
  else
    let ac := fs.filter (fun x => x.2.1.isAccess)
    match ac, walkErrors fs, fs with
    | f :: _, _, _ =>
      let kinds := ac.foldl (fun m x => setBit m x.2.1.code) 0
      some (accessBad f.2.1.code kinds (failLanes ac all) (BitVec.ofNat 64 f.2.2) isStore false size)
    | [], fa :: r, f :: _ => some (walkErrorBad fa (r.length + 1) (failLanes fs all) f.2.2)
    | _, _, _ => none

/-- Cut a part at 16-byte boundaries where it lies in a scratchpad (R109). -/
def Part.cut : Nat → Part → List Part
  | 0, p => [p]
  | n + 1, p => match faPlace p.x.fa with
    | .spad _ =>
      let m := 16 - p.x.fa % 16
      if p.len ≤ m then [p]
      else { p with len := m } ::
        Part.cut n { p with off := p.off + m, va := p.va + m, len := p.len - m, x := { p.x with fa := p.x.fa + m } }
    | _ => [p]

/-- What one request covers: the unit of R104 or R109, or for metadata the 128-byte block, so that lanes that name one granule
share a request (R345). -/
def groupOf (md : Bool) (fa : Nat) : Nat := if md then fa / 128 * 128 else unitOf fa

/-- Put a piece into the request of its unit (R104). -/
def addPiece (md : Bool) (rs : List MemReq) (p : Piece) (expiry : Nat) : List MemReq :=
  match rs with
  | [] => [{ id := 0, pieces := [p], expiry := expiry, done := false }]
  | r :: rest =>
    if (r.pieces.head?.map (fun q => groupOf md q.addr)) = some (groupOf md p.addr) then
      { r with pieces := r.pieces ++ [p], expiry := min r.expiry expiry } :: rest
    else r :: addPiece md rest p expiry

/-- The requests of an access, numbered from 0. -/
def requests (g : Agent) (md : Bool) (ps : List Part) : List MemReq :=
  let rs := (ps.flatMap (fun p => if md then [p] else Part.cut 9 p)).foldl (fun rs p =>
    addPiece md rs { lane := p.lane, off := p.off, addr := p.x.fa, len := p.len, line := lineOf g p.va p.x, attr := p.x.attr }
      p.x.expiry) []
  (List.range rs.length).zip rs |>.map (fun p => { p.2 with id := p.1 })

/-- The lanes that a REPLACE excluded take their words (R214); a single access of the wave takes those of its lowest lane. -/
def W.replaceWords (w : W) (words : Nat) (dest : Nat → Nat) (single : Bool) : Thread :=
  match w.t.repl with
  | none => w.t
  | some r =>
    let ls := Lanes.toList (w.full &&& r.mask)
    let ls := if single then ls.take 1 else ls
    ls.foldl (fun t l => (List.range words).foldl (fun t i => t.setReg (dest l + i) l (tgetD r.words (32 * i + l) 0)) t) w.t

/-- The orders and flag of an access. -/
structure How where
  f : FSel
  lvl : LvlCode
  acq : Bool
  rel : Bool
  inv : Bool := false
  right : Right
  bytes : Nat
  /-- one access for the wave (R341). -/
  single : Bool
  /-- checks made before translation: alignment and window bounds, by lane and VA. -/
  pre : Nat → Nat → Option AKind
  /-- destination words per lane and first register code. -/
  words : Nat
  dest : Nat → Nat

/-- The memory operation that a word issues. -/
def W.mkOp (w : W) (a : Arch) (how : How) (what : MemWhat) (ps : List Part) (accs : List (Nat × Nat)) : MemOp :=
  let g := agentOf a w.t
  let u := scopeOf a w.t (a.resolve w.t how.lvl)
  { id := a.nextId, uid := w.t.uid, what := what, reqs := requests g what.isMeta ps, buf := [], flag := w.sel how.f, tm := w.t.tm,
    acq := how.acq, rel := how.rel, scope := u, acqs := if how.acq then [(u, a.nextId)] else [], single := how.single, inv := how.inv, ag := g, vas := tsets [] accs, pc := w.c.va w.c.pos,
    word := w.c.words.getD w.c.pos 0, opidx := w.c.pos, errLanes := 0, errGran := [], grade := 0, errDests := [] }

/-- Issue an access (R341, R342, R344): checks of R107, then one operation whose requests are performed later, counted on the
flag. `accs` gives lane and VA of each access. -/
def W.access (w : W) (how : How) (accs : List (Nat × Nat)) (what : MemWhat) : WRes :=
  let t0 := w.replaceWords how.words how.dest how.single
  let accs := if how.single then (if w.t.repl.isSome then [] else accs.take 1) else accs
  if accs.isEmpty then .done (w.a.setThread t0) []
  else if w.flagFull how.f then .stay w.a .flagFull
  else w.ordered (!how.inv && fenceWait w.a w.t what.isStore) <|
    let isSt := what.isStore
    let r := gather w.a w.mem w.time w.t how.right how.bytes how.pre accs
    checked (gatherBad r.2.1 (if how.single then some w.part else none) isSt how.bytes) <|
      let a := r.2.2
      let t := (a.thread w.t.uid).getD w.t
      let t := { t with regs := t0.regs, bank := t0.bank }
      let o := w.mkOp a how what r.1 accs
      w.ordered (how.inv && o.reqs.any o.waits && fenceWait w.a w.t false) <|
        .done { a.setThread (t.raiseSel o.flag) with nextId := a.nextId + 1, ops := tset a.ops o.id o } []

/-! ## Loads, stores, atomics, metadata (R340 to R345) -/

/-- The number that a run of `n` registers holds in a lane, low word first (R340) (DEDUCED, log 66). -/
def W.runVal (w : W) (n j : Nat) (o : Opnd) (l : Nat) : Nat :=
  let sum (f : Nat → W32) : Nat := (List.range n).foldl (fun x i => x + (f i).toNat * 2 ^ (32 * i)) 0
  match o with
  | .v r => sum (fun i => w.t.getV (r.val + i) l)
  | .s r => sum (fun i => w.t.getS (r.val + i))
  | .ix => sum (fun i => w.t.getV ((w.ixReg j l).toNat + i) l)
  | _ => if n = 1 then (w.rd j o l).toNat else (w.rd64 j o l).toNat

/-- The first register code of a destination in a lane (R253). -/
def W.destReg (w : W) (o : Opnd) (l : Nat) : Nat :=
  match o with
  | .s n => 0xC0 + n.val
  | _ => w.vreg 0 o l

/-- VA of class 4 (R340). -/
def W.va4 (w : W) (a b : Opnd) (l : Nat) : Nat := wrapTo 64 (((w.rd64 1 a l).toNat : Int) + (w.rd 2 b l).toInt)
/-- Offset and VA of class 5 (R340, R85): window 0 is the own core's, 1 to 5 the peers'. -/
def W.off5 (w : W) (a b : Opnd) (l : Nat) : Nat := ((w.rd 1 a l) + (w.rd 2 b l)).toNat
def spadVa (win off : Nat) : Nat := 0x7F000000000000 + win * 0x200000 + off
/-- The base bound of class 5: an offset at or above 1536 KiB. -/
def offBad (win va : Nat) : Option AKind := if 0x180000 ≤ va - spadVa win 0 then some .bounds else none
/-- The alignment check of an access (R344, R355). -/
def alignBad (n va : Nat) : Option AKind := if va % n = 0 then none else some .align

/-- The lanes of a vector form with their VAs. -/
def W.laneVas (w : W) (f : Nat → Nat) : List (Nat × Nat) := (Lanes.toList w.part).map (fun l => (l, f l))

/-- A vector load. -/
def W.load (w : W) (mw : MW) (m : MMod) (inv : Bool) (d : Opnd) (fs : List VF) (va : Nat → Nat) (pre : Nat → Nat → Option AKind) : WRes :=
  checked (firstBad [vecBad w ({ j := 0, o := d, n := mw.words, dst := true } :: fs), w.selBad m.fsel]) <|
    if w.arrived fs then
      w.access { f := m.fsel, lvl := m.lvl, acq := m.acq, rel := false, inv := inv, right := .rd, bytes := mw.bytes,
                 single := false, pre := pre, words := mw.words, dest := w.destReg d }
        (w.laneVas va) (.load mw.bytes mw.signed (tsets [] ((Lanes.toList w.part).map (fun l => (l, w.destReg d l)))))
    else .stay w.a .arrival

/-- The stored bytes of a lane, keyed 16 × lane + byte. -/
def storeData (n l v : Nat) : Tab Byte := ((List.range n).zip (leBytes n v)).map (fun p => (16 * l + p.1, p.2))

/-- A vector store. -/
def W.store (w : W) (mw : MW) (m : MMod) (c : Opnd) (fs : List VF) (va : Nat → Nat) (pre : Nat → Nat → Option AKind) : WRes :=
  let fs := fs ++ [{ j := 3, o := c, n := mw.words, dst := false }]
  checked (firstBad [vecBad w fs, w.selBad m.fsel]) <|
    if w.arrived fs then
      w.access { f := m.fsel, lvl := m.lvl, acq := false, rel := m.rel, right := .w, bytes := mw.bytes, single := false, pre := pre,
                 words := 0, dest := fun _ => 0 }
        (w.laneVas va) (.store mw.bytes ((Lanes.toList w.part).flatMap (fun l => storeData mw.bytes l (w.runVal mw.words 3 c l))))
    else .stay w.a .arrival

/-- The fields of an atomic after its address. -/
def atomFields (op : AtOp) (nr : Bool) (sz : AtSz) (d b c : Opnd) : List VF :=
  (if nr then [] else [{ j := 0, o := d, n := sz.words, dst := true }]) ++ [{ j := 2, o := b, n := sz.words, dst := false }] ++
    (if op = .cas then [{ j := 3, o := c, n := sz.words, dst := false }] else [])

/-- What an atomic does, for some lanes. -/
def W.atomWhat (w : W) (op : AtOp) (nr sgn : Bool) (sz : AtSz) (d b c : Opnd) (ls : List Nat) : MemWhat :=
  .atom sz.bytes op sgn (ls.map (fun l => (l, w.runVal sz.words 2 b l)))
    (if op = .cas then ls.map (fun l => (l, w.runVal sz.words 3 c l)) else [])
    (if nr then [] else ls.map (fun l => (l, w.destReg d l)))

/-- A vector atomic; `fa` are its address fields. -/
def W.atomic (w : W) (op : AtOp) (m : MMod) (nr sgn : Bool) (sz : AtSz) (d b c : Opnd) (fa : List VF) (va : Nat → Nat)
    (pre : Nat → Nat → Option AKind) : WRes :=
  let all := atomFields op nr sz d b c
  checked (firstBad [vecBad w (all.filter (·.dst) ++ fa ++ all.filter (fun f => !f.dst)), w.selBad m.fsel]) <|
    if w.arrived (fa ++ all.filter (fun f => !f.dst)) then
      w.access { f := m.fsel, lvl := m.lvl, acq := m.acq, rel := m.rel, right := .rdw, bytes := sz.bytes, single := false,
                 pre := pre, words := if nr then 0 else sz.words, dest := w.destReg d }
        (w.laneVas va) (w.atomWhat op nr sgn sz d b c (Lanes.toList w.part))
    else .stay w.a .arrival

/-- The address fields of classes 4 and 5. -/
def fields4 (a b : Opnd) : List VF := [{ j := 1, o := a, n := 2, dst := false }, { j := 2, o := b, n := 1, dst := false }]
def fields5 (a b : Opnd) : List VF := [{ j := 1, o := a, n := 1, dst := false }, { j := 2, o := b, n := 1, dst := false }]

/-- LD (R341). -/
def execLd (h : Hd) (mw : MW) (m : MMod) (inv : Bool) (d a b : Opnd) (s : State) : Out :=
  runWord 4 .lg h s fun w => w.load mw m inv d (fields4 a b) (w.va4 a b) (fun _ _ => none)
/-- ST (R342). -/
def execSt (h : Hd) (mw : MW) (m : MMod) (a b c : Opnd) (s : State) : Out :=
  runWord 4 .lg h s fun w => w.store mw m c (fields4 a b) (w.va4 a b) (fun _ _ => none)
/-- ATOM (R344). -/
def execAtom (h : Hd) (op : AtOp) (m : MMod) (nr sgn : Bool) (sz : AtSz) (d a b c : Opnd) (s : State) : Out :=
  runWord 4 .lg h s fun w =>
    w.atomic op m nr sgn sz d b c [{ j := 1, o := a, n := 2, dst := false }] (fun l => (w.rd64 1 a l).toNat)
      (fun _ va => alignBad sz.bytes va)
/-- LDS (R340, R341). -/
def execLds (h : Hd) (mw : MW) (m : MMod) (win : Fin 6) (d a b : Opnd) (s : State) : Out :=
  runWord 5 .lg h s fun w =>
    w.load mw m false d (fields5 a b) (fun l => spadVa win.val (w.off5 a b l)) (fun _ va => offBad win.val va)
/-- STS (R340, R342). -/
def execSts (h : Hd) (mw : MW) (m : MMod) (win : Fin 6) (a b c : Opnd) (s : State) : Out :=
  runWord 5 .lg h s fun w =>
    w.store mw m c (fields5 a b) (fun l => spadVa win.val (w.off5 a b l)) (fun _ va => offBad win.val va)
/-- ATOMS (R344). -/
def execAtoms (h : Hd) (op : AtOp) (m : MMod) (win : Fin 6) (nr sgn : Bool) (sz : AtSz) (d a b c : Opnd) (s : State) : Out :=
  runWord 5 .lg h s fun w =>
    w.atomic op m nr sgn sz d b c [{ j := 1, o := a, n := 1, dst := false }] (fun l => spadVa win.val (w.rd 1 a l).toNat)
      (fun _ va => (alignBad sz.bytes va).orElse (fun _ => offBad win.val va))

/-- LDMETA (R345). -/
def execLdmeta (h : Hd) (m : MMod) (d a : Opnd) (s : State) : Out :=
  runWord 4 .lg h s fun w =>
    let fa : VF := { j := 1, o := a, n := 2, dst := false }
    checked (firstBad [vecBad w [{ j := 0, o := d, n := 2, dst := true }, fa], w.selBad m.fsel]) <|
      if w.arrived [fa] then
        w.access { f := m.fsel, lvl := m.lvl, acq := m.acq, rel := false, right := .rd, bytes := 1, single := false,
                   pre := fun _ _ => none, words := 2, dest := w.destReg d }
          (w.laneVas (fun l => (w.rd64 1 a l).toNat))
          (.ldmeta (tsets [] ((Lanes.toList w.part).map (fun l => (l, w.destReg d l)))))
      else .stay w.a .arrival

/-- STMETA (R345). -/
def execStmeta (h : Hd) (m : MMod) (a c : Opnd) (s : State) : Out :=
  runWord 4 .lg h s fun w =>
    let fs : List VF := [{ j := 1, o := a, n := 2, dst := false }, { j := 3, o := c, n := 2, dst := false }]
    checked (firstBad [vecBad w fs, w.selBad m.fsel]) <|
      if w.arrived fs then
        w.access { f := m.fsel, lvl := m.lvl, acq := false, rel := m.rel, right := .w, bytes := 1, single := false,
                   pre := fun _ _ => none, words := 0, dest := fun _ => 0 }
          (w.laneVas (fun l => (w.rd64 1 a l).toNat))
          (.stmeta ((Lanes.toList w.part).map (fun l => (l, w.runVal 2 3 c l))))
      else .stay w.a .arrival

/-- The single access of the SLD forms, by its lowest lane (R341) (DEDUCED, log 71). -/
def W.oneVa (w : W) (va : Nat) : List (Nat × Nat) := (Lanes.toList w.part).take 1 |>.map (fun l => (l, va))

/-- SLD (R341). -/
def execSld (h : Hd) (mw : MW) (m : MMod) (inv : Bool) (d a b : Opnd) (s : State) : Out :=
  runWord 4 .any h s fun w =>
    checked (firstBad [dstS mw.words d, srcU64 1 a, srcU 2 b, w.selBad m.fsel]) <|
      w.access { f := m.fsel, lvl := m.lvl, acq := m.acq, rel := false, inv := inv, right := .rd, bytes := mw.bytes,
                 single := true, pre := fun _ _ => none, words := mw.words, dest := w.destReg d }
        (w.oneVa (w.va4 a b 0)) (.load mw.bytes mw.signed ((Lanes.toList w.part).take 1 |>.map (fun l => (l, w.destReg d l))))

/-- A run of scalar source registers, or a constant or literal (R340). -/
def srcRunU (j n : Nat) (o : Opnd) : Option Bad :=
  match o with
  | .s k => if k.val % n = 0 then none else opBad j 6 o
  | _ => srcU j o

/-- SST (R342). -/
def execSst (h : Hd) (mw : MW) (m : MMod) (a b c : Opnd) (s : State) : Out :=
  runWord 4 .any h s fun w =>
    checked (firstBad [srcU64 1 a, srcU 2 b, srcRunU 3 mw.words c, w.selBad m.fsel]) <|
      w.access { f := m.fsel, lvl := m.lvl, acq := false, rel := m.rel, right := .w, bytes := mw.bytes, single := true,
                 pre := fun _ _ => none, words := 0, dest := fun _ => 0 }
        (w.oneVa (w.va4 a b 0))
        (.store mw.bytes ((Lanes.toList w.part).take 1 |>.flatMap (fun l => storeData mw.bytes l (w.runVal mw.words 3 c l))))

/-- SATOM (R344). -/
def execSatom (h : Hd) (op : AtOp) (m : MMod) (nr sgn : Bool) (sz : AtSz) (d a b c : Opnd) (s : State) : Out :=
  runWord 4 .any h s fun w =>
    checked (firstBad [if nr then none else dstS sz.words d, srcU64 1 a, srcRunU 2 sz.words b,
        if op = .cas then srcRunU 3 sz.words c else none, w.selBad m.fsel]) <|
      w.access { f := m.fsel, lvl := m.lvl, acq := m.acq, rel := m.rel, right := .rdw, bytes := sz.bytes, single := true,
                 pre := fun _ va => alignBad sz.bytes va, words := if nr then 0 else sz.words, dest := w.destReg d }
        (w.oneVa (w.rs64 a).toNat) (w.atomWhat op nr sgn sz d b c ((Lanes.toList w.part).take 1))

/-! ## Performing a request -/

/-- The CLAIM, if any, that holds or refuses a request for a run of bytes (R349): marked frames hold requests issued later,
and rewritten ones refuse every request until the old mapping is retired. -/
def claimOn (a : Arch) (id fa n : Nat) : Option Cmd :=
  (tvals a.cmds).find? (fun c => match c.kind with
    | .claim .. => (c.committed || decide (c.id < id)) && c.legs.any (fun l => match l.src with
        | .phys p => runsMeet fa n p l.size
        | _ => false)
    | _ => false)

/-- Whether a request is refused or held by a CLAIM. -/
def reqClaimed (a : Arch) (o : MemOp) (r : MemReq) : Option Cmd := r.pieces.findSome? (fun p => claimOn a o.id p.addr p.len)

/-- Whether two atomics, or an atomic `x` and a store `o`, exclude each other: the atomics are scope-matched, the store is made
inside the atomic's scope unit (R116, R129). -/
def excludes (a : Arch) (x o : MemOp) : Bool :=
  insideUnit a o.uid x.scope && (!o.what.isAtom || insideUnit a x.uid o.scope)

/-- Whether two requests have a location in common that the first writes. -/
def reqsMeet (x : MemOp) (q : MemReq) (o : MemOp) (r : MemReq) : Bool :=
  (x.touches q).any (fun t => t.st && (o.touches r).any t.meets)

/-- Whether the front end of a package lies inside a unit (R115). -/
def frontInside (pkg : Nat) (u : UnitId) : Bool := match u.level with | .pod => true | .pkg => u.pkg == pkg | _ => false

/-- Whether an agent's plain write of some bytes must wait for an atomic that has read them and not yet written them: the agent lies inside
the atomic's scope unit (R129). -/
def writeShut (a : Arch) (inside : UnitId → Bool) (fa n : Nat) : Bool :=
  (tvals a.ops).any (fun x => inside x.scope && x.reqs.any (fun q => q.half.isSome && !q.done &&
    (x.touches q).any (fun t => t.st && !t.md && runsMeet t.addr t.len fa n)))

/-- Whether a write must wait for an atomic that has read the location and not yet written it (R129). -/
def atomHolds (a : Arch) (o : MemOp) (r : MemReq) : Bool :=
  o.what.isStore && (tvals a.ops).any (fun x => !(x.id == o.id) &&
    x.reqs.any (fun q => q.half.isSome && !q.done && reqsMeet x q o r) && excludes a x o)

/-- Whether an atomic may be performed as a read and then a write: another agent has a write of the location pending that it does not
exclude (R129). -/
def atomMeets (a : Arch) (o : MemOp) (r : MemReq) : Bool :=
  o.what.isAtom && r.half.isNone && (tvals a.ops).any (fun x => !(x.id == o.id) && x.what.isStore &&
    x.reqs.any (fun q => !q.done && reqsMeet x q o r) && !(if x.what.isAtom then excludes a x o else insideUnit a x.uid o.scope))

/-- Whether such an atomic's read and write are performed apart is a free value (DESIGN CHOICE, log 93). -/
def atomSplits (a : Arch) (o : MemOp) (r : MemReq) : Bool := atomMeets a o r && Config.atomGap o.id r.id

/-- Whether a request may be performed now (DESIGN CHOICE, log 15). -/
def reqReady (a : Arch) (time : Nat) (o : MemOp) (r : MemReq) : Bool :=
  !r.done && decide (refTimer a time o.ag.pkg ≤ r.expiry) && (reqClaimed a o r).isNone &&
  !(r.pieces.any (fun p => crossingStalled a o.ag p.addr)) &&
  (tvals a.ops).all (fun x => !(x.uid == o.uid && decide (x.id < o.id) && opBefore x o r)) &&
  !(o.rel && ((tvals a.sends).any (fun x => x.sender == o.uid && decide (x.id < o.id)) ||
    (tvals a.sums).any (fun x => x.uid == o.uid && decide (x.id < o.id)))) &&
  !(o.touches r).any (fun t => !t.free && heldSeen a o.uid o.id o.seen t.md t.addr t.len) &&
  !atomHolds a o r

/-- Fill the line of a piece where it is absent (R106). -/
def fillLine (a : Arch) (mem : Memory) (p : Piece) : Arch :=
  match p.line with
  | none => a
  | some k =>
    let base := p.addr / 128 * 128
    if (tget a.lines k).map (·.base) = some base then a
    else if (granules base 128).any (isBad a) then a
    else { a with lines := tset a.lines k { base := base, bytes := mbytes mem base 128, old := false } }

/-- A byte of a piece: from its line, else from memory. -/
def pieceByte (a : Arch) (mem : Memory) (p : Piece) (i : Nat) : Byte :=
  match p.line.bind (tget a.lines) with
  | some x => if x.base = p.addr / 128 * 128 then x.bytes.getD ((p.addr + i) % 128) 0 else mget mem (p.addr + i)
  | none => mget mem (p.addr + i)

/-- Write bytes, at address `va` of a context, through the line of a piece, where it is held; other nodes' lines of the aperture grow old,
also by a write of an agent that no line buffer serves. -/
def writeLine (a : Arch) (ctx va : Nat) (p : Piece) (bs : List Byte) : Arch :=
  let a := match p.line with
    | none => a
    | some k => { a with lines := tmod a.lines k (fun x =>
        if x.base = p.addr / 128 * 128 then
          { x with bytes := x.bytes.take (p.addr % 128) ++ bs ++ x.bytes.drop (p.addr % 128 + bs.length) }
        else x) }
  ageLines a ctx va p.addr p.line

/-! ## Invariant loads (spec/06 R130) -/

/-- How many of the kept writes were made since the launch tree of a thread began. -/
def heldSince (a : Arch) (uid : Nat) : Nat :=
  match a.thread uid with
  | none => 0
  | some t => (a.held.takeWhile (fun h => decide (t.tree < h.1))).length

/-- The byte that stood at an address before the last `c` writes. -/
def heldByte (a : Arch) (mem : Memory) (c ad : Nat) : Byte :=
  match (a.held.take c).reverse.find? (fun h => decide (h.2.1 ≤ ad) && decide (ad < h.2.1 + h.2.2.length)) with
  | some h => h.2.2.getD (ad - h.2.1) 0
  | none => mget mem ad

/-- The bytes that an invariant load of a piece returns: those of a time since its tree began that a free value chooses (DESIGN
CHOICE, log 82), or of a line that is held. -/
def heldBytes (a : Arch) (mem : Memory) (o : MemOp) (p : Piece) : List Byte :=
  let c := Config.heldAge a.free % (heldSince a o.uid + 2)
  (List.range p.len).map (fun i =>
    if c = heldSince a o.uid + 1 then
      match p.line.bind (tget a.lines) with
      | some x => if x.base = p.addr / 128 * 128 then x.bytes.getD ((p.addr + i) % 128) 0 else mget mem (p.addr + i)
      | none => mget mem (p.addr + i)
    else heldByte a mem c (p.addr + i))

/-- Metadata of a granule as its page shows it (R100, R345). -/
def metaOf (a : Arch) (g count : Nat) : Nat := (tgetD a.gmeta g 0).toNat % 2 ^ count
/-- Write the low `count` metadata bits of a granule; bits above them, written under another GRADE, stay (DESIGN CHOICE, log 97). -/
def setMeta (a : Arch) (g count v : Nat) : Arch :=
  let old := (tgetD a.gmeta g 0).toNat
  let x := old / 2 ^ count * 2 ^ count + v % 2 ^ count
  { a with gmeta := if x = 0 then tdel a.gmeta g else tset a.gmeta g (BitVec.ofNat 64 x) }

/-- Record an uncorrectable granule that an operation met, with its event (R216, R218); `reg` names the destination words that
it spoils in the piece's lane (DESIGN CHOICE, log 26). -/
def meetBad (a : Arch) (time : Nat) (o : MemOp) (p : Piece) (g : Nat) (reg : List Nat) : Arch × MemOp :=
  let wid := match a.thread o.uid with | some t => (if t.isWave then t.waveid.toNat else 0xFFFFFF) | none => 0xFFFFFF
  let fresh := !o.errGran.contains g
  let a := if fresh then a.event time (faPkg p.addr) 7 o.ag.ctx (faPlace p.addr).mem (g * 64) wid else a
  (a, { o with errLanes := o.errLanes ||| BitVec.ofNat 32 (2 ^ p.lane),
               grade := if o.errGran.isEmpty then attrGrade p.attr else o.grade,
               errGran := if fresh then o.errGran ++ [g] else o.errGran,
               errDests := o.errDests ++ reg.map (fun r => { reg := r, lane := p.lane }) })

/-- The state of a request being performed: the architecture, the operation, memory and what has been written. -/
structure Perf where
  a : Arch
  o : MemOp
  mem : Memory
  ws : Writes

/-- Write bytes of a piece. -/
def Perf.put (s : Perf) (p : Piece) (off : Nat) (bs : List Byte) : Perf :=
  { s with a := writeLine s.a s.o.ag.ctx (tgetD s.o.vas p.lane 0 + p.off + off) { p with addr := p.addr + off } bs, mem := mputs s.mem (p.addr + off) bs,
           ws := s.ws ++ [(p.addr + off, bs)] }

/-- Land bytes of a lane. -/
def Perf.land (s : Perf) (p : Piece) (bs : List Byte) : Perf :=
  { s with o := { s.o with buf := tsets s.o.buf (((List.range bs.length).zip bs).map (fun x => (16 * p.lane + p.off + x.1, x.2))) } }

/-- The uncorrectable granules of a piece. -/
def Perf.badOf (s : Perf) (p : Piece) : List Nat :=
  (granules p.addr p.len).filter (fun g => isBad s.a g &&
    !(match p.line.bind (tget s.a.lines) with | some x => x.base == p.addr / 128 * 128 | none => false))

/-- Offsets of a piece's bytes that lie in a granule. -/
def inGranule (p : Piece) (g : Nat) : List Nat := (List.range p.len).filter (fun i => granule (p.addr + i) == g)

/-- The destination words that a granule's bytes of a piece belong to. -/
def spoiled (p : Piece) (g : Nat) (dest : Option Nat) : List Nat :=
  match dest with
  | none => []
  | some r => ((inGranule p g).map (fun i => r + (p.off + i) / 4)).eraseDups

/-- Whether the operation's bytes cover a whole granule (R216). -/
def MemOp.covers (o : MemOp) (g : Nat) : Bool :=
  (List.range 64).all (fun i => o.reqs.any (fun r => r.pieces.any (fun p =>
    decide (p.addr ≤ 64 * g + i) && decide (64 * g + i < p.addr + p.len))))

/-- An ordered choice of an atomic (R344). -/
def atomNew (n : Nat) (op : AtOp) (sgn : Bool) (old b c : Nat) : Nat :=
  let less (x y : Nat) : Bool := if sgn then decide (signedOf (8 * n) x < signedOf (8 * n) y) else decide (x < y)
  match op with
  | .add => (old + b) % 2 ^ (8 * n)
  | .min => if less b old then b else old
  | .max => if less old b then b else old
  | .and => old &&& b
  | .or => old ||| b
  | .xor => old ^^^ b
  | .xchg => b
  | .cas => if old = c then b else old

/-- Destination, source and the page attributes of each 16-byte unit that an ACOPY writes: the highest lane of a destination. -/
def acopyUnits (o : MemOp) (dst : Tab Nat) : List (Nat × Piece) :=
  let ps := o.reqs.flatMap (·.pieces)
  (ps.filterMap (fun p => (tget dst p.lane).map (fun d => (d, p)))).filter (fun x =>
    ps.all (fun q => !(decide (x.2.lane < q.lane) && decide (tget dst q.lane = some x.1))))

/-- Whether an ACOPY writes the whole of a granule (R216). -/
def acopyCovers (units : List (Nat × Piece)) (g : Nat) : Bool :=
  (List.range 4).all (fun i => units.any (fun u => u.1 == 64 * g + 16 * i))

/-- Metadata of a granule that an ACOPY writes (R101): moved when the granule comes whole from one aligned source granule, zero
when whole otherwise, unchanged when written in part. -/
def acopyMeta (a : Arch) (units : List (Nat × Piece)) (g : Nat) : Arch :=
  let at' (i : Nat) : Option Piece := (units.find? (fun u => u.1 == 64 * g + 16 * i)).map (·.2)
  match at' 0, at' 1, at' 2, at' 3 with
  | some p0, some p1, some p2, some p3 =>
    let whole := p0.addr % 64 == 0 && p1.addr == p0.addr + 16 && p2.addr == p0.addr + 32 && p3.addr == p0.addr + 48
    setMeta a g 32 (if whole then metaOf a (granule p0.addr) (min 32 (gradeCount (attrGrade p0.attr))) else 0)
  | _, _, _, _ => a

/-- Perform one piece of an operation. -/
def performPiece (time : Nat) (s : Perf) (p : Piece) : Perf :=
  match s.o.what with
  | .load _ _ dest =>
    let a := fillLine s.a s.mem p
    let s := { s with a := if s.o.freePiece p then { a with free := a.free + 1 } else a }
    let bad := s.badOf p
    let s := s.land p (if s.o.freePiece p then heldBytes a s.mem s.o p else (List.range p.len).map (pieceByte a s.mem p))
    bad.foldl (fun s g => let x := meetBad s.a time s.o p g (spoiled p g (tget dest p.lane)); { s with a := x.1, o := x.2 }) s
  | .store _ data =>
    (granules p.addr p.len).foldl (fun s g =>
      let is := inGranule p g
      let bs := is.map (fun i => tgetD data (16 * p.lane + p.off + i) 0)
      let i0 := is.headD 0
      if isBad s.a g then
        if s.o.covers g then { (s.put p i0 bs) with a := { (s.put p i0 bs).a with bad := tdel s.a.bad g } }
        else let x := meetBad s.a time s.o p g []; { s with a := x.1, o := x.2 }
      else s.put p i0 bs) s
  | .atom n op sgn b c dest =>
    let bad := s.badOf { p with line := none }
    if bad.isEmpty then
      let old := mnum s.mem p.addr n
      let new := atomNew n op sgn old (tgetD b p.lane 0) (tgetD c p.lane 0)
      (s.put p 0 (leBytes n new)).land p (leBytes n old)
    else
      let s := s.land p (leBytes n 0)
      bad.foldl (fun s g => let x := meetBad s.a time s.o p g (spoiled p g (tget dest p.lane)); { s with a := x.1, o := x.2 }) s
  | .ldmeta dest =>
    let g := granule p.addr
    let s := s.land { p with off := 0 } (leBytes 8 (metaOf s.a g (gradeCount (attrGrade p.attr))))
    if isBad s.a g then
      let x := meetBad s.a time s.o p g (match tget dest p.lane with | some r => [r, r + 1] | none => [])
      { s with a := x.1, o := x.2 }
    else s
  | .stmeta data =>
    let g := granule p.addr
    if gradeCount (attrGrade p.attr) = 0 then s
    else if isBad s.a g then let x := meetBad s.a time s.o p g []; { s with a := x.1, o := x.2 }
    else { s with a := setMeta s.a g (gradeCount (attrGrade p.attr)) (tgetD data p.lane 0) }
  | .acopy dst =>
    match tget dst p.lane with
    | none => s
    | some d =>
      let a := fillLine s.a s.mem p
      let s := { s with a := a }
      let bad := s.badOf p
      let bs := if bad.isEmpty then (List.range 16).map (pieceByte a s.mem p) else List.replicate 16 0
      let units := acopyUnits s.o dst
      let s := bad.foldl (fun s g => let x := meetBad s.a time s.o p g []; { s with a := x.1, o := x.2 }) s
      if units.any (fun u => u.1 == d && u.2.lane == p.lane) then
        if isBad s.a (granule d) && !acopyCovers units (granule d) then
          let x := meetBad s.a time s.o { p with addr := d, attr := fixedAttr } (granule d) []
          { s with a := x.1, o := x.2 }
        else { s with mem := mputs s.mem d bs, ws := s.ws ++ [(d, bs)],
                      a := acopyMeta { s.a with bad := tdel s.a.bad (granule d) } units (granule d) }
      else s

/-! ## Landing and completion -/

/-- Write an s register where an operation of trap mode `tm` sees it (R211). -/
def Thread.setSAt (t : Thread) (tm : Bool) (n : Nat) (v : W32) : Thread :=
  if tm then t.setS n v else { t with regs := t.regs.putS n v }

/-- Write a register word by its code, for an operation of trap mode `tm`. -/
def Thread.setRegAt (t : Thread) (tm : Bool) (reg l : Nat) (v : W32) : Thread :=
  if 0xC0 ≤ reg then t.setSAt tm (reg - 0xC0) v else t.setV reg l v

/-- The destination words of a landed lane (R340, R216): register code and value. -/
def landed (o : MemOp) (l n words dest : Nat) (sext : Bool) : List (Nat × W32) :=
  (List.range words).map (fun i =>
    let m := min 4 (n - 4 * i)
    let v := leVal ((List.range m).map (fun j => tgetD o.buf (16 * l + 4 * i + j) 0))
    let v := if sext then wrapTo 32 (signedOf (8 * m) v) else v
    (dest + i, if o.errDests.any (fun d => d.reg == dest + i && d.lane == l) then 0 else BitVec.ofNat 32 v))

/-- Bytes, sign extension and destinations of an operation that returns data. -/
def MemWhat.returns : MemWhat → Nat × Bool × Tab Nat
  | .load n sext d => (n, sext, d)
  | .atom n _ _ _ _ d => (n, false, d)
  | .ldmeta d => (8, false, d)
  | _ => (0, false, [])

/-- Write the lanes of `ls` whose every piece is performed. -/
def landLanes (t : Thread) (o : MemOp) (ls : List Nat) : Thread :=
  let r := o.what.returns
  ls.foldl (fun t l =>
    match tget r.2.2 l with
    | none => t
    | some d =>
      if o.reqs.any (fun q => !q.done && q.pieces.any (fun p => p.lane == l)) then t
      else (landed o l r.1 ((r.1 + 3) / 4) d r.2.1).foldl (fun t x => t.setRegAt o.tm x.1 l x.2) t) t

/-- The ERROR trap of an operation that met uncorrectable granules (R213, R216). -/
def errTrap (o : MemOp) (time : Nat) : TrapRec :=
  let g := o.errGran.headD 0
  let l := (Lanes.toList o.errLanes).headD 0
  let r := o.what.returns
  { cls := .error, opidx := o.opidx, kinds := 0, kind := 0, mask := o.errLanes, pc := o.pc,
    addr := BitVec.ofNat 64 (tgetD o.vas l 0),
    synd := BitVec.ofNat 64 ((faPlace (g * 64)).mem + o.grade * 16 + min 255 o.errGran.length * 256),
    word := BitVec.ofNat 64 o.word, faddr := BitVec.ofNat 64 (g * 64), time := time,
    dests := (List.range ((r.1 + 3) / 4)).map (fun i =>
      o.errDests.filter (fun d => decide ((tget r.2.2 d.lane).map (· + i) = some d.reg))),
    wide := r.1 == 8 }

/-- Pend an asynchronous trap on a thread (R209). -/
def Arch.pend (a : Arch) (u : Nat) (r : TrapRec) : Arch := a.modThread u (fun t => { t with pend := t.pend ++ [{ trap := r }] })

/-- When every request is performed, the flag falls and an error pends its trap (R105, R209). -/
def finishOp (a : Arch) (time : Nat) (o : MemOp) : Arch :=
  if o.reqs.all (·.done) then
    let a := { a with ops := tdel a.ops o.id }
    let a := if o.errGran.isEmpty then a else a.pend o.uid (errTrap o (refTimer a time o.ag.pkg))
    (if a.rels.isEmpty then a else tidyRels a).lowerFlag o.uid o.flag o.tm
  else { a with ops := tset a.ops o.id o }

/-- The bytes that a request of an operation touches: those that it writes, or all. -/
def MemOp.runs (o : MemOp) (r : MemReq) (st : Bool) : List (Nat × Nat) :=
  ((o.touches r).filter (fun x => !x.md && (x.st || !st))).map (fun x => (x.addr, x.len))

/-- The releases that a request of an operation performs: its own, and, for a store, those of earlier release and full fences (R121). -/
def MemOp.releases (a : Arch) (o : MemOp) : List (Nat × UnitId) :=
  (if o.rel then [(o.id, o.scope)] else []) ++ (match a.thread o.uid with
    | some t => if o.what.isStore then (t.fences.filter (fun f => decide (f.id < o.id) && !(fenceForm f.form == 2))).map (fun f => (f.id, f.scope))
                else []
    | none => [])

/-- What a request does to the order of its agents when it is performed: its acquires drop lines and synchronise with the releases that it
reads from (R122, R131), a load notes what it reads for a later acquire fence, a plain store ends what stood there, and its releases pass
the earlier writes on (R121, R123). -/
def orderMarks (a : Arch) (o : MemOp) (r : MemReq) : Arch :=
  let reads := o.what.isLoad && o.waits r
  let a := if reads then o.acqs.foldl (fun a u => gain (dropLines a o.ag u.1) o.uid u.2 u.1 (fun x => x.via.readBy (o.runs r false))) a else a
  let got := a.rels.filter (fun x => reads && x.via.readBy (o.runs r false))
  let a := if got.isEmpty then a else a.modThread o.uid (fun t => { t with readRels := t.readRels ++ got.map (·.stamp) })
  let a := if o.what.isStore && !o.what.isAtom then forgetRels a (o.runs r true) else a
  (o.releases a).foldl (fun a m => markSeen a o.uid m.1 m.2 false (.bytes (o.runs r true))) a

/-- The rest of a request once its bytes have been read and written: the request is done, its lanes land. -/
def landReq (time : Nat) (s : Perf) (r : MemReq) : Arch × Writes :=
  let o := { s.o with reqs := s.o.reqs.map (fun q => if q.id == r.id then { q with done := true, half := none } else q) }
  let a := s.a.modThread o.uid (fun t => landLanes t o ((r.pieces.map (·.lane)).eraseDups))
  (finishOp a time o, s.ws)

/-- Perform a request of a memory operation. An atomic that is split only reads, and writes when it is next performed (R129). -/
def performReq (a : Arch) (mem : Memory) (time : Nat) (o : MemOp) (r : MemReq) : Arch × Writes :=
  let a := orderMarks a o r
  let o := (tget a.ops o.id).getD o
  match r.half with
  | some ws => landReq time ((r.pieces.zip ws).foldl (fun s x => s.put x.1 0 x.2.2) { a := a, o := o, mem := mem, ws := [] }) r
  | none =>
    let s := r.pieces.foldl (performPiece time) { a := a, o := o, mem := mem, ws := [] }
    if atomSplits a o r && s.ws.length == r.pieces.length then
      ({ a with ops := tset a.ops o.id { s.o with reqs := s.o.reqs.map (fun q => if q.id == r.id then { q with half := some s.ws } else q) } }, [])
    else landReq time s r

/-- A memory request reaches its memory (R105). -/
def memoryRequest (a : Arch) (mem : Memory) (time op req : Nat) : Arch × Writes :=
  match tget a.ops op with
  | none => (a, [])
  | some o => match o.reqs.find? (fun r => r.id == req) with
    | none => (a, [])
    | some r => if reqReady a time o r then performReq a mem time o r else (a, [])

/-! ## STALE and leases (R98, R349) -/

/-- Whether a pending request has been answered STALE: its translation has expired, or a CLAIM has rewritten its frames. -/
def reqStale (a : Arch) (time : Nat) (o : MemOp) (r : MemReq) : Bool :=
  !r.done && (decide (r.expiry < refTimer a time o.ag.pkg) ||
    (match reqClaimed a o r with | some c => c.committed | none => false))

/-- Translate the pieces of a stale request again: new pieces, and lanes that fail. -/
def reissuePiece (a : Arch) (mem : Memory) (time : Nat) (o : MemOp) (right : Right) (p : Piece) : Except XFail (Part) :=
  let va := tgetD o.vas p.lane 0 + p.off
  (translate a mem time o.ag right va p.len).map (fun x => { lane := p.lane, off := p.off, va := va, len := p.len, x := x })

def MemWhat.right : MemWhat → Right
  | .load .. => .rd | .ldmeta .. => .rd | .acopy .. => .rd | .store .. => .w | .stmeta .. => .w | .atom .. => .rdw

/-- Reissue an operation's stale requests; a lane that now fails its translation pends the ACCESS trap of R107 (DEDUCED, log 16). -/
def reissue (a : Arch) (mem : Memory) (time : Nat) (o : MemOp) : Arch :=
  let stale := o.reqs.filter (reqStale a time o)
  if stale.isEmpty then a
  else
    let got := (stale.flatMap (·.pieces)).map (fun p => (p, reissuePiece a mem time o o.what.right p))
    let fails := got.filterMap (fun x => match x.2 with | .error e => some (x.1.lane, e) | .ok _ => none)
    if fails.any (fun x => decide (x.2.1 = .waits)) then a else
    let parts := got.filterMap (fun x => match x.2 with | .ok p => some p | .error _ => none)
    let keep := o.reqs.filter (fun r => !reqStale a time o r)
    let base := o.reqs.foldl (fun m r => max m (r.id + 1)) 0
    let fresh := (requests o.ag o.what.isMeta parts).map (fun r => { r with id := r.id + base })
    let o := { o with reqs := keep ++ fresh }
    let a := match gatherBad fails none o.what.isStore 0 with
      | none => a
      | some b => ((a.thread o.uid).elim a (b.note a time)).pend o.uid
          { cls := b.cls, opidx := o.opidx, kinds := b.kinds, kind := b.kind, mask := b.mask.getD 0, pc := o.pc, addr := b.addr,
            synd := BitVec.ofNat 64 b.synd, word := BitVec.ofNat 64 o.word, faddr := BitVec.ofNat 64 b.faddr,
            time := refTimer a time o.ag.pkg, dests := [] }
    finishOp a time o

/-- STALE_REISSUE (R98). -/
def execStaleReissue (op : Nat) (s : State) : Out :=
  runEvent s fun a mem time => match tget a.ops op with
    | none => (a, [])
    | some o => (reissue a mem time o, [])

/-- LEASE_EXPIRY: an entry whose expiry has passed is dropped (R98). Numbers 0 to 255 are entries of the core's TLB; 256 and
above are last-page registers, 256 + 32 × slot + lane. -/
def execLeaseExpiry (core n : Nat) (s : State) : Out :=
  runEvent s fun a _ time =>
    if n < 256 then
      match tget a.tlb (tlbKey core n) with
      | some e => if e.expiry < refTimer a time (core / 192) then ({ a with tlb := tdel a.tlb (tlbKey core n) }, []) else (a, [])
      | none => (a, [])
    else
      let l := n % 32
      ({ a with threads := a.threads.map (fun p =>
          if decide (p.2.tlbCore = some core) && p.2.isWave && p.2.slot == (n - 256) / 32 then
            match tget p.2.lastPage l with
            | some e => if e.expiry < refTimer a time (core / 192) then (p.1, { p.2 with lastPage := tdel p.2.lastPage l }) else p
            | none => p
          else p) }, [])

/-! ## FLUSH, FRAME, MIGRATE, FENCE -/

/-- FLUSH (R346): the lines of the range are dropped; every line is clean, for stores are written through (DEDUCED, log 14), so that the
flag never stays raised. -/
def execFlush (h : Hd) (m : MMod) (a b : Opnd) (s : State) : Out :=
  runWord 4 .any h s fun w =>
    checked (firstBad [srcU64 1 a, srcU 2 b, w.selBad m.fsel]) <|
      if w.part = 0 then .done w.a []
      else if w.flagFull m.fsel then .stay w.a .flagFull
      else
        let va := (w.rs64 a).toNat
        let n := (w.rs b).toNat
        let l := w.a.resolve w.t m.lvl
        let u := scopeUnit w.a w.t (if l.code < 2 then .clu else l)
        .done { w.a with lines := w.a.lines.filter (fun p =>
          !(decide (0 < n) && nodeIn u (lineNode p.1) && lineCtx p.1 == w.t.ctx && runsMeet (lineVa p.1) 128 va n)) } []

/-- FRAME (R108, R347). -/
def execFrame (h : Hd) (d a : Opnd) (s : State) : Out :=
  runWord 4 .lg h s fun w =>
    let n : Int := (w.t.sr.sp : Int) + (w.rs a).toInt
    checked (firstBad [dstS 2 d, srcU 1 a, if n % 16 = 0 then none else some (operandBad 1 6 0 (BitVec.ofInt 64 n))]) <|
      if w.part = 0 then .done w.a []
      else match w.a.ctx w.t.unit.pkg w.t.ctx with
        | none => .bad { cls := .growth, addr := BitVec.ofInt 64 n, synd := 0, mask := none, kind := 0, kinds := 0 }
        | some c =>
          if n < 0 ∨ (c.pstride : Int) < n then
            .bad { cls := .growth, addr := BitVec.ofInt 64 n, synd := 0, mask := none, kind := 0, kinds := 0 }
          else if n.toNat ≤ c.hwm then
            let id := w.t.waveid.toNat
            let slice := c.privBase + (bits id 6 8 * 48 + id % 64) * c.pstride + n.toNat
            WRes.own w ({ w.t with sr := { w.t.sr with sp := n.toNat } }.wr64 d (BitVec.ofNat 64 slice))
          else if w.t.wait = some (.park n.toNat) then .stay w.a (.park n.toNat)
          else .stay (w.a.event w.time w.t.unit.pkg 2 w.t.ctx 0 w.t.waveid.toNat n.toNat) (.park n.toNat)

/-- The signed convergence registers of a wave (R351, R408). -/
def holdsCv (a : Arch) (t : Thread) : Bool :=
  match a.crew t.crew with
  | some c => c.cvs.any (fun p => p.2.owner == t.wnum && !decide (p.2.signed = 0))
  | none => false

/-- The berth that a MIGRATE names: HOME on TPKG, or that of a fixed window's memory (R351). -/
def migrateTarget (x : Xl) : Nat × Nat := (faPkg x.fa, (faPlace x.fa).berth)

/-- MIGRATE (R351): the wave moves at the end of its clause. -/
def execMigrate (h : Hd) (a : Opnd) (s : State) : Out :=
  runWord 4 .lg h s fun w =>
    checked (firstBad [srcU64 1 a, if w.t.spec.isOpen || holdsCv w.a w.t || w.t.tm then some (operandBad 4 3 0 0) else none]) <|
      if w.part = 0 then .done w.a []
      else
        let r := gather w.a w.mem w.time w.t .rd 1 (fun _ _ => none) (w.oneVa (w.rs64 a).toNat)
        checked (gatherBad r.2.1 (some w.part) false 1) <|
          let tgt := match r.1 with | p :: _ => migrateTarget p.x | [] => (w.t.unit.pkg, w.t.unit.idx / 48)
          let ar := r.2.2
          .done (ar.modThread w.t.uid (fun t =>
            { t with mig := if tgt = (w.t.unit.pkg, w.t.unit.idx / 48) then none else some tgt })) []

/-- The acquire side of a fence `id` at the level of unit `u`: the thread's earlier loads become acquires. Those already performed drop
lines, and synchronise with the releases that they have read from, now (R124, R131). -/
def fenceAcquire (a : Arch) (t : Thread) (id : Nat) (u : UnitId) : Arch :=
  gain (dropLines { a with ops := a.ops.map (fun p =>
    if p.2.uid == t.uid && p.2.what.isLoad then (p.1, { p.2 with acqs := p.2.acqs ++ [(u, id)] }) else p) } (agentOf a t) u) t.uid id u
    (fun r => t.readRels.contains r.stamp)

/-- FENCE (R124, R125, R361): what a full fence orders, every agent of its scope unit finds performed at once; a store after it is a
release besides. -/
def execFence (h : Hd) (lvl : LvlCode) (acq rel mx cp : Bool) (s : State) : Out :=
  runWord 7 .any h s fun w =>
    checked (if mx && !w.t.isWave then some (operandBad 4 3 0 0) else none) <|
      if w.part = 0 then .done w.a []
      else
        let l := w.a.resolve w.t lvl
        let u := scopeOf w.a w.t l
        let form := if acq && rel then 0 else if rel then 1 else 2
        let f : FenceRec := { id := w.a.nextId, form := form + b2n mx * 4 + b2n cp * 8, scope := u }
        let a := { w.a with nextId := w.a.nextId + 1 }
        let a := if acq then fenceAcquire a w.t f.id u else a
        let a := if acq && rel then markSeen a w.t.uid f.id u true .direct else a
        .done (a.modThread w.t.uid (fun t =>
          { t with fences := t.fences.filter (fenceLive w.a t.uid) ++ [f], acqMx := if acq && mx then some l else t.acqMx,
                   acqCp := if acq && cp then some l else t.acqCp })) []

end Sys2Proof.Machine
end

