-- ==== Sys2Proof/Machine/Copy.lean ====
section
/-! DEFINITION. Crew barriers, copies and streams (spec/20 R352 to R360): the words, and how an engine command moves its bytes
and completes (spec/05 R101, R107, R111; spec/06 R126; spec/13 R217). -/

namespace Sys2Proof.Machine

/-! ## Crew barriers (R58, R352) -/

/-- The crew of the issuing wave, with barrier `b`; a barrier that the crew does not hold is cause 3 (R57). -/
def W.crewBar (w : W) (b : Nat) : Except Bad (Crew × CrewBar) :=
  match w.a.crew w.t.crew with
  | none => .error (operandBad 4 3 0 (BitVec.ofNat 64 b))
  | some c =>
    if c.nbar ≤ b then .error (operandBad 4 3 0 (BitVec.ofNat 64 b))
    else match tget c.bars b with
      | none => .error (operandBad 4 3 0 (BitVec.ofNat 64 b))
      | some x => .ok (c, x)

def Arch.setBar (a : Arch) (c : Crew) (b : Nat) (x : CrewBar) : Arch := a.setCrew { c with bars := tset c.bars b x }

/-- The wave arrives, which is a release at CORE (R58), and its pending bit is set, with the number of the phase. -/
def arriveAt (a : Arch) (t : Thread) (c : Crew) (b : Nat) (x : CrewBar) : Arch :=
  ((releaseAt a t .core).setBar c b (CrewBar.check { x with arrived := setBit x.arrived t.wnum })).modThread t.uid
    (fun t => { t with pbar := tset t.pbar b x.phase })

/-- BARARR's own check (R352). -/
def memberBad (t : Thread) (b : Nat) (x : CrewBar) : Option Bad :=
  if x.members / 2 ^ t.wnum % 2 = 1 then none else some (operandBad 4 5 0 (BitVec.ofNat 64 b))

/-- A barrier word: `k` runs with the crew and the barrier when the guard is true. -/
def barrierWord (h : Hd) (b : Nat) (bad : W → CrewBar → Option Bad) (k : W → Crew → CrewBar → WRes) (s : State) : Out :=
  runWord 5 .lg h s fun w =>
    match w.crewBar b with
    | .error x => .bad x
    | .ok (c, x) => checked (bad w x) (w.acts (k w c x))

/-- An arrival (R352): the wave waits while its arrival bit stands, and for its release at CORE (R58). -/
def W.arrives (w : W) (x : CrewBar) (k : WRes) : WRes :=
  if x.arrived / 2 ^ w.t.wnum % 2 = 1 then .stay w.a .crewBarBusy else if ownPending w.a w.t.uid then .stay w.a .order else k

/-- BARARR. -/
def execBararr (h : Hd) (b : Fin 16) (s : State) : Out :=
  barrierWord h b.val (fun w x => memberBad w.t b.val x)
    (fun w c x => w.arrives x (.done (arriveAt w.a w.t c b.val x) [])) s

/-- The wait of BARWAIT: once the phase of its arrival has completed, the pending bit is cleared and the wave makes its acquire at
CORE (R58). -/
def barWait (w : W) (a : Arch) (b : Nat) (ph phase : Nat) : WRes :=
  if ph < phase then
    .done (acquireAt (a.modThread w.t.uid (fun t => { t with pbar := tdel t.pbar b })) w.t .core) []
  else .stay a (.crewBar b ph)

/-- BARWAIT. -/
def execBarwait (h : Hd) (b : Fin 16) (s : State) : Out :=
  barrierWord h b.val (fun _ _ => none) (fun w _ x =>
    match tget w.t.pbar b.val with
    | none => .done w.a []
    | some ph => barWait w w.a b.val ph x.phase) s

/-- BARSYNC: BARARR followed by BARWAIT, which needs no membership. -/
def execBarsync (h : Hd) (b : Fin 16) (s : State) : Out :=
  barrierWord h b.val (fun w x => match w.t.wait with | some (.crewBar ..) => none | _ => memberBad w.t b.val x) (fun w c x =>
    match w.t.wait with
    | some (.crewBar _ ph) => barWait w w.a b.val ph x.phase
    | _ => w.arrives x
        (let a := arriveAt w.a w.t c b.val x
         barWait w a b.val x.phase (((a.crew w.t.crew).bind (fun c => tget c.bars b.val)).getD x).phase)) s

/-- The wave numbers that a crew holds, as a mask (DEDUCED, log 23). -/
def crewMask (a : Arch) (crew : Nat) : Nat :=
  (tvals a.threads).foldl (fun m t => if t.isWave && t.crew == crew then setBit m t.wnum else m) 0

/-- BARCFG: at once when nothing has arrived, else when the current phase has completed. -/
def execBarcfg (h : Hd) (b : Fin 16) (e : Fin 16) (a : Opnd) (s : State) : Out :=
  runWord 5 .lg h s fun w =>
    checked (srcU 1 a) <|
      match w.crewBar b.val with
      | .error x => .bad x
      | .ok (c, x) =>
        w.acts <|
          let now := match w.t.wait with
            | some (.crewBar _ ph) => decide (ph < x.phase)
            | _ => x.arrived == 0 && x.count == 0
          if now then
            .done (w.a.setBar c b.val (x.config ((w.rs a).toNat &&& crewMask w.a c.id) e.val)) []
          else .stay w.a (.crewBar b.val (match w.t.wait with | some (.crewBar _ ph) => ph | _ => x.phase))

/-! ## Moving bytes (R101, R107, R126, R217) -/

/-- One end of a move: fabric address and page attributes, or a register tile's bytes. -/
inductive Place1 where
  | mem (fa attr : Nat)
  | tile (bytes : List Byte)

/-- What one move comes to. -/
inductive Moved where
  | ok (a : Arch) (mem : Memory) (ws : Writes)
  | fault (kind va : Nat)
  | fail (stat kind mem : Nat) (a : Arch)
  | hold

/-- Resolve `n` bytes within one 64-byte granule of an end, at offset `off`. -/
def resolveEnd (a : Arch) (mem : Memory) (time : Nat) (e : End) (r : Right) (off n : Nat) : Except XFail Place1 :=
  match e with
  | .va g va => (translate a mem time g r ((va + off) % 2 ^ 64) n).map (fun x => .mem x.fa x.attr)
  | .phys fa => .ok (.mem (fa + off) (2 * 4))
  | .fabric world fa =>
    if decide (Config.maxPkgs ≤ faPkg (fa + off)) then .error (.absent, fa + off)
    else if faPlace (fa + off) = .reserved then .error (.format, fa + off)
    else if isAbsent a (fa + off) then .error (.absent, fa + off)
    else if firewalled a world (fa + off) then .error (.prot, fa + off)
    else .ok (.mem (fa + off) (2 * 4))
  | .spad p k o _ =>
    let fa := spadAddr p k + o + off
    if isAbsent a fa then .error (.absent, fa) else .ok (.mem fa fixedAttr)
  | .regs uid reg => .ok (.tile (match a.thread uid with
      | none => []
      | some t => (List.range n).map (fun i =>
          let k := (off + i) / 4
          BitVec.ofNat 8 ((t.getV (reg + k / 32) (k % 32)).toNat / 2 ^ (8 * ((off + i) % 4))))))

/-- An end's address modulo 64, which cuts a move at granules. -/
def End.low (e : End) (off : Nat) : Nat :=
  match e with
  | .va _ x => (x + off) % 64
  | .phys p => (p + off) % 64
  | .fabric _ p => (p + off) % 64
  | .spad _ _ o _ => (o + off) % 64
  | .regs _ _ => off % 64

/-- The bytes of an end as parts within granules: each with its place; a failure of the first. -/
def endParts (a : Arch) (mem : Memory) (time : Nat) (e : End) (r : Right) : Nat → Nat → Nat → Except XFail (List (Place1 × Nat))
  | 0, _, _ => .ok []
  | k + 1, off, n =>
    if n = 0 then .ok []
    else
      let m := min n (64 - e.low off)
      match resolveEnd a mem time e r off m with
      | .error x => .error x
      | .ok p => match endParts a mem time e r k (off + m) (n - m) with
        | .error x => .error x
        | .ok r => .ok ((p, m) :: r)

/-- The source parts of a move. -/
def sourceParts (a : Arch) (mem : Memory) (time : Nat) (e : End) (k off n : Nat) : Except XFail (List (Place1 × Nat)) :=
  endParts a mem time e .rd k off n

/-- The agent whose accesses an end makes. -/
def End.agent (e : End) (d : Agent) : Agent := match e with | .va g _ => g | _ => d

/-- The thread that issued a command. -/
def Cmd.issuer (c : Cmd) : Option Nat := match c.owner with | .thread u => some u | .queue .. => none

/-- Whether an engine's access to an address must wait: a CLAIM holds it, a berth's clock crossing, or, after an acquire, writes that
a release has passed for a unit of the issuer (R123). -/
def engineHeld (a : Arch) (c : Cmd) (e : End) (fa n : Nat) : Bool :=
  (claimOn a c.id fa n).isSome || crossingStalled a (e.agent c.ag) fa ||
  (match c.issuer with | some u => c.acq && heldSeen a u c.id [] false fa n | none => false)

/-- Whether the agent that issued a command lies inside a unit (R115). -/
def Cmd.inside (a : Arch) (c : Cmd) (u : UnitId) : Bool :=
  match c.owner with
  | .thread t => insideUnit a t u
  | .queue p .. => frontInside p u

/-- Whether an engine's write must wait for an atomic that has read the location and not yet written it (R129). -/
def engineShut (a : Arch) (c : Cmd) (fa n : Nat) : Bool := writeShut a (c.inside a) fa n

/-- The source's first uncorrectable granule, as a fabric address. -/
def sourceBad (a : Arch) (src : List (Place1 × Nat)) : Option Nat :=
  src.findSome? (fun p => match p.1 with
    | .mem fa _ => if isBad a (granule fa) then some fa else none
    | .tile _ => none)

/-- Whether `n` bytes at offset `off` of an end lie in words of a register tile that hold an uncorrectable error (R206, R217). -/
def End.badTile (a : Arch) (e : End) (off n : Nat) : Bool :=
  match e with
  | .regs u reg => match a.thread u with
    | some t => (List.range n).any (fun i =>
        let k := (off + i) / 4
        t.regs.badV.contains (vkey (reg + k / 32) (k % 32)))
    | none => false
  | _ => false

/-- The failure of a move by an uncorrectable granule, with its event (R217, R218) (DEDUCED, log 69). -/
def moveBad (a : Arch) (time ctx fa : Nat) : Moved :=
  .fail 2 0 (faPlace fa).mem (a.event time (faPkg fa) 7 ctx (faPlace fa).mem (fa / 64 * 64) 0xFFFFFF)

/-- A failed translation of an engine: UNMAPPED and TABLE fault to the driver, the others complete the command (R107). -/
def engineFail (a : Arch) (time ctx : Nat) (x : XFail) : Moved :=
  match x.1 with
  | .unmapped => .fault 0 x.2
  | .table => .fault 2 x.2
  | .waits => .hold
  | .error fa => moveBad a time ctx fa
  | k => .fail 1 k.code 0 a

/-- The failure of a move whose source words in a register file hold an uncorrectable error, with its event (R206, R217, R218). -/
def tileErr (a : Arch) (time : Nat) (c : Cmd) : Moved := .fail 2 0 4 (a.event time c.pkg 7 c.ctx 4 0 0xFFFFFF)

/-- The bytes of a move's source. -/
def sourceBytes (mem : Memory) (src : List (Place1 × Nat)) : List Byte :=
  src.flatMap (fun p => match p.1 with | .mem fa _ => mbytes mem fa p.2 | .tile b => b)

/-- Whether an engine must wait for a source. -/
def sourceHeld (a : Arch) (c : Cmd) (e : End) (src : List (Place1 × Nat)) : Bool :=
  src.any (fun p => match p.1 with | .mem fa _ => engineHeld a c e fa p.2 | .tile _ => false)

/-- Write bytes into a register tile: register `reg` + row, four bytes a lane (R39). -/
def writeTile (t : Thread) (reg off : Nat) (bs : List Byte) : Thread :=
  (List.range (bs.length / 4)).foldl (fun t i =>
    let k := off / 4 + i
    t.setV (reg + k / 32) (k % 32) (BitVec.ofNat 32 (leVal ((bs.drop (4 * i)).take 4)))) t

/-- A move whose destination is a register tile (R39). -/
def moveToRegs (a : Arch) (mem : Memory) (time : Nat) (c : Cmd) (l : Leg) (off n : Nat) (src : List (Place1 × Nat)) : Moved :=
  if sourceHeld a c l.src src then .hold
  else if l.src.badTile a off n then tileErr a time c
  else match sourceBad a src with
    | some fa => moveBad a time c.ctx fa
    | none => match l.dst with
      | .regs u reg => .ok (a.modThread u (fun t => writeTile t reg off (sourceBytes mem src))) mem []
      | _ => .hold

/-- The place of an end within its space, and whether two ends lie in one space. -/
def End.pos : End → Nat
  | .va _ x => x | .phys p => p | .fabric _ p => p | .regs _ _ => 0 | .spad _ _ o _ => o
def End.near : End → End → Bool
  | .va g _, .va k _ => decide (g = k)
  | .phys _, .phys _ => true
  | .fabric v _, .fabric w _ => v == w
  | .spad p k _ _, .spad q l _ _ => p == q && k == l
  | _, _ => false

/-- The leg of a command that writes position `p` of the space of an end. -/
def Cmd.legTo (c : Cmd) (d : End) (p : Nat) : Option Leg :=
  c.legs.find? (fun l => l.dst.near d && decide (l.dst.pos ≤ p) && decide (p < l.dst.pos + l.size))

/-- The bytes of a leg's unit at an offset: up to a 16-byte border of the destination, so that each 16-byte unit is read and written on its
own (R126). -/
def Leg.unitAt (l : Leg) (off : Nat) : Nat := min (l.size - off) (16 - l.dst.low off % 16)

/-- Whether a leg has written a byte. -/
def Leg.wrote (l : Leg) (o : Nat) : Bool := decide (o < l.done) || l.ahead.any (fun x => decide (x ≤ o) && decide (o < x + l.unitAt x))

/-- Units done ahead join those before them. -/
def Leg.settle : Nat → Leg → Leg
  | 0, l => l
  | n + 1, l =>
    if l.ahead.contains l.done then Leg.settle n { l with done := l.done + l.unitAt l.done, ahead := l.ahead.erase l.done } else l

/-- A leg after the unit at an offset. -/
def Leg.moved (l : Leg) (off : Nat) : Leg :=
  if off = l.done then Leg.settle l.ahead.length { l with done := l.done + l.unitAt l.done } else { l with ahead := l.ahead ++ [off] }

/-- Whether the legs of a command together write the whole granule that holds byte `off` of a leg's destination (R101), and with `now`
whether they have written it. -/
def Cmd.writesWhole (c : Cmd) (now : Bool) (d : End) (off : Nat) : Bool :=
  let base := d.pos + off - d.low off
  (List.range 64).all (fun i => match c.legTo d (base + i) with
    | some l => !now || l.wrote (base + i - l.dst.pos)
    | none => false)

/-- Whether they write it from one naturally aligned granule of one source. -/
def Cmd.fromOne (c : Cmd) (d : End) (off : Nat) : Bool :=
  let base := d.pos + off - d.low off
  match c.legTo d base with
  | none => false
  | some l =>
    let s := l.src.pos + (base - l.dst.pos)
    s % 64 == 0 && (List.range 64).all (fun i => match c.legTo d (base + i) with
      | some k => k.src.near l.src && k.src.pos + (base + i - k.dst.pos) == s + i
      | none => false)

/-- Lines of the aperture that an end writes through no longer hold its latest contents (R131, R132). -/
def ageEnd (a : Arch) (e : End) (off fa : Nat) : Arch :=
  match e with
  | .va g va => ageLines a g.ctx (va + off) fa none
  | _ => a

/-- What a write leaves of a granule's metadata and error mark (R101, R216): a granule that the command has now written whole takes the
metadata of the one source granule that its bytes come from, else zero; one that it has written in part keeps its own. -/
def wroteGranule (a : Arch) (c : Cmd) (d : End) (off fa attr : Nat) (src : List (Place1 × Nat)) : Arch :=
  let g := granule fa
  if c.writesWhole true d off then
    let nd := gradeCount (attrGrade attr)
    let v := match src with
      | (.mem sf sa, _) :: _ => if c.fromOne d off then metaOf a (granule sf) (min nd (gradeCount (attrGrade sa))) else 0
      | _ => 0
    { setMeta a g nd v with bad := tdel a.bad g }
  else a

/-- Move `n` bytes of a leg at offset `off`, within one destination granule; `c` is the command as it stands after them. -/
def moveUnit (a : Arch) (mem : Memory) (time : Nat) (c : Cmd) (l : Leg) (off n : Nat) : Moved :=
  match sourceParts a mem time l.src 3 off n with
  | .error x => engineFail a time c.ctx x
  | .ok src =>
    match resolveEnd a mem time l.dst .w off n with
    | .error x => engineFail a time c.ctx x
    | .ok (.tile _) => moveToRegs a mem time c l off n src
    | .ok (.mem fa attr) =>
      if engineHeld a c l.dst fa n || engineShut a c fa n || sourceHeld a c l.src src then .hold
      else if l.src.badTile a off n then tileErr a time c
      else match sourceBad a src with
        | some fa => moveBad a time c.ctx fa
        | none =>
          if isBad a (granule fa) && !c.writesWhole false l.dst off then moveBad a time c.ctx fa
          else
            let bs := sourceBytes mem src
            .ok (forgetRels (ageEnd (wroteGranule a c l.dst off fa attr src) l.dst off fa) [(fa, n)]) (mputs mem fa bs) [(fa, bs)]

/-- The next unit of a command in ascending order: the number of its leg, the leg and the offset. -/
def Cmd.nextUnit (c : Cmd) : Option (Nat × Leg × Nat) :=
  (((List.range c.legs.length).zip c.legs).find? (fun p => decide (p.2.done < p.2.size))).map (fun p => (p.1, p.2, p.2.done))

/-- Whether a command's units are moved in any order (R128): not those of a copy channel or a stream (R111, R357). -/
def Cmd.anyOrder (c : Cmd) : Bool := match c.kind with | .copyIn _ => false | .spush .. => false | _ => true

/-- The unit that a request names, leg × 2^32 + offset, where the command may move it next; else the next one. -/
def Cmd.unitOf (c : Cmd) (req : Nat) : Option (Nat × Leg × Nat) :=
  let off := req % 2 ^ 32
  match c.legs[req / 2 ^ 32]? with
  | some l =>
    if c.anyOrder && decide (l.done < off) && decide (off < l.size) && l.dst.low off % 16 == 0 && !l.ahead.contains off then
      some (req / 2 ^ 32, l, off)
    else c.nextUnit
  | none => c.nextUnit

/-- The write pointers that advance with a move (R111, R357). -/
def advancePtr (a : Arch) (c : Cmd) (n : Nat) : Arch :=
  match c.kind, c.ag.crew with
  | .copyIn ch, some k => { a with crews := tmod a.crews k (fun x => { x with chans := tset x.chans ch ((tgetD x.chans ch 0 + n) % 2 ^ 64) }) }
  | .spush q _ _, some k => { a with crews := tmod a.crews k (fun x =>
      { x with streams := tmod x.streams q (fun y => { y with wp := y.wp + n }) }) }
  | _, _ => a

/-- A command in progress, the memory it sees and what it has written; `stop` says why it went no further. -/
structure Move where
  a : Arch
  mem : Memory
  ws : Writes
  c : Cmd
  fault : Option (Nat × Nat)
  fail : Option (Nat × Nat × Nat)
  held : Bool

/-- Move the unit at offset `off` of leg `i`. -/
def moveN (time i : Nat) (l : Leg) (off : Nat) (s : Move) : Move :=
  let c := { s.c with legs := s.c.legs.set i (l.moved off) }
  match moveUnit s.a s.mem time c l off (l.unitAt off) with
  | .ok a mem ws => { s with a := advancePtr a s.c (l.unitAt off), mem := mem, ws := s.ws ++ ws, c := c }
  | .fault k va => { s with fault := some (k, va) }
  | .fail st k m a => { s with a := a, fail := some (st, k, m) }
  | .hold => { s with held := true }

/-! ## Units of an MCOPY (R373, R374) -/

/-- Whether a 16-byte unit of a core's scratchpad may not be written for a context: it lies in the punnet store, or in a
region that another context holds. -/
def spadShut (a : Arch) (p k off ctx : Nat) : Bool :=
  decide (0x170000 ≤ off) ||
  (tvals a.crews).any (fun c => c.pkg == p && c.core == k && c.started && !c.out && !(c.ctx == ctx) &&
    decide (c.base < off + 16) && decide (off < c.base + c.size))

/-- Record a failure, where no lower rank has failed (R374). -/
def Cmd.noteFail (c : Cmd) (stat kind rank : Nat) : Cmd :=
  if c.statCode = 0 ∨ rank < c.memCode then { c with statCode := stat, kindCode := kind, memCode := rank } else c

/-- Whether a leg's unit fails at its source end. -/
def legSourceFails (a : Arch) (mem : Memory) (time : Nat) (l : Leg) (off : Nat) : Bool :=
  match sourceParts a mem time l.src 3 off (l.unitAt off) with
  | .error _ => true
  | .ok src => (sourceBad a src).isSome || l.src.badTile a off (l.unitAt off)

/-- What follows the last write of a leg: the chosen wave's flag falls, or the crew whose barrier the copy arrives at is
found (R373). -/
def endLeg (s : Move) (l : Leg) : Move :=
  match l.wave, l.dst, s.c.bar with
  | some u, _, _ => { s with a := s.a.lowerFlag u s.c.flag false }
  | none, .spad p k off ctx, some b =>
    match (tvals s.a.crews).find? (fun c => c.pkg == p && c.core == k && c.ctx == ctx && c.started && !c.out &&
        decide (c.base ≤ off) && decide (off + l.size ≤ c.base + c.size)) with
    | some c => if b < c.nbar then { s with c := { s.c with arrive := s.c.arrive ++ [c.id] } } else { s with c := { s.c with noarr := true } }
    | none => { s with c := { s.c with noarr := true } }
  | _, _, _ => s

/-- Move one unit of an MCOPY. A unit that may not be written is left; a leg that fails ends where it stands, and the others go on. -/
def mcopyAt (up : Bool) (time i : Nat) (l : Leg) (off : Nat) (s : Move) : Move :=
  let shut : Bool := match l.dst with | .spad p k o ctx => spadShut s.a p k (o + off) ctx | _ => false
  let r :=
    if shut then
      { s with c := { s.c with legs := s.c.legs.set i (l.moved off) }.noteFail 1 AKind.bounds.code l.rank }
    else
      let r := moveN time i l off s
      match r.fail with
      | some (st, k, _) =>
        let rank := if legSourceFails s.a s.mem time l off == up then l.rank else 0
        { r with fail := none, c := { r.c with legs := r.c.legs.set i { l with size := l.done, ahead := [] } }.noteFail st k rank }
      | none => r
  match r.c.legs[i]? with
  | some l' => if l'.size ≤ l'.done then endLeg r { l' with size := l.size } else r
  | none => r

/-- Move one unit of a command of any kind. -/
def moveAt (time : Nat) (x : Nat × Leg × Nat) (s : Move) : Move :=
  match s.c.kind with
  | .mcopy _ up => mcopyAt up time x.1 x.2.1 x.2.2 s
  | _ => moveN time x.1 x.2.1 x.2.2 s

/-- Move units, in ascending order, until the legs are done or something stops the command. -/
def moveAll (time : Nat) : Nat → Move → Move
  | 0, s => s
  | n + 1, s =>
    if s.fault.isSome || s.fail.isSome || s.held then s
    else match s.c.nextUnit with
      | none => s
      | some x => moveAll time n (moveAt time x s)

/-- The most units that a command moves. -/
def Cmd.units (c : Cmd) : Nat := c.legs.foldl (fun n l => n + l.size / 16 + 2) 1

def Cmd.done (c : Cmd) : Bool := c.legs.all (fun l => decide (l.size ≤ l.done))

/-! ## Readiness and completion -/

/-- Whether a crew is swapped out of its core (R75). -/
def crewOut (a : Arch) (crew : Nat) : Bool := ((a.crew crew).map (·.out)).getD false

/-- Whether a command acts on a crew whose barriers, streams and channels are in the context image: a moored wave's, or one that will
arrive at the crew's barrier. It waits for the resume (DEDUCED, log 44). -/
def Cmd.awayFrom (c : Cmd) (a : Arch) : Bool :=
  c.arrive.any (crewOut a) ||
  ((c.bar.isSome || (match c.kind with | .copyIn _ => true | .copyOut => true | .spush .. => true | _ => false)) &&
    (c.ag.crew.map (crewOut a)).getD false)

/-- Whether a command may read and write: its acquire has been performed (R126), it is first on its channel or stream
(R111, R357), admitted, and not waiting for a RETRY (DEDUCED, log 60). -/
def cmdReady (a : Arch) (c : Cmd) : Bool :=
  !c.faulted && !c.awayFrom a && !agentStill a c.ag &&
  !(c.acq && (match c.issuer with | some u => pendingBefore a u c.id | none => false)) &&
  (match c.kind with
    | .copyIn ch => (tvals a.cmds).all (fun x => !(decide (x.id < c.id) && decide (x.ag.crew = c.ag.crew) && decide (x.kind = .copyIn ch)))
    | .spush q adm _ => adm && (tvals a.cmds).all (fun x => !(decide (x.id < c.id) && decide (x.ag.crew = c.ag.crew) &&
        (match x.kind with | .spush p _ _ => p == q | _ => false)))
    | _ => true)

/-- Queue and SEQ of the LAUNCH that rooted a thread's tree (R354). -/
def rootSeq (a : Arch) (u : Nat) : Nat × Nat :=
  match (a.thread u).bind (fun t => a.tree t.tree) with
  | none => (0xFFFF, 0)
  | some r => (r.queue, (((a.queue r.unit.pkg r.queue).bind (fun q => q.cmd r.cmd)).map (·.seq)).getD 0)

/-- Queue and SEQ that a FAULT event of a command names. -/
def Cmd.faultSeq (a : Arch) (c : Cmd) : Nat × Nat :=
  match c.owner with
  | .thread u => rootSeq a u
  | .queue p q id => (q, (((a.queue p q).bind (fun k => k.cmd id)).map (·.seq)).getD 0)

/-- A command meets UNMAPPED or TABLE: the FAULT event, and it waits for a RETRY (R107, R354). -/
def faultCmd (a : Arch) (time : Nat) (c : Cmd) (kind va : Nat) : Arch :=
  let q := c.faultSeq a
  { a with cmds := tset a.cmds c.id { c with faulted := true } }.event time c.pkg 1 c.ctx (kind + 0xFFFF * 65536) va
    (q.1 + q.2 % 2 ^ 48 * 65536)

/-- The status word (R354). -/
def statusWord (stat kind : Nat) (noarr : Bool) : Nat := stat + kind * 256 + b2n noarr * 2048

/-- The release of a command after its last write (R126, R354): with an acquire of its own it passes on what its issuer had done and
synchronised with before it. -/
def cmdRelease (a : Arch) (c : Cmd) : Arch :=
  match c.issuer with
  | some u => if c.rel && c.acq then markSeen a u c.id c.scope false .direct else a
  | none => a

/-- Make a command's release, write its status, make its barrier arrival, lower its flag, and remove it (R126, R354). -/
def endCmd (a : Arch) (c : Cmd) (stat kind : Nat) : Arch :=
  let a := cmdRelease { a with cmds := tdel a.cmds c.id } c
  match c.owner with
  | .queue .. => a
  | .thread u =>
    let a := match c.status with
      | some n => a.modThread u (fun t => t.setSAt c.tm n (BitVec.ofNat 32 (statusWord stat kind c.noarr)))
      | none => a
    let a := match c.bar, c.ag.crew with
      | some b, some k => a.engineArrive k b
      | _, _ => a
    a.lowerFlag u c.flag c.tm

/-- After a failure, a SPUSH moves WP past its whole range (R357). -/
def skipRange (a : Arch) (c : Cmd) : Arch :=
  match c.kind with
  | .spush .. => advancePtr a c (c.legs.foldl (fun n l => n + (l.size - l.done)) 0)
  | _ => a

/-- What follows a move: the command as it stands, its fault, or its end; `fin` ends it with a status. -/
def afterMove (time : Nat) (s : Move) (fin : Arch → Cmd → Nat → Nat → Arch) (whole : Bool) : Arch × Writes :=
  match s.fault, s.fail with
  | some (k, va), _ => (faultCmd s.a time s.c k va, s.ws)
  | none, some (st, k, m) => (fin (skipRange s.a s.c) { s.c with memCode := m } st k, s.ws)
  | none, none =>
    if whole && s.c.done then (fin s.a s.c 0 0, s.ws) else ({ s.a with cmds := tset s.a.cmds s.c.id s.c }, s.ws)

def startMove (a : Arch) (mem : Memory) (c : Cmd) : Move :=
  { a := a, mem := mem, ws := [], c := c, fault := none, fail := none, held := false }

/-- Perform the rest of a command and end it. -/
def runCmd (a : Arch) (mem : Memory) (time : Nat) (c : Cmd) (fin : Arch → Cmd → Nat → Nat → Arch) : Arch × Writes :=
  if cmdReady a c then afterMove time (moveAll time c.units (startMove a mem c)) fin true else (a, [])

/-- Perform one unit of a command, that which a request names, as one request (R126, R128). -/
def stepCmd (a : Arch) (mem : Memory) (time : Nat) (c : Cmd) (req : Nat) : Arch × Writes :=
  match c.unitOf req with
  | none => (a, [])
  | some x =>
    if cmdReady a c then
      let s := moveAt time x (startMove a mem c)
      if s.fail.isSome || s.held then (a, []) else afterMove time s endCmd false
    else (a, [])

/-- The end of a queue's COPY or WRITE (R229, R234). -/
def endQueueCmd (time : Nat) (a : Arch) (c : Cmd) (stat kind : Nat) : Arch :=
  match c.owner with
  | .queue p q id =>
    { a with cmds := tdel a.cmds c.id }.complete time p q id
      (match stat with | 0 => .ok | 1 => .access | 2 => .error | _ => .aborted) (if stat = 2 then c.memCode else kind)
  | .thread _ => endCmd a c stat kind

/-- Write a queue's WRITE data: the bytes as a source (R229). -/
def moveData (time : Nat) (c : Cmd) (data : List Byte) : Nat → Move → Nat → Move
  | 0, s, _ => s
  | k + 1, s, off =>
    match s.c.legs with
    | l :: _ =>
      if data.length ≤ off then { s with c := { s.c with legs := [{ l with done := l.size }] } }
      else
        let n := min (data.length - off) (64 - l.dst.low off)
        match resolveEnd s.a s.mem time l.dst .w off n with
        | .error x => match engineFail s.a time c.ctx x with
          | .fault k va => { s with fault := some (k, va) }
          | .fail st k m a => { s with a := a, fail := some (st, k, m) }
          | _ => { s with held := true }
        | .ok (.tile _) => s
        | .ok (.mem fa _) =>
          if engineHeld s.a c l.dst fa n || engineShut s.a c fa n then { s with held := true, c := { s.c with legs := [{ l with done := off }] } }
          else if isBad s.a (granule fa) && !(n == 64) then
            { s with a := s.a.event time (faPkg fa) 7 c.ctx (faPlace fa).mem (fa / 64 * 64) 0xFFFFFF, fail := some (2, 0, (faPlace fa).mem) }
          else
            let bs := (data.drop off).take n
            let a := if n = 64 then { s.a with bad := tdel s.a.bad (granule fa) } else s.a
            moveData time c data k { s with a := forgetRels (ageEnd a l.dst off fa) [(fa, n)], mem := mputs s.mem fa bs, ws := s.ws ++ [(fa, bs)],
                                            c := { s.c with legs := [{ l with done := off + n }] } } (off + n)
    | [] => s

/-- COPY_COMPLETE (R354, R357, R229): the command's remaining bytes are performed, then its status, arrival and flag. -/
def copyComplete (a : Arch) (mem : Memory) (time cmd : Nat) : Arch × Writes :=
  match tget a.cmds cmd with
  | none => (a, [])
  | some c => match c.kind with
    | .copyIn _ => runCmd a mem time c endCmd
    | .copyOut => runCmd a mem time c endCmd
    | .copySeq => runCmd a mem time c endCmd
    | .spush .. => runCmd a mem time c endCmd
    | .queueCopy => runCmd a mem time c (endQueueCmd time)
    | .queueWrite data =>
      if c.faulted then (a, [])
      else
        let s := moveData time c data (data.length + 2) (startMove a mem c) ((c.legs.head?.map (·.done)).getD 0)
        if s.held then (a, []) else afterMove time s (endQueueCmd time) true
    | _ => (a, [])

/-- COPY_COMPLETE. -/
def execCopyComplete (cmd : Nat) (s : State) : Out := runEvent s fun a mem time => copyComplete a mem time cmd

/-! ## COPY (R353, R354) -/

/-- A command of a word. -/
def W.mkCmd (w : W) (kind : CmdKind) (f : FSel) (m : MMod) (legs : List Leg) (status : Option Nat) (bar : Option Nat) : Cmd :=
  { id := w.a.nextId, owner := .thread w.t.uid, ctx := w.t.ctx, pkg := w.t.unit.pkg, ag := agentOf w.a w.t, kind := kind,
    legs := legs, flag := w.sel f, tm := w.t.tm,
    acq := m.acq || (kind.isCopy && w.t.acqCp.isSome) || (kind.isMatrix && w.t.acqMx.isSome), rel := m.rel,
    scope := scopeOf w.a w.t (w.a.resolve w.t m.lvl), status := status, bar := bar, noarr := false,
    statCode := 0, kindCode := 0, memCode := 0, pc := w.c.va w.c.pos, word := w.c.words.getD w.c.pos 0, opidx := w.c.pos,
    faulted := false, committed := false, arrive := [] }

/-- Put a command to its engine and count it on its flag. -/
def W.command (w : W) (c : Cmd) : WRes :=
  .done { w.a.setThread (w.t.raiseSel c.flag) with nextId := w.a.nextId + 1, cmds := tset w.a.cmds c.id c } []

/-- The register of a status field. -/
def statusReg (d : Opnd) : Option Nat := match d with | .s n => some n.val | _ => none

/-- Streamer rights (R63): in a gang crew only the loader waves hold them. -/
def rightsOf (a : Arch) (t : Thread) : Option Bad :=
  if t.isWave && ((a.crew t.crew).map (·.gang)).getD false && !(t.role == 0) then some (operandBad 4 7 0 0) else none

/-- A 16-byte alignment check of an address operand. -/
def addr16 (j : Nat) (va : W64) : Option Bad := if va.toNat % 16 = 0 then none else some (operandBad j 6 0 va)
/-- The own-core window check of an address operand (R353). -/
def ownWindow (j : Nat) (va : W64) : Option Bad :=
  if va.toNat / 2 ^ 48 = 0x7F ∧ va.toNat % 2 ^ 48 < 0x180000 then none else some (operandBad j 6 0 va)

/-- The size check of a copy (R353). -/
def copySize (j : Nat) (n : Nat) : Option Bad :=
  if n % 16 = 0 ∧ 16 ≤ n ∧ n ≤ 0xFFFFFFF0 then none else some (operandBad j 6 0 (BitVec.ofNat 64 n))

/-- Checks made only when a lane takes part (R339). -/
def W.ifPart (w : W) (l : List (Option Bad)) : Option Bad := if w.part = 0 then none else firstBad l

/-- A plain leg. -/
def leg (src dst : End) (n : Nat) : Leg := { src := src, dst := dst, size := n, done := 0, rank := 0, wave := none }

/-- COPY of either variant (R353). -/
def copyWord (out : Bool) (h : Hd) (m : MMod) (bar : Nat) (be : Bool) (ch : Nat) (d a b c : Opnd) (s : State) : Out :=
  runWord 6 .any h s fun w =>
    let n := (w.rs c).toNat
    let src := w.rs64 a
    let dst := w.rs64 b
    let low := bar * 8 + b2n be * 4 + ch
    let modBad : Option Bad :=
      if w.t.isWave then
        if out && (be || !(ch == 0)) then some (operandBad 4 3 0 (BitVec.ofNat 64 low))
        else if be then (match w.crewBar bar with | .error x => some x | .ok _ => none) else none
      else if low = 0 then none else some (operandBad 4 3 0 (BitVec.ofNat 64 low))
    checked (firstBad [dstS 1 d, srcU64 1 a, srcU64 2 b, srcU 3 c, w.selBad m.fsel, rightsOf w.a w.t, modBad, copySize 3 n,
        w.ifPart [addr16 1 src, addr16 2 dst,
          if w.t.isWave then (if out then ownWindow 1 src else ownWindow 2 dst) else none]]) <|
      if w.part = 0 then .done w.a []
      else if w.flagFull m.fsel then .stay w.a .flagFull
      else w.ordered (fenceWaitPath w.a w.t false) <|
        let g := agentOf w.a w.t
        w.command (w.mkCmd (if !w.t.isWave then .copySeq else if out then .copyOut else .copyIn ch) m.fsel m
          [leg (.va g src.toNat) (.va g dst.toNat) n] (statusReg d) (if be then some bar else none))

/-- COPY.IN. -/
def execCopyIn (h : Hd) (m : MMod) (bar : Fin 16) (be : Bool) (ch : Fin 4) (d a b c : Opnd) (s : State) : Out :=
  copyWord false h m bar.val be ch.val d a b c s
/-- COPY.OUT. -/
def execCopyOut (h : Hd) (m : MMod) (bar : Fin 16) (be : Bool) (ch : Fin 4) (d a b c : Opnd) (s : State) : Out :=
  copyWord true h m bar.val be ch.val d a b c s

/-! ## ACOPY (R355) -/

/-- Operands of each lane at a sequencer, which has no lanes: cause 1 (R254, R276). -/
def laneless (t : Thread) (a b : Opnd) : Option Bad :=
  if t.isWave then none else ((srcU 1 a).orElse (fun _ => srcU 2 b)).orElse (fun _ => opBad 1 1 a)

/-- ACOPY: each lane's 16-byte load, then its 16-byte store to the own-core offset. -/
def execAcopy (h : Hd) (m : MMod) (a b : Opnd) (s : State) : Out :=
  runWord 6 .any h s fun w =>
    let fs := fields4 a b
    checked (firstBad [laneless w.t a b, vecBad w fs, w.selBad m.fsel]) <|
      if w.arrived fs then
        if w.part = 0 then .done w.a []
        else if w.flagFull m.fsel then .stay w.a .flagFull
        else w.ordered (fenceWait w.a w.t true) <|
          let srcs := w.laneVas (fun l => (w.rd64 1 a l).toNat)
          let dsts := w.laneVas (fun l => spadVa 0 (w.rd 2 b l).toNat)
          let rs := gather w.a w.mem w.time w.t .rd 16 (fun _ va => alignBad 16 va) srcs
          let rd := gather rs.2.2 w.mem w.time w.t .w 16 (fun _ va => (alignBad 16 va).orElse (fun _ => offBad 0 va)) dsts
          let fails := (Lanes.toList w.part).filterMap (fun l =>
            ((rs.2.1.find? (fun f => f.1 == l)).map (fun f => (f, false))).orElse
              (fun _ => (rd.2.1.find? (fun f => f.1 == l)).map (fun f => (f, true))))
          checked (gatherBad (fails.map (·.1)) none ((fails.head?.map (·.2)).getD false) 16) <|
            let ar := rd.2.2
            let t := (ar.thread w.t.uid).getD w.t
            let how : How := { f := m.fsel, lvl := m.lvl, acq := m.acq, rel := m.rel, right := .rd, bytes := 16, single := false,
                               pre := fun _ _ => none, words := 0, dest := fun _ => 0 }
            let o := w.mkOp ar how (.acopy (tsets [] (rd.1.map (fun p => (p.lane, p.x.fa))))) rs.1 srcs
            .done { ar.setThread (t.raiseSel o.flag) with nextId := ar.nextId + 1, ops := tset ar.ops o.id o } []
      else .stay w.a .arrival

/-! ## Streams (R356 to R359) -/

/-- The crew and stream `q` of the issuing wave; an unconfigured stream is cause 3. -/
def W.stream (w : W) (q : Nat) : Except Bad (Crew × Stream) :=
  match w.a.crew w.t.crew with
  | none => .error (operandBad 4 3 0 (BitVec.ofNat 64 q))
  | some c => match tget c.streams q with
    | none => .error (operandBad 4 3 0 (BitVec.ofNat 64 q))
    | some x => if c.nq ≤ q then .error (operandBad 4 3 0 (BitVec.ofNat 64 q)) else .ok (c, x)

/-- Pending SPUSH commands of a crew's stream. -/
def pushesOf (a : Arch) (crew q : Nat) : List Cmd :=
  (tvals a.cmds).filter (fun c => decide (c.ag.crew = some crew) && (match c.kind with | .spush p _ _ => p == q | _ => false))

/-- QCFG (R356). -/
def execQcfg (h : Hd) (q : Fin 4) (a b : Opnd) (s : State) : Out :=
  runWord 6 .any h s fun w =>
    let base := (w.rs a).toNat
    let cap := (w.rs b).toNat
    match w.a.crew w.t.crew with
    | none => .bad (operandBad 4 3 0 (BitVec.ofNat 64 q.val))
    | some c =>
      checked (firstBad [srcU 1 a, srcU 2 b, rightsOf w.a w.t,
          if c.nq ≤ q.val then some (operandBad 4 3 0 (BitVec.ofNat 64 q.val)) else none,
          if cap % 16 = 0 ∧ 16 ≤ cap ∧ cap ≤ 1472 * 1024 then none else some (operandBad 2 6 0 (BitVec.ofNat 64 cap)),
          w.ifPart [if base % 16 = 0 ∧ c.base ≤ base ∧ base + cap ≤ c.base + c.size then none
                    else some (operandBad 1 6 0 (BitVec.ofNat 64 base))]]) <|
        if w.part = 0 then .done w.a []
        else if (pushesOf w.a c.id q.val).isEmpty then
          .done (w.a.setCrew { c with streams := tset c.streams q.val { base := base, cap := cap, wp := 0, rp := 0, rs := 0 } }) []
        else .stay w.a .qcfg

/-- SPUSH (R357): its legs are laid out when it is admitted. -/
def execSpush (h : Hd) (m : MMod) (q : Fin 4) (d a b : Opnd) (s : State) : Out :=
  runWord 6 .any h s fun w =>
    let n := (w.rs b).toNat
    let src := w.rs64 a
    checked (firstBad [dstS 1 d, srcU64 1 a, srcU 2 b, w.selBad m.fsel, rightsOf w.a w.t]) <|
      match w.stream q.val with
      | .error x => .bad x
      | .ok (_, st) =>
        checked (firstBad [if n % 16 = 0 ∧ 16 ≤ n ∧ n ≤ st.cap then none else some (operandBad 2 6 0 (BitVec.ofNat 64 n)),
            w.ifPart [addr16 1 src]]) <|
          if w.part = 0 then .done w.a []
          else if w.flagFull m.fsel then .stay w.a .flagFull
          else w.ordered (fenceWaitPath w.a w.t false) <|
            let g := agentOf w.a w.t
            w.command (w.mkCmd (.spush q.val false 0) m.fsel m [leg (.va g src.toNat) (.va g 0) n] (statusReg d) none)

/-- SPUSH_ADMIT (R357): the oldest command of a stream that is not admitted, once the ring has room: it takes its positions,
which may wrap round the ring. -/
def execSpushAdmit (cmd : Nat) (s : State) : Out :=
  runEvent s fun a _ _ =>
    match tget a.cmds cmd with
    | none => (a, [])
    | some c =>
      match c.kind, c.ag.crew, c.legs with
      | .spush q false _, some k, [l] =>
        match a.crew k with
        | none => (a, [])
        | some w =>
          match tget w.streams q with
          | none => (a, [])
          | some st =>
            let first := (pushesOf a k q).all (fun x => match x.kind with
              | .spush _ false _ => decide (c.id ≤ x.id)
              | _ => true)
            if first && !w.out && decide (l.size + (st.rs - st.rp) ≤ st.cap) then
              let p := st.rs % st.cap
              let n1 := min l.size (st.cap - p)
              let dst (o : Nat) : End := .va c.ag (spadVa 0 (st.base + o))
              let src (o : Nat) : End := match l.src with | .va g va => .va g (va + o) | e => e
              let legs := [{ l with dst := dst p, size := n1 }] ++
                (if n1 < l.size then [{ l with src := src n1, dst := dst 0, size := l.size - n1 }] else [])
              ({ (a.setCrew { w with streams := tset w.streams q { st with rs := st.rs + l.size } }) with
                  cmds := tset a.cmds cmd { c with kind := .spush q true st.rs, legs := legs } }, [])
            else (a, [])
      | _, _, _ => (a, [])

/-- Take bytes from a stream. -/
def popStream (a : Arch) (crew q n : Nat) : Arch :=
  { a with crews := tmod a.crews crew (fun c => { c with streams := tmod c.streams q (fun x => { x with rp := x.rp + n }) }) }

/-- The waves of a crew that wait at a stream, with the order in which they reached it. -/
def popWaiters (a : Arch) (crew q : Nat) : List (Nat × Nat) :=
  (tvals a.threads).filterMap (fun t =>
    if t.isWave && t.crew == crew then (match t.wait with | some (.spop p _ k) => if p = q then some (t.uid, k) else none | _ => none)
    else none)

/-- SPOP (R358): its release at CORE first, then the stream takes it in its turn. -/
def execSpop (h : Hd) (q : Fin 4) (a : Opnd) (s : State) : Out :=
  runWord 6 .any h s fun w =>
    let n := (w.rs a).toNat
    checked (srcU 1 a) <|
      match w.stream q.val with
      | .error x => .bad x
      | .ok (c, st) =>
        checked (if n % 16 = 0 ∧ n ≤ st.cap then none else some (operandBad 1 6 0 (BitVec.ofNat 64 n))) <|
          if w.part = 0 then .done w.a []
          else match w.t.wait with
          | some (.spop p k came) => .stay w.a (.spop p k came)
          | _ =>
          if ownPending w.a w.t.uid then .stay w.a .order
          else if decide (n ≤ st.wp - st.rp) && (popWaiters w.a c.id q.val).isEmpty then .done (popStream (releaseAt w.a w.t .core) c.id q.val n) []
          else .stay { w.a with nextId := w.a.nextId + 1 } (.spop q.val n w.a.nextId)

/-- The crew, the stream, the bytes and the clause of a wave's SPOP that may complete: its bytes are there, and it is the first of those that
wait on the stream (R358). -/
def spopReady (a : Arch) (t : Thread) : Option (Nat × Nat × Nat × Clause) :=
  match t.wait, t.clause, a.crew t.crew with
  | some (.spop q n came), some c, some w =>
    match tget w.streams q with
    | none => none
    | some st =>
      if !w.out && decide (n ≤ st.wp - st.rp) && (popWaiters a w.id q).all (fun x => decide (came ≤ x.2)) then some (w.id, q, n, c) else none
  | _, _, _ => none

/-- WPRD (R359). -/
def execWprd (h : Hd) (m : MMod) (stream : Bool) (n : Fin 4) (d : Opnd) (s : State) : Out :=
  runWord 6 .any h s fun w =>
    checked (dstS 2 d) <|
      let put (v : Nat) : WRes :=
        w.acts (.done ((if m.acq then acquireAt w.a w.t (w.a.resolve w.t m.lvl) else w.a).modThread w.t.uid
          (fun t => t.wr64 d (BitVec.ofNat 64 v))) [])
      if stream then
        match w.stream n.val with
        | .error x => .bad x
        | .ok (_, st) => put st.wp
      else match w.a.crew w.t.crew with
        | none => .bad (operandBad 4 3 0 (BitVec.ofNat 64 n.val))
        | some c => put (tgetD c.chans n.val 0)

end Sys2Proof.Machine
end

