-- ==== Sys2Proof/Machine/Claim.lean ====
section
/-! DEFINITION. CLAIM (spec/20 R348 to R350, spec/03 R82): the range entries that it re-homes, and its steps. -/

namespace Sys2Proof.Machine

/-- A frame of a claimed range: the address of the table word that holds its PA, the PA, the size, and the VA of its first byte. -/
structure ClaimFrame where
  word : Nat
  pa : Nat
  size : Nat
  va : Nat

/-- An entry of a claimed range: its slot, ATTR and frames; `paged` says that the frames' words are paging entries. -/
structure ClaimEntry where
  slot : Nat
  attr : Nat
  limit : Nat
  paged : Bool
  frames : List ClaimFrame

/-- The leaf pages of a paged range of `len` bytes at `base`, from the table at `t` that serves offset `off` (R91, R92); `n` counts
the levels below the first. A failure names its VA. -/
def claimPages (a : Arch) (mem : Memory) (g : Agent) (attr base len : Nat) : Nat → Nat → Nat → Except XFail (List ClaimFrame)
  | 0, _, off => .error (.format, base + off)
  | n + 1, t, off =>
    let shift := if n = 2 then 30 else if n = 1 then 21 else 16
    let count := min (if n = 0 then 32 else 512) ((len - off + 2 ^ shift - 1) / 2 ^ shift)
    if !inPool a g.pkg t (if n = 0 then 256 else 4096) then .error (.table, base + off)
    else match tableStop a g (fabric g.pkg t) (8 * count) with
    | some k => .error (k, base + off)
    | none =>
      (List.range count).foldl (fun acc i =>
        match acc with
        | .error k => .error k
        | .ok fs =>
          let w := fabric g.pkg (t + 8 * i)
          let pe := mnum mem w 8
          let ty := pe % 4
          let pa := pe / 256 % 2 ^ 44 * 256
          let va := base + off + i * 2 ^ shift
          if ty = 0 then .error (.unmapped, va)
          else if ty = 3 ∨ ¬ pe / 4 % 64 = 0 ∨ ¬ pe / 2 ^ 52 = 0 ∨ (ty = 2 ∧ n = 0) then .error (.format, va)
          else if ty = 1 then
            if pa % 2 ^ shift = 0 ∧ targetOk attr pa = true then .ok (fs ++ [{ word := w, pa := pa, size := 2 ^ shift, va := va }])
            else .error (.format, va)
          else if pa % (if n = 2 then 4096 else 256) = 0 then
            match claimPages a mem g attr base len n pa (off + i * 2 ^ shift) with
            | .error k => .error k
            | .ok r => .ok (fs ++ r)
          else .error (.format, va)) (.ok [])

/-- The entry at a VA, checked (R90, R92 to R94), and its BASE. -/
def claimEntry (a : Arch) (mem : Memory) (g : Agent) (va : Nat) : Except XFail (Nat × ClaimEntry) :=
  match a.ctx g.pkg g.ctx with
  | none => .error (.unmapped, va)
  | some c =>
    match walkNodes a mem g va 6 c.root with
    | .error k => .error (k, va)
    | .ok s =>
      let w0 := mnum mem s 8
      let w1 := mnum mem (s + 8) 8
      let w2 := mnum mem (s + 16) 8
      let attr := mnum mem (s + 24) 8
      let base := w0 / 2 ^ 16 % 2 ^ 40 * 2 ^ 16
      let limit := w1 / 2 ^ 16 % 2 ^ 40 * 2 ^ 16 + 0xFFFF
      let tpa := w2 / 2 ^ 12 % 2 ^ 40 * 2 ^ 12
      if !entryOk g.pkg va w0 w1 w2 attr then .error (.format, va)
      else if w2 / 2 ^ 62 = 0 then
        if targetOk attr tpa then
          .ok (base, { slot := s, attr := attr, limit := limit, paged := false,
                       frames := [{ word := s + 16, pa := tpa, size := limit + 1 - base, va := base }] })
        else .error (.format, va)
      else
        match claimPages a mem g attr base (limit + 1 - base) 3 tpa 0 with
        | .error k => .error k
        | .ok fs => .ok (base, { slot := s, attr := attr, limit := limit, paged := true, frames := fs })

/-- Why a CLAIM does not begin: its range is not whole entries, or a walk fails at a VA. -/
inductive ClaimFail where
  | shape
  | walk (k : AKind) (va : Nat)

/-- The entries that cover [va, last] exactly (R348); `n` bounds their number. -/
def claimRange (a : Arch) (mem : Memory) (g : Agent) : Nat → Nat → Nat → Except ClaimFail (List ClaimEntry)
  | 0, _, _ => .error .shape
  | n + 1, va, last =>
    match claimEntry a mem g va with
    | .error x => .error (.walk x.1 x.2)
    | .ok (base, e) =>
      if ¬ base = va ∨ last < e.limit then .error .shape
      else if e.limit = last then .ok [e]
      else match claimRange a mem g n (e.limit + 1) last with
        | .error x => .error x
        | .ok r => .ok (e :: r)

/-- The mirror frame of a PA on a berth (R348). -/
def mirror (pa berth : Nat) : Nat := pa / 2 ^ 39 * 2 ^ 39 + berth * 2 ^ 37 + pa % 2 ^ 37

/-- The entries of a range that move: those not already homed on the berth (R349). -/
def movers (es : List ClaimEntry) (berth : Nat) : List ClaimEntry := es.filter (fun e => !(attrHome e.attr == berth))

/-- The first byte of a mirror frame that is absent or reserved, by its VA (R348). -/
def mirrorBad (a : Arch) (pkg berth : Nat) (es : List ClaimEntry) : Option XFail :=
  (movers es berth).findSome? (fun e => e.frames.findSome? (fun f =>
    let m := mirror f.pa berth
    if decide (placeOf m = .reserved) then some (.format, f.va)
    else if isAbsent a (fabric pkg m) then some (.absent, f.va)
    else if isAbsent a (fabric pkg (m + f.size - 1)) then
      some (.absent, f.va + (((a.pkg pkg).capacity.getD berth 0) * 2 ^ 33 - m % 2 ^ 37))
    else none))

/-- The legs of a CLAIM: each frame of its range and its mirror, which is the frame itself where the entry is already homed there. -/
def claimLegs (pkg berth : Nat) (es : List ClaimEntry) : List Leg :=
  es.flatMap (fun e => e.frames.map (fun f => leg (.phys (fabric pkg f.pa)) (.phys (fabric pkg (mirror f.pa berth))) f.size))

/-- CLAIM (R348, R349): steps 1 and 2 (DEDUCED, log 61). -/
def execClaim (h : Hd) (m : MMod) (a b : Opnd) (s : State) : Out :=
  runWord 4 .lg h s fun w =>
    let va := (w.rs64 a).toNat
    let n := (w.rs64 b).toNat
    let shape : Bad := operandBad 1 6 0 (w.rs64 a)
    checked (firstBad [srcU64 1 a, srcU64 2 b, w.selBad m.fsel]) <|
      if w.part = 0 then .done w.a []
      else if 2 ^ 55 ≤ va ∨ va / 2 ^ 48 = 0x7F ∨ n = 0 ∨ 2 ^ 55 < va + n then .bad shape
      else if w.flagFull m.fsel then .stay w.a .flagFull
      else w.ordered (fenceWait w.a w.t true) <|
        let berth := w.t.unit.idx / 48
        let pkg := w.t.unit.pkg
        let access (k : AKind) (va : Nat) : WRes := checked (gatherBad [(0, k, va)] (some w.part) true 0) (.bad shape)
        match claimRange w.a w.mem (agentOf w.a w.t) (n / 65536 + 1) va (va + n - 1) with
        | .error .shape => .bad shape
        | .error (.walk k x) => access k x
        | .ok es =>
          match mirrorBad w.a pkg berth es with
          | some x => access x.1 x.2
          | none => w.command (w.mkCmd (.claim va n pkg berth 0) m.fsel m (claimLegs pkg berth es) none none)

/-! ## Steps 3 to 6 -/

/-- Whether some access issued before a CLAIM still has a request to its frames (R349, step 3). -/
def claimBusy (a : Arch) (c : Cmd) : Bool :=
  (tvals a.ops).any (fun o => decide (o.id < c.id) && o.reqs.any (fun r => !r.done && r.pieces.any (fun p =>
    c.legs.any (fun l => match l.src with | .phys s => runsMeet p.addr p.len s l.size | _ => false))))

/-- Whether an earlier CLAIM over the same range is in progress (R349). -/
def claimBehind (a : Arch) (c : Cmd) : Bool :=
  match c.kind with
  | .claim va n _ _ _ => (tvals a.cmds).any (fun x => decide (x.id < c.id) && x.ctx == c.ctx && x.pkg == c.pkg && !x.committed &&
      (match x.kind with | .claim v m _ _ _ => runsMeet va n v m | _ => false))
  | _ => false

/-- The writes that copy a frame whole: its listed bytes, and zero over what the target listed. -/
def frameWrites (mem : Memory) (src dst size : Nat) : Writes :=
  (mem.filter (fun p => decide (dst ≤ p.1) && decide (p.1 < dst + size))).map (fun p => (p.1, [0])) ++
    (mem.filter (fun p => decide (src ≤ p.1) && decide (p.1 < src + size))).map (fun p => (p.1 - src + dst, [p.2]))

/-- Move a table of granules with a frame. -/
def moveGranules {α : Type} (t : Tab α) (src dst size : Nat) : Tab α :=
  let old := t.filter (fun p => decide (dst / 64 ≤ p.1) && decide (p.1 < (dst + size) / 64))
  let t0 := old.foldl (fun t p => tdel t p.1) t
  (t.filter (fun p => decide (src / 64 ≤ p.1) && decide (p.1 < (src + size) / 64))).foldl
    (fun t p => tset t (p.1 - src / 64 + dst / 64) p.2) t0

/-- Copy one frame with its metadata; an uncorrectable granule stays so, and is reported (R350). -/
def copyFrame (time wid : Nat) (ctx : Nat) (mem : Memory) (acc : Arch × Writes) (l : Leg) : Arch × Writes :=
  match l.src, l.dst with
  | .phys s, .phys d =>
    let a := acc.1
    let bads := a.bad.filter (fun p => decide (s / 64 ≤ p.1) && decide (p.1 < (s + l.size) / 64))
    let a := { a with gmeta := moveGranules a.gmeta s d l.size, bad := moveGranules a.bad s d l.size }
    (bads.foldl (fun a p => a.event time (faPkg s) 7 ctx (faPlace (p.1 * 64)).mem (p.1 * 64) wid) a,
     acc.2 ++ frameWrites mem s d l.size)
  | _, _ => acc

/-- Rewrite the table words of the entries that move (R349, step 5). -/
def claimRewrite (mem : Memory) (berth : Nat) (es : List ClaimEntry) : Writes :=
  (movers es berth).flatMap (fun e =>
    e.frames.map (fun f => (f.word, leBytes 8 (mnum mem f.word 8 - f.pa + mirror f.pa berth))) ++
      [(e.slot + 24, leBytes 8 (e.attr - attrHome e.attr * 16 + berth * 16))])

/-- An uncorrectable granule that holds a table word to be rewritten (R350). -/
def claimBadSlot (a : Arch) (berth : Nat) (es : List ClaimEntry) : Option Nat :=
  (movers es berth).findSome? (fun e => ((e.slot + 24) :: e.frames.map (·.word)).find? (fun x => isBad a (granule x)))

/-- The retirement time of an old mapping: T + L + S (R99). -/
def retireTime (a : Arch) (time pkg ctx : Nat) : Nat :=
  refTimer a time pkg + (match a.ctx pkg ctx with | some c => leaseNs c | none => 0) + Config.timerBound

/-- End a CLAIM: its mark goes, and its flag falls. -/
def endClaim (a : Arch) (c : Cmd) : Arch :=
  match c.owner with
  | .thread u => { a with cmds := tdel a.cmds c.id }.lowerFlag u c.flag c.tm
  | .queue .. => { a with cmds := tdel a.cmds c.id }

/-- A CLAIM that meets an uncorrectable granule of the table ends with a pending ERROR trap of its wave (R350), and the event of R218. -/
def claimError (a : Arch) (time : Nat) (c : Cmd) (u va fa : Nat) : Arch :=
  let t := a.thread u
  let a := a.event time (faPkg fa) 7 c.ctx (faPlace fa).mem (granule fa * 64) ((t.map (·.eventId)).getD 0xFFFFFF)
  endClaim (a.pend u
    { cls := .error, opidx := c.opidx, kinds := 0, kind := 0, mask := (t.map (·.live)).getD 0, pc := c.pc,
      addr := BitVec.ofNat 64 va, synd := BitVec.ofNat 64 ((faPlace fa).mem), word := BitVec.ofNat 64 c.word,
      faddr := BitVec.ofNat 64 (granule fa * 64), time := refTimer a time c.pkg, dests := [] }) c

/-- Whether a frame's copy waits at a clock crossing or for a layer copy (R428, R444). -/
def Leg.stalled (a : Arch) (c : Cmd) (l : Leg) : Bool := crossingStalled a c.ag l.src.pos || crossingStalled a c.ag l.dst.pos

/-- Steps 3 to 6 of a CLAIM, and its flag when the old mapping is retired (R349, R350). -/
def claimStep (a : Arch) (mem : Memory) (time : Nat) (c : Cmd) : Arch × Writes :=
  match c.kind, c.owner with
  | .claim va n pkg berth retire, .thread u =>
    if c.committed then
      if retire ≤ refTimer a time c.pkg then (endClaim a c, []) else (a, [])
    else if claimBusy a c || claimBehind a c then (a, [])
    else
      match claimRange a mem c.ag (n / 65536 + 1) va (va + n - 1) with
      | .error (.walk .waits _) => (a, [])
      | .error (.walk (.error fa) va) => (claimError a time c u va fa, [])
      | .error _ => (endClaim a c, [])
      | .ok es =>
        let c := { c with legs := (claimLegs pkg berth es).filter (fun l => !decide (l.src = l.dst)) }
        if c.legs.isEmpty then (endClaim a c, [])
        else if c.legs.any (Leg.stalled a c) then (a, [])
        else match claimBadSlot a berth es with
          | some x => (claimError a time c u va x, [])
          | none =>
            let wid := ((a.thread u).map (fun t => t.waveid.toNat)).getD 0xFFFFFF
            let r := c.legs.foldl (copyFrame time wid c.ctx mem) (a, [])
            let c := { c with committed := true, kind := .claim va n pkg berth (retireTime a time pkg c.ctx) }
            ({ r.1 with cmds := tset r.1.cmds c.id c }, r.2 ++ claimRewrite mem berth es)
  | _, _ => (a, [])

/-- CLAIM_COMPLETE. -/
def execClaimComplete (cmd : Nat) (s : State) : Out :=
  runEvent s fun a mem time => match tget a.cmds cmd with
    | none => (a, [])
    | some c => claimStep a mem time c

end Sys2Proof.Machine
end

