-- ==== Sys2Proof/Machine/Sketch.lean ====
section
/-! DEFINITION. Mergeable summaries (spec/10 R165 to R184): the bytes of QSK, HHL and DCR, and what inserting, merging and
querying do to them. -/

namespace Sys2Proof

/-- The size of a summary (R165). -/
def SKind.size : SKind → Nat
  | .qsk => 4096 | .hhl => 1024 | .dcr => 2048

end Sys2Proof

namespace Sys2Proof.Machine

/-- A number of `n` bytes at byte `i` of an object. -/
def objNum (b : List Byte) (i n : Nat) : Nat := leVal ((b.drop i).take n)

/-! ## QSK (R167 to R173) -/

/-- A QSK: `lv` holds the entries of its 30 levels; `hw` counts the free coins drawn. -/
structure Qsk where
  count : Nat
  mn : Nat
  mx : Nat
  seed : Nat
  cctr : Nat
  coin : Nat
  flags : Nat
  altp : Nat
  lv : List (List Nat)
  hw : Nat

/-- The numeric order of FP32 codes that are not NaN; a NaN in MIN or MAX of a QSK goes by its code (DESIGN CHOICE, log 98). -/
def qKeyOf (c : Nat) : Int := if c = 0x80000000 then 0 else Fmt.f32.key c

/-- Insert into an ascending list after its equals. -/
def insertBy (key : Nat → Int) (x : Nat) : List Nat → List Nat
  | [] => [x]
  | y :: r => if key x < key y then x :: y :: r else y :: insertBy key x r
/-- A stable ascending sort. -/
def sortBy (key : Nat → Int) (l : List Nat) : List Nat := l.foldl (fun s x => insertBy key x s) []

/-- Every second element. -/
def everyOther : List Nat → List Nat
  | [] => []
  | [x] => [x]
  | x :: _ :: r => x :: everyOther r

/-- An empty QSK (R169). -/
def Qsk.empty (seed coin : Nat) : Qsk :=
  { count := 0, mn := 0x7F800000, mx := 0xFF800000, seed := seed, cctr := 0, coin := coin, flags := 0, altp := 0,
    lv := List.replicate 30 [], hw := 0 }

/-- Read a QSK; `hw` is the next free coin. -/
def Qsk.ofBytes (b : List Byte) (hw : Nat) : Qsk :=
  { count := objNum b 0 8, mn := objNum b 8 4, mx := objNum b 12 4, seed := objNum b 16 8, cctr := objNum b 24 8,
    coin := objNum b 33 1, flags := objNum b 34 1 % 4, altp := objNum b 36 4 % 2 ^ 30,
    lv := (List.range 30).map (fun h => (List.range (min 31 (objNum b (40 + h) 1))).map (fun e => objNum b (128 + 128 * h + 4 * e) 4)),
    hw := hw }

/-- The bytes of a QSK (R167): entries that are not held are zero. -/
def Qsk.toBytes (s : Qsk) : List Byte :=
  leBytes 8 s.count ++ leBytes 4 s.mn ++ leBytes 4 s.mx ++ leBytes 8 s.seed ++ leBytes 8 s.cctr ++ leBytes 1 1 ++
    leBytes 1 s.coin ++ leBytes 1 s.flags ++ leBytes 1 0 ++ leBytes 4 s.altp ++
    (List.range 30).flatMap (fun h => leBytes 1 (s.lv.getD h []).length) ++ List.replicate 58 0 ++
    (List.range 30).flatMap (fun h => let l := s.lv.getD h []; (List.range 32).flatMap (fun e => leBytes 4 (l.getD e 0))) ++
    List.replicate 128 0

/-- Whether a QSK is well formed (R168). -/
def qskOk (b : List Byte) : Bool :=
  objNum b 32 1 == 1 && decide (objNum b 33 1 ≤ 2) && decide (objNum b 34 1 < 4) && objNum b 35 1 == 0 &&
  decide (objNum b 36 4 < 2 ^ 30) && ((b.drop 70).take 58).all (fun x => decide (x = 0)) &&
  ((b.drop 3968).take 128).all (fun x => decide (x = 0)) &&
  (List.range 30).all (fun h =>
    let n := objNum b (40 + h) 1
    decide (n ≤ 31) && (List.range n).all (fun e => !(Fmt.f32.isNaN (objNum b (128 + 128 * h + 4 * e) 4))))

/-- The coin of a compaction at level `h` (R171). -/
def Qsk.flip (s : Qsk) (h : Nat) : Nat :=
  match s.coin with
  | 0 => (philox (s.cctr % 2 ^ 32) (s.cctr / 2 ^ 32) h 0 (s.seed % 2 ^ 32) (s.seed / 2 ^ 32)).1 % 2
  | 1 => b2n (Config.hwCoin s.hw)
  | _ => s.altp / 2 ^ h % 2

/-- Compact 32 values of level `h`: the sketch after, and the 16 survivors (R170). -/
def Qsk.compact (s : Qsk) (h : Nat) (b : List Nat) : Qsk × List Nat :=
  let c := s.flip h
  let bit := s.altp / 2 ^ h % 2
  ({ s with cctr := (s.cctr + 1) % 2 ^ 64,
            altp := if s.coin = 2 then (if bit = 1 then s.altp - 2 ^ h else s.altp + 2 ^ h) else s.altp,
            hw := if s.coin = 1 then s.hw + 1 else s.hw },
   everyOther ((sortBy qKeyOf b).drop c))

def Qsk.level (s : Qsk) (h : Nat) : List Nat := s.lv.getD h []
def Qsk.setLevel (s : Qsk) (h : Nat) (l : List Nat) : Qsk := { s with lv := s.lv.set h l }
def Qsk.saturate (s : Qsk) : Qsk := { s with flags := if s.flags % 2 = 1 then s.flags else s.flags + 1 }

/-- carry(S, h) of R170: level `h` holds 32 or more entries. -/
def Qsk.carry : Nat → Qsk → Nat → Qsk
  | 0, s, _ => s
  | n + 1, s, h =>
    let l := s.level h
    if l.length < 32 then s
    else
      let r := s.compact h (l.take 32)
      if h = 29 then (r.1.setLevel 29 (r.2 ++ l.drop 32)).saturate
      else
        let s := r.1.setLevel h (l.drop 32)
        Qsk.carry n (s.setLevel (h + 1) (s.level (h + 1) ++ r.2)) (h + 1)

/-- The lesser and greater of two FP32 codes by numeric order; on equality the first. -/
def qMin (a b : Nat) : Nat := if qKeyOf b < qKeyOf a then b else a
def qMax (a b : Nat) : Nat := if qKeyOf a < qKeyOf b then b else a

/-- Insert one value (R170). -/
def Qsk.insert (s : Qsk) (x : Nat) : Qsk :=
  if Fmt.f32.isNaN x then { s with flags := if s.flags / 2 % 2 = 1 then s.flags else s.flags + 2 }
  else
    let x := if x = 0x80000000 then 0 else x
    let s := { s with count := min (s.count + 1) (2 ^ 64 - 1), mn := qMin s.mn x, mx := qMax s.mx x }
    Qsk.carry 30 (s.setLevel 0 (s.level 0 ++ [x])) 0

/-- The compactions of one level of a merge (R172): the sketch, what is carried up, and what stays. -/
def Qsk.mergeLevel (h : Nat) : Nat → Qsk → List Nat → List Nat → Qsk × List Nat × List Nat
  | 0, s, buf, up => (s, up, buf)
  | n + 1, s, buf, up =>
    if buf.length < 32 then (s, up, buf)
    else
      let r := s.compact h (buf.take 32)
      if h < 29 then Qsk.mergeLevel h n r.1 (buf.drop 32) (up ++ r.2)
      else Qsk.mergeLevel h n r.1.saturate (r.2 ++ buf.drop 32) up

/-- A merge of `b` into `s` (R172). -/
def Qsk.merge (s b : Qsk) : Qsk :=
  let s := { s with count := min (s.count + b.count) (2 ^ 64 - 1), mn := qMin s.mn b.mn, mx := qMax s.mx b.mx,
                    flags := s.flags ||| b.flags }
  ((List.range 30).foldl (fun (acc : Qsk × List Nat) h =>
    let buf := s.level h ++ acc.2 ++ b.level h
    let r := Qsk.mergeLevel h (buf.length + 1) acc.1 buf []
    (r.1.setLevel h r.2.2, r.2.1)) (s, [])).1

/-- The held weight W (R173). -/
def Qsk.weight (s : Qsk) : Nat := (List.range 30).foldl (fun w h => w + (s.level h).length * 2 ^ h) 0

/-- The held entries with their weights, as 64 × 2^32 pairs: (value, weight). -/
def Qsk.entries (s : Qsk) : List (Nat × Nat) := (List.range 30).flatMap (fun h => (s.level h).map (fun x => (x, 2 ^ h)))

/-- Insert a weighted entry after its equals. -/
def insertEntry (x : Nat × Nat) : List (Nat × Nat) → List (Nat × Nat)
  | [] => [x]
  | y :: r => if qKeyOf x.1 < qKeyOf y.1 then x :: y :: r else y :: insertEntry x r

/-- The first value whose running sum reaches `t`. -/
def firstAt (t : Nat) : List (Nat × Nat) → Nat → Nat → Nat
  | [], _, d => d
  | (x, w) :: r, run, d => if t ≤ run + w then x else firstAt t r (run + w) d

/-- quantile(q) (R173). -/
def Qsk.quantile (s : Qsk) (q : Nat) : Nat :=
  let wt := s.weight
  if wt = 0 ∨ Fmt.f32.isNaN q = true then 0x7FC00000
  else
    match Fmt.f32.decode q with
    | .fin sg m e =>
      if sg = true ∨ m = 0 then s.mn
      else if qKeyOf 0x3F800000 ≤ qKeyOf q then s.mx
      else
        let d := 2 ^ (-e).toNat
        let t := max ((m * wt + d - 1) / d) 1
        firstAt t (s.entries.foldl (fun l x => insertEntry x l) []) 0 s.mx
    | .inf sg => if sg then s.mn else s.mx
    | .nan _ => 0x7FC00000

/-- rank(v) (R173). -/
def Qsk.rank (s : Qsk) (v : Nat) : Nat :=
  let wt := s.weight
  if wt = 0 ∨ Fmt.f32.isNaN v = true then 0x7FC00000
  else if qKeyOf v < qKeyOf s.mn then 0
  else if qKeyOf s.mx ≤ qKeyOf v then 0x3F800000
  else
    let n := s.entries.foldl (fun n x => if qKeyOf x.1 ≤ qKeyOf v then n + x.2 else n) 0
    (roundTo Fmt.f32 .rn 0 false false (n * 2 ^ 120 / wt) (-120) (!(n * 2 ^ 120 % wt == 0))).1

/-! ## HHL (R174 to R179) -/

/-- An HHL: total weight, total decrement, counts by key. -/
structure Hhl where
  tot : Nat
  dec : Nat
  c : Tab Nat

def sat32 (n : Nat) : Nat := min n (2 ^ 32 - 1)
def sat64 (n : Nat) : Nat := min n (2 ^ 64 - 1)

/-- Add a count to a key, saturating. -/
def addKey (c : Tab Nat) (k n : Nat) : Tab Nat := tset c k (sat32 (tgetD c k 0 + n))

/-- Read an HHL: non-empty slots as a set (R174). -/
def Hhl.ofBytes (b : List Byte) : Hhl :=
  { tot := objNum b 0 8, dec := objNum b 8 8,
    c := (List.range 126).foldl (fun c i =>
      let n := objNum b (20 + 8 * i) 4
      if n = 0 then c else addKey c (objNum b (16 + 8 * i) 4) n) [] }

/-- The bytes of an HHL: used slots by key, then zero slots (R174). -/
def Hhl.toBytes (h : Hhl) : List Byte :=
  leBytes 8 h.tot ++ leBytes 8 h.dec ++ (List.range 126).flatMap (fun i =>
    match h.c[i]? with
    | some (k, n) => leBytes 4 k ++ leBytes 4 n
    | none => List.replicate 8 0)

/-- reduce126 (R175). -/
def reduce126 (c : Tab Nat) : Tab Nat × Nat :=
  if c.length ≤ 126 then (c, 0)
  else
    let d := ((sortBy (fun x => -(x : Int)) (c.map (·.2))).getD 126 0)
    ((c.filter (fun p => decide (d < p.2))).map (fun p => (p.1, p.2 - d)), d)

/-- A merge (R176). -/
def Hhl.merge (a b : Hhl) : Hhl :=
  let r := reduce126 (b.c.foldl (fun c p => addKey c p.1 p.2) a.c)
  { tot := sat64 (a.tot + b.tot), dec := sat64 (a.dec + b.dec + r.2), c := r.1 }

/-- Insert the lanes' keys and weights (R177). -/
def Hhl.insert (a : Hhl) (kw : List (Nat × Nat)) : Hhl :=
  a.merge { tot := kw.foldl (fun n p => n + p.2) 0, dec := 0,
            c := (kw.foldl (fun c p => addKey c p.1 p.2) []).filter (fun p => !(p.2 == 0)) }

/-- Insert by rank: count descending, key ascending. -/
def insertRank (x : Nat × Nat) : List (Nat × Nat) → List (Nat × Nat)
  | [] => [x]
  | y :: r => if y.2 < x.2 ∨ (y.2 = x.2 ∧ x.1 < y.1) then x :: y :: r else y :: insertRank x r
/-- The used slots by rank (R179). -/
def Hhl.ranked (a : Hhl) : List (Nat × Nat) := a.c.foldl (fun l x => insertRank x l) []

/-! ## DCR (R180 to R183) -/

/-- Read the registers (R180). -/
def dcrOf (b : List Byte) : List Nat := b.map (fun x => min x.toNat 54)
def dcrBytes (r : List Nat) : List Byte := r.map (fun x => BitVec.ofNat 8 x)

/-- The SplitMix64 finaliser (R181). -/
def splitMix (x : Nat) : Nat :=
  let z := (x ^^^ (x / 2 ^ 30)) * 0xBF58476D1CE4E5B9 % 2 ^ 64
  let z := (z ^^^ (z / 2 ^ 27)) * 0x94D049BB133111EB % 2 ^ 64
  z ^^^ (z / 2 ^ 31)

/-- Insert a key (R182). -/
def dcrInsert (r : List Nat) (x : Nat) : List Nat :=
  let z := splitMix (x % 2 ^ 64)
  let j := z / 2 ^ 53
  let w := z % 2 ^ 53
  r.set j (max (r.getD j 0) (54 - bitLen w))

/-- ln of an FP32 value at or above 1, rounded once under .RN (R183). -/
def lnF32 (a : Nat) : Nat :=
  match Fmt.f32.decode a with
  | .fin _ m e =>
    if m = 0 then 0
    else
      let k := bitLen m - 1
      let v : Int := (e + k) * lnTwo + (fxLn (m * 2 ^ (fx - k)) : Nat)
      if v ≤ 0 then 0 else (roundFx Fmt.f32 .rn 0 false v (2 ^ 40) 0).1
  | _ => 0

/-- The distinct estimate (R183). -/
def dcrEstimate (r : List Nat) : Nat :=
  let s := r.foldl (fun n x => n + 2 ^ (54 - x)) 0
  let z := (roundTo Fmt.f32 .rn 0 false false s (-54) false).1
  let e := (fDiv Fmt.f32 .rn 0 (0x3F388E3A + 22 * 2 ^ 23) z).1
  let v := r.foldl (fun n x => if x = 0 then n + 1 else n) 0
  if v = 0 ∨ 0x45A00000 < e then e
  else
    let q := (fDiv Fmt.f32 .rn 0 0x45000000 (roundTo Fmt.f32 .rn 0 false false v 0 false).1).1
    (fMul Fmt.f32 .rn 0 0x45000000 (lnF32 q)).1

/-! ## All kinds -/

/-- The empty summary of a kind. -/
def emptySummary (k : SKind) (seed coin : Nat) : List Byte :=
  match k with
  | .qsk => (Qsk.empty seed coin).toBytes
  | k => List.replicate k.size 0

/-- merge(A, B): the bytes, and the next free coin (R172, R176, R180, R184). -/
def mergeSummary (k : SKind) (a b : List Byte) (hw : Nat) : List Byte × Nat :=
  match k with
  | .qsk => let r := (Qsk.ofBytes a hw).merge (Qsk.ofBytes b hw); (r.toBytes, r.hw)
  | .hhl => (((Hhl.ofBytes a).merge (Hhl.ofBytes b)).toBytes, hw)
  | .dcr => (dcrBytes ((List.range 2048).map (fun i => max ((dcrOf a).getD i 0) ((dcrOf b).getD i 0))), hw)

/-- Whether a summary is well formed; only a QSK can be malformed (R168, R174, R180). -/
def summaryOk (k : SKind) (b : List Byte) : Bool := match k with | .qsk => qskOk b | _ => true

end Sys2Proof.Machine
end

