-- ==== Sys2Proof/Machine/Summary.lean ====
section
/-! DEFINITION. Class 10: summary instructions, and the core's summary unit (spec/23 R409 to R418, spec/10 R186). -/

namespace Sys2Proof.Machine

/-- A moored wave may issue no summary or matrix instruction (R81, R418). -/
def mooredBad (t : Thread) : Option Bad := if 48 ≤ t.slot then some (operandBad 4 3 0 0) else none

/-- The operand checks of an object address (R410). -/
def objBad (j : Nat) (va : W64) : Option Bad :=
  match ownWindow j va with
  | some b => some b
  | none => if va.toNat % 64 = 0 then none else some (operandBad j 6 0 va)

/-- Objects of SKMRG that overlap without being equal (R410). -/
def overlapBad (n : Nat) (a b : W64) : Option Bad :=
  if a = b ∨ a.toNat + n ≤ b.toNat ∨ b.toNat + n ≤ a.toNat then none else some (operandBad 2 6 0 b)

/-- The fabric address of a whole object in the crew's region, or the ACCESS failure (R410). -/
def W.object (w : W) (r : Right) (va n : Nat) : Except Bad Nat :=
  let g := gather w.a w.mem w.time w.t r n (fun _ _ => none) ((Lanes.toList w.part).take 1 |>.map (fun l => (l, va)))
  match gatherBad g.2.1 (some w.part) (decide (r = .w) || decide (r = .rdw)) n with
  | some b => .error b
  | none => match g.1 with
    | p :: _ => .ok p.x.fa
    | [] => .error (accessBad 4 16 w.part (BitVec.ofNat 64 va) false false n)

/-- The kind of object that an operation names. -/
def SumWhat.kind : SumWhat → SKind
  | .init k .. => k | .insQ _ => .qsk | .insH .. => .hhl | .insD _ => .dcr | .merge k _ => k | .quant .. => .qsk | .rank .. => .qsk
  | .top .. => .hhl | .point .. => .hhl | .est _ => .dcr

/-- The objects that an operation reads, in order (R414): fabric addresses. -/
def SumOp.reads (o : SumOp) : List Nat :=
  match o.what with
  | .init .. => []
  | .merge _ b => [b, o.addr]
  | _ => [o.addr]

/-- Whether a summary instruction or an access of the wave to an object is pending (R186, R410, R411). -/
def objBusy (a : Arch) (uid fa n : Nat) : Bool :=
  (tvals a.sums).any (fun o => (o.addr :: o.reads).any (fun x => runsMeet x o.what.kind.size fa n)) ||
  (tvals a.ops).any (fun o => o.uid == uid && o.reqs.any (fun r => o.waits r && (o.touches r).any (fun x => !x.md && runsMeet x.addr x.len fa n)))

/-- One object field: position, VA, right. -/
structure Obj where
  j : Nat
  va : Nat
  r : Right

/-- The checks of the objects an instruction reads (R410): a QSK that is malformed comes before an ACCESS failure (R207). -/
def W.readObjects (w : W) (k : SKind) (objs : List Obj) : Except Bad (List Nat) × Bool :=
  let rs := objs.map (fun o => (o, w.object o.r o.va k.size))
  let fas := rs.filterMap (fun x => match x.2 with | .ok fa => some (x.1, fa) | .error _ => none)
  let busy := decide (k = .qsk) && fas.any (fun x => objBusy w.a w.t.uid x.2 k.size)
  let malformed := fas.findSome? (fun x =>
    if decide (x.1.r = .w) || summaryOk k (mbytes w.mem x.2 k.size) || (granules x.2 k.size).any (isBad w.a) then none
    else some (operandBad x.1.j 8 0 (BitVec.ofNat 64 x.1.va)))
  match malformed with
  | some b => (.error b, busy)
  | none => match rs.findSome? (fun x => match x.2 with | .error b => some b | .ok _ => none) with
    | some b => (.error b, busy)
    | none => (.ok (fas.map (·.2)), busy)

/-- Issue a summary instruction: operand checks, the wait of an instruction that reads a QSK, and the queueing on the core's
summary unit; `what` gets the second object's fabric address. -/
def W.summary (w : W) (f : FSel) (k : SKind) (bads : List (Option Bad)) (fs : List VF) (objs : List Obj) (what : Nat → SumWhat) :
    WRes :=
  checked (firstBad (bads ++ objs.map (fun o => objBad o.j (BitVec.ofNat 64 o.va)) ++ [mooredBad w.t, w.selBad f])) <|
    if w.part = 0 then .done w.a []
    else if !w.arrived fs then .stay w.a .arrival
    else if w.flagFull f then .stay w.a .flagFull
    else w.ordered (fenceWait w.a w.t true) <|
      match w.readObjects k objs with
      | (_, true) => .stay w.a .summary
      | (.error b, _) => .bad b
      | (.ok fas, _) =>
        let qs := ((objs.zip fas).filter (fun x => decide (k = .qsk) && !decide (x.1.r = .w))).map (fun x => x.2)
        let o : SumOp := { id := w.a.nextId, uid := w.t.uid, ctx := w.t.ctx, core := w.t.coreKey, addr := fas.headD 0,
                           va := (objs.head?.map (·.va)).getD 0, what := what (fas.getD 1 0), read := tsets [] (qs.map (fun fa => (fa, mbytes w.mem fa k.size))),
                           badRead := (qs.flatMap (fun fa => granules fa k.size)).eraseDups.filter (isBad w.a), flag := (w.sel f).getD 0, tm := w.t.tm, pc := w.c.va w.c.pos,
                           word := w.c.words.getD w.c.pos 0, opidx := w.c.pos, part := w.part }
        .done { w.a.setThread (w.t.raiseSel (w.sel f)) with nextId := w.a.nextId + 1, sums := tset w.a.sums o.id o } []

/-- SKINIT (R412). -/
def execSkinit (h : Hd) (f : FSel) (kind : SKind) (coin : Coin) (a b : Opnd) (s : State) : Out :=
  runWord 10 .lg h s fun w =>
    w.summary f kind [srcU64 1 a, if decide (kind = .qsk) then srcU64 2 b else none] []
      [{ j := 1, va := (w.rs64 a).toNat, r := .w }] (fun _ => .init kind (w.rs64 b) coin)

/-- SKINS (R413). -/
def execSkins (h : Hd) (f : FSel) (kind : SKind) (w64 : Bool) (a b c : Opnd) (s : State) : Out :=
  runWord 10 .lg h s fun w =>
    let fs : List VF := [{ j := 2, o := b, n := if w64 then 2 else 1, dst := false }] ++
      (if decide (kind = .hhl) then [{ j := 3, o := c, n := 1, dst := false }] else [])
    let ls := Lanes.toList w.part
    let what : SumWhat := match kind with
      | .qsk => .insQ (ls.map (fun l => w.rd 2 b l))
      | .hhl => .insH (ls.map (fun l => w.rd 2 b l)) (ls.map (fun l => w.rd 3 c l))
      | .dcr => .insD (ls.map (fun l => if w64 then w.rd64 2 b l else (w.rd 2 b l).setWidth 64))
    w.summary f kind [srcU64 1 a, vecBad w fs] fs [{ j := 1, va := (w.rs64 a).toNat, r := .rdw }] (fun _ => what)

/-- SKMRG (R414). -/
def execSkmrg (h : Hd) (f : FSel) (kind : SKind) (a b : Opnd) (s : State) : Out :=
  runWord 10 .lg h s fun w =>
    w.summary f kind [srcU64 1 a, srcU64 2 b, overlapBad kind.size (w.rs64 a) (w.rs64 b)] []
      [{ j := 1, va := (w.rs64 a).toNat, r := .rdw }, { j := 2, va := (w.rs64 b).toNat, r := .rd }] (fun fb => .merge kind fb)

/-- A query with one value per lane: SKQUANT, SKRANK, SKPOINT. -/
def skQuery (k : SKind) (mk : Tab Nat → Tab W32 → SumWhat) (h : Hd) (f : FSel) (d a b : Opnd) (s : State) : Out :=
  runWord 10 .lg h s fun w =>
    let fb : VF := { j := 2, o := b, n := 1, dst := false }
    let ls := Lanes.toList w.part
    w.summary f k [srcU64 1 a, vecBad w [{ j := 0, o := d, n := 1, dst := true }, fb]] [fb]
      [{ j := 1, va := (w.rs64 a).toNat, r := .rd }]
      (fun _ => mk (ls.map (fun l => (l, w.destReg d l))) (ls.map (fun l => (l, w.rd 2 b l))))

/-- SKQUANT (R415). -/
def execSkquant (h : Hd) (f : FSel) (d a b : Opnd) (s : State) : Out := skQuery .qsk .quant h f d a b s
/-- SKRANK (R415). -/
def execSkrank (h : Hd) (f : FSel) (d a b : Opnd) (s : State) : Out := skQuery .qsk .rank h f d a b s
/-- SKPOINT (R416). -/
def execSkpoint (h : Hd) (f : FSel) (d a b : Opnd) (s : State) : Out := skQuery .hhl .point h f d a b s

/-- SKTOP (R416). -/
def execSktop (h : Hd) (f : FSel) (d a b : Opnd) (s : State) : Out :=
  runWord 10 .lg h s fun w =>
    w.summary f .hhl [srcU64 1 a, srcU 2 b, runBad w 0 d 2 1] [] [{ j := 1, va := (w.rs64 a).toNat, r := .rd }]
      (fun _ => .top (regNo d) (w.rs b).toNat w.part)

/-- SKEST (R417): a vector destination per lane, an s register once. -/
def execSkest (h : Hd) (f : FSel) (d a : Opnd) (s : State) : Out :=
  runWord 10 .lg h s fun w =>
    let bad := match d with | .s _ => none | _ => vecBad w [{ j := 0, o := d, n := 1, dst := true }]
    let reg := match d with
      | .s n => [(0, 0xC0 + n.val)]
      | _ => (Lanes.toList w.part).map (fun l => (l, w.destReg d l))
    w.summary f .dcr [srcU64 1 a, bad] [] [{ j := 1, va := (w.rs64 a).toNat, r := .rd }] (fun _ => .est reg)

/-! ## The summary unit (R186, R190) -/

/-- What an operation makes of the objects' bytes: the bytes to write, the register words, and the next free coin. -/
def sumEffect (what : SumWhat) (part : Lanes) (a b : List Byte) (hw : Nat) : Option (List Byte) × List (Nat × Nat × W32) × Nat :=
  match what with
  | .init k seed coin => (some (emptySummary k seed.toNat (match coin with | .det => 0 | .hw => 1 | .alt => 2)), [], hw)
  | .insQ vs => let s := vs.foldl (fun s v => s.insert v.toNat) (Qsk.ofBytes a hw); (some s.toBytes, [], s.hw)
  | .insH ks ws => (some ((Hhl.ofBytes a).insert ((ks.zip ws).map (fun p => (p.1.toNat, p.2.toNat)))).toBytes, [], hw)
  | .insD ks => (some (dcrBytes (ks.foldl (fun r k => dcrInsert r k.toNat) (dcrOf a))), [], hw)
  | .merge k _ => let r := mergeSummary k a b hw; (some r.1, [], r.2)
  | .quant reg q => (none, q.map (fun p => (tgetD reg p.1 0, p.1, BitVec.ofNat 32 ((Qsk.ofBytes a hw).quantile p.2.toNat))), hw)
  | .rank reg v => (none, v.map (fun p => (tgetD reg p.1 0, p.1, BitVec.ofNat 32 ((Qsk.ofBytes a hw).rank p.2.toNat))), hw)
  | .top reg base _ =>
    let r := (Hhl.ofBytes a).ranked
    (none, (Lanes.toList part).flatMap (fun l =>
      let x := r.getD (base + l) (0, 0)
      [(reg, l, BitVec.ofNat 32 x.1), (reg + 1, l, BitVec.ofNat 32 x.2)]), hw)
  | .point reg ks => (none, ks.map (fun p => (tgetD reg p.1 0, p.1, BitVec.ofNat 32 (tgetD (Hhl.ofBytes a).c p.2.toNat 0))), hw)
  | .est reg => (none, reg.map (fun p => (p.2, p.1, BitVec.ofNat 32 (dcrEstimate (dcrOf a)))), hw)

/-- The destination words of an operation (R418). -/
def SumOp.dests (o : SumOp) : List (List DestWord) :=
  let one (t : Tab Nat) : List (List DestWord) := [t.map (fun p => { reg := p.2, lane := p.1 })]
  match o.what with
  | .quant r _ => one r
  | .rank r _ => one r
  | .point r _ => one r
  | .est r => one r
  | .top reg _ _ => [reg, reg + 1].map (fun r => (Lanes.toList o.part).map (fun l => { reg := r, lane := l }))
  | _ => []

/-- The bytes of an object that an operation reads: a QSK as it was checked (R168, R187, R410), another as it stands. -/
def SumOp.bytesAt (o : SumOp) (mem : Memory) (fa : Nat) : List Byte := (tget o.read fa).getD (mbytes mem fa o.what.kind.size)

/-- The uncorrectable granules that an operation's reads meet. -/
def SumOp.badGranules (o : SumOp) (a : Arch) : List Nat :=
  if o.read.isEmpty then (o.reads.flatMap (fun fa => granules fa o.what.kind.size)).eraseDups.filter (isBad a) else o.badRead

/-- An operation has written its object: the object's errors go, no release's value stands there (R122), and the lines of its aperture grow
old, those that serve the wave being dropped, for the write is the wave's own (R131, R411). -/
def SumOp.wrote (o : SumOp) (a : Arch) : Arch :=
  let n := o.what.kind.size
  let a := forgetRels (ageRun a o.ctx o.va o.addr n) [(o.addr, n)]
  let node := 64 * (o.core / 192)
  { a with bad := (granules o.addr n).foldl (fun b g => tdel b g) a.bad,
           lines := a.lines.filter (fun p =>
             !((lineNode p.1 == node + 63 || lineNode p.1 == node + o.core % 192 / 6) && runsMeet p.2.base 128 o.addr n)) }

/-- Perform one summary instruction (R411, R418). -/
def performSum (a : Arch) (mem : Memory) (time : Nat) (o : SumOp) : Arch × Writes :=
  let n := o.what.kind.size
  let a := { a with sums := tdel a.sums o.id }
  let bads := o.badGranules a
  if bads.isEmpty then
    let b := match o.what with | .merge _ fb => o.bytesAt mem fb | _ => []
    let r := sumEffect o.what o.part (o.bytesAt mem o.addr) b a.free
    let a := { a with free := r.2.2 }
    let a := a.modThread o.uid (fun t => r.2.1.foldl (fun t p => t.setRegAt o.tm p.1 p.2.1 p.2.2) t)
    let a := if r.1.isSome then o.wrote a else a
    (a.lowerFlag o.uid (some o.flag) o.tm, match r.1 with | some bs => [(o.addr, bs)] | none => [])
  else
    let g := bads.headD 0
    let x := (o.reads.find? (fun fa => (granules fa n).contains g)).getD o.addr
    let t := a.thread o.uid
    let pkg := (t.map (·.unit.pkg)).getD (o.core / 192)
    let a := bads.foldl (fun a g =>
      a.event time pkg 7 ((t.map (·.ctx)).getD 0) 3 (g * 64) ((t.map (·.waveid.toNat)).getD 0xFFFFFF)) a
    let a := a.modThread o.uid (fun t => o.dests.flatten.foldl (fun t d => t.setRegAt o.tm d.reg d.lane 0) t)
    let r : TrapRec :=
      { cls := .error, opidx := o.opidx, kinds := 0, kind := 0, mask := o.part, pc := o.pc, addr := BitVec.ofNat 64 (o.va + x - o.addr),
        synd := BitVec.ofNat 64 (3 + 16 + min 255 bads.length * 256), word := BitVec.ofNat 64 o.word,
        faddr := BitVec.ofNat 64 (g * 64), time := refTimer a time pkg, dests := o.dests }
    ((a.pend o.uid r).lowerFlag o.uid (some o.flag) o.tm, [])

/-- Whether an operation may be performed: its wave's earlier accesses to the object and earlier acquires are (R120, R411), and so are the
writes that a release has passed to the wave (R123) and a half-performed atomic on the object (R129). -/
def sumReady (a : Arch) (o : SumOp) : Bool :=
  let n := o.what.kind.size
  !((tvals a.ops).any (fun x => x.uid == o.uid && decide (x.id < o.id) && x.reqs.any (fun r => x.waits r && (x.acq || (x.touches r).any (fun p =>
    !p.md && (o.addr :: o.reads).any (fun fa => runsMeet p.addr p.len fa n)))))) &&
  !(o.addr :: o.reads).any (fun fa => heldSeen a o.uid o.id [] false fa n) &&
  !writeShut a (insideUnit a o.uid) o.addr n && !berthStill a (o.core / 192) (o.core % 192 / 48)

/-- SUMMARY_INSTRUCTION_COMPLETE: the core's summary unit performs its oldest instruction. -/
def execSummaryInstructionComplete (core : Nat) (s : State) : Out :=
  runEvent s fun a mem time =>
    match (tvals a.sums).find? (fun o => o.core == core) with
    | none => (a, [])
    | some o => if sumReady a o then performSum a mem time o else (a, [])

end Sys2Proof.Machine
end

