-- ==== Sys2Proof/Machine/Hier.lean ====
section
/-! DEFINITION. Launching, joining, level barriers, multicast copies, spawns and fetch-work (spec/21 R362 to R374, R380, R381;
spec/01 R28 to R40; spec/03 R61 to R70). -/

namespace Sys2Proof

/-- The level below. -/
def Level.below (l : Level) : Level := Level.ofCode (l.code - 1)

end Sys2Proof

namespace Sys2Proof.Machine

/-! ## New threads -/

/-- A thread at its creation (R258, R297): every register 0 but those that its creator gives (DEDUCED, log 68). -/
def Thread.blank (uid ctx : Nat) (lv : Level) (u : UnitId) (tree : Nat) (parent : Option Nat) (launch pc : Nat) (live : Lanes)
    (prio : Nat) : Thread :=
  { uid := uid, ctx := ctx, level := lv, tree := tree, parent := parent, launch := launch, tile := 0, ntiles := 0, desc := 0,
    unit := u, slot := 0, waveid := 0xFFFFFF, wavegen := 0, crew := 0, wnum := 0, role := 0, spawned := false, alloc := 0,
    age := uid, phase := .active, regs := Regs.zero, sr := { SRegs.zero with prio := prio },
    front := [{ pc := pc, prio := none, lanes := live, pass := 0 }], clause := none, wait := none, tm := false, halted := false, haltPc := 0,
    bank := [], record := none, frozen := none, tmCounts := [], pend := [], repl := none, barGen := [],
    redSeq := [], pbar := [], spec := Spec.closed, lastPage := [], promoted := false, yielded := false, fences := [],
    saved := false, aborted := false, eligible := 0, mig := none, drained := 0 }

/-- A frame (R367): ARG in s0 and s1, its tile and tile count. -/
def mkFrame (uid ctx : Nat) (u : UnitId) (tree : Nat) (parent : Option Nat) (launch tile n desc pc : Nat) (arg : W64)
    (prio : Nat) (ph : Phase) (gens : Tab Nat) : Thread :=
  let t := Thread.blank uid ctx u.level u tree parent launch pc 1 prio
  { t.setS64 0 arg with tile := tile, ntiles := n, desc := desc, phase := ph, barGen := gens }

/-- Frames in the pending queue of a sequencer (R19). -/
def pendingOn (a : Arch) (u : UnitId) : Nat :=
  ((tvals a.threads).filter (fun t => !t.isWave && decide (t.phase = .pending) && decide (t.unit = u))).length

/-- Whether the work distributor holds frames for a sequencer (R29). -/
def heldFor (a : Arch) (u : UnitId) : Bool :=
  (tvals a.threads).any (fun t => decide (t.phase = .held) && decide (t.unit = u))

/-- Whether a unit may hold frames of a context's world (R29, R439). -/
def unitTakes (a : Arch) (ctx : Nat) (world : Bool) (u : UnitId) : Bool :=
  unitExists a u && (match unitWorld a u with | some w => w == world | none => true) && (a.ctx u.pkg ctx).isSome

/-! ## Reading at issue -/

/-- The record of an uncorrectable granule that a word meets at issue (R213, R216). -/
def W.errorRecord (w : W) (va fa grade count : Nat) : TrapRec :=
  { cls := .error, opidx := w.c.pos, kinds := 0, kind := 0, mask := w.part, pc := w.c.va w.c.pos, addr := BitVec.ofNat 64 va,
    synd := BitVec.ofNat 64 ((faPlace fa).mem + grade * 16 + min 255 count * 256),
    word := BitVec.ofNat 64 (w.c.words.getD w.c.pos 0), faddr := BitVec.ofNat 64 (fa / 64 * 64),
    time := refTimer w.a w.time w.t.unit.pkg, dests := [] }

/-- Read `n` bytes at a VA as a load at issue (R366, R406): the bytes, or none when a granule is uncorrectable, with its event
and the pending ERROR trap. -/
def W.readIssue (w : W) (a : Arch) (va n : Nat) : Except Bad (Arch × Option (List Byte)) :=
  let r := gather a w.mem w.time w.t .rd n (fun _ _ => none) [(0, va)]
  match gatherBad r.2.1 (some w.part) false n with
  | some b => .error b
  | none =>
    let bad := r.1.flatMap (fun p => (granules p.x.fa p.len).filter (isBad r.2.2) |>.map (fun g => (g, attrGrade p.x.attr)))
    match bad with
    | [] => .ok (r.2.2, some (r.1.flatMap (fun p => mbytes w.mem p.x.fa p.len)))
    | (g, grade) :: _ =>
      let a := bad.foldl (fun a x => a.event w.time (faPkg (x.1 * 64)) 7 w.t.ctx (faPlace (x.1 * 64)).mem (x.1 * 64) w.t.eventId) r.2.2
      .ok (a.pend w.t.uid (w.errorRecord va (g * 64) grade bad.length), none)

/-! ## LAUNCH (R364 to R368) -/

/-- A launch descriptor (R364). -/
structure LDesc where
  ver : Nat
  count : Nat
  pc : Nat
  arg : Nat
  mask : Nat
  spad : Nat
  base : Nat
  vregs : Nat
  acc : Nat
  nbar : Nat
  ncv : Nat
  nq : Nat
  rsv : Bool
  upper : Bool

/-- Read a descriptor's fields; `rsv` and `upper` say that its reserved bytes, and bytes 32 to 44, are zero. -/
def LDesc.of (b : List Byte) : LDesc :=
  { ver := numAt b 0 1, count := numAt b 4 4, pc := numAt b 8 8, arg := numAt b 16 8, mask := numAt b 24 8, spad := numAt b 32 4,
    base := numAt b 36 4, vregs := numAt b 40 1, acc := numAt b 41 1, nbar := numAt b 42 1, ncv := numAt b 43 1,
    nq := numAt b 44 1, rsv := allZero ((b.drop 1).take 3) && allZero (b.drop 45), upper := allZero ((b.drop 32).take 13) }

/-- A role entry of a gang block (R61), and whether it is well formed (R62). -/
def roleOf (b : List Byte) (i : Nat) : RoleDesc × Bool :=
  let lo := numAt b (16 + 16 * i) 8
  let hi := numAt b (24 + 16 * i) 8
  let r : RoleDesc := { waves := hi / 2 ^ 32 % 256, vregs := hi / 2 ^ 16 % 256, pc := lo % 2 ^ 56 }
  (r, lo / 2 ^ 56 == 0 && hi % 2 ^ 16 == 0 && hi / 2 ^ 24 % 256 == 0 && hi / 2 ^ 40 == 0 && decide (r.waves ≤ 32) &&
    (r.waves == 0 || (decide (8 ≤ r.vregs) && decide (r.vregs ≤ 192) && r.vregs % 8 == 0 && r.pc % 8 == 0)))

/-- A failed descriptor check: operand 5. -/
def descBad (cause v : Nat) : Option Bad := some (operandBad 5 cause 0 (BitVec.ofNat 64 v))

/-- A check with its cause and offending value. -/
def need (ok : Bool) (cause v : Nat) : Option Bad := if ok then none else descBad cause v

/-- The ordinary wave slots of a core that a context may fill (R78). -/
def slotCap (a : Arch) (pkg core ctx : Nat) : Nat :=
  match a.pairs.find? (fun p => p.cores.contains (192 * pkg + core)) with
  | none => 48
  | some p => if ctx = p.a then p.slotsA else if ctx = p.b then p.slotsB else 48 - p.slotsA - p.slotsB

/-- The gang roles of a launch, or its one role. -/
def launchRoles (d : LDesc) (gang : Option (List Byte)) : List RoleDesc :=
  match gang with
  | some g => [(roleOf g 0).1, (roleOf g 1).1, (roleOf g 2).1]
  | none => [{ waves := d.count, vregs := d.vregs, pc := d.pc }]

def rolesWaves (rs : List RoleDesc) : Nat := rs.foldl (fun n r => n + r.waves) 0
def rolesRegs (rs : List RoleDesc) : Nat := rs.foldl (fun n r => n + r.waves * r.vregs) 0

/-- PC and VREGS of a LAUNCH.GANG are zero (R364, R366). -/
def gangDescBad (d : LDesc) : Option Bad := firstBad [need (d.vregs == 0) 5 d.vregs, need (d.pc == 0) 5 d.pc]

/-- The conditions of a gang block (R62). -/
def gangBlockBad (d : LDesc) (g : List Byte) : Option Bad :=
  let n := rolesWaves (launchRoles d (some g))
  firstBad [need (numAt g 0 1 == 1) 5 (numAt g 0 1), need (allZero ((g.drop 1).take 15)) 5 0,
    need ((roleOf g 0).2) 5 0, need ((roleOf g 1).2) 5 0, need ((roleOf g 2).2) 5 0,
    need (!((roleOf g 0).1.waves == 0)) 5 0, need (n == d.count) 5 n]

/-- The checks of a CORE launch's descriptor (R366); `gang` says that a gang block follows it. -/
def crewDescBad (d : LDesc) (gang : Bool) : Option Bad :=
  let range (ok : Bool) (v : Nat) : Option Bad := need ok 5 v
  firstBad [
    need (d.pc % 8 == 0) 6 d.pc,
    need (d.base == 0xFFFFFFFF || (d.base % 4096 == 0 && decide (d.base + d.spad ≤ 0x170000))) 6 d.base,
    range (d.ver == 1) d.ver, range (decide (1 ≤ d.count) && decide (d.count ≤ 32)) d.count, range d.rsv 0,
    range (d.mask == 0) d.mask, range (d.spad % 4096 == 0 && decide (d.spad ≤ 0x170000)) d.spad,
    if gang then gangDescBad d else range (decide (8 ≤ d.vregs) && decide (d.vregs ≤ 192) && d.vregs % 8 == 0) d.vregs,
    range (decide (d.acc ≤ 16)) d.acc, range (decide (d.nbar ≤ 16)) d.nbar, range (decide (d.ncv ≤ 8)) d.ncv,
    range (decide (d.nq ≤ 4)) d.nq]

/-- The checks of a CORE launch (R62, R366): its descriptor, its gang block, and the registers of the crew. -/
def crewBad (d : LDesc) (gang : Option (List Byte)) : Option Bad :=
  let rs := launchRoles d gang
  firstBad [crewDescBad d gang.isSome, gang.bind (gangBlockBad d), need (decide (rolesRegs rs ≤ 3072)) 5 (rolesRegs rs)]

/-- The width of a child mask below POD (R37, R372). -/
def maskWidth : Level → Nat
  | .core => 32 | .clu => 6 | .die => 8 | .pkg => 4 | _ => 1024

/-- Child unit `j` of a unit (R16); at POD, the package sequencer of package `j`. -/
def childUnit (u : UnitId) (j : Nat) : UnitId :=
  match u.level with
  | .clu => { level := .core, pkg := u.pkg, idx := 6 * u.idx + j }
  | .die => { level := .clu, pkg := u.pkg, idx := 8 * u.idx + j }
  | .pkg => { level := .die, pkg := u.pkg, idx := j }
  | _ => { level := .pkg, pkg := j, idx := 0 }

/-- The children that a mask chooses, ascending. -/
def chosen (mask width : Nat) : List Nat := (List.range width).filter (fun j => bitAt mask j)

/-- The checks of a placement mask (R29). -/
def placeBad (w : W) (u : UnitId) (mask : Nat) : Option Bad :=
  let ks := chosen mask (maskWidth u.level)
  firstBad [need (!(mask == 0)) 5 mask, need (mask / 2 ^ maskWidth u.level == 0) 5 mask,
    need (ks.all (fun j => unitTakes w.a w.t.ctx (w.a.ctxWorld w.t.unit.pkg w.t.ctx) (childUnit u j))) 5 mask]

/-- The checks of the descriptor of a launch above CORE (R366); those of a LAUNCH.GANG hold at every level (DEDUCED, log 31). -/
def framesDescBad (w : W) (d : LDesc) (gang : Bool) : Option Bad :=
  firstBad [need (d.pc % 8 == 0) 6 d.pc, if w.t.level = .pod then need (d.mask % 64 == 0) 6 d.mask else none,
    need (d.ver == 1) 5 d.ver, need (decide (1 ≤ d.count) && decide (d.count ≤ 65535)) 5 d.count, need d.rsv 5 0,
    need d.upper 5 0, if w.t.level = .pod then none else placeBad w w.t.unit d.mask,
    if gang then gangDescBad d else none]

/-- The checks of a launch above CORE (R366). -/
def framesBad (w : W) (d : LDesc) (gang : Option (List Byte)) : Option Bad :=
  firstBad [framesDescBad w d gang.isSome, gang.bind (gangBlockBad d)]

/-- Create the child frames of a launch (R29, R367). -/
def createFrames (w : W) (a : Arch) (va : Nat) (d : LDesc) (mask : Nat) : Arch :=
  let ks := chosen mask (maskWidth w.t.level)
  let m := ks.length
  let us := ks.map (childUnit w.t.unit)
  let room := us.map (fun u => if heldFor a u then 0 else 64 - pendingOn a u)
  let id := a.nextId
  let proto := Thread.blank id w.t.ctx w.t.level.below w.t.unit w.t.tree (some w.t.uid) id d.pc 1 w.t.sr.prio
  let gens := initGens a proto
  let kids := (List.range d.count).map (fun i =>
    (id + 1 + i, mkFrame (id + 1 + i) w.t.ctx (us.getD (i % m) w.t.unit) w.t.tree (some w.t.uid) id i d.count va d.pc
      (BitVec.ofNat 64 d.arg) w.t.sr.prio (if i / m < room.getD (i % m) 0 then .pending else .held) gens))
  { a with nextId := id + 1 + d.count, threads := tsets a.threads kids }

/-- Create a crew, waiting (R368). -/
def createCrew (w : W) (a : Arch) (d : LDesc) (gang : Option (List Byte)) : Arch :=
  let id := a.nextId
  let c : Crew :=
    { id := id, core := w.t.unit.idx, pkg := w.t.unit.pkg, num := 0, ctx := w.t.ctx, tree := w.t.tree, parent := w.t.uid,
      launch := id, order := id, started := false, arg := BitVec.ofNat 64 d.arg, roles := launchRoles d gang,
      gang := gang.isSome, spadReq := d.base, base := 0, size := d.spad, acc := d.acc, nbar := d.nbar, ncv := d.ncv,
      nq := d.nq, count := d.count, live := 0, bars := [], cvs := [], streams := [], chans := [], tiles := [], shadows := [],
      badRows := [], latchA := Frag.empty, latchB := Frag.empty, shadowOwner := [], out := false }
  { a with nextId := id + 1, crews := tset a.crews id c }

/-- Crews that wait on a core (R368). -/
def waitingCrews (a : Arch) (pkg core : Nat) : List Crew :=
  (tvals a.crews).filter (fun c => !c.started && c.pkg == pkg && c.core == core)

/-- A LAUNCH whose descriptor has been read. -/
def launchWith (w : W) (a : Arch) (va : Nat) (d : LDesc) (gang : Option (List Byte)) : WRes :=
  if w.t.level = .core then
    checked (crewBad d gang) <|
      if 8 ≤ (waitingCrews a w.t.unit.pkg w.t.unit.idx).length then .stay w.a .launch
      else .done (createCrew w (releaseAt a w.t w.t.level) d gang) []
  else
    checked (framesBad w d gang) <|
      if w.t.level = .pod then
        match w.readIssue a d.mask 128 with
        | .error b => .bad b
        | .ok (a, none) => .done a []
        | .ok (a, some s) => checked (placeBad w w.t.unit (leVal s)) (.done (createFrames w (releaseAt a w.t w.t.level) va d (leVal s)) [])
      else .done (createFrames w (releaseAt a w.t w.t.level) va d d.mask) []

/-- LAUNCH of either form. -/
def launchWord (gang : Bool) (h : Hd) (lvl : LvlCode) (o : Opnd) (s : State) : Out :=
  runWord 7 .seq h s fun w =>
    let l := w.a.resolve w.t lvl
    let va := (w.rs64 o).toNat
    checked (firstBad [if l = w.t.level then none else descBad 10 l.code, srcU64 1 o, need (va % 64 == 0) 6 va]) <|
      if w.part = 0 then .done w.a []
      else w.ordered (ownPending w.a w.t.uid || fenceWait w.a w.t false || passedPending w.a w.t.uid w.a.nextId) <|
        match w.readIssue w.a va 64 with
        | .error b => .bad b
        | .ok (a, none) => .done a []
        | .ok (a, some d) =>
          if gang then
            match w.readIssue a (va + 64) 64 with
            | .error b =>
              .bad (((if w.t.level = .core then crewDescBad (LDesc.of d) true else framesDescBad w (LDesc.of d) true)).getD b)
            | .ok (a, none) => .done a []
            | .ok (a, some g) => launchWith w a va (LDesc.of d) (some g)
          else launchWith w a va (LDesc.of d) none

/-- LAUNCH (R367). -/
def execLaunch (h : Hd) (lvl : LvlCode) (a : Opnd) (s : State) : Out := launchWord false h lvl a s
/-- LAUNCH.GANG (R61, R62, R367). -/
def execLaunchGang (h : Hd) (lvl : LvlCode) (a : Opnd) (s : State) : Out := launchWord true h lvl a s

/-! ## JOIN and BAR (R32 to R35, R369, R370) -/

/-- A level operand out of range. -/
def levelBad (l : Level) : Bad := operandBad 4 10 0 (BitVec.ofNat 64 l.code)

/-- Whether children that a frame launched have not retired (R32). -/
def launchedLeft (a : Arch) (u : Nat) : Bool :=
  (tvals a.threads).any (fun t => decide (t.parent = some u) && !t.spawned) ||
  (tvals a.crews).any (fun c => c.parent == u && !c.started)

/-- JOIN. -/
def execJoin (h : Hd) (lvl : LvlCode) (s : State) : Out :=
  runWord 7 .seq h s fun w =>
    let l := w.a.resolve w.t lvl
    checked (if l = w.t.level then none else some (levelBad l)) <|
      if w.part = 0 then .done w.a []
      else if launchedLeft w.a w.t.uid then .stay w.a .join
      else .done (acquireAt w.a w.t l) []

/-- BAR: a release at L on arrival, an acquire at L on completion (R46). -/
def execBar (h : Hd) (lvl : LvlCode) (s : State) : Out :=
  runWord 7 .any h s fun w =>
    let l := w.a.resolve w.t lvl
    checked (if w.t.level.code ≤ l.code ∧ l.code ≤ (w.a.rootLevel w.t).code then none else some (levelBad l)) <|
      if w.part = 0 then .done w.a []
      else match w.t.wait with
        | some (.bar c g) =>
          if c = l.code ∧ w.t.gen l = g then .stay w.a (.bar c g) else .done (acquireAt w.a w.t l) []
        | _ =>
          w.ordered (ownPending w.a w.t.uid) <|
            let g := w.t.gen l
            let a := barCheck ((releaseAt w.a w.t l).modThread w.t.uid (fun t => { t with wait := some (.bar l.code g) })) w.t.uid l
            if ((a.thread w.t.uid).map (fun t => t.gen l)) = some g then .stay a (.bar l.code g)
            else .done (acquireAt a w.t l) []

/-! ## MCOPY (R37 to R40, R371 to R374) -/

/-- The crew that an MCOPY at CORE uses (R372): the wave's own, or one that the frame launched. -/
def W.mcopyCrew (w : W) (num : Nat) : Option Crew :=
  if w.t.isWave then w.a.crew w.t.crew
  else (tvals w.a.crews).find? (fun c => c.parent == w.t.uid && c.started && c.num == num)

/-- The waves of a crew that a mask chooses, by wave number. -/
def crewWaves (a : Arch) (crew mask : Nat) : List (Nat × Thread) :=
  (chosen mask 32).filterMap (fun j =>
    ((tvals a.threads).find? (fun t => t.isWave && t.crew == crew && t.wnum == j)).map (fun t => (j, t)))

/-- The parent end of an MCOPY or the destination of a REDUCE above LG, in the form of its memory (R371); none is cause 6. -/
def levelEnd (a : Arch) (g : Agent) (l : Level) (x : Nat) : Option End :=
  let win (base size : Nat) : Option End := if x < size then some (.va g (0x7F000000000000 + base + x)) else none
  match l with
  | .core => win 0 0x170000
  | .clu => win 0x1000000 0x800000
  | .die => match g.die with
    | some b => win 0x10000000 (0x10000000 - (a.berth g.wpkg b).area * 0x100000)
    | none => none
  | .pkg => if x / 2 ^ 48 < 0x7F then some (.va { g with pkg := g.wpkg } x) else none
  | .pod => if 2 ^ 55 ≤ x ∧ x < 2 ^ 56 then some (.va g x) else none
  | .lg => none

/-- The end of chosen child `j` of an MCOPY at level CLU to POD. -/
def childEnd (a : Arch) (g : Agent) (u : UnitId) (j x : Nat) : Option End :=
  match u.level with
  | .clu => if x < 0x170000 then some (.spad u.pkg (6 * u.idx + j) x g.ctx) else none
  | .die => levelEnd a { g with clu := some (8 * u.idx + j) } .clu x
  | .pkg => levelEnd a { g with die := some j } .die x
  | _ => levelEnd a { g with pkg := j, wpkg := j } .pkg x

/-- A leg between the parent end at `poff` and a child end. -/
def mcopyLeg (up : Bool) (parent child : End) (poff n rank : Nat) (wave : Option Nat) : Leg :=
  let p := match parent with | .va g x => End.va g (x + poff) | e => e
  { src := if up then child else p, dst := if up then p else child, size := n, done := 0, rank := rank, wave := wave }

/-- The unit whose children an MCOPY at level `l` chooses (R37). -/
def W.mcopyUnit (w : W) (l : Level) : UnitId := scopeUnit w.a w.t l

/-- The checks of a child mask at CLU to POD (R372). -/
def W.childBad (w : W) (l : Level) (mask : Nat) : Option Bad :=
  let u := w.mcopyUnit l
  let v := some (operandBad 3 5 0 (BitVec.ofNat 64 mask))
  let ks := chosen mask (maskWidth l)
  firstBad [
    if mask = 0 then v else none, if mask / 2 ^ maskWidth l = 0 then none else v,
    if (w.a.rootLevel w.t).code < l.code then
      (if ks.all (fun j => decide (childUnit u j = w.mcopyUnit l.below)) then none else v) else none,
    if ks.all (fun j => unitTakes w.a w.t.ctx (w.a.ctxWorld w.t.unit.pkg w.t.ctx) (childUnit u j)) then none else v]

/-- The size and alignment checks of R38 and R39. -/
def mcopySize (l : Level) (size pa ca : Nat) : Option Bad :=
  let b (j v : Nat) : Option Bad := some (operandBad j 6 0 (BitVec.ofNat 64 v))
  firstBad [if size % 16 = 0 ∧ 16 ≤ size ∧ size ≤ 2 ^ 28 then none else b 2 size,
    if l = .core ∧ ¬ size % 128 = 0 then b 2 size else none, if pa % 16 = 0 then none else b 1 pa,
    if l = .core ∨ ca % 16 = 0 then none else b 1 ca]

/-- Put an MCOPY to its engine: flags of the issuer and, at CORE, of the chosen waves (R373). -/
def W.startMcopy (w : W) (a : Arch) (up : Bool) (l : Level) (m : MMod) (d : Opnd) (bar : Option Nat) (crew : Option Nat)
    (legs : List Leg) : WRes :=
  let g := agentOf a w.t
  let c := { w.mkCmd (.mcopy l up) m.fsel m legs (statusReg d) bar with
             id := a.nextId, ag := { g with crew := crew.orElse (fun _ => g.crew) } }
  let a := match c.flag with
    | some k => (legs.filterMap (fun (x : Leg) => x.wave)).foldl (fun (a : Arch) u => a.modThread u (fun t => t.setF k (t.getF k + 1))) a
    | none => a
  .done { a.modThread w.t.uid (fun t => t.raiseSel c.flag) with nextId := a.nextId + 1, cmds := tset a.cmds c.id c } []

/-- Whether a chosen wave's flag stands at 63 (R105). -/
def W.wavesFull (w : W) (f : FSel) (ts : List (Nat × Thread)) : Bool :=
  match w.sel f with
  | none => false
  | some k => ts.any (fun p => decide (63 ≤ p.2.getF k))

/-- The handles that an MCOPY names (R255, R363, R372, R373): its flag, its crew at CORE, and its barrier. -/
def W.mcopyHandles (w : W) (up : Bool) (l : Level) (m : MMod) (bar : Option Nat) (num : Nat) : Option Bad :=
  let crewBad : Option Bad := some (operandBad 4 3 0 (BitVec.ofNat 64 num))
  let barBad (b : Nat) : Option Bad := some (operandBad 4 3 0 (BitVec.ofNat 64 b))
  firstBad [w.selBad m.fsel, if w.t.isWave ∧ ¬ num = 0 then crewBad else none,
    if l = .core then (if (w.mcopyCrew num).isSome then none else crewBad) else none,
    match bar with
      | none => none
      | some b =>
        if l = .core then (if !up then barBad b else match w.mcopyCrew num with
          | some c => if b < c.nbar then none else barBad b
          | none => none)
        else if l = .clu ∧ up = false then none else barBad b]

/-- MCOPY at CORE (R39). -/
def W.mcopyCore (w : W) (up : Bool) (m : MMod) (bar : Option Nat) (num : Nat) (d : Opnd) (pa ca size mask : Nat) : WRes :=
  match w.mcopyCrew num with
  | none => .bad (operandBad 4 3 0 (BitVec.ofNat 64 num))
  | some c =>
    let ts := crewWaves w.a c.id mask
    let g := { agentOf w.a w.t with crew := some c.id }
    match levelEnd w.a g .core pa with
    | none => .bad (operandBad 1 6 0 (BitVec.ofNat 64 pa))
    | some p =>
      checked (firstBad [
          mcopySize .core size pa ca,
          if ca < 192 ∧ ts.all (fun x => decide (ca + size / 128 ≤ x.2.alloc)) = true then none
            else some (operandBad 1 6 0 (BitVec.ofNat 64 ca)),
          if mask = 0 ∨ ¬ mask / 2 ^ 32 = 0 ∨ ts.length < (chosen mask 32).length then
            some (operandBad 3 5 0 (BitVec.ofNat 64 mask)) else none]) <|
        if w.part = 0 then .done w.a []
        else if w.flagFull m.fsel || w.wavesFull m.fsel ts then .stay w.a .flagFull
        else w.ordered (fenceWaitPath w.a w.t false) <|
          w.startMcopy w.a up .core m d bar (some c.id)
            ((List.range ts.length).zip ts |>.map (fun x =>
              mcopyLeg up p (.regs x.2.2.uid ca) (if up then x.1 * size else 0) size (x.1 + 1) (some x.2.2.uid)))

/-- The legs of an MCOPY at CLU to POD. -/
def W.mcopyLegs (w : W) (up : Bool) (l : Level) (g : Agent) (p : End) (ca size mask : Nat) : List Leg :=
  let ks := chosen mask (maskWidth l)
  (List.range ks.length).zip ks |>.filterMap (fun x =>
    (childEnd w.a g (w.mcopyUnit l) x.2 ca).map (fun e => mcopyLeg up p e (if up then x.1 * size else 0) size (x.1 + 1) none))

/-- MCOPY at CLU to POD. -/
def W.mcopyUnits (w : W) (up : Bool) (l : Level) (m : MMod) (bar : Option Nat) (d : Opnd) (pa ca size mask : Nat) : WRes :=
  let g := agentOf w.a w.t
  let form (l : Level) (x : Nat) : Option Bad :=
    if (if l = .pod then [0] else chosen mask (maskWidth l)).all (fun j => (childEnd w.a g (w.mcopyUnit l) j x).isSome) then none
    else some (operandBad 1 6 0 (BitVec.ofNat 64 x))
  match levelEnd w.a g l pa with
  | none => .bad (operandBad 1 6 0 (BitVec.ofNat 64 pa))
  | some p =>
    checked (firstBad [
        mcopySize l size pa ca, form l ca,
        if l = .pod then (if mask % 64 = 0 then none else some (operandBad 3 6 0 (BitVec.ofNat 64 mask))) else w.childBad l mask]) <|
      if w.part = 0 then .done w.a []
      else if w.flagFull m.fsel then .stay w.a .flagFull
      else w.ordered (fenceWaitPath w.a w.t false) <|
        if l = .pod then
          w.ordered (ownPending w.a w.t.uid || passedPending w.a w.t.uid w.a.nextId) <|
            match w.readIssue w.a mask 128 with
            | .error b => .bad b
            | .ok (a, none) => .done a []
            | .ok (a, some s) => checked (w.childBad .pod (leVal s)) <|
                w.startMcopy a up l m d bar none (w.mcopyLegs up l g p ca size (leVal s))
        else w.startMcopy w.a up l m d bar none (w.mcopyLegs up l g p ca size mask)

/-- MCOPY of either direction. -/
def mcopyWord (up : Bool) (h : Hd) (m : MMod) (bar : Nat) (be : Bool) (crew : Nat) (d a b c : Opnd) (s : State) : Out :=
  runWord 7 .any h s fun w =>
    let l := w.a.resolve w.t m.lvl
    let q := regNo a
    let pa := (pair64 (w.t.getS q) (w.t.getS (q + 1))).toNat
    let ca := (pair64 (w.t.getS (q + 2)) (w.t.getS (q + 3))).toNat
    let size := (w.rs b).toNat
    let mask := (w.rs64 c).toNat
    let bar := if be then some bar else none
    checked (firstBad [if l = .lg ∨ l.code < w.t.level.code then some (levelBad l) else none, w.mcopyHandles up l m bar crew,
        dstS 1 d, srcRunS 1 4 a, srcU 2 b, srcU64 3 c]) <|
      if l = .core then w.mcopyCore up m bar crew d pa ca size mask
      else w.mcopyUnits up l m bar d pa ca size mask

/-- MCOPY.DOWN. -/
def execMcopyDown (h : Hd) (m : MMod) (bar : Fin 16) (be : Bool) (crew : Fin 8) (d a b c : Opnd) (s : State) : Out :=
  mcopyWord false h m bar.val be crew.val d a b c s
/-- MCOPY.UP. -/
def execMcopyUp (h : Hd) (m : MMod) (bar : Fin 16) (be : Bool) (crew : Fin 8) (d a b c : Opnd) (s : State) : Out :=
  mcopyWord true h m bar.val be crew.val d a b c s

/-- The end of an MCOPY (R374): its release, the lowest-ranked failure as its status, and its arrivals. -/
def endMcopy (a : Arch) (c : Cmd) (_stat _kind : Nat) : Arch :=
  let c' := match c.kind with
    | .mcopy .clu false => { c with bar := none }
    | _ => c
  let a := cmdRelease a c
  let a := match c.bar with
    | some b => c.arrive.foldl (fun a k => a.engineArrive k b) a
    | none => a
  endCmd a { c' with rel := false } c.statCode c.kindCode

/-- MCOPY_COMPLETE. -/
def execMcopyComplete (cmd : Nat) (s : State) : Out :=
  runEvent s fun a mem time => match tget a.cmds cmd with
    | none => (a, [])
    | some c => match c.kind with
      | .mcopy .. => runCmd a mem time c endMcopy
      | _ => (a, [])

/-! ## SPAWN (R64 to R66, R380) -/

/-- The key of a punnet: 32 × (192 × package + core) + number. -/
def punnetKey (pkg core n : Nat) : Nat := 32 * (192 * pkg + core) + n
def punnetAt (a : Arch) (pkg core n : Nat) : Punnet :=
  tgetD a.punnets (punnetKey pkg core n) { state := .empty, crew := 0, pc := 0, recs := [], deadline := 0, alloc := 0 }

/-- Whether a core drains a context, has saved it, or restores it: its launches are held and its timers frozen (R75). -/
def draining (a : Arch) (pkg core ctx : Nat) : Bool :=
  (tvals a.pres).any (fun p => p.pkg == pkg && p.ctx == ctx && p.cores.contains core &&
    !(p.resume && p.saved.contains core)) ||
  a.images.any (fun g => g.pkg == pkg && g.core == core && g.ctx == ctx && g.out)

/-- Whether a core writes a context's image or restores it: none of the context's waves there issues (R75, R202). -/
def busyOn (a : Arch) (pkg core ctx : Nat) : Bool :=
  (tvals a.pres).any (fun p => p.pkg == pkg && p.ctx == ctx && p.busy.contains core)

/-- The cycle count at which a timer started now falls due; frozen timers hold what is left (R75). -/
def punnetDue (a : Arch) (pkg core ctx : Nat) : Nat :=
  let period := tgetD a.pntimer (192 * pkg + core) 256
  if draining a pkg core ctx then period else (a.berth pkg (core / 48)).cycles + period

/-- Place one lane's record: the architecture, or none when the SPAWN stalls (R65). -/
def placeRecord (a : Arch) (c : Crew) (pc alloc : Nat) (rec : List W32) : Option Arch :=
  let ns := List.range 32
  let put (n : Nat) (p : Punnet) : Arch := { a with punnets := tset a.punnets (punnetKey c.pkg c.core n) p }
  match ns.find? (fun n => let p := punnetAt a c.pkg c.core n; !(p.state == .empty) && p.crew == c.id && p.pc == pc) with
  | some n =>
    let p := punnetAt a c.pkg c.core n
    if p.state = .ready then none
    else some (put n { p with recs := p.recs ++ [rec], state := if p.recs.length + 1 = 32 then .ready else .filling })
  | none =>
    match ns.find? (fun n => (punnetAt a c.pkg c.core n).state == .empty) with
    | none => none
    | some n => some (put n { state := .filling, crew := c.id, pc := pc, recs := [rec],
                              deadline := punnetDue a c.pkg c.core c.ctx, alloc := alloc })

/-- Place lanes in ascending order: what is left when one stalls. -/
def placeLanes (w : W) (c : Crew) (pc reg : Nat) : List Nat → Arch → Arch × List Nat
  | [], a => (a, [])
  | l :: r, a =>
    match placeRecord a c pc w.t.alloc ((List.range 16).map (fun j => w.t.getV (reg + j) l)) with
    | none => (a, l :: r)
    | some a => placeLanes w c pc reg r a

/-- SPAWN. -/
def execSpawn (h : Hd) (a b : Opnd) (s : State) : Out :=
  runWord 7 .lg h s fun w =>
    let pc := (w.rs64 a).toNat
    checked (firstBad [srcU64 1 a, runBad w 2 b 16 1, if pc % 8 = 0 then none else some (operandBad 1 6 0 (w.rs64 a))]) <|
      if w.part = 0 then .done w.a []
      else
        let left := match w.t.wait with
          | some (.spawn m) => m
          | _ => w.part
        let reg := w.vreg 2 b 0
        match w.a.crew w.t.crew with
        | none => .done w.a []
        | some c =>
          w.ordered (ownPending w.a w.t.uid) <|
            if w.runArrived reg 16 left then
              match placeLanes w c pc reg (Lanes.toList left) (releaseAt w.a w.t .core) with
              | (a, []) => .done a []
              | (a, ls) => .stay a (.spawn (Lanes.ofPred (fun l => ls.contains l)))
            else .stay w.a .arrival

/-! ## FETCHW (R68 to R70, R381) -/

/-- The mailbox checks of R69. -/
def mailboxBad (w : W) (off : Nat) : Option Bad :=
  match w.a.crew w.t.crew with
  | none => some (operandBad 1 6 0 (BitVec.ofNat 64 off))
  | some c =>
    if off % 64 = 0 ∧ c.base ≤ off ∧ off + 64 ≤ c.base + c.size then none else some (operandBad 1 6 0 (BitVec.ofNat 64 off))

/-- Whether a frame withdrawn through a mailbox awaits the accesses of the wave that it was withdrawn for, before the release with which it
retires (R70). -/
def behalfWaits (a : Arch) (mailbox : Nat) : Bool :=
  (tvals a.threads).any (fun t => match t.phase with | .onBehalf u m => m == mailbox && ownPending a u | _ => false)

/-- FETCHW: the earlier frame's retirement first makes its release at PKG (R70). -/
def execFetchw (h : Hd) (f : FSel) (o : Opnd) (s : State) : Out :=
  runWord 7 .lg h s fun w =>
    let off := (w.rs o).toNat
    checked (firstBad [w.selBad f, srcU 1 o, mailboxBad w off]) <|
      if w.part = 0 then .done w.a []
      else match w.a.crew w.t.crew, w.sel f with
        | some c, some k =>
          let fa := spadAddr c.pkg c.core + off
          if (tvals w.a.fetches).any (fun r => r.mailbox == fa) then .stay w.a .fetchw
          else if w.flagFull f then .stay w.a .flagFull
          else w.ordered (fenceWait w.a w.t true || behalfWaits w.a fa) <|
            let a := retireBehalf w.a w.time w.t.uid (some fa)
            let r : Fetch := { id := a.nextId, uid := w.t.uid, pkg := c.pkg, tree := w.t.tree, core := c.core, crew := c.id,
                               mailbox := fa, flag := k, tm := w.t.tm }
            .done { a.modThread w.t.uid (fun t => t.raise k) with nextId := a.nextId + 1, fetches := tset a.fetches r.id r }
              [(fa, leBytes 4 0)]
        | _, _ => .done w.a []

/-- The frame that the package's distributor gives a request (R68): of the oldest launch of the tree of which it still holds frames,
the one of the lowest tile. -/
def heldTile (a : Arch) (r : Fetch) : Option Thread :=
  (tvals a.threads).foldl (fun (b : Option Thread) t =>
    if t.tree == r.tree && decide (t.phase = .held) && t.unit.pkg == r.pkg then
      match b with
      | none => some t
      | some x => if t.launch < x.launch ∨ (t.launch = x.launch ∧ t.tile < x.tile) then some t else some x
    else b) none

/-- The distributor withdraws a frame for a request, or finds none: the frame is ACTIVE on the requesting wave's behalf (R68, R70). -/
def withdraw (a : Arch) (r : Fetch) : Arch × Fetch :=
  match r.chosen with
  | some _ => (a, r)
  | none =>
    let t := heldTile a r
    let r := { r with chosen := some (t.map (·.uid)) }
    let a := { a with fetches := tset a.fetches r.id r }
    (match t with
     | none => a
     | some t => a.setThread { t with phase := .onBehalf r.uid r.mailbox, front := [], clause := none, wait := none }, r)

/-- The mailbox as the distributor writes it: bytes 4 to 63, then READY (R69). -/
def mailboxWrites (r : Fetch) (t : Option Thread) : Writes :=
  match t with
  | none => [(r.mailbox + 4, List.replicate 60 0), (r.mailbox, leBytes 4 2)]
  | some t =>
    [(r.mailbox + 4, leBytes 4 0 ++ leBytes 8 t.launch ++ leBytes 4 t.tile ++ leBytes 4 t.ntiles ++ leBytes 8 t.desc ++
      List.replicate 32 0), (r.mailbox, leBytes 4 1)]

/-- FETCHW_REPLY (R68 to R70): the frame is withdrawn; the reply is written once the crew's region is on its core. -/
def execFetchwReply (req : Nat) (s : State) : Out :=
  runEvent s fun a _ time =>
    match tget a.fetches req with
    | none => (a, [])
    | some r =>
      match a.crew r.crew with
      | none => ({ a with fetches := tdel a.fetches req }.lowerFlag r.uid (some r.flag) r.tm, [])
      | some c =>
        let x := withdraw a r
        if c.out then (x.1, [])
        else
          let a := { x.1 with fetches := tdel x.1.fetches req }
          let t := ((x.2.chosen.getD none).bind a.thread)
          let a := match t, a.thread r.uid with
            | some t, none => retireUp 7 (dropFrame a time t) time t.parent
            | _, _ => a
          (a.lowerFlag r.uid (some r.flag) r.tm, mailboxWrites r t)

end Sys2Proof.Machine
end

