-- ==== Sys2Proof/Machine/Lane.lean ====
section
/-! DEFINITION. Class 3: votes, shuffles, scans, reductions and PART (spec/19 R333 to R337). -/

namespace Sys2Proof.Machine

/-- The first lane of a lane's tile, and the tile's lanes (R333). -/
def W.base (w : W) (l : Nat) : Nat := l / w.t.tileWidth * w.t.tileWidth
def W.tile (w : W) (l : Nat) : List Nat := (List.range w.t.tileWidth).map (fun i => w.base l + i)
/-- The lanes of a tile that contribute. -/
def W.contrib (w : W) (l : Nat) : List Nat := (w.tile l).filter (fun i => w.part.getLsbD i)

/-- VOTE (R334). -/
def execVote (h : Hd) (o : VoteOp) (s : State) : Out :=
  match o with
  | .all pd pa => vecPred 3 h [] pd.val (fun w l => (w.contrib l).all (fun i => (w.t.getP pa.val).getLsbD i)) s
  | .any pd pa => vecPred 3 h [] pd.val (fun w l => (w.contrib l).any (fun i => (w.t.getP pa.val).getLsbD i)) s
  | .bal d pa =>
    runWord 3 .lg h s fun w =>
      w.vector [fld 0 d false] fun t l =>
        w.wrV t 0 d l (Lanes.ofPred (fun i => (w.contrib l).contains i && (w.t.getP pa.val).getLsbD i))
  | .eq pd a =>
    vecPred 3 h [fld 1 a false] pd.val (fun w l => (w.contrib l).all (fun i => decide (w.rd 1 a i = w.rd 1 a l))) s

/-- The source lane of SHFL for lane `i` with operand `b` (R335). -/
def ShflOp.source (o : ShflOp) (base width i b : Nat) : Nat :=
  match o with
  | .idx => base + b % width
  | .up => if base + b ≤ i then i - b else i
  | .dn => if i + b < base + width then i + b else i
  | .bfly => base + ((i - base) ^^^ (b % width))

/-- Read A for lane `i` in source lane `j`: an index-relative register is the one that lane `i` names (R335). -/
def W.rdFrom (w : W) (a : Opnd) (i j : Nat) : W32 :=
  match a with
  | .ix => w.t.getV (w.ixReg 1 i).toNat j
  | _ => w.rd 1 a j

/-- SHFL: source lanes need their arrival bits (R309). -/
def execShfl (h : Hd) (o : ShflOp) (d a b : Opnd) (s : State) : Out :=
  runWord 3 .lg h s fun w =>
    checked (vecBad w [fld 0 d false, fld 1 a false, fld 2 b false]) <|
      let src (i : Nat) : Nat := ShflOp.source o (w.base i) w.t.tileWidth i (w.rd 2 b i).toNat
      let here : Bool := match a with
        | .v _ => (Lanes.toList w.part).all (fun i => (w.t.arrived (w.vreg 1 a i)).getLsbD (src i))
        | .ix => (Lanes.toList w.part).all (fun i => (w.t.arrived (w.vreg 1 a i)).getLsbD (src i))
        | _ => true
      if w.arrived [fld 2 b false] && here then
        w.lanes fun t i => w.wrV t 0 d i (w.rdFrom a i (src i))
      else .stay w.a .arrival

/-! ## Scans and reductions (R162, R163, R336) -/

/-- The identity of an operator in a format (R43, R162). -/
def redIdentity (e : EF) (op : RedOp) : Nat :=
  match EF.fmt e with
  | some f => match op with
    | .min => f.infCode
    | .max => f.signBit + f.infCode
    | _ => f.signBit
  | none => match op with
    | .min => 2 ^ (e.width - 1) - 1
    | .max => 2 ^ (e.width - 1)
    | .and => 2 ^ e.width - 1
    | _ => 0

/-- One operation of a reduction on two elements. -/
def redOp (e : EF) (op : RedOp) (mode : RMode) (sat : Bool) (u a b : Nat) : Nat × FFlags :=
  match EF.fmt e with
  | some f => match op with
    | .min => fMin f a b
    | .max => fMax f a b
    | _ => fAdd f mode u a b
  | none =>
    let x := signedOf e.width a
    let y := signedOf e.width b
    let n := e.width
    match op with
    | .add =>
      let t := x + y
      (wrapTo n (if sat then max (-(2 : Int) ^ (n - 1)) (min ((2 : Int) ^ (n - 1) - 1) t) else t), FFlags.none)
    | .min => (if x ≤ y then a else b, FFlags.none)
    | .max => (if y ≤ x then a else b, FFlags.none)
    | .and => (a &&& b, FFlags.none)
    | .or => (a ||| b, FFlags.none)
    | .xor => (a ^^^ b, FFlags.none)

/-- A node of a reduction: identity contributions pass the other operand on (R162). -/
def redNode (f : Nat → Nat → Nat × FFlags) (a b : Option Nat) (fl : FFlags) : Option Nat × FFlags :=
  match a, b with
  | none, y => (y, fl)
  | x, none => (x, fl)
  | some x, some y => let r := f x y; (some r.1, fl.or r.2)

/-- The fixed tree of R162 over a list whose length is a power of two: `f i` combines node `i` of a level. -/
def redTree (f : Nat → Nat → Nat → Nat × FFlags) : Nat → List (Option Nat) → FFlags → Option Nat × FFlags
  | 0, xs, fl => (xs.getD 0 none, fl)
  | n + 1, xs, fl =>
    if xs.length ≤ 1 then (xs.getD 0 none, fl)
    else
      let r := (List.range (xs.length / 2)).foldl (fun (acc : List (Option Nat) × FFlags) i =>
        let x := redNode (f i) (xs.getD (2 * i) none) (xs.getD (2 * i + 1) none) acc.2
        (acc.1 ++ [x.1], x.2)) ([], fl)
      redTree f n r.1 r.2

/-- The sequential scan of R163: the results in ascending lane order; `i` is the lane's place in its tile. A step of an exclusive scan
is made where a lane from that place on takes part (R307) (DEDUCED, log 86). -/
def scanList (f : Nat → Nat → Nat → Nat × FFlags) (incl : Bool) : Nat → Option Nat → List (Option Nat) → FFlags →
    List (Option Nat) × FFlags
  | _, _, [], fl => ([], fl)
  | i, y, x :: r, fl =>
    if incl then
      let n := redNode (f i) y x fl
      let t := scanList f incl (i + 1) n.1 r n.2
      (n.1 :: t.1, t.2)
    else
      let n := redNode (f (i + 1)) y x fl
      if r.any (·.isSome) then
        let t := scanList f incl (i + 1) n.1 r n.2
        (y :: t.1, t.2)
      else (y :: r.map (fun _ => none), fl)

/-- The kinds of class-3 combination. -/
inductive Comb where | scanI | scanX | tree
  deriving DecidableEq, Repr

/-- The results of one element position over one tile, by place in the tile, with the flags. -/
def combTile (k : Comb) (f : Nat → Nat → Nat → Nat × FFlags) (xs : List (Option Nat)) : List (Option Nat) × FFlags :=
  match k with
  | .scanI => scanList f true 0 none xs FFlags.none
  | .scanX => scanList f false 0 none xs FFlags.none
  | .tree => let r := redTree f 6 xs FFlags.none; (xs.map (fun _ => r.1), r.2)

/-- SCANI, SCANX and LRED: each element position apart, in the lanes that take part (R336). Node `i` of a level of LRED's tree draws
as lane base + i (DESIGN CHOICE, log 85). -/
def combine (k : Comb) (h : Hd) (e : EF) (op : RedOp) (rm : RM) (sat : Bool) (d a : Opnd) (s : State) : Out :=
  runWord 3 .lg h s fun w =>
    let wd := EF.isPair e
    let m := w.mode rm
    w.float [fld 0 d wd, fld 1 a wd] (some m) fun t l =>
      let base := w.base l
      let first := (w.contrib l).head? == some l
      let r := (List.range e.count).map (fun j =>
        combTile k (fun i x y => redOp e op m sat (w.draw m j (base + i)) x y)
          ((w.tile l).map (fun i => if w.part.getLsbD i then some (elemAt e.width (w.get wd 1 a i) j) else none)))
      let x := packN e.width e.count (fun j => (((r.getD j ([], FFlags.none)).1.getD (l - base) none).getD (redIdentity e op)))
      let t := w.put t wd d l x
      if first then r.foldl (fun t p => t.orFlags p.2) t else t

/-- SCANI. -/
def execScani (h : Hd) (e : EF) (op : RedOp) (rm : RM) (sat : Bool) (d a : Opnd) (s : State) : Out :=
  combine .scanI h e op rm sat d a s
/-- SCANX. -/
def execScanx (h : Hd) (e : EF) (op : RedOp) (rm : RM) (sat : Bool) (d a : Opnd) (s : State) : Out :=
  combine .scanX h e op rm sat d a s
/-- LRED. -/
def execLred (h : Hd) (e : EF) (op : RedOp) (rm : RM) (sat : Bool) (d a : Opnd) (s : State) : Out :=
  combine .tree h e op rm sat d a s

/-- PARTSET (R53, R337) (DESIGN CHOICE, log 72). -/
def execPartset (h : Hd) (a : Opnd) (s : State) : Out :=
  runWord 3 .lg h s fun w =>
    let x := w.once 1 a
    let v := x.1.toNat % 8
    checked (firstBad [uniformBad 1 1 a, if 4 < v then some (operandBad 1 11 0 (BitVec.ofNat 64 v)) else none])
      (w.acts (.done { w.a.setThread { w.t with regs := { w.t.regs with part := BitVec.ofNat 32 v } } with free := x.2 } []))

/-- PARTGET (R337). -/
def execPartget (h : Hd) (d : Opnd) (s : State) : Out :=
  runWord 3 .lg h s fun w => checked (dstS 1 d) (w.acts (WRes.own w (w.t.wr d w.t.regs.part)))

end Sys2Proof.Machine
end

