-- ==== Sys2Proof/Machine/Wire.lean ====
section
/-! DEFINITION. The wire formats of reduces and collectives (spec/14 R242, spec/21 R377): widening, combining and narrowing. -/

namespace Sys2Proof.Machine

/-- Elements held in INT64 wire format. -/
def wireInt : EF → Bool
  | .i8 => true | .i16 => true | .i32 => true | .i64 => true | _ => false

/-- The format that elements travel in. -/
def wireFmt (e : EF) : EF := if wireInt e then .i64 else .f32

/-- Bytes of `n` elements in element format; T6 takes eight bytes for ten (R138). -/
def elemBytes (e : EF) (n : Nat) : Nat := if e = .t6 then (n + 9) / 10 * 8 else n * (e.width / 8)
/-- Bytes of `n` elements in wire format. -/
def wireBytes (e : EF) (n : Nat) : Nat := n * (if wireInt e then 8 else 4)

/-- The codes of `n` elements in element format. -/
def elemCodes (e : EF) (n : Nat) (b : List Byte) : List Nat :=
  (List.range n).map (fun i =>
    if e = .t6 then elemAt 6 (leVal ((b.drop (i / 10 * 8)).take 8)) (i % 10)
    else leVal ((b.drop (i * (e.width / 8))).take (e.width / 8)))

/-- The FP32 code of a BF16 or FP16 NaN: its sign, and its fraction bits left-aligned, not quieted (R146). -/
def widenNaN (f : Fmt) (c : Nat) : Nat := b2n (f.isNeg c) * 2 ^ 31 + 0x7F800000 + c % 2 ^ f.fb * 2 ^ (23 - f.fb)

/-- Widen one element exactly (R146, R242). -/
def widen (e : EF) (c : Nat) : Nat :=
  if wireInt e then wrapTo 64 (signedOf e.width c)
  else match e with
    | .f32 => c
    | .bf16 => if Fmt.bf16.isNaN c then widenNaN .bf16 c else (convert .f32 e .rn 0 false c).1
    | .f16 => if Fmt.f16.isNaN c then widenNaN .f16 c else (convert .f32 e .rn 0 false c).1
    | _ => (convert .f32 e .rn 0 false c).1

/-- Widen bytes of element format. -/
def widenBytes (e : EF) (n : Nat) (b : List Byte) : List Nat := (elemCodes e n b).map (widen e)
/-- Wire elements from their bytes. -/
def wireRead (e : EF) (n : Nat) (b : List Byte) : List Nat :=
  let k := if wireInt e then 8 else 4
  (List.range n).map (fun i => leVal ((b.drop (k * i)).take k))
/-- The bytes of wire elements. -/
def wireWrite (e : EF) (l : List Nat) : List Byte := l.flatMap (leBytes (if wireInt e then 8 else 4))

/-- OVF and INV of flags (R242). -/
def wireFlags (f : FFlags) : Nat := b2n f.of + 2 * b2n f.iv
/-- The union of status bits. -/
def orStatus (s t : Nat) : Nat := s ||| t

/-- A bitwise operation, on the patterns of the wire format. -/
def bitOp (op : RedOp) (a b : Nat) : Option Nat :=
  match op with
  | .and => some (a &&& b) | .or => some (a ||| b) | .xor => some (a ^^^ b) | _ => none

/-- Combine two wire elements: destination `a`, arrival `b` (R239, R242). An invalid sum, minimum or maximum sets INV (DESIGN CHOICE,
log 104). -/
def wireOp (e : EF) (op : RedOp) (a b : Nat) : Nat × Nat :=
  match bitOp op a b with
  | some x => (x, 0)
  | none =>
  let r := redOp (wireFmt e) op .rn true 0 a b
  let ovf := wireInt e && decide (op = .add) &&
    !decide (signedOf 64 r.1 = signedOf 64 a + signedOf 64 b)
  (r.1, orStatus (wireFlags r.2) (b2n ovf))

/-- Combine element by element. -/
def wireOps (e : EF) (op : RedOp) : List Nat → List Nat → List Nat × Nat
  | a :: as, b :: bs =>
    let r := wireOp e op a b
    let t := wireOps e op as bs
    (r.1 :: t.1, orStatus r.2 t.2)
  | as, [] => (as, 0)
  | [], _ => ([], 0)

/-- The identity of an operator in wire format (R43): +0 for a sum. -/
def wireIdentity (e : EF) (op : RedOp) : Nat :=
  match op with
  | .add => 0
  | .and => if wireInt e then 2 ^ 64 - 1 else 2 ^ 32 - 1
  | .min => widen e (redIdentity e .min)
  | .max => widen e (redIdentity e .max)
  | _ => 0

/-- Narrow one wire element (R242). -/
def wireNarrow (e : EF) (op : RedOp) (v : Nat) : Nat × Nat :=
  if wireInt e then
    match op with
    | .add =>
      let x := signedOf 64 v
      let m : Int := (2 : Int) ^ (e.width - 1)
      let y := max (-m) (min (m - 1) x)
      (wrapTo e.width y, b2n (!decide (x = y)))
    | _ => (v % 2 ^ e.width, 0)
  else if e = .f32 then (v, 0)
  else
    let r := convert e .f32 .rn 0 false v
    (r.1, wireFlags r.2)

/-- The bytes of narrowed elements, and the status bits. -/
def narrowBytes (e : EF) (op : RedOp) (l : List Nat) : List Byte × Nat :=
  let rs := l.map (wireNarrow e op)
  let st := rs.foldl (fun s r => orStatus s r.2) 0
  if e = .t6 then
    ((List.range ((l.length + 9) / 10)).flatMap (fun g =>
      leBytes 8 (((rs.drop (10 * g)).take 10).foldr (fun r x => r.1 + 64 * x) 0)), st)
  else (rs.flatMap (fun r => leBytes (e.width / 8) r.1), st)

/-! ## Summaries in wire form: their own bytes -/

/-- Merge `n` summaries, each of `a` with that of `b`; the free coins drawn advance. -/
def mergeAll (k : SKind) (n : Nat) (a b : List Byte) (hw : Nat) : List Byte × Nat :=
  (List.range n).foldl (fun acc i =>
    let r := mergeSummary k ((a.drop (k.size * i)).take k.size) ((b.drop (k.size * i)).take k.size) acc.2
    (acc.1 ++ r.1, r.2)) ([], hw)

/-- `n` empty summaries. -/
def emptyAll (k : SKind) (n : Nat) : List Byte := (List.replicate n (emptySummary k 0 0)).flatten

/-- Whether every one of `n` summaries is well formed (R168). -/
def summariesOk (k : SKind) (n : Nat) (b : List Byte) : Bool :=
  (List.range n).all (fun i => summaryOk k ((b.drop (k.size * i)).take k.size))

/-! ## Reading and writing ranges -/

/-- What reading or writing a range comes to. -/
inductive Ranged where
  | ok (parts : List (Place1 × Nat))
  /-- UNMAPPED or TABLE: kind and VA. -/
  | fault (kind va : Nat)
  /-- another access kind. -/
  | access (kind : Nat)
  /-- uncorrectable granules, by their first byte met. -/
  | error (fas : List Nat)
  | held

/-- Resolve `n` bytes of an end for an engine's access with identifier `id`; `within` is the package that every target must
lie on, if any (R376). -/
def resolveRange (a : Arch) (mem : Memory) (time id : Nat) (g : Agent) (e : End) (r : Right) (n : Nat) (within : Option Nat) : Ranged :=
  match endParts a mem time e r (n / 16 + 2) 0 n with
  | .error (.unmapped, va) => .fault 0 va
  | .error (.table, va) => .fault 2 va
  | .error (.waits, _) => .held
  | .error (.error fa, _) => .error [fa]
  | .error (k, _) => .access k.code
  | .ok ps =>
    let fas := ps.filterMap (fun p => match p.1 with | .mem fa _ => some (fa, p.2) | .tile _ => none)
    if fas.any (fun x => match within with | some p => !(faPkg x.1 == p) | none => false) then .access AKind.format.code
    else if fas.any (fun x => (claimOn a id x.1 x.2).isSome || crossingStalled a g x.1) then .held
    else match fas.filter (fun x => isBad a (granule x.1)) with
      | [] => .ok ps
      | bs => .error (bs.map (·.1))

/-- Read one aligned 16-byte unit of an engine's source of `n` bytes before the rest (R126, R187): unit `k`, counted from the unit that
holds the first byte. -/
def earlyRead (a : Arch) (mem : Memory) (time id : Nat) (g : Agent) (va n k : Nat) (held : Nat → Nat → Bool) : Arch :=
  let lo := 16 * k - va % 16
  let hi := min n (16 * (k + 1) - va % 16)
  if hi ≤ lo || a.early.any (fun e => e.1 == id && e.2.1 == lo) then a
  else match resolveRange a mem time id g (.va g ((va + lo) % 2 ^ 64)) .rd (hi - lo) none with
    | .ok ps =>
      if ps.any (fun p => match p.1 with | .mem fa _ => held fa p.2 | .tile _ => false) then a
      else { a with early := a.early ++ [(id, lo, sourceBytes mem ps)] }
    | _ => a

/-- A source's bytes, with the units that were read before. -/
def withEarly (a : Arch) (id : Nat) (b : List Byte) : List Byte :=
  (a.early.filter (fun e => e.1 == id)).foldl (fun b e => b.take e.2.1 ++ e.2.2 ++ b.drop (e.2.1 + e.2.2.length)) b

/-- An engine's source is read. -/
def dropEarly (a : Arch) (id : Nat) : Arch := { a with early := a.early.filter (fun e => !(e.1 == id)) }

/-- Lines of the aperture that an end writes through, over resolved parts from offset `off` (R131, R132). -/
def ageParts (e : End) : Nat → List (Place1 × Nat) → Arch → Arch
  | _, [], a => a
  | off, (.mem fa _, n) :: r, a => ageParts e (off + n) r (forgetRels (ageEnd a e off fa) [(fa, n)])
  | off, (.tile _, n) :: r, a => ageParts e (off + n) r a

/-- Write bytes over resolved parts. -/
def writeParts : List (Place1 × Nat) → List Byte → Writes
  | [], _ => []
  | (.mem fa _, n) :: r, b => (fa, b.take n) :: writeParts r (b.drop n)
  | (.tile _, n) :: r, b => writeParts r (b.drop n)

end Sys2Proof.Machine
end

