-- ==== Sys2Proof/Machine/Reduce.lean ====
section
/-! DEFINITION. REDUCE (spec/21 R375 to R379; spec/01 R41 to R44): the word, the arrival of a contribution at its instance, and
the end of an instance. -/

namespace Sys2Proof.Machine

/-- Bytes of a contribution (R376). -/
def redBytes (ty : RedTy) (n : Nat) : Nat :=
  match ty with
  | .ef e => n * (e.width / 8)
  | .sk k => n * k.size

/-- The alignment of a contribution (R165, R376). -/
def redAlign : RedTy → Nat
  | .ef _ => 16
  | .sk _ => 64

/-- The destination of a REDUCE at level `l` (R371, R376). -/
def redEnd (a : Arch) (g : Agent) (l : Level) (x : Nat) : Option End :=
  match l with
  | .lg => if x < 256 then some (.regs g.uid x) else none
  | _ => levelEnd a g l x

/-- The checks of the destination (R376). -/
def redDstBad (w : W) (ty : RedTy) (l : Level) (x n : Nat) : Option Bad :=
  let b := some (operandBad 2 6 0 (BitVec.ofNat 64 x))
  if l = .lg then (if x + (n + 127) / 128 ≤ w.t.alloc then none else b)
  else if x % redAlign ty = 0 ∧ (redEnd w.a (agentOf w.a w.t) l x).isSome = true then none else b

/-- The instance that a contribution joins, if it exists already (DEDUCED, log 24). -/
def findRed (a : Arch) (tree anc : Nat) (l il : Level) (seq : Nat) : Option Red :=
  (tvals a.reds).find? (fun r => r.tree == tree && r.anc == anc && decide (r.level = l) && decide (r.issuerLevel = il) &&
    r.seq == seq && !r.fin)

/-- A new instance. -/
def newRed (id : Nat) (t : Thread) (anc : Nat) (l : Level) (seq : Nat) : Red :=
  { id := id, tree := t.tree, ctx := t.ctx, pkg := t.unit.pkg, anc := anc, level := l, issuerLevel := t.level, seq := seq,
    contribs := [], first := none, acc := [], status := 0, writeFaulted := false, fin := false }

/-- REDUCE. -/
def execReduce (h : Hd) (m : MMod) (ty : RedTy) (op : RedOp) (d a b c : Opnd) (s : State) : Out :=
  runWord 7 .any h s fun w =>
    let l := w.a.resolve w.t m.lvl
    let addr := (w.rs64 a).toNat
    let dst := (w.rs64 b).toNat
    let n := (w.rs c).toNat
    let size := redBytes ty n
    checked (firstBad [if w.t.level.code ≤ l.code ∧ l.code ≤ (w.a.rootLevel w.t).code then none else some (levelBad l),
        w.selBad m.fsel, dstS 1 d, srcU64 1 a, srcU64 2 b, srcU 3 c,
        if addr % redAlign ty = 0 then none else some (operandBad 1 6 0 (w.rs64 a)),
        redDstBad w ty l dst size,
        if size % 16 = 0 ∧ 16 ≤ size ∧ size ≤ 2 ^ 28 then none else some (operandBad 3 6 0 (BitVec.ofNat 64 n))]) <|
      if w.part = 0 then .done w.a []
      else if w.flagFull m.fsel then .stay w.a .flagFull
      else w.ordered (fenceWaitPath w.a w.t false) <|
        let seq := tgetD w.t.redSeq l.code 0
        let anc := (ancestor w.a w.t l).getD w.t.uid
        let r := (findRed w.a w.t.tree anc l w.t.level seq).getD (newRed (w.a.nextId + 1) w.t anc l seq)
        let k : Contrib :=
          { id := w.a.nextId, uid := w.t.uid, ag := agentOf w.a w.t, addr := addr, flag := (w.sel m.fsel).getD 0, tm := w.t.tm,
            status := (statusReg d).getD 0, acq := m.acq || w.t.acqCp.isSome, ty := ty, op := op, count := n, dst := dst, arrived := false,
            faulted := false, saved := false }
        let t := (w.t.raiseSel (w.sel m.fsel))
        .done { w.a.setThread { t with redSeq := tset t.redSeq l.code (seq + 1) } with
                  nextId := w.a.nextId + 2, reds := tset w.a.reds r.id { r with contribs := r.contribs ++ [k] } } []

/-! ## Combining (R377) -/

/-- Join status bits; KIND is that of the first ACCESS failure (R378). -/
def redStatus (s t : Nat) : Nat :=
  orStatus s (if s / 4 % 2 = 1 ∧ t / 4 % 2 = 1 then t % 256 else t)

/-- The status bits of an access failure. -/
def redAccess (kind : Nat) : Nat := 4 + kind * 256

/-- The instance's elements from the bytes of memory. -/
def redWiden (ty : RedTy) (n : Nat) (b : List Byte) : List Nat :=
  match ty with
  | .ef e => widenBytes e n b
  | .sk _ => b.map (·.toNat)

/-- Bytes of a destination's summaries; the spec gives no contents for a malformed QSK that is merged into, so that its bytes
are free values (R168). -/
def freeMalformed (k : SKind) (n : Nat) (b : List Byte) (hw : Nat) : List Byte × Nat :=
  (List.range n).foldl (fun acc i =>
    let x := (b.drop (k.size * i)).take k.size
    if summaryOk k x then (acc.1 ++ x, acc.2)
    else (acc.1 ++ (List.range k.size).map (fun j => Config.openByte (acc.2 + j)), acc.2 + k.size)) ([], hw)

/-- The destination's prior contents as the instance holds them, with the next free value. -/
def redPrior (ty : RedTy) (n : Nat) (b : List Byte) (hw : Nat) : List Nat × Nat :=
  match ty with
  | .ef e => (widenBytes e n b, hw)
  | .sk k => let r := freeMalformed k n b hw; (r.1.map (·.toNat), r.2)

/-- The identity contribution. -/
def redIdent (ty : RedTy) (op : RedOp) (n : Nat) : List Nat :=
  match ty with
  | .ef e => List.replicate n (wireIdentity e op)
  | .sk k => (emptyAll k n).map (·.toNat)

/-- Combine one contribution: the elements, the status bits and the next free coin. -/
def redCombine (ty : RedTy) (op : RedOp) (n : Nat) (acc inc : List Nat) (hw : Nat) : List Nat × Nat × Nat :=
  if acc.isEmpty then (acc, 0, hw)
  else match ty with
    | .ef e => let r := wireOps e op acc inc; (r.1, r.2, hw)
    | .sk k =>
      let r := mergeAll k n (acc.map (BitVec.ofNat 8)) (inc.map (BitVec.ofNat 8)) hw
      (r.1.map (·.toNat), 0, r.2)

/-- The bytes that an instance writes, with the status bits of narrowing. -/
def redNarrow (ty : RedTy) (op : RedOp) (acc : List Nat) : List Byte × Nat :=
  match ty with
  | .ef e => narrowBytes e op acc
  | .sk _ => (acc.map (BitVec.ofNat 8), 0)

/-- Whether a contribution's shape differs from the first's (R43). -/
def Contrib.differs (c f : Contrib) : Bool :=
  !(decide (c.ty = f.ty) && decide (c.op = f.op) && c.count == f.count && c.dst == f.dst)

/-- Queue and SEQ of the LAUNCH that rooted a tree (R354). -/
def treeSeq (a : Arch) (tree : Nat) : Nat × Nat :=
  match a.tree tree with
  | none => (0xFFFF, 0)
  | some r => (r.queue, (((a.queue r.unit.pkg r.queue).bind (fun q => q.cmd r.cmd)).map (·.seq)).getD 0)

/-- The FAULT event of an instance's access (R107, R378). -/
def redFault (a : Arch) (time : Nat) (r : Red) (kind va : Nat) : Arch :=
  let q := treeSeq a r.tree
  a.event time r.pkg 1 r.ctx (kind + 0xFFFF * 65536) va (q.1 + q.2 % 2 ^ 48 * 65536)

/-- The events of the uncorrectable granules that an engine meets (R218). -/
def engineUnc (a : Arch) (time ctx : Nat) (fas : List Nat) : Arch :=
  fas.foldl (fun a fa => a.event time (faPkg fa) 7 ctx (faPlace fa).mem (fa / 64 * 64) 0xFFFFFF) a

/-- Whether a contribution's read of some bytes must wait: after an acquire, for writes that a release has passed to its unit (R123, R188). -/
def contribHeld (a : Arch) (c : Contrib) (fa n : Nat) : Bool := c.acq && heldSeen a c.uid c.id [] false fa n

/-- The package on which a destination must lie (R376). -/
def redWithin (r : Red) (c : Contrib) : Option Nat := match r.level with | .pkg => some c.ag.wpkg | _ => none

/-- The status register and the flag of a contributor (R44, R377). -/
def deliver (a : Arch) (c : Contrib) (st : Nat) : Arch :=
  (a.modThread c.uid (fun t => t.setSAt c.tm c.status (BitVec.ofNat 32 st))).lowerFlag c.uid (some c.flag) c.tm

/-- Give the status to every contributor that is not saved; the instance remains for the saved ones (R382). -/
def endRed (a : Arch) (r : Red) (st : Nat) : Arch :=
  let a := (r.contribs.filter (fun c => !c.saved)).foldl (fun a c => deliver a c st) a
  let left := r.contribs.filter (·.saved)
  if left.isEmpty then { a with reds := tdel a.reds r.id }
  else { a with reds := tset a.reds r.id { r with contribs := left, status := st, fin := true } }

/-- The units that an instance still waits for have contributed or retired (R44). -/
def redComplete (a : Arch) (r : Red) : Bool :=
  r.contribs.all (·.arrived) &&
  (tvals a.threads).all (fun t =>
    !(t.tree == r.tree && decide (t.level = r.issuerLevel) && !t.aborted && decide (ancestor a t r.level = some r.anc)) ||
    r.contribs.any (fun c => c.uid == t.uid))

/-- Whether some unit that did not contribute has retired (R43). -/
def redGone (a : Arch) (r : Red) : Bool :=
  let gone := ((a.tree r.tree).map (fun t => tgetD t.gone (8 * r.anc + r.issuerLevel.code) 0)).getD 0
  let mine := (r.contribs.filter (fun c => match a.thread c.uid with | some t => t.aborted | none => true)).length
  decide (mine < gone)

/-- The release of a result at its level (R46): it passes on what the contributions with an acquire followed. -/
def redRelease (a : Arch) (r : Red) : Arch :=
  r.contribs.foldl (fun a c => match a.thread c.uid with
    | some t => if c.acq then markSeen a c.uid c.id (scopeOf a t r.level) false .direct else a
    | none => a) a

/-- The end of an instance, once every contributor has contributed (R44, R378). -/
def finishRed (a : Arch) (mem : Memory) (time : Nat) (r : Red) : Arch × Writes :=
  if !redComplete a r || r.writeFaulted then (a, [])
  else match r.first with
    | none => (a, [])
    | some f =>
      let x := if redGone a r then redCombine f.ty f.op f.count r.acc (redIdent f.ty f.op f.count) a.free else (r.acc, 0, a.free)
      if x.1.isEmpty then (endRed a r r.status, [])
      else
        let out := redNarrow f.ty f.op x.1
        let st := redStatus (redStatus r.status x.2.1) out.2
        match redEnd a f.ag r.level f.dst with
        | none => (endRed a r (redStatus st (redAccess AKind.bounds.code)), [])
        | some e =>
          match resolveRange a mem time f.id f.ag e .w (redBytes f.ty f.count) (redWithin r f) with
          | .held => (a, [])
          | .fault k va => (redFault { a with reds := tset a.reds r.id { r with writeFaulted := true } } time r k va, [])
          | .access k => (endRed { a with free := x.2.2 } r (redStatus st (redAccess k)), [])
          | .error fa => (endRed (engineUnc { a with free := x.2.2 } time r.ctx fa) r (redStatus st 8), [])
          | .ok ps =>
            if ps.any (fun p => match p.1 with | .mem fa _ => writeShut a (insideUnit a f.uid) fa p.2 | .tile _ => false) then (a, []) else
            let a := redRelease { a with free := x.2.2 } r
            let a := match e with | .regs u reg => a.modThread u (fun t => writeTile t reg 0 out.1) | _ => a
            (endRed (ageParts e 0 ps a) r st, writeParts ps out.1)

/-- The destination's prior contents, read when the first contribution arrives: the instance, or none while it must wait. -/
def openRed (a : Arch) (mem : Memory) (time : Nat) (r : Red) (c : Contrib) : Ranged × Arch × Red :=
  match r.first with
  | some _ => (.ok [], a, r)
  | none =>
    let r' := { r with first := some c }
    match redEnd a c.ag r.level c.dst with
    | none => (.ok [], a, { r' with status := redStatus r.status (redAccess AKind.bounds.code) })
    | some e =>
      if e.badTile a 0 (redBytes c.ty c.count) then
        (.ok [], a.event time r.pkg 7 r.ctx 4 0 0xFFFFFF, { r' with status := redStatus r.status 8 })
      else match resolveRange a mem time c.id c.ag e .rdw (redBytes c.ty c.count) (redWithin r c) with
      | .ok ps =>
        let x := redPrior c.ty c.count (sourceBytes mem ps) a.free
        (.ok [], { a with free := x.2 }, { r' with acc := x.1 })
      | .access k => (.ok [], a, { r' with status := redStatus r.status (redAccess k) })
      | .error fa => (.ok [], engineUnc a time r.ctx fa, { r' with status := redStatus r.status 8 })
      | x => (x, a, r)

/-- Apply contribution `n` with elements `inc` (none for the identity) and status bits. -/
def applyRed (a : Arch) (r : Red) (n : Nat) (c : Contrib) (inc : Option (List Nat)) (st : Nat) : Arch :=
  let f := r.first.getD c
  let x := redCombine f.ty f.op f.count r.acc (inc.getD (redIdent f.ty f.op f.count)) a.free
  { dropEarly a c.id with
           free := x.2.2,
           reds := tset a.reds r.id { r with acc := x.1, status := redStatus (redStatus r.status st) x.2.1,
                                             contribs := r.contribs.set n { c with arrived := true } } }

/-- Mark a contribution as waiting for RETRY. -/
def faultRed (a : Arch) (time : Nat) (r : Red) (n : Nat) (c : Contrib) (kind va : Nat) : Arch :=
  redFault { a with reds := tset a.reds r.id { r with contribs := r.contribs.set n { c with faulted := true } } } time r kind va

/-- A contribution arrives (R43, R377, R378). -/
def contribute (a : Arch) (mem : Memory) (time : Nat) (r : Red) (n : Nat) (c : Contrib) : Arch :=
  if c.acq && pendingBefore a c.uid c.id then a
  else match openRed a mem time r c with
    | (.fault k va, a, _) => faultRed a time r n c k va
    | (.held, a, _) => a
    | (_, a1, r') =>
      let f := r'.first.getD c
      let mis := if c.differs f then 32 else 0
      match resolveRange a mem time c.id c.ag (.va c.ag c.addr) .rd (redBytes c.ty c.count) none with
      | .held => a
      | .fault k va => faultRed a time r n c k va
      | .access k => applyRed a1 r' n c none (redStatus mis (redAccess k))
      | .error fa => applyRed (engineUnc a1 time r.ctx fa) r' n c none (redStatus mis 8)
      | .ok ps =>
        if ps.any (fun p => match p.1 with | .mem fa _ => contribHeld a c fa p.2 | .tile _ => false) then a else
        let b := withEarly a c.id (sourceBytes mem ps)
        let ok := !c.differs f && (match c.ty with | .sk k => summariesOk k c.count b | .ef _ => true)
        if ok then applyRed a1 r' n c (some (redWiden c.ty c.count b)) 0 else applyRed a1 r' n c none 32

/-- Read one 16-byte unit of a contribution that has not arrived, before the rest of it (R126, R187, R188). -/
def earlyContrib (a : Arch) (mem : Memory) (time : Nat) (c : Contrib) (k : Nat) : Arch :=
  if c.arrived || c.faulted || (c.acq && pendingBefore a c.uid c.id) then a
  else earlyRead a mem time c.id c.ag c.addr (redBytes c.ty c.count) k (contribHeld a c)

/-- REDUCE_CONTRIBUTION_ARRIVAL: contribution `n` of an instance arrives; the last one completes the instance. -/
def execReduceContributionArrival (red n : Nat) (s : State) : Out :=
  runEvent s fun a mem time =>
    match tget a.reds red with
    | none => (a, [])
    | some r =>
      if r.fin then (endRed a r r.status, [])
      else
        let a := match r.contribs[n]? with
          | some c => if c.arrived || c.faulted then a else contribute a mem time r n c
          | none => a
        match tget a.reds red with
        | none => (a, [])
        | some r => finishRed a mem time r

end Sys2Proof.Machine
end

