-- ==== Sys2Proof/Machine/Fabric.lean ====
section
/-! DEFINITION. Class 9 and register sends (spec/23 R419 to R427, spec/11 R191 to R205). -/

namespace Sys2Proof.Machine

/-! ## Capabilities (R191, R192) -/

/-- The fields of a capability. -/
structure Cap where
  tag : Nat
  ctx : Nat
  wave : Nat
  gen : Nat
  scope : Nat
  ovw : Bool
  base : Nat
  cnt : Nat
  lmask : Lanes

/-- Words of a capability. -/
def capWord (c : List W32) (i : Nat) : Nat := (c.getD i 0).toNat
def capNat (c : List W32) : Nat := capWord c 0 + capWord c 1 * 2 ^ 32 + capWord c 2 * 2 ^ 64 + capWord c 3 * 2 ^ 96

/-- Read the fields (R191). -/
def Cap.of (c : List W32) : Cap :=
  let x := capNat c
  { tag := bits x 100 28, ctx := bits x 84 16, wave := bits x 60 24, gen := bits x 52 8, scope := bits x 49 3, ovw := bitAt x 48,
    base := bits x 40 8, cnt := bits x 37 3, lmask := BitVec.ofNat 32 (bits x 0 32) }

/-- The four words of a capability. -/
def Cap.words (c : Cap) : List W32 :=
  let x := c.lmask.toNat + c.cnt * 2 ^ 37 + c.base * 2 ^ 40 + b2n c.ovw * 2 ^ 48 + c.scope * 2 ^ 49 + c.gen * 2 ^ 52 +
    c.wave * 2 ^ 60 + c.ctx * 2 ^ 84 + c.tag * 2 ^ 100
  [BitVec.ofNat 32 x, BitVec.ofNat 32 (x / 2 ^ 32), BitVec.ofNat 32 (x / 2 ^ 64), BitVec.ofNat 32 (x / 2 ^ 96)]

/-- A malformed capability (R191). -/
def capMalformed (c : List W32) : Bool :=
  let k := Cap.of c
  !(bits (capNat c) 32 5 == 0) || k.scope == 0 || decide (5 < k.scope) || decide (k.lmask = 0) || decide (191 < k.base + k.cnt)

/-- The tag of a capability under a key (R192). -/
def tagOf (key : W64) (c : List W32) : Nat :=
  (philox (capWord c 0) (capWord c 1) (capWord c 2) (capWord c 3 % 16) (key.toNat % 2 ^ 32) (key.toNat / 2 ^ 32)).1 % 2 ^ 28

/-! ## GRANT, REVOKE, EXPECT (R421, R422) -/

/-- Open or close a run of registers. -/
def Thread.openRun (t : Thread) (r n : Nat) (b : Bool) : Thread := (List.range n).foldl (fun t i => t.setOpen (r + i) b) t

/-- GRANT. -/
def execGrant (h : Hd) (lvl : LvlCode) (ovw : Bool) (cnt : Fin 8) (d a b : Opnd) (s : State) : Out :=
  runWord 9 .lg h s fun w =>
    let l := w.a.resolve w.t lvl
    checked (firstBad [dstS 4 d, runBad w 1 a (cnt.val + 1) 1, srcU 2 b,
        if l.code < 1 then some (levelBad l) else none,
        if w.rs b = 0 then some (operandBad 2 5 0 0) else none]) <|
      let base := w.vreg 1 a 0
      let c : Cap := { tag := 0, ctx := w.t.ctx, wave := w.t.waveid.toNat % 2 ^ 24, gen := w.t.wavegen.toNat % 256, scope := l.code,
                       ovw := ovw, base := base, cnt := cnt.val, lmask := w.rs b }
      let ws := { c with tag := tagOf (tgetD w.a.keys (ctxKey w.t.unit.pkg w.t.ctx) 0) c.words }.words
      let q := regNo d
      let t := (List.range 4).foldl (fun t i => t.setS (q + i) (ws.getD i 0)) w.t
      w.acts (WRes.own w (t.openRun base (cnt.val + 1) true))

/-- REVOKE. -/
def execRevoke (h : Hd) (cnt : Fin 8) (a : Opnd) (s : State) : Out :=
  runWord 9 .lg h s fun w =>
    checked (runBad w 1 a (cnt.val + 1) 1) (w.acts (WRes.own w (w.t.openRun (w.vreg 1 a 0) (cnt.val + 1) false)))

/-- EXPECT. -/
def execExpect (h : Hd) (cnt : Fin 8) (a : Opnd) (s : State) : Out :=
  runWord 9 .lg h s fun w =>
    checked (runBad w 1 a (cnt.val + 1) 1)
      (w.acts (WRes.own w ((List.range (cnt.val + 1)).foldl (fun t i => t.clearArr (w.vreg 1 a 0 + i) w.part) w.t)))

/-! ## RSEND, RSENDV, RFENCE, RGET (R424 to R426) -/

/-- Whether the thread lies inside the target's scope unit, taken from WAVE alone (R200, R115, R116). -/
def senderInside (a : Arch) (t : Thread) (c : Cap) : Bool :=
  let l := Level.ofCode c.scope
  let u := scopeUnit a t l
  let core := bits c.wave 6 8
  let pkg := bits c.wave 14 10
  match l with
  | .core => decide (u = { level := .core, pkg := pkg, idx := core })
  | .clu => decide (u = { level := .clu, pkg := pkg, idx := core / 6 })
  | .die => decide (u = { level := .die, pkg := pkg, idx := core / 48 })
  | .pkg => decide (u.level = .pkg) && u.pkg == pkg
  | _ => true

/-- The capability read from a quad. -/
def Thread.quad (t : Thread) (q : Nat) : List W32 := (List.range 4).map (fun i => t.getS (q + i))

/-- Send a value to some lanes (R197, R199). -/
def W.send (w : W) (f : FSel) (rel : Bool) (idx : Nat) (cap : List W32) (lanes : Lanes) (val : Nat → W32) : WRes :=
  if lanes = 0 then .done w.a []
  else if w.flagFull f then .stay w.a .flagFull
  else w.ordered (fenceWait w.a w.t true) <|
    let k := Cap.of cap
    let x : Send :=
      { id := w.a.nextId, sender := w.t.uid, senderPkg := w.t.unit.pkg, flag := (w.sel f).getD 0, tm := w.t.tm, ctx := w.t.ctx,
        cap := cap, idx := idx, lanes := lanes, vals := (Lanes.toList lanes).map (fun l => (l, val l)),
        senderId := w.t.eventId, rel := rel, inScope := senderInside w.a w.t k, status := none }
    .done { w.a.setThread (w.t.raiseSel (w.sel f)) with nextId := w.a.nextId + 1, sends := tset w.a.sends x.id x } []

/-- The checks of R198 after those of the fields. -/
def sendBad (cap : List W32) (idx : Nat) : Option Bad :=
  firstBad [if capMalformed cap then some (operandBad 1 4 0 (BitVec.ofNat 64 (capNat cap))) else none,
    if (Cap.of cap).cnt < idx then some (operandBad 4 5 0 (BitVec.ofNat 64 idx)) else none]

/-- RSEND. -/
def execRsend (h : Hd) (f : FSel) (rel : Bool) (idx : Fin 8) (a b : Opnd) (s : State) : Out :=
  runWord 9 .any h s fun w =>
    let cap := w.t.quad (regNo a)
    checked (firstBad [srcRunS 1 4 a, srcU 2 b, w.selBad f, sendBad cap idx.val]) <|
      if w.part = 0 then .done w.a []
      else w.send f rel idx.val cap (Cap.of cap).lmask (fun _ => w.rs b)

/-- RSENDV. -/
def execRsendv (h : Hd) (f : FSel) (rel : Bool) (idx : Fin 8) (a b : Opnd) (s : State) : Out :=
  runWord 9 .lg h s fun w =>
    let cap := w.t.quad (regNo a)
    let fs : List VF := [{ j := 2, o := b, n := 1, dst := false }]
    checked (firstBad [srcRunS 1 4 a, vecBad w fs, w.selBad f, sendBad cap idx.val]) <|
      if w.arrived fs then w.send f rel idx.val cap ((Cap.of cap).lmask &&& w.part) (fun l => w.rd 2 b l)
      else .stay w.a .arrival

/-- RFENCE. -/
def execRfence (h : Hd) (s : State) : Out :=
  runWord 9 .lg h s fun w =>
    if w.part = 0 then .done w.a []
    else if (tvals w.a.sends).any (fun x => x.sender == w.t.uid) then .stay w.a .rfence
    else .done w.a []

/-- The release that the values of some lanes of a register carry from now on, or none (R135). -/
def Thread.carries (t : Thread) (reg : Nat) (lanes : Lanes) (r : Option (Level × Nat)) : Thread :=
  let kept := (t.relArr.map (fun e => if e.1 = reg then (e.1, e.2.1 &&& ~~~lanes, e.2.2) else e)).filter (fun e => !decide (e.2.1 = 0))
  { t with relArr := kept ++ match r with | some (l, n) => [(reg, lanes, l, n)] | none => [] }

/-- RGET.TK consumes `n` registers from `r` in some lanes: each value that a released send delivered is acquired at the capability's scope
(R135, R426) (DEDUCED, log 88), then the arrival bits are cleared (R194). -/
def consume (a : Arch) (t : Thread) (r n : Nat) (part : Lanes) : Arch :=
  let hits := t.relArr.filter (fun e => decide (r ≤ e.1) && decide (e.1 < r + n) && !decide (e.2.1 &&& part = 0))
  let a := hits.foldl (fun a e =>
    let u := scopeOf a t e.2.2.1
    gain (dropLines a (agentOf a t) u) t.uid (a.nextId - 1) u (fun x => decide (x.via = .send) && x.stamp == e.2.2.2)) a
  a.modThread t.uid (fun t => (List.range n).foldl (fun t i => (t.clearArr (r + i) part).carries (r + i) part none) t)

/-- RGET of either form. -/
def getWord (tk : Bool) (h : Hd) (n : Nat) (d a : Opnd) (s : State) : Out :=
  runWord 9 .lg h s fun w =>
    checked (firstBad [runBad w 0 d n 1, runBad w 1 a n 1]) <|
      let src := w.vreg 1 a 0
      let dst := w.vreg 0 d 0
      if w.runArrived src n w.part then
        let vs := (List.range n).flatMap (fun i => (Lanes.toList w.part).map (fun l => (dst + i, l, w.t.getV (src + i) l)))
        let a := if tk then consume w.a w.t src n w.part else w.a
        w.acts (.done (a.modThread w.t.uid (fun t => t.setVs vs)) [])
      else .stay w.a .arrival

/-- RGET. -/
def execRget (h : Hd) (cnt : Fin 8) (d a : Opnd) (s : State) : Out := getWord false h (cnt.val + 1) d a s
/-- RGET.TK. -/
def execRgetTk (h : Hd) (cnt : Fin 8) (d a : Opnd) (s : State) : Out := getWord true h (cnt.val + 1) d a s

/-! ## Delivery (R200, R202, R203, R205) -/

/-- sr.rfault and sr.rfsrc after one more overwrite fault, and FCNT as counted after it (R203). -/
def faultRecord (rfault rfsrc : W32) (reg sender : Nat) : W32 × W32 × Nat :=
  let n := bits rfault.toNat 16 8
  let n' := min 255 (n + 1)
  let freg := if n = 0 then reg else bits rfault.toNat 8 8
  (BitVec.ofNat 32 (rfault.toNat / 2 ^ 31 * 2 ^ 31 + n' * 65536 + freg * 256), if n = 0 then BitVec.ofNat 32 sender else rfsrc, n')

/-- Pend the overwrite trap of a fault when TE is set (R203, R213). The PC, MASK and WORD of the record are those of the next
clause, taken when the trap is. -/
def overwriteTrap (a : Arch) (time : Nat) (t : Thread) (te : Bool) (reg sender n : Nat) : Arch :=
  if te then
    a.pend t.uid { cls := .overwrite, opidx := 0, kinds := 0, kind := 0, mask := 0, pc := 0, addr := BitVec.ofNat 64 reg,
                   synd := BitVec.ofNat 64 (sender + n * 2 ^ 24), word := 0, faddr := 0, time := refTimer a time t.unit.pkg,
                   dests := [] }
  else a

/-- Log an overwrite fault on a resident target (R203). -/
def overwriteFault (a : Arch) (time : Nat) (t : Thread) (reg sender : Nat) : Arch :=
  let r := faultRecord t.sr.rfault t.sr.rfsrc reg sender
  overwriteTrap (a.setThread { t with sr := { t.sr with rfault := r.1, rfsrc := r.2.1 } }) time t (t.sr.rfault.getLsbD 31) reg sender r.2.2

/-! ### Context images (R221 to R223, R233) -/

/-- The image of a context on a core, if its location is set. -/
def imageOf (a : Arch) (pkg core ctx : Nat) : Option Image := a.images.find? (fun g => g.pkg == pkg && g.core == core && g.ctx == ctx)
/-- Whether a context is OUT on a core (R75). -/
def isOut (a : Arch) (pkg core ctx : Nat) : Bool := ((imageOf a pkg core ctx).map (·.out)).getD false
def setImage (a : Arch) (g : Image) : Arch :=
  { a with images := a.images.map (fun x => if x.pkg == g.pkg && x.core == g.core && x.ctx == g.ctx then g else x) }

/-- Fabric address of an image: OFFSET above the base of the context area of its core's berth (R110, R233). -/
def imageAddr (a : Arch) (g : Image) : Nat :=
  let b := g.core / 48
  fabric g.pkg (0x100000000000 + b * 0x10000000 + (0x10000000 - (a.berth g.pkg b).area * 0x100000) + g.offset)

/-- Offsets, in a wave record, of the arrival bits and the contents of the i-th saved register (R223). -/
def ImageWave.arrAt (x : ImageWave) (i : Nat) : Nat := 768 + 16 * x.front + 4 * i
def ImageWave.vAt (x : ImageWave) (i : Nat) : Nat := roundUp 128 (768 + 16 * x.front + 4 * x.regs.length) + 128 * i
/-- Bytes of a wave record (R223). -/
def ImageWave.size (x : ImageWave) : Nat := x.vAt x.regs.length + 16 * x.reds

/-- The image that holds a saved wave, and where in it. -/
def savedRecord (a : Arch) (t : Thread) : Option (Image × ImageWave) :=
  (imageOf a t.unit.pkg t.unit.idx t.ctx).bind (fun g => (g.waves.find? (fun x => x.uid == t.uid)).map (fun x => (g, x)))

/-- A little-endian number as memory holds it after some writes. -/
def numAfter (m : Memory) (ws : Writes) (ad n : Nat) : Nat := leVal ((List.range n).map (fun i => byteAfter m ws (ad + i)))

/-- Checks 6 and 7 of R200 and the delivery at a saved target: against its image and into it (R202, R203). A register that the image
does not hold reads as closed (R196). -/
def deliverSaved (a : Arch) (mem : Memory) (ws : Writes) (time : Nat) (x : Send) (t : Thread) : Arch × Writes :=
  let c := Cap.of x.cap
  let reg := c.base + x.idx
  match (savedRecord a t).bind (fun p => (p.2.regs.idxOf? reg).map (fun i => (p.1, p.2, i))) with
  | none => (a.answer x.id 6, [])
  | some (g, r, i) =>
    let at' := imageAddr a g + r.off
    let arr := BitVec.ofNat 32 (numAfter mem ws (at' + r.arrAt i) 4)
    if !bitAt (numAfter mem ws (at' + 704 + reg / 8) 1) (reg % 8) then (a.answer x.id 6, [])
    else if !c.ovw && !decide (arr &&& x.lanes = 0) then
      let rf := BitVec.ofNat 32 (numAfter mem ws (at' + 88) 4)
      let n := faultRecord rf (BitVec.ofNat 32 (numAfter mem ws (at' + 92) 4)) reg x.senderId
      ((overwriteTrap a time t (rf.getLsbD 31) reg x.senderId n.2.2).answer x.id 1,
       [(at' + 88, leBytes 4 n.1.toNat ++ leBytes 4 n.2.1.toNat)])
    else
      (a.answer x.id 0,
       (at' + r.arrAt i, leBytes 4 (arr ||| x.lanes).toNat) ::
         (Lanes.toList x.lanes).map (fun l => (at' + r.vAt i + 4 * l, leBytes 4 (tgetD x.vals l 0).toNat)))

/-- A send is delivered. The writes that its release passes are marked (R123, R134), and each lane that it writes carries the release, or
none, for the read that consumes it (R135). -/
def noteDelivery (a : Arch) (x : Send) (uid : Nat) : Arch :=
  let c := Cap.of x.cap
  let l := Level.ofCode c.scope
  let b := match x.rel, a.thread x.sender with
    | true, some s => markSeen a x.sender x.id (scopeOf a s l) false .send
    | _, _ => a
  b.modThread uid (fun t => t.carries (c.base + x.idx) x.lanes
    (if x.rel then some (l, if b.nextId = a.nextId then 0 else a.nextId) else none))

/-- Checks 5 to 7 of R200 and the delivery, at a target whose locator entry matched: the registers of a resident wave, or the
image of a saved one (R202). `ws` are writes made in the same step before. -/
def deliverSend (a : Arch) (mem : Memory) (ws : Writes) (time : Nat) (x : Send) (uid : Nat) : Arch × Writes :=
  match a.thread uid with
  | none => (a.answer x.id 2, [])
  | some t =>
    let c := Cap.of x.cap
    let reg := c.base + x.idx
    if (a.berth t.unit.pkg (t.unit.idx / 48)).held then (a.answer x.id 7, [])
    else if t.saved then
      let r := deliverSaved a mem ws time x t
      (if r.1.sendOk x.id then noteDelivery r.1 x uid else r.1, r.2)
    else if !t.isOpen reg then (a.answer x.id 6, [])
    else if !c.ovw && !decide (t.arrived reg &&& x.lanes = 0) then ((overwriteFault a time t reg x.senderId).answer x.id 1, [])
    else
      (noteDelivery ((a.setThread ((t.setVs ((Lanes.toList x.lanes).map (fun l => (reg, l, tgetD x.vals l 0)))).setArr reg x.lanes)).answer
        x.id 0) x uid, [])

/-- Whether sends wait in a locator entry's queue. -/
def LocState.holds : LocState → Bool
  | .saving => true | .restoring => true | .moving => true | _ => false

/-- Deliver the sends that left a queue, in arrival order. -/
def deliverAll (mem : Memory) (time uid : Nat) : List Nat → Arch → Writes → Arch × Writes
  | [], a, ws => (a, ws)
  | n :: r, a, ws => match tget a.sends n with
    | none => deliverAll mem time uid r a ws
    | some x => let y := deliverSend a mem ws time x uid; deliverAll mem time uid r y.1 (ws ++ y.2)

/-- Put a locator entry into a state; sends held in it leave in arrival order when it holds no longer (R205). `ws` are writes made in
the same step before. -/
def setLoc (a : Arch) (mem : Memory) (ws : Writes) (time : Nat) (waveid : W32) (st : LocState) : Arch × Writes :=
  match tget a.locs (locKey waveid) with
  | none => (a, ws)
  | some e =>
    let q := if st.holds then e.queue else []
    let a := { a with locs := tset a.locs (locKey waveid) { e with state := st, queue := q } }
    if st.holds then (a, ws) else deliverAll mem time e.uid e.queue a ws

/-- Check 4 of R200, and what follows in each state of the target (R202). -/
def meetTarget (a : Arch) (mem : Memory) (time : Nat) (x : Send) (c : Cap) : Arch × Writes :=
  let core := bits c.wave 6 8
  let slot := c.wave % 64
  if 191 < core ∨ 47 < slot then (a.answer x.id 2, [])
  else
    let k := locKey (BitVec.ofNat 32 c.wave)
    match tget a.locs k with
    | none => (a.answer x.id 2, [])
    | some e =>
      if !(e.ctx == c.ctx) || !(e.gen == c.gen) || decide (e.state = .retired) then (a.answer x.id 2, [])
      else if e.state.holds then
        ({ a with locs := tset a.locs k { e with queue := e.queue ++ [x.id] } }, [])
      else deliverSend a mem [] time x e.uid

/-- Report and count a TAG refusal on the sender's package (R204) (DESIGN CHOICE, log 63). -/
def tagRefusal (a : Arch) (time : Nat) (x : Send) : Arch :=
  match a.ctx x.senderPkg x.ctx with
  | none => a.event time x.senderPkg 5 x.ctx 0 1 0
  | some k =>
    { a with ctxs := tset a.ctxs (ctxKey x.senderPkg x.ctx) { k with tagRefusals := k.tagRefusals + 1 } }.event time x.senderPkg 5
      x.ctx 0 (k.tagRefusals + 1) 0

/-- Whether messages of a thread wait at its berth's clock crossing (R428). -/
def threadCrossing (a : Arch) (u : Nat) : Bool :=
  match a.thread u with
  | none => false
  | some t => match t.berthOf with
    | some b => (a.berth t.unit.pkg b).relock.isSome
    | none => false

/-- Whether messages to or from the target of a capability wait at the clock crossing of the berth where it is (R428). -/
def targetCrossing (a : Arch) (c : Cap) : Bool :=
  match (tget a.locs (locKey (BitVec.ofNat 32 c.wave))).bind (fun e => a.thread e.uid) with
  | some t => threadCrossing a t.uid
  | none => (a.berth (bits c.wave 14 10) (bits c.wave 6 8 / 48)).relock.isSome

/-- Whether a release at the capability's scope waits for the sender's earlier writes: its accesses, but for writes outside the scope
unit, and its earlier sends and summary writes (R134, R199, R411). -/
def sendHeld (a : Arch) (x : Send) (c : Cap) : Bool :=
  match a.thread x.sender with
  | none => false
  | some t =>
    let u := scopeOf a t (Level.ofCode c.scope)
    (tvals a.ops).any (fun o => o.uid == x.sender && decide (o.id < x.id) && o.reqs.any (fun q => o.waits q && !o.outside q u)) ||
    (tvals a.sends).any (fun y => y.sender == x.sender && decide (y.id < x.id)) ||
    (tvals a.sums).any (fun y => y.uid == x.sender && decide (y.id < x.id))

/-- Whether a send may arrive: sends of its sender to the same target arrive in order (R199), a release waits for the sender's
earlier writes (R134), it waits in no queue, and no clock crossing holds it (R428). -/
def sendReady (a : Arch) (x : Send) (c : Cap) : Bool :=
  x.status.isNone &&
  (tvals a.sends).all (fun y => !(y.sender == x.sender && decide (y.id < x.id) && y.status.isNone &&
    (Cap.of y.cap).wave == c.wave)) &&
  !(x.rel && sendHeld a x c) &&
  !((tvals a.locs).any (fun e => e.queue.contains x.id)) &&
  !targetCrossing a c && !threadCrossing a x.sender

/-- Whether a sender's package cannot reach a package: the pod has none of that number, or its boot has failed or not begun, so that
its UALink does not run (R200, R434). -/
def unreachable (a : Arch) (own pkg : Nat) : Bool :=
  !(own == pkg) && (a.missing.contains pkg || decide ((a.pkg pkg).boot = .off) || decide ((a.pkg pkg).boot = .failed))

/-- The tag key of a context as a package knows it: one for the whole pod while it is live on some package (R192). -/
def podKey (a : Arch) (pkg ctx : Nat) : Option W64 :=
  (tget a.keys (ctxKey pkg ctx)).orElse (fun _ => (a.keys.find? (fun k => k.1 % 65536 == ctx)).map (·.2))

/-- REGISTER_SEND_ARRIVAL: whether the target's package can be reached, checks 1 to 3 of R200, then the target. -/
def execRegisterSendArrival (send : Nat) (s : State) : Out :=
  runEvent s fun a mem time =>
    match tget a.sends send with
    | none => (a, [])
    | some x =>
      let c := Cap.of x.cap
      if !sendReady a x c then (a, [])
      else if unreachable a x.senderPkg (bits c.wave 14 10) then (a.answer x.id 7, [])
      else if !(x.ctx == c.ctx) then (a.answer x.id 4, [])
      else if !(decide ((podKey a (bits c.wave 14 10) c.ctx).map (fun k => tagOf k x.cap) = some c.tag)) then ((tagRefusal a time x).answer x.id 3, [])
      else if !x.inScope then (a.answer x.id 5, [])
      else meetTarget a mem time x c

/-- The sender's record of a status (R204). -/
def noteStatus (t : Thread) (code : Nat) : Thread :=
  let rs := t.sr.rsstat.toNat
  let sticky := if code = 0 then rs % 256 else setBit (rs % 256) code
  { t with sr := { t.sr with rsstat := BitVec.ofNat 32 (code * 65536 + sticky) } }

/-- Whether a wave's move has nothing to do at the source but to wait for its flags: its clause is over, and none of its sends is in flight
(DEDUCED, log 96). -/
def Thread.sets (t : Thread) (a : Arch) : Bool :=
  t.isWave && t.mig.isSome && t.clause.isNone && !t.tm && (tvals a.sends).all (fun x => !(x.sender == t.uid))

/-- A move begins: the locator entry is MOVING, and holds sends (R80, R202, R205). -/
def startMoves (a : Arch) (uid : Nat) : Arch :=
  match a.thread uid with
  | none => a
  | some t =>
    if t.sets a then { a with locs := tmod a.locs (locKey t.waveid) (fun e =>
      if e.state = .resident then { e with state := .moving } else e) } else a

/-- SEND_ACKNOWLEDGEMENT (R199, R204): the status is recorded, then the flag falls. -/
def execSendAcknowledgement (send : Nat) (s : State) : Out :=
  runEvent s fun a _ _ =>
    match tget a.sends send with
    | none => (a, [])
    | some x => match x.status with
      | none => (a, [])
      | some code =>
        if threadCrossing a x.sender || targetCrossing a (Cap.of x.cap) then (a, []) else
        (startMoves ({ a.modThread x.sender (fun t => noteStatus t code) with sends := tdel a.sends send }.lowerFlag x.sender (some x.flag)
          x.tm) x.sender, [])

end Sys2Proof.Machine
end

