-- ==== Sys2Proof/Machine/Matrix.lean ====
section
/-! DEFINITION. Class 8: matrix, speculation and inference instructions (spec/22 R383 to R408), and the operations that an MX
slice performs. -/

namespace Sys2Proof.Machine

/-! ## Checks (R384, R385, R390, R392) -/

/-- A class-8 word with its crew, in a wave that is not moored (R81, R384). -/
def matWord (h : Hd) (s : State) (body : W → Crew → WRes) : Out :=
  runWord 8 .lg h s fun w =>
    match mooredBad w.t with
    | some b => .bad b
    | none => match w.a.crew w.t.crew with
      | some c => body w c
      | none => .bad (operandBad 4 3 0 0)

/-- A tile that the crew does not hold (R255, R385). -/
def tileBad (c : Crew) (j t : Nat) : Option Bad := if t < c.acc then none else some (operandBad j 3 0 (BitVec.ofNat 64 t))

/-- A latch in a crew without accumulators (R397). -/
def latchBad (c : Crew) : Option Bad := if c.acc = 0 then some (operandBad 4 3 0 0) else none

/-- The 64 bits of a descriptor in an s pair. -/
def W.descVal (w : W) (o : Opnd) : Nat := (pair64 (w.t.getS (regNo o)) (w.t.getS (regNo o + 1))).toNat

/-- OFF, WIN and STRIDE (R389). -/
def rowOff (v : Nat) : Nat := v % 2 ^ 21
def rowWin (v : Nat) : Nat := v / 2 ^ 21 % 8
def rowStride (v : Nat) : Nat := v / 2 ^ 24 % 2 ^ 16

/-- The alignment, WIN and reserved-bit checks of a descriptor (R390). -/
def rowFieldBad (j v : Nat) : Option Bad :=
  if ¬ rowOff v % 64 = 0 ∨ ¬ rowStride v % 64 = 0 ∨ rowStride v = 0 then some (operandBad j 6 0 (BitVec.ofNat 64 v))
  else if 6 ≤ rowWin v ∨ ¬ v / 2 ^ 40 = 0 then some (operandBad j 5 0 (BitVec.ofNat 64 v))
  else none

/-- The checks of a descriptor field that are made under any guard (R384). -/
def descFieldBad (w : W) (j : Nat) (o : Opnd) : Option Bad :=
  match srcRunS j 2 o with
  | some b => some b
  | none => rowFieldBad j (w.descVal o)

/-- Where row `r` of `n` bytes lies, or the VA of its first failing byte (R86, R390). -/
def rowPlace (a : Arch) (mem : Memory) (time : Nat) (g : Agent) (right : Right) (v n r : Nat) : Except XFail Nat :=
  let o := rowOff v + r * rowStride v
  let base := spadVa (rowWin v) 0
  if 0x180000 ≤ o then .error (.bounds, base + o)
  else match translate a mem time g right (base + o) n with
    | .error x => .error x
    | .ok x => .ok x.fa

/-- A descriptor whose 32 rows of `n` bytes are in bounds (R390). -/
def W.rowDesc (w : W) (right : Right) (v n : Nat) : Except Bad RowDesc :=
  let rows := (List.range 32).map (rowPlace w.a w.mem w.time (agentOf w.a w.t) right v n)
  match rows.findSome? (fun r => match r with | .error x => some x | .ok _ => none) with
  | some x => .error (accessBad x.1.code (2 ^ x.1.code) w.part (BitVec.ofNat 64 x.2) (decide (right = .w)) false n)
  | none => match rows with
    | .ok fa :: _ => .ok { addr := fa, va := spadVa (rowWin v) (rowOff v), stride := rowStride v }
    | _ => .error (accessBad 4 16 w.part 0 false false n)

/-- The checks of an MMA or LATCH source that are made under any guard. -/
def matSrcBad (w : W) (c : Crew) (j : Nat) (src : MSrc) (o : Opnd) : Option Bad :=
  match src with
  | .reg => runBad w j o 16 1
  | .regH => runBad w j o 17 1
  | .desc => descFieldBad w j o
  | .latch => latchBad c

/-- Whether the registers of a source have arrived in some lanes (R387). -/
def matSrcArrived (w : W) (src : MSrc) (o : Opnd) (lanes : Lanes) : Bool :=
  match src with
  | .reg => w.runArrived (regNo o) 16 lanes
  | .regH => w.runArrived (regNo o) 17 lanes
  | _ => true

/-- The granule headers of a descriptor, as the engine reads them at issue; an uncorrectable granule gives 0 (R390, R396). -/
def rowHeaders (a : Arch) (d : RowDesc) : Tab (BitVec 16) :=
  (List.range 32).map (fun r =>
    let g := granule (d.addr + r * d.stride)
    (r, BitVec.ofNat 16 (if isBad a g then 0 else metaOf a g 32)))

/-- An operand taken at issue or at a signing: registers of some lanes, a checked descriptor with its headers, or a latch
(R388, R390, R393, R397). -/
def W.matSource (w : W) (c : Crew) (j : Nat) (src : MSrc) (o : Opnd) (lanes : Lanes) : Except Bad (Frag × Option RowDesc) :=
  match src with
  | .reg => .ok (fragOfRegs w.t (regNo o) false lanes, none)
  | .regH => .ok (fragOfRegs w.t (regNo o) true lanes, none)
  | .desc => match w.rowDesc .rd (w.descVal o) 64 with
    | .error b => .error b
    | .ok d => .ok ({ data := [], hdr := rowHeaders w.a d, present := BitVec.allOnes 32, valid := true }, some d)
  | .latch =>
    let f := if j = 1 then c.latchA else c.latchB
    if f.valid then .ok (f, none) else .error (operandBad j 3 0 0)

/-- The header check of an operand (R391, R397). -/
def headerBad (j : Nat) (f : Frag) (ok : Nat → Bool) : Option Bad :=
  (f.badHeader ok).map (fun r => operandBad j 9 r (BitVec.ofNat 64 (f.header r)))

/-- Whether a queued operation of the crew has yet to write a latch (R386, R397) (DEDUCED, log 55). -/
def latchQueued (a : Arch) (c : Crew) (b : Bool) : Bool :=
  (tvals a.slice).any (fun o => o.crew == c.id && o.what.writesLatch b)

/-- A write to a tile that is speculative, and whose shadow another window holds (R402). -/
def specWriteBad (w : W) (c : Crew) (m : Nat) (spec : Bool) : Option Bad :=
  if spec && shadowTaken w.a w.t c m then some (operandBad 0 5 0 (BitVec.ofNat 64 m)) else none

/-- The check of R402 for a word whose write is speculative while its wave's window is open. -/
def specBad (w : W) (c : Crew) (m : Nat) : Option Bad := specWriteBad w c m w.t.spec.isOpen

/-- Queue a slice operation for the word, after a change of the thread. -/
def W.slice (w : W) (t : Thread) (what : SliceWhat) (da db : Option RowDesc) (spec : Bool) (acq : Bool := false) : WRes :=
  .done ((w.a.setThread t).queueSlice w.t what da db spec (w.c.va w.c.pos) (w.c.words.getD w.c.pos 0) w.c.pos w.part acq) []

/-- Whether a word of the matrix path makes an acquire: by its modifier, or because a fence with .MX made one before it (R125). -/
def W.matAcq (w : W) (acq : Bool) : Bool := acq || w.t.acqMx.isSome

/-- An acquire of the matrix path, and a fence with .MX, order the issuer's earlier accesses before its reads (R125, R126). -/
def W.matOrdered (w : W) (acq : Bool) (k : WRes) : WRes :=
  w.ordered (fenceWaitPath w.a w.t true || (w.matAcq acq && ownPending w.a w.t.uid)) k

/-! ## MMA (R392 to R395) -/

/-- KLEN and EMASK (R392). -/
def mmaKlen (h : Hd) (v : MmaV) : Nat := match h.ext with | .lit x => x.toNat % 1024 | _ => mmaDepth v
def mmaEmask (h : Hd) : Lanes := match h.ext with | .lit x => BitVec.ofNat 32 (x.toNat / 1024) | _ => 0

/-- The check of KLEN and EMASK (R392). -/
def mmaLitBad (h : Hd) (v : MmaV) (cve : Bool) : Option Bad :=
  let k := mmaKlen h v
  if k = 0 ∨ mmaDepth v < k then some (operandBad 4 5 0 (BitVec.ofNat 64 k))
  else if !(mmaEmask h = 0) && !cve then some (operandBad 4 5 0 ((mmaEmask h).setWidth 64))
  else none

/-- A literal as a convergence register records it. -/
def Hd.litRec (h : Hd) : Option Nat := match h.ext with | .lit x => some x.toNat | _ => none

/-- The OPERAND checks of a source that need no access: a latch is valid, and its headers, or those of registers, suit the variant
(R391, R397). -/
def W.heldBad (w : W) (c : Crew) (v : MmaV) (j : Nat) (src : MSrc) (o : Opnd) (lanes : Lanes) : Option Bad :=
  match src with
  | .desc => none
  | _ => match w.matSource c j src o lanes with
    | .error x => some x
    | .ok f => headerBad j f.1 (headerOk v)

/-- The OPERAND failure of a source that has been taken: its own, or that of its headers. One of ACCESS comes after every other (R207). -/
def sourceOpBad (v : MmaV) (j : Nat) (r : Except Bad (Frag × Option RowDesc)) : Option Bad :=
  match r with
  | .error x => if x.cls = .operand then some x else none
  | .ok f => headerBad j f.1 (headerOk v)

/-- Both operands of a step: the checks that need no access, then the descriptors' (R207), and the checks of their headers. -/
def W.mmaSources (w : W) (c : Crew) (v : MmaV) (asrc bsrc : MSrc) (a b : Opnd) (lanes : Lanes) :
    Except Bad ((Frag × Option RowDesc) × (Frag × Option RowDesc)) :=
  match firstBad [w.heldBad c v 1 asrc a lanes, w.heldBad c v 2 bsrc b lanes] with
  | some x => .error x
  | none =>
    let ra := w.matSource c 1 asrc a lanes
    let rb := w.matSource c 2 bsrc b lanes
    match firstBad [sourceOpBad v 1 ra, sourceOpBad v 2 rb], ra, rb with
    | some x, _, _ => .error x
    | none, .error x, _ => .error x
    | none, _, .error x => .error x
    | none, .ok fa, .ok fb => .ok (fa, fb)

/-- MMA without a convergence register: the step issues with the word (R393). -/
def W.mmaNow (w : W) (c : Crew) (v : MmaV) (acq : Bool) (asrc bsrc : MSrc) (ka kb : Bool) (rm : RM) (tile : Nat) (a b : Opnd) : WRes :=
  match w.mmaSources c v asrc bsrc a b w.part with
  | .error x => .bad x
  | .ok (fa, fb) =>
    let mode := w.mode rm
    let what := SliceWhat.mma v tile fa.1 fb.1 (mmaKlen w.h v) mode.code ka kb w.t.sr.key w.t.sr.ctr
    w.slice (w.t.afterRs (some mode)) what fa.2 fb.2 w.t.spec.isOpen (w.matAcq acq)

/-- The signed register with the union of S and its register fragments (R393 step 4); when its masks are equal the step
issues. -/
def W.mmaSign (w : W) (c : Crew) (k : Nat) (x : Cv) : WRes :=
  if x.signed = x.expected then
    match x.instr with
    | some i => .done (issueCv w.a k c x i) []
    | none => .done w.a []
  else .done (w.a.setCrew { c with cvs := tset c.cvs k x }) []

/-- The first signing of an empty register (R393 step 2). -/
def W.mmaFirst (w : W) (c : Crew) (v : MmaV) (asrc bsrc : MSrc) (rm : RM) (k : Nat) (a b : Opnd) : WRes :=
  let em := mmaEmask w.h
  let expected := (if em = 0 then w.t.live else em) &&& w.t.live
  if ¬ w.part &&& ~~~expected = 0 then .bad (operandBad 4 5 0 (w.part.setWidth 64))
  else match w.mmaSources c v asrc bsrc a b w.part with
    | .error x => .bad x
    | .ok (fa, fb) =>
      w.mmaSign c k
        { expected := expected, owner := w.t.wnum, signed := w.part, word := BitVec.ofNat 64 (w.c.words.getD w.c.pos 0),
          lit := Hd.litRec w.h, a := fa.1, b := fb.1, descA := fa.2, descB := fb.2, rm := (w.mode rm).code,
          spec := w.t.spec.isOpen, pc := w.c.va w.c.pos, opidx := w.c.pos }

/-- A later signing by the owner (R393 steps 3 and 4): only register operands are read again. -/
def W.mmaAgain (w : W) (c : Crew) (v : MmaV) (asrc bsrc : MSrc) (k : Nat) (a b : Opnd) (x : Cv) : WRes :=
  if ¬ x.word = BitVec.ofNat 64 (w.c.words.getD w.c.pos 0) ∨ ¬ x.lit = Hd.litRec w.h ∨ ¬ w.part &&& ~~~x.expected = 0 ∨
      ¬ w.part &&& x.signed = 0 then .bad (operandBad 4 5 0 (w.part.setWidth 64))
  else
    let take (j : Nat) (src : MSrc) (o : Opnd) (old : Frag) : Except Bad Frag :=
      match src with
      | .desc => .ok old
      | .latch => .ok old
      | _ => (w.matSource c j src o w.part).map (fun f => f.1)
    match take 1 asrc a x.a, take 2 bsrc b x.b with
    | .error e, _ => .bad e
    | _, .error e => .bad e
    | .ok fa, .ok fb =>
      let isReg (s : MSrc) : Bool := match s with | .desc => false | .latch => false | _ => true
      checked (firstBad [if isReg asrc then headerBad 1 fa (headerOk v) else none,
          if isReg bsrc then headerBad 2 fb (headerOk v) else none]) <|
        w.mmaSign c k { x with signed := x.signed ||| w.part, a := if isReg asrc then x.a.join fa else x.a,
                               b := if isReg bsrc then x.b.join fb else x.b }

/-- The checks of R397 and R402 that an MMA makes also when no lane takes part (R208), where it would take its operands: a latch
source is invalid once the queued latch operations are counted out (log 55), or the tile's shadow is another window's. -/
def W.mmaIdleBad (w : W) (c : Crew) (asrc bsrc : MSrc) (tile : Nat) (x : Option Cv) : Option Bad :=
  match x with
  | some x => if x.owner = w.t.wnum then specWriteBad w c tile x.spec else none
  | none => firstBad [
      if asrc == .latch && !latchQueued w.a c false && !c.latchA.valid then some (operandBad 1 3 0 0) else none,
      if bsrc == .latch && !latchQueued w.a c true && !c.latchB.valid then some (operandBad 2 3 0 0) else none,
      specBad w c tile]

/-- MMA. -/
def execMma (h : Hd) (v : MmaV) (_lvl : LvlCode) (acq : Bool) (asrc bsrc : MSrc) (ka kb : Bool) (rm : RM) (cv : Option (Fin 8))
    (t : Fin 16) (a b : Opnd) (s : State) : Out :=
  matWord h s fun w c =>
    checked (firstBad [tileBad c 0 t.val, matSrcBad w c 1 asrc a, matSrcBad w c 2 bsrc b,
        match cv with
          | some k => if k.val < c.ncv then none else some (operandBad 3 3 0 (BitVec.ofNat 64 k.val))
          | none => none,
        mmaLitBad h v cv.isSome]) <|
      let x := cv.bind (fun k => tget c.cvs k.val)
      if w.part = 0 then checked (w.mmaIdleBad c asrc bsrc t.val x) (.done w.a [])
      else if !(matSrcArrived w asrc a w.part && matSrcArrived w bsrc b w.part) then .stay w.a .arrival
      else if (asrc == .latch && latchQueued w.a c false) || (bsrc == .latch && latchQueued w.a c true) then .stay w.a .latch
      else w.matOrdered acq <|
        match cv, x with
        | none, _ => checked (specBad w c t.val) (w.mmaNow c v acq asrc bsrc ka kb rm t.val a b)
        | some k, none => checked (specBad w c t.val) (w.mmaFirst c v asrc bsrc rm k.val a b)
        | some k, some x =>
          if x.owner = w.t.wnum then checked (specWriteBad w c t.val x.spec) (w.mmaAgain c v asrc bsrc k.val a b x)
          else .stay w.a .cv

/-! ## Latches (R397) -/

/-- LATCH. -/
def execLatch (h : Hd) (b : Bool) (_lvl : LvlCode) (acq : Bool) (src : MSrc) (o : Opnd) (s : State) : Out :=
  matWord h s fun w c =>
    checked (firstBad [matSrcBad w c 1 src o, latchBad c]) <|
      if w.part = 0 then .done w.a []
      else if !matSrcArrived w src o w.part then .stay w.a .arrival
      else w.matOrdered acq <|
        match w.matSource c 1 src o w.part with
        | .error x => .bad x
        | .ok f => checked (headerBad 1 f.1 (fun x => decide (x % 256 ≤ 8))) (w.slice w.t (.latch b f.1) f.2 none false (w.matAcq acq))

/-- Whether a partly signed step names a latch (R393). -/
def latchNamed (c : Crew) (b : Bool) : Bool :=
  c.cvs.any (fun p => match p.2.instr with
    | some (.mma _ _ _ _ asrc bsrc _ _ _ _ _ _ _) => if b then bsrc == .latch else asrc == .latch
    | _ => false)

/-- UNLATCH. -/
def execUnlatch (h : Hd) (b : Bool) (s : State) : Out :=
  matWord h s fun w c =>
    checked (latchBad c) <|
      if w.part = 0 then .done w.a []
      else if latchNamed c b then .stay w.a .latch
      else w.slice w.t (.unlatch b) none none false

/-! ## Accumulator moves (R398 to R400) -/

/-- A word that queues one operation on the slice when a lane takes part; `tile` is the tile that it writes, if any. -/
def W.tileOp (w : W) (c : Crew) (bads : List (Option Bad)) (tile : Option Nat) (what : SliceWhat) : WRes :=
  checked (firstBad (bads ++ [tile.bind (specBad w c)])) <|
    if w.part = 0 then .done w.a []
    else w.slice w.t what none none (tile.isSome && w.t.spec.isOpen)

/-- ACCZ. -/
def execAccz (h : Hd) (t : Fin 16) (s : State) : Out :=
  matWord h s fun w c => w.tileOp c [tileBad c 0 t.val] (some t.val) (.accz t.val)

/-- ACCMOV. -/
def execAccmov (h : Hd) (tr : Bool) (d a : Fin 16) (s : State) : Out :=
  matWord h s fun w c => w.tileOp c [tileBad c 0 d.val, tileBad c 1 a.val] (some d.val) (.accmov d.val a.val tr)

/-- ACCWR. -/
def execAccwr (h : Hd) (t : Fin 16) (a : Opnd) (s : State) : Out :=
  matWord h s fun w c =>
    checked (firstBad [tileBad c 0 t.val, runBad w 1 a 32 1]) <|
      if w.runArrived (regNo a) 32 w.part then
        w.tileOp c [] (some t.val) (.accwr t.val ((Lanes.toList w.part).flatMap (fun i =>
          (List.range 32).map (fun j => (32 * i + j, w.t.getV (regNo a + j) i)))))
      else .stay w.a .arrival

/-- The registers of an ACCRD run. -/
def accrdRun (e : EF) : Nat := match e with | .f32 => 32 | _ => 16

/-- ACCRD: the arrival bits of its run are cleared at issue (R399). -/
def execAccrd (h : Hd) (e : EF) (rm : RM) (d : Opnd) (t : Fin 16) (s : State) : Out :=
  matWord h s fun w c =>
    checked (firstBad [runBad w 0 d (accrdRun e) 1, tileBad c 1 t.val]) <|
      if w.part = 0 then .done w.a []
      else
        let mode := w.mode rm
        let what := SliceWhat.accrd t.val e mode.code (regNo d) w.t.sr.key w.t.sr.ctr
        let th := (List.range (accrdRun e)).foldl (fun (x : Thread) j => x.clearArr (regNo d + j) w.part) w.t
        w.slice (th.afterRs (if e = .f32 then none else some mode)) what none none false

/-- ACCST (R400): an engine command that the slice feeds. -/
def execAccst (h : Hd) (m : MMod) (a : Opnd) (t : Fin 16) (s : State) : Out :=
  matWord h s fun w c =>
    checked (firstBad [descFieldBad w 1 a, tileBad c 2 t.val, w.selBad m.fsel]) <|
      if w.part = 0 then .done w.a []
      else if w.flagFull m.fsel then .stay w.a .flagFull
      else w.matOrdered m.acq <|
        match w.rowDesc .w (w.descVal a) 128 with
        | .error x => .bad x
        | .ok d =>
          let k := w.mkCmd (.accst d none) m.fsel m [] none none
          let ar := { w.a.setThread (w.t.raiseSel k.flag) with nextId := w.a.nextId + 1, cmds := tset w.a.cmds k.id k }
          .done (ar.queueSlice w.t (.accst t.val k.id) none none false (w.c.va w.c.pos) (w.c.words.getD w.c.pos 0) w.c.pos
            w.part) []

/-- ACCLD. -/
def execAccld (h : Hd) (_lvl : LvlCode) (acq : Bool) (t : Fin 16) (a : Opnd) (s : State) : Out :=
  matWord h s fun w c =>
    checked (firstBad [tileBad c 0 t.val, descFieldBad w 1 a, specBad w c t.val]) <|
      if w.part = 0 then .done w.a []
      else w.matOrdered acq <|
        match w.rowDesc .rd (w.descVal a) 128 with
        | .error x => .bad x
        | .ok d => w.slice w.t (.accld t.val d) none none w.t.spec.isOpen (w.matAcq acq)

/-! ## Speculation (R401 to R403) -/

/-- SPEC.BEGIN. -/
def execSpecBegin (h : Hd) (pred : Bool) (a : Opnd) (s : State) : Out :=
  matWord h s fun w _ =>
    checked (firstBad [match a with | .s _ => none | _ => opBad 1 1 a,
        if w.t.spec.isOpen then some (operandBad 4 5 0 0) else none]) <|
      w.acts <| WRes.own w { w.t with spec := { isOpen := true, pred := pred, reg := regNo a } }

/-- SPEC.RESOLVE. -/
def execSpecResolve (h : Hd) (p : Fin 8) (s : State) : Out :=
  matWord h s fun w c =>
    checked (if !w.t.spec.isOpen || c.cvs.any (fun x => x.2.owner == w.t.wnum && x.2.spec) then some (operandBad 4 5 0 0) else none) <|
      let commit := (!decide (w.t.getS w.t.spec.reg = 0)) == w.t.spec.pred
      let t := { w.t.setP p.val w.part (if commit then BitVec.allOnes 32 else 0) with spec := Spec.closed }
      w.acts (w.slice t (.resolve commit) none none false)

/-! ## TREEMASK (R405) -/

/-- The parent index of a lane. -/
def W.parent (w : W) (a : Opnd) (l : Nat) : Int := (w.rd 1 a l).toInt

/-- Whether a parent index is allowed in a lane. -/
def parentOk (part : Lanes) (i : Nat) (q : Int) : Bool :=
  decide (q = -1) || (decide (0 ≤ q) && decide (q < i) && part.getLsbD q.toNat)

/-- The ancestors of a token, itself among them; parents lie below their children, so `n` steps suffice. -/
def ancestorsOf (parent : Nat → Int) : Nat → Nat → Lanes
  | 0, _ => 0
  | n + 1, i =>
    let me : Lanes := BitVec.ofNat 32 (2 ^ i)
    let q := parent i
    if q < 0 then me else me ||| ancestorsOf parent n q.toNat

/-- TREEMASK. -/
def execTreemask (h : Hd) (ap : Bool) (t : Fin 16) (a b : Opnd) (s : State) : Out :=
  matWord h s fun w c =>
    let fa : VF := { j := 1, o := a, n := 1, dst := false }
    checked (firstBad [tileBad c 0 t.val, match a with | .v _ => vecBad w [fa] | .ix => vecBad w [fa] | _ => opBad 1 1 a,
        srcU 2 b]) <|
      if w.arrived [fa] then
        match (Lanes.toList w.part).find? (fun i => !parentOk w.part i (w.parent a i)) with
        | some i => .bad (operandBad 1 5 i ((w.rd 1 a i).signExtend 64))
        | none => w.tileOp c [] (some t.val)
            (.treemask t.val ap ((Lanes.toList w.part).map (fun i => (i, ancestorsOf (w.parent a) 32 i))) (w.rs b))
      else .stay w.a .arrival

/-! ## KVCOMMIT (R406, R407) -/

/-- The checks of a KVCOMMIT descriptor: SRC, DST, ESIZE, NPLANE, SSTRIDE, DSTRIDE and the reserved bytes. -/
def kvBad (b : List Byte) : Option Bad :=
  let v (i n : Nat) : Nat := numAt b i n
  firstBad ([(0, 8), (8, 8), (16, 4), (24, 8), (32, 8)].map (fun (f : Nat × Nat) => need (v f.1 f.2 % 16 == 0) 6 (v f.1 f.2)) ++
    [need (decide (16 ≤ v 16 4) && decide (v 16 4 ≤ 65536)) 5 (v 16 4),
     need (decide (1 ≤ v 20 4) && decide (v 20 4 ≤ 256)) 5 (v 20 4), need (allZero (b.drop 40)) 5 0])

/-- The copies of a KVCOMMIT, by ascending entry and plane (R407). -/
def kvLegs (g : Agent) (b : List Byte) (mask : Nat) : List Leg :=
  let es := numAt b 16 4
  let entries := chosen mask 32
  (List.range entries.length).zip entries |>.flatMap (fun x =>
    (List.range (numAt b 20 4)).map (fun pl =>
      leg (.va g (numAt b 0 8 + pl * numAt b 24 8 + x.2 * es)) (.va g (numAt b 8 8 + pl * numAt b 32 8 + x.1 * es)) es))

/-- KVCOMMIT. -/
def execKvcommit (h : Hd) (m : MMod) (d a b : Opnd) (s : State) : Out :=
  matWord h s fun w _ =>
    checked (firstBad [dstS 1 d, srcU64 1 a, srcU 2 b, w.selBad m.fsel]) <|
      if w.part = 0 then .done w.a []
      else if w.flagFull m.fsel then .stay w.a .flagFull
      else w.matOrdered m.acq <| w.ordered (ownPending w.a w.t.uid || fenceWait w.a w.t false || passedPending w.a w.t.uid w.a.nextId) <|
        match w.readIssue w.a (w.rs64 a).toNat 64 with
        | .error x => .bad x
        | .ok (ar, none) => .done ar []
        | .ok (ar, some bs) => checked (kvBad bs) <|
            let t := (ar.thread w.t.uid).getD w.t
            let k := { w.mkCmd .kvcommit m.fsel m (kvLegs (agentOf w.a w.t) bs (w.rs b).toNat) (statusReg d) none with
                       id := ar.nextId }
            .done { ar.setThread (t.raiseSel k.flag) with nextId := ar.nextId + 1, cmds := tset ar.cmds k.id k } []

/-- KVCOMMIT_COMPLETE. -/
def execKvcommitComplete (cmd : Nat) (s : State) : Out :=
  runEvent s fun a mem time => match tget a.cmds cmd with
    | some c => if c.kind = .kvcommit then runCmd a mem time c endCmd else (a, [])
    | none => (a, [])

/-! ## The slice (R386, R394 to R400) -/

/-- The ERROR record of a slice operation (R213, R396). -/
def sliceRecord (a : Arch) (time : Nat) (o : SliceOp) (addr memory grade : Nat) (fas : List Nat) : TrapRec :=
  { cls := .error, opidx := o.opidx, kinds := 0, kind := 0, mask := o.part, pc := o.pc, addr := BitVec.ofNat 64 addr,
    synd := BitVec.ofNat 64 (memory + grade * 16 + min 255 fas.length * 256), word := BitVec.ofNat 64 o.word,
    faddr := BitVec.ofNat 64 (fas.headD 0), time := refTimer a time (((a.thread o.uid).map (·.unit.pkg)).getD 0), dests := [] }

/-- An event for each of the uncorrectable granules that a slice operation met (R218). -/
def sliceNotes (a : Arch) (time : Nat) (o : SliceOp) (memory : Nat) (fas : List Nat) : Arch :=
  match a.thread o.uid with
  | none => a
  | some t => fas.foldl (fun a fa => a.event time t.unit.pkg 7 t.ctx memory fa t.waveid.toNat) a

/-- The ERROR trap of a slice operation, with its events. -/
def sliceError (a : Arch) (time : Nat) (o : SliceOp) (addr memory grade : Nat) (fas : List Nat) : Arch :=
  (sliceNotes a time o memory fas).pend o.uid (sliceRecord a time o addr memory grade fas)

/-- Read 32 rows of `n` bytes of a descriptor: words keyed n/4 × row + word; uncorrectable granules read zero and raise the
trap. -/
def readRows (a : Arch) (mem : Memory) (time : Nat) (o : SliceOp) (d : RowDesc) (n : Nat) : Arch × Tab W32 :=
  let words := (List.range 32).flatMap (fun r => (List.range (n / 4)).map (fun j =>
    let fa := d.addr + r * d.stride + 4 * j
    (n / 4 * r + j, if isBad a (granule fa) then (0 : W32) else BitVec.ofNat 32 (mnum mem fa 4))))
  let bad := (List.range 32).flatMap (fun r => (List.range (n / 64)).filterMap (fun i =>
    let x := r * d.stride + 64 * i
    if isBad a (granule (d.addr + x)) then some x else none))
  match bad with
  | [] => (a, words)
  | x :: _ => (sliceError a time o (d.va + x) 3 1 ((bad.map (fun y => (d.addr + y) / 64 * 64)).eraseDups), words)

/-- The data of an operand whose source is a descriptor. -/
def fillFrag (a : Arch) (mem : Memory) (time : Nat) (o : SliceOp) (d : Option RowDesc) (f : Frag) : Arch × Frag :=
  match d with
  | none => (a, f)
  | some d => let r := readRows a mem time o d 64; (r.1, { f with data := r.2 })

/-- The rows, of some, of a tile that hold an uncorrectable error. -/
def Crew.errorRows (c : Crew) (shadow : Bool) (t : Nat) (rows : Lanes) : List Nat :=
  (Lanes.toList rows).filter (fun r => c.badRows.contains (32 * (if shadow then t + 16 else t) + r))

/-- Rows of a tile that hold an uncorrectable error raise the trap of R396. -/
def bankError (a : Arch) (time : Nat) (o : SliceOp) (c : Crew) (shadow : Bool) (t : Nat) (rows : Lanes) : Arch :=
  let bad := c.errorRows shadow t rows
  if bad.isEmpty then a else sliceError a time o (256 + (if shadow then t + 16 else t)) 4 0 (bad.map (fun _ => 0))

/-- The trap of an ACCRD whose rows hold such an error: it is pending from the landing on, and its affected destination words are those of
the rows (R214, R396) (DESIGN CHOICE, log 26). -/
def accrdError (a : Arch) (time : Nat) (o : SliceOp) (c : Crew) (shadow : Bool) (t reg n : Nat) : Option TrapRec :=
  let bad := c.errorRows shadow t o.part
  if bad.isEmpty then none
  else some { sliceRecord a time o (256 + (if shadow then t + 16 else t)) 4 0 (bad.map (fun _ => 0)) with
    dests := (List.range n).map (fun j => bad.map (fun r => { reg := reg + j, lane := r })) }

/-- A whole tile as an operation reads it. -/
def Crew.tileWords (c : Crew) (shadow : Bool) (t : Nat) : Tab W32 :=
  (List.range 1024).map (fun e => (e, c.tileWord shadow t e))

/-- Write words of a tile, and clear the error marks of the rows that `rows` names as written whole. -/
def Crew.writeTile (c : Crew) (shadow : Bool) (t : Nat) (rows : Lanes) (ws : Tab W32) : Crew :=
  let k := if shadow then t + 16 else t
  let c := c.setTile shadow t ws
  { c with badRows := c.badRows.filter (fun r => !(r / 32 == k && rows.getLsbD (r % 32))) }

/-- The words of a step's row and column masks (R405). -/
def treeWords (ap : Bool) (anc : Tab Lanes) (val : W32) : Tab W32 :=
  anc.flatMap (fun p => (List.range 32).filterMap (fun j =>
    if p.2.getLsbD j then (if ap then none else some (32 * p.1 + j, (0 : W32))) else some (32 * p.1 + j, val)))

/-- Register words, keyed 32 × register + lane, and flags of an ACCRD (R399). -/
def accrdWords (c : Crew) (shadow : Bool) (t : Nat) (e : EF) (mode : RMode) (reg key ctr : Nat) (part : Lanes) :
    Tab W32 × FFlags :=
  (Lanes.toList part).foldl (fun acc l =>
    let word (j : Nat) : Nat := (c.tileWord shadow t (32 * l + j)).toNat
    match e with
    | .f32 => ((List.range 32).foldl (fun ws j => tset ws (vkey (reg + j) l) (BitVec.ofNat 32 (word j))) acc.1, acc.2)
    | _ =>
      (List.range 16).foldl (fun (acc : Tab W32 × FFlags) i =>
        let r := mapElems 16 2 (fun k => convert e .f32 mode
          (match mode with | .rs => draw key ctr (2 * i + k) l | _ => 0) false (word (2 * i + k)))
        (tset acc.1 (vkey (reg + i) l) (BitVec.ofNat 32 r.1), acc.2.or r.2)) acc) ([], FFlags.none)

/-- Perform one operation of a slice on its crew (DEDUCED, log 56). -/
def performOn (a : Arch) (mem : Memory) (time : Nat) (o : SliceOp) (c0 : Crew) : Arch :=
  -- the crew with the shadow that a speculative write takes, and whether the operation uses the shadow of a tile
  let c := match o.what.writes with | some t => c0.beginShadow o t | none => c0
  let sh (t : Nat) : Bool := c.shadowed o t
  match o.what with
  | .mma v t fa fb klen rm ka kb key ctr =>
    let ra := fillFrag a mem time o o.descA fa
    let rb := fillFrag ra.1 mem time o o.descB fb
    let a := bankError rb.1 time o c (sh t) t ra.2.present
    let r := mmaStep v ra.2 rb.2 klen (RMode.ofCode rm) key ctr (c.tileWord (sh t) t)
    let c := c.writeTile (sh t) t (if rb.2.present = BitVec.allOnes 32 then ra.2.present else 0) r.1
    let c := if ka then { c with latchA := ra.2 } else c
    let c := if kb then { c with latchB := rb.2 } else c
    (a.setCrew c).modThread o.uid (fun x => x.orFlags r.2)
  | .latch b f =>
    let r := fillFrag a mem time o o.descA f
    r.1.setCrew (if b then { c with latchB := r.2 } else { c with latchA := r.2 })
  | .unlatch b => a.setCrew (if b then { c with latchB := Frag.empty } else { c with latchA := Frag.empty })
  | .accz t => a.setCrew (c.writeTile (sh t) t (BitVec.allOnes 32) ((List.range 1024).map (fun e => (e, 0))))
  | .accwr t data => a.setCrew (c.writeTile (sh t) t o.part data)
  | .accmov d s tr =>
    let a := bankError a time o c (sh s) s (BitVec.allOnes 32)
    let ws := c.tileWords (sh s) s
    a.setCrew (c.writeTile (sh d) d (BitVec.allOnes 32)
      (if tr then ws.map (fun p => (32 * (p.1 % 32) + p.1 / 32, p.2)) else ws))
  | .accrd t e rm reg key ctr =>
    let err := accrdError a time o c (sh t) t reg (accrdRun e)
    let a := if err.isSome then sliceNotes a time o 4 ((c.errorRows (sh t) t o.part).map (fun _ => 0)) else a
    let r := accrdWords c (sh t) t e (RMode.ofCode rm) reg key ctr o.part
    let l : Landing := { id := a.nextId, uid := o.uid, regs := r.1, rows := o.part, first := reg, count := accrdRun e,
                         flags := r.2.bits, err := err }
    { a with nextId := a.nextId + 1, landings := tset a.landings l.id l }
  | .accst t cmd =>
    let a := bankError a time o c (sh t) t (BitVec.allOnes 32)
    { a with cmds := tmod a.cmds cmd (fun k => match k.kind with
        | .accst d _ => { k with kind := .accst d (some (c.tileWords (sh t) t)) }
        | _ => k) }
  | .accld t d =>
    let r := readRows a mem time o d 128
    r.1.setCrew (c.writeTile (sh t) t (BitVec.allOnes 32) r.2)
  | .treemask t ap anc val => a.setCrew (c.writeTile (sh t) t (if ap then 0 else o.part) (treeWords ap anc val))
  | .resolve commit => a.setCrew (c.resolve o.uid commit)

/-- The tiles, shadows and their errors as they stood in an earlier crew. -/
def Crew.tilesOf (c c0 : Crew) : Crew :=
  { c with tiles := c0.tiles, shadows := c0.shadows, badRows := c0.badRows, shadowOwner := c0.shadowOwner }

/-- Perform one operation of a slice; a speculative write of a wave that has retired is discarded with its window (R403). -/
def performSlice (a : Arch) (mem : Memory) (time : Nat) (o : SliceOp) : Arch :=
  let a := { a with slice := tdel a.slice o.id }
  match a.crew o.crew with
  | none => a
  | some c0 =>
    let r := performOn a mem time o c0
    if o.spec && (a.thread o.uid).isNone then { r with crews := tmod r.crews o.crew (fun c => c.tilesOf c0) } else r

/-- The core of an operation's crew, keyed 192 × package + core. -/
def SliceOp.coreKey (a : Arch) (o : SliceOp) : Option Nat := (a.crew o.crew).map (fun c => 192 * c.pkg + c.core)

/-- The descriptors whose rows an operation reads, with their bytes a row. -/
def SliceOp.rows (o : SliceOp) : List (RowDesc × Nat) :=
  (o.descA.toList ++ o.descB.toList).map (fun d => (d, 64)) ++ (match o.what with | .accld _ d => [(d, 128)] | _ => [])

/-- Whether an operation's acquire still awaits writes that a release has passed (R123, R126). -/
def sliceHeld (a : Arch) (o : SliceOp) : Bool :=
  (o.coreKey a).any (fun k => berthStill a (k / 192) (k % 192 / 48)) ||
  o.acq && o.rows.any (fun x => (List.range 32).any (fun r => heldSeen a o.uid o.id [] false (x.1.addr + r * x.1.stride) x.2))

/-- MATRIX_OPERATION_COMPLETE: the core's slice performs its oldest operation (R386). -/
def execMatrixOperationComplete (core : Nat) (s : State) : Out :=
  runEvent s fun a mem time =>
    match (tvals a.slice).find? (fun o => decide (o.coreKey a = some core)) with
    | none => (a, [])
    | some o => if sliceHeld a o then (a, []) else (performSlice a mem time o, [])

/-- ACCRD_LANDING: registers, arrival bits and flags (R399). -/
def execAccrdLanding (op : Nat) (s : State) : Out :=
  runEvent s fun a _ _ =>
    match tget a.landings op with
    | none => (a, [])
    | some l =>
      if ((a.thread l.uid).map (threadStill a)).getD false then (a, []) else
      ({ a with landings := tdel a.landings op }.modThread l.uid (fun t =>
        let t := { t with regs := t.regs.putV l.regs, sr := { t.sr with fpstat := t.sr.fpstat ||| BitVec.ofNat 32 l.flags } }
        let t := { t with pend := t.pend ++ (l.err.map (fun r => ({ trap := r } : PendTrap))).toList }
        (List.range l.count).foldl (fun (t : Thread) j => t.setArr (l.first + j) l.rows) t), [])

/-- The writes of an ACCST: 128 bytes a row, in ascending order (R400). -/
def accstWrites (d : RowDesc) (data : Tab W32) : Writes :=
  (List.range 32).map (fun r => (d.addr + r * d.stride, (List.range 32).flatMap (fun j => leBytes 4 (tgetD data (32 * r + j) 0).toNat)))

/-- ACCST_COMPLETE: data bytes only; granules written whole lose an error (R101, R216, R400). -/
def execAccstComplete (cmd : Nat) (s : State) : Out :=
  runEvent s fun a _ _ =>
    match tget a.cmds cmd with
    | none => (a, [])
    | some c => match c.kind with
      | .accst d (some data) =>
        let ws := accstWrites d data
        if cmdReady a c && !ws.any (fun x => engineShut a c x.1 x.2.length) then
          let a := { a with bad := ws.foldl (fun b x => (granules x.1 128).foldl (fun b g => tdel b g) b) a.bad }
          let a := ws.foldl (fun a x => ageRun a c.ctx (d.va + x.1 - d.addr) x.1 128) a
          (endCmd (forgetRels a (ws.map (fun x => (x.1, 128)))) c 0 0, ws)
        else (a, [])
      | _ => (a, [])

end Sys2Proof.Machine
end

