-- ==== Sys2Proof/Machine/Issue.lean ====
section
/-! DEFINITION. The steps of execution (spec/03 R50 to R73, R80 to R83; spec/16 R245 to R249, R260; spec/13 R209): choosing and
beginning clauses, activating frames, starting and retiring crews and waves, punnets, and the arrival of migrants. -/

namespace Sys2Proof.Machine

/-! ## Fetch (R260, R261) -/

/-- One word fetched: its value with the cache that holds it, a failed check, or an uncorrectable granule with its grade. -/
inductive Fetched where
  | word (w : Nat) (a : Arch)
  | bad (b : Bad)
  | error (fa grade : Nat)

/-- The words that a core's 64 KiB instruction cache holds (R3). -/
def icacheWords : Nat := 8192

/-- Put a word into a core's instruction cache; a full cache loses the word that it has held longest (DESIGN CHOICE, log 18). -/
def icachePut (l : List (Nat × Nat × Nat × Nat)) (e : Nat × Nat × Nat × Nat) : List (Nat × Nat × Nat × Nat) :=
  if icacheWords ≤ (l.filter (fun x => x.1 == e.1)).length then l.eraseP (fun x => x.1 == e.1) ++ [e] else l ++ [e]

/-- Fetch the word at a VA. A core keeps the words that it has fetched until IFLUSH or until it needs their room (R261, R304)
(DESIGN CHOICE, log 18) (DEDUCED, log 58). -/
def fetchWord (a : Arch) (mem : Memory) (time : Nat) (t : Thread) (lanes : Lanes) (va : Nat) : Fetched :=
  match translate a mem time (agentOf a t) .x va 8 with
  | .error (.error fa, _) => .error fa 0
  | .error (k, x) => .bad (accessBad k.code (2 ^ k.code) lanes (BitVec.ofNat 64 x) false true 8)
  | .ok x =>
    let hit := t.tlbCore.bind (fun k => (a.icache.find? (fun e => e.1 == k && e.2.1 == t.ctx && e.2.2.1 == va / 8)).map (·.2.2.2))
    match hit with
    | some w => .word w a
    | none =>
      if isBad a (granule x.fa) then .error x.fa (attrGrade x.attr)
      else
        let w := mnum mem x.fa 8
        match t.tlbCore with
        | some k => .word w { a with icache := icachePut a.icache (k, t.ctx, va / 8, w) }
        | none => .word w a

/-- The header at a VA, where it can be read. -/
def headerAt (a : Arch) (mem : Memory) (time : Nat) (t : Thread) (va : Nat) : Option Header :=
  match fetchWord a mem time t 0 va with
  | .word w _ => (decodeHeader w).toOption
  | _ => none

/-- Why a clause does not begin. -/
inductive NoClause where
  | trap (r : TrapRec) (a : Arch)
  | error (r : TrapRec) (fa : Nat) (a : Arch)

/-- The ERROR record of a fetch that meets an uncorrectable granule (R213, R216) (DEDUCED, log 20). WORD is 0 (DESIGN CHOICE, log 99). -/
def fetchError (_t : Thread) (lanes : Lanes) (k va fa grade time : Nat) : TrapRec :=
  { cls := .error, opidx := k, kinds := 0, kind := 0, mask := lanes, pc := va, addr := BitVec.ofNat 64 va,
    synd := BitVec.ofNat 64 ((faPlace fa).mem + grade * 16 + 256), word := 0, faddr := BitVec.ofNat 64 (fa / 64 * 64), time := time,
    dests := [], fetch := true }

/-- The words of a clause from position `k` on; a word that cannot be fetched is 0 in WORD of its record (DESIGN CHOICE, log 99). -/
def fetchWords (mem : Memory) (time now : Nat) (t : Thread) (lanes : Lanes) (pc : Nat) :
    Nat → Nat → Arch → Except NoClause (List Nat × Arch)
  | 0, _, a => .ok ([], a)
  | n + 1, k, a =>
    let va := pc + 8 * (k + 1)
    match fetchWord a mem time t lanes va with
    | .bad b => .error (.trap (b.record t k va 0 now) a)
    | .error fa grade => .error (.error (fetchError t lanes k va fa grade now) fa a)
    | .word w a => match fetchWords mem time now t lanes pc n (k + 1) a with
      | .error e => .error e
      | .ok (ws, a) => .ok (w :: ws, a)

/-- A header and all of its words (R246, R260). -/
def fetchClause (a : Arch) (mem : Memory) (time : Nat) (t : Thread) (lanes : Lanes) (pc : Nat) :
    Except NoClause (Header × List Nat × Arch) :=
  let now := refTimer a time t.unit.pkg
  match fetchWord a mem time t lanes pc with
  | .bad b => .error (.trap (b.record t 0 pc 0 now) a)
  | .error fa grade => .error (.error (fetchError t lanes 0 pc fa grade now) fa a)
  | .word w a => match decodeHeader w with
    | .error c => .error (.trap ((decodeBad c).record t 0 pc w now) a)
    | .ok h => match fetchWords mem time now t lanes pc (h.wcnt + 1) 0 a with
      | .error e => .error e
      | .ok (ws, a) => .ok (h, ws, a)

/-! ## The frontier choice (R50, R52) -/

/-- Each entry with its priority: one whose PC has moved takes that of the header there (R50), once the header can be read
(DEDUCED, log 19). -/
def readPrios (a : Arch) (mem : Memory) (time : Nat) (t : Thread) : List FEntry :=
  t.front.map (fun e => match e.prio with
    | some _ => e
    | none => { e with prio := (headerAt a mem time t e.pc).map (·.prio) })

/-- The priority that an entry competes with (R52): the least while its header cannot be read (DEDUCED, log 19). -/
def FEntry.rank (e : FEntry) : Nat := e.prio.getD 0

/-- The entries of a thread take the priorities of the headers that they moved to, where those can be read (R50). A frozen frontier's
take theirs when it thaws. -/
def takePrios (a : Arch) (mem : Memory) (time : Nat) (t : Thread) : Thread := { t with front := readPrios a mem time t }

/-- The better of two entries under a measure; on equal measure, the one of lower PC. -/
def betterEntry (f : FEntry → Nat) (x y : FEntry) : FEntry := if f x < f y ∨ (f x = f y ∧ y.pc < x.pc) then y else x

/-- The entry that an issue opportunity chooses (R52). -/
def pickEntry (es : List FEntry) : Option FEntry :=
  match es.filter (fun e => decide (1024 ≤ e.pass)) with
  | e :: r => some (r.foldl (betterEntry (·.pass)) e)
  | [] => match es with
    | e :: r => some (r.foldl (betterEntry (·.rank)) e)
    | [] => none

/-- The pass counts after a choice (R52). -/
def passEntries (es : List FEntry) (pick : FEntry) : List FEntry :=
  es.map (fun e => if e.pc = pick.pc then { e with pass := 0 } else { e with pass := min (e.pass + 1) 1024 })

/-! ## Eligibility (R71, R73) -/

/-- The priority class of a thread: its tree's, lowered by its sr.prio (R71, R73, R301). -/
def classOf (a : Arch) (t : Thread) : Nat := min (((a.tree t.tree).map (·.cls)).getD 0) t.sr.prio

/-- Whether a unit's issue stands still: its berth relocks (R428), is held in reset (R438), or has no core power (R442). -/
def unitStill (a : Arch) (t : Thread) : Bool :=
  match t.berthOf with
  | none => false
  | some b => (a.berth t.unit.pkg b).relock.isSome || berthStill a t.unit.pkg b

/-- Whether every flag in a wait mask is zero (R246). -/
def flagsClear (t : Thread) (mask : Nat) : Bool := (List.range 12).all (fun k => !(bitAt mask k) || t.getF k == 0)

/-- Whether the fetch of a word waits at a clock crossing or for a layer copy (R428, R444). -/
def fetchHeld (a : Arch) (mem : Memory) (time : Nat) (t : Thread) (va : Nat) : Bool :=
  match translate a mem time (agentOf a t) .x va 8 with
  | .ok x => crossingStalled a (agentOf a t) x.fa
  | .error (k, _) => decide (k = .waits)

/-- Whether the fetch of a clause waits so: of its header or of one of its words. -/
def clauseHeld (a : Arch) (mem : Memory) (time : Nat) (t : Thread) (pc : Nat) : Bool :=
  fetchHeld a mem time t pc || match headerAt a mem time t pc with
    | some h => (List.range (h.wcnt + 1)).any (fun k => fetchHeld a mem time t (pc + 8 * (k + 1)))
    | none => false

/-- Whether the next clause can be fetched and its header's wait mask is satisfied. -/
def waitClear (a : Arch) (mem : Memory) (time : Nat) (t : Thread) : Bool :=
  match pickEntry (readPrios a mem time t) with
  | none => false
  | some e => !clauseHeld a mem time t e.pc && match headerAt a mem time t e.pc with
    | some h => flagsClear t h.wait
    | none => true

/-- Whether the next clause to begin is a safe-point clause (R74). -/
def nextSafe (a : Arch) (mem : Memory) (time : Nat) (t : Thread) : Bool :=
  match pickEntry (readPrios a mem time t) with
  | none => false
  | some e => ((headerAt a mem time t e.pc).map (·.safe)).getD false

/-- The word at which a clause stands, decoded. -/
def Clause.instr (c : Clause) : Option Instr :=
  match decodeAt c.hdr.cls c.hdr.safe c.words c.pos with
  | .ok (i, _) => some i
  | .error _ => none

/-- Whether a clause stands at its last word. -/
def Clause.atLast (c : Clause) : Bool := decide (c.words.length ≤ c.pos + c.sizeAt c.pos)

/-- Whether a wait is one of a suspended clause, which leaves its issue slot: for arrival bits (R72), or for a convergence register that
another wave owns (R393). -/
def Wait.suspends : Wait → Bool
  | .arrival => true | .resume => true | .cv => true | _ => false

/-- Whether the convergence register that a suspended step names is empty, or the wave's own (R393). -/
def cvFree (a : Arch) (t : Thread) (c : Clause) : Bool :=
  match c.instr, a.crew t.crew with
  | some (.mma _ _ _ _ _ _ _ _ _ (some k) _ _ _), some x => ((tget x.cvs k.val).map (fun v => v.owner == t.wnum)).getD true
  | _, _ => true

/-- Whether a stall is one at a JOIN, BAR, crew barrier, SPAWN or FETCHW that ends its clause, which may be a safe point (R74):
not that of a SPAWN which has placed some of its lanes (R380), nor a suspension, which is waited for (R75). -/
def stallEnds (t : Thread) (c : Clause) (w : Wait) : Bool :=
  c.atLast && !w.suspends && match c.instr with
  | some (.join ..) => true | some (.bar ..) => true | some (.bararr ..) => true | some (.barwait ..) => true
  | some (.barsync ..) => true | some (.fetchw ..) => true
  | some (.spawn h ..) => match w with
    | .spawn left => decide (left = guardLanes t c h &&& ~~~t.replaced)
    | _ => true
  | _ => false

/-- Whether a wave, or a frame, is at a safe point (R74, R215, R220, R408). -/
def atSafePoint (a : Arch) (mem : Memory) (time : Nat) (t : Thread) : Bool :=
  !t.halted && t.mig.isNone && !holdsCv a t && !t.front.isEmpty &&
  match t.clause, t.wait with
  | none, _ => nextSafe a mem time t
  | some c, some w =>
    stallEnds t c w && ((headerAt a mem time t (c.pc + 8 * (c.words.length + 1))).map (·.safe)).getD false
  | some _, none => false

/-- Whether a thread may have a clause begun or resumed for it, apart from drains. -/
def mayBegin (a : Arch) (mem : Memory) (time : Nat) (t : Thread) : Bool :=
  !t.halted && !t.saved && (t.mig.isNone || t.tm) && !t.front.isEmpty && !unitStill a t &&
  match t.clause, t.wait with
  | none, none => waitClear a mem time t
  | some _, some .resume => true
  | some c, some .cv => cvFree a t c
  | _, _ => false

/-- Whether a wave is eligible (R71): no drain holds it at a safe point. -/
def waveEligible (a : Arch) (mem : Memory) (time : Nat) (t : Thread) : Bool :=
  t.isWave && mayBegin a mem time t && !busyOn a t.unit.pkg t.unit.idx t.ctx && !(draining a t.unit.pkg t.unit.idx t.ctx && atSafePoint a mem time t)

/-- Whether a frame is eligible (R73). -/
def frameEligible (a : Arch) (mem : Memory) (time : Nat) (t : Thread) : Bool :=
  !t.isWave && decide (t.phase = .active) && mayBegin a mem time t

/-- The rank of a role (R71): loader, storer, computer. -/
def roleRank : Nat → Nat
  | 0 => 0 | 2 => 1 | _ => 2

/-- Whether a thread ranks before another on their issuer (R71, R73). -/
def ranksBefore (a : Arch) (x y : Thread) : Bool :=
  let cx := classOf a x
  let cy := classOf a y
  if ¬ cx = cy then decide (cy < cx)
  else if ¬ x.promoted = y.promoted then x.promoted
  else
    let rx := if x.isWave then roleRank x.role else 0
    let ry := if y.isWave then roleRank y.role else 0
    if ¬ rx = ry then decide (rx < ry) else decide (x.age < y.age)

/-- The first thread in rank. -/
def firstRanked (a : Arch) : List Thread → Option Thread
  | [] => none
  | t :: r => match firstRanked a r with
    | none => some t
    | some u => if ranksBefore a u t then some u else some t

/-! ## Beginning a clause (R52, R72, R209, R246, R247, R260) -/

/-- The pending trap that is taken first: ERROR before OVERWRITE (R209), of one class the first recorded (DESIGN CHOICE, log 100). -/
def firstPend (ps : List PendTrap) : Option PendTrap :=
  (ps.find? (fun p => decide (p.trap.cls = .error))).orElse (fun _ => ps.head?)

/-- Remove one pending trap. -/
def dropPend (ps : List PendTrap) (p : PendTrap) : List PendTrap := ps.erase p

/-- Take a pending asynchronous trap before a clause (R209); an OVERWRITE names the next clause header (R213), as 0 where it cannot be
read (DESIGN CHOICE, log 99). -/
def takePending (a : Arch) (mem : Memory) (time : Nat) (t : Thread) (p : PendTrap) : Arch × Writes :=
  let pc := ((pickEntry (readPrios a mem time t)).map (·.pc)).getD 0
  let now := refTimer a time t.unit.pkg
  let r := if p.trap.cls = .overwrite then
      { p.trap with pc := pc, mask := t.live, time := now,
                    word := match fetchWord a mem time t 0 pc with | .word w _ => BitVec.ofNat 64 w | _ => 0 }
    else { p.trap with time := now }
  let t := { t with pend := dropPend t.pend p, eligible := 0, promoted := false }
  enterTrap (a.setThread t) t r pc

/-- A fetch that meets an uncorrectable granule: its event, and its ERROR trap pending. In trap mode it stays pending (R215), and the fetch,
which is tried again, adds nothing. -/
def pendFetch (a : Arch) (time : Nat) (t : Thread) (r : TrapRec) (fa : Nat) : Arch :=
  if t.tm && t.pend.any (fun p => p.trap.fetch && decide (p.trap.faddr = r.faddr)) then a
  else (a.event time (faPkg fa) 7 t.ctx (faPlace fa).mem (fa / 64 * 64) t.eventId).pend t.uid r

/-- Begin the clause that the frontier choice gives. A wait mask makes the acquires of R127, each at a scope within the pod (DEDUCED,
log 59). -/
def beginClause (a : Arch) (mem : Memory) (time : Nat) (t : Thread) : Arch × Writes :=
  let es := readPrios a mem time t
  match pickEntry es with
  | none => (a, [])
  | some e =>
    let t := { t with front := passEntries es e, eligible := 0, promoted := false }
    let a := a.setThread t
    match fetchClause a mem time t e.lanes e.pc with
    | .error (.trap r a) => takeTrap a time t r e.pc
    | .error (.error r fa a) => (pendFetch a time t r fa, [])
    | .ok (h, ws, a) =>
      let a := if h.wait = 0 then a else acquireAt a t .pod
      (a.modThread t.uid (fun t => { t with clause := some { pc := e.pc, hdr := h, words := ws, pos := 0, lanes := e.lanes } }), [])

/-- A clause in progress that cannot be fetched again: its trap is taken; an uncorrectable granule is reported, and its ERROR trap taken at
once, for the clause cannot run to its end (R209, R213, R260), but in trap mode stays pending (R215) (DEDUCED, log 20). -/
def refetchFails (time : Nat) (t : Thread) (entry : Nat) : NoClause → Arch × Writes
  | .trap r a => takeTrap a time t r entry
  | .error r fa a =>
    if t.tm then (pendFetch a time t r fa, [])
    else takeTrap (a.event time (faPkg fa) 7 t.ctx (faPlace fa).mem (fa / 64 * 64) t.eventId) time t r entry

/-- Begin or resume a clause of a thread. -/
def beginOrResume (a : Arch) (mem : Memory) (time : Nat) (t : Thread) : Arch × Writes :=
  match t.clause with
  | some _ => (a.setThread { t with wait := none, eligible := 0, promoted := false }, [])
  | none => match (if t.tm then none else firstPend t.pend) with
    | some p => takePending a mem time t p
    | none => beginClause a mem time t

/-- Stalls in which a frame is WAITING (R23). -/
def Wait.frameWaits : Wait → Bool
  | .join => true | .bar .. => true | _ => false

/-- Whether a thread holds its issue slot or sequencer: its clause is in progress, and does not stand suspended (R72, R393), nor stalled at a JOIN, BAR, crew barrier, SPAWN or FETCHW that is its last word; a frame that is WAITING leaves its
sequencer to the ACTIVE ones wherever in its clause it stands (R23, R73) (DEDUCED, log 17). -/
def Thread.holdsSlot (t : Thread) : Bool :=
  !t.halted && !t.saved && match t.clause, t.wait with
  | none, _ => false
  | some _, none => true
  | some c, some w => !(w.suspends || stallEnds t c w || (!t.isWave && w.frameWaits))

/-- The waves of an issue slot: wave slots w with w mod 4 equal to it, and its mooring slot (R56). -/
def slotWaves (a : Arch) (core slot : Nat) : List Thread :=
  (tvals a.threads).filter (fun t => t.isWave && !t.saved && t.coreKey == core && t.slot % 4 == slot)

/-- Waves that YIELD passes over: another wave of the same class is eligible (R249). -/
def passYielded (a : Arch) (ts : List Thread) : List Thread :=
  ts.filter (fun t => !(t.yielded && ts.any (fun u => !(u.uid == t.uid) && !u.yielded && classOf a u == classOf a t)))

/-- CLAUSE_BEGIN: an issue slot that issues no clause chooses an eligible wave (R71) and begins or resumes its clause. -/
def execClauseBegin (core slot : Nat) (s : State) : Out :=
  runEvent s fun a mem time =>
    let ws := slotWaves a core slot
    if ws.any (·.holdsSlot) then (a, [])
    else match firstRanked a (passYielded a (ws.filter (waveEligible a mem time))) with
      | none => (a, [])
      | some t =>
        let a := ws.foldl (fun a w => if w.yielded then a.modThread w.uid (fun x => { x with yielded := false }) else a) a
        beginOrResume a mem time { t with yielded := false }

/-- The frames of a sequencer. -/
def seqFrames (a : Arch) (u : UnitId) : List Thread := (tvals a.threads).filter (fun t => !t.isWave && decide (t.unit = u))

/-- SEQUENCER_CLAUSE_BEGIN (R73). -/
def execSequencerClauseBegin (u : UnitId) (s : State) : Out :=
  runEvent s fun a mem time =>
    let fs := seqFrames a u
    if fs.any (fun t => decide (t.phase = .active) && t.holdsSlot) then (a, [])
    else match firstRanked a (fs.filter (frameEligible a mem time)) with
      | none => (a, [])
      | some t => beginOrResume a mem time t

/-- PASS_COUNT_ESCAPE: a pass count reaches 1024 within the choice that passes its entry over (`passEntries`), and the escape
set is read from the counts (`pickEntry`), so nothing more changes when the entry enters it (R52) (DEDUCED, log 28). -/
def execPassCountEscape (_uid : Nat) (s : State) : Out := runEvent s fun a _ _ => (a, [])

/-- Promote a thread that has been eligible for 4,096 consecutive cycles. -/
def promote (a : Arch) (uid : Nat) (wave : Bool) : Arch :=
  a.modThread uid (fun t => if t.isWave == wave && decide (4096 ≤ t.eligible) then { t with promoted := true } else t)

/-- ISSUE_AGE_PROMOTION (R71). -/
def execIssueAgePromotion (uid : Nat) (s : State) : Out := runEvent s fun a _ _ => (promote a uid true, [])
/-- SEQUENCER_AGE_PROMOTION (R73). -/
def execSequencerAgePromotion (uid : Nat) (s : State) : Out := runEvent s fun a _ _ => (promote a uid false, [])

/-! ## Frames (R19, R23, R29, R230) -/

/-- Whether a frame holds one of the eight active places of its sequencer (R19); a DRAINING frame holds its place until it
retires (DESIGN CHOICE, log 77). -/
def Thread.holdsPlace (t : Thread) : Bool := decide (t.phase = .active) || decide (t.phase = .draining)

/-- FRAME_ACTIVATE: the first PENDING frame by class and age becomes ACTIVE (R19, R230, R301); its acquire drops lines (R31). -/
def execFrameActivate (u : UnitId) (s : State) : Out :=
  runEvent s fun a _ _ =>
    let fs := seqFrames a u
    if 8 ≤ (fs.filter (·.holdsPlace)).length || fs.any (threadStill a) then (a, [])
    else match firstRanked a (fs.filter (fun t => decide (t.phase = .pending))) with
      | none => (a, [])
      | some t =>
        let a := { a.setThread { t with phase := .active, age := a.nextId } with nextId := a.nextId + 1 }
        (acquireIn a t (childScope a t), [])

/-- TILE_PLACEMENT: the distributor places a held tile, the first of its sequencer in launch and tile order (R29) (DEDUCED, log 74). -/
def execTilePlacement (uid : Nat) (s : State) : Out :=
  runEvent s fun a _ _ =>
    match a.thread uid with
    | none => (a, [])
    | some t =>
      let first := (seqFrames a t.unit).all (fun x => !decide (x.phase = .held) ||
        decide (t.launch < x.launch) || (t.launch == x.launch && decide (t.tile ≤ x.tile)))
      if decide (t.phase = .held) && first && decide (pendingOn a t.unit < 64) && !threadStill a t then
        ({ a.setThread { t with phase := .pending, age := a.nextId } with nextId := a.nextId + 1 }, [])
      else (a, [])

/-! ## Room on a core (R30, R54, R55, R78, R368, R385) -/

/-- The waves that reside on a core. -/
def residents (a : Arch) (pkg core : Nat) : List Thread :=
  (tvals a.threads).filter (fun t => t.isWave && !t.saved && t.unit.pkg == pkg && t.unit.idx == core)

/-- The waves that reside on a core, and those on their way to it in the slots kept for them (R80). -/
def occupants (a : Arch) (pkg core : Nat) : List Thread :=
  residents a pkg core ++ (tvals a.threads).filterMap (fun t => match t.going, t.mig with
    | some (k, n), some (p, _) => if p = pkg ∧ k = core then some { t with slot := n } else none
    | _, _ => none)

/-- The key of a slot's generation counter and locator entry. -/
def slotKey (pkg core slot : Nat) : Nat := pkg * 9216 + core * 48 + slot

/-- The ordinary slots free for creation, ascending (R54) (DEDUCED, log 22). -/
def freeSlots (a : Arch) (pkg core : Nat) : List Nat :=
  let rs := occupants a pkg core
  (List.range 48).filter (fun n => rs.all (fun t => !(t.slot == n)) &&
    (match tget a.locs (slotKey pkg core n) with | some e => decide (e.state = LocState.retired) | none => true))

/-- The ordinary slots that count toward a context's share of a core (R78). -/
def slotsUsed (a : Arch) (pkg core ctx : Nat) : Nat :=
  let rs := (occupants a pkg core).filter (fun t => decide (t.slot < 48))
  match a.pairs.find? (fun p => p.cores.contains (192 * pkg + core)) with
  | none => (rs.filter (fun t => t.ctx == ctx)).length
  | some p =>
    if ctx = p.a ∨ ctx = p.b then (rs.filter (fun t => t.ctx == ctx)).length
    else (rs.filter (fun t => !(t.ctx == p.a) && !(t.ctx == p.b))).length

/-- Vector registers in use on a core (R55). -/
def regsUsed (a : Arch) (pkg core : Nat) : Nat := (occupants a pkg core).foldl (fun n t => n + t.alloc) 0

/-- Whether a context is one of a resident pair on a core (R78). -/
def inPair (a : Arch) (pkg core ctx : Nat) : Bool :=
  a.pairs.any (fun p => p.cores.contains (192 * pkg + core) && (p.a == ctx || p.b == ctx))

/-- The crews that hold storage on a core: started, and not swapped out (R75, R78). -/
def heldCrews (a : Arch) (pkg core : Nat) : List Crew :=
  (tvals a.crews).filter (fun c => c.started && c.pkg == pkg && c.core == core && !c.out)

/-- The bytes of a slice's main bank that a crew takes (R385). -/
def accBytes (acc : Nat) : Nat := if acc = 0 then 0 else 4096 * acc + 4352

/-- Whether a region is free. -/
def regionFree (cs : List Crew) (base size : Nat) : Bool :=
  cs.all (fun c => decide (base + size ≤ c.base) || decide (c.base + c.size ≤ base) || size == 0 || c.size == 0)

/-- Where a crew's region goes (R368). -/
def regionFor (cs : List Crew) (want size : Nat) : Option Nat :=
  if want = 0xFFFFFFFF then
    ((List.range 369).map (4096 * ·)).find? (fun b => decide (b + size ≤ 0x170000) && regionFree cs b size)
  else if regionFree cs want size then some want else none

/-- The slots, the crew number and the region of a crew that fits, or none (R30, R368). -/
def crewFit (a : Arch) (c : Crew) : Option (List Nat × Nat × Nat) :=
  let cs := heldCrews a c.pkg c.core
  let n := rolesWaves c.roles
  let slots := freeSlots a c.pkg c.core
  let room := decide (cs.length < 8) && decide (n ≤ slots.length) &&
    decide (slotsUsed a c.pkg c.core c.ctx + n ≤ slotCap a c.pkg c.core c.ctx) &&
    decide (regsUsed a c.pkg c.core + rolesRegs c.roles ≤ 3072) &&
    decide (cs.foldl (fun m x => m + accBytes x.acc) (accBytes c.acc) ≤ 0x100000)
  match room, regionFor cs c.spadReq c.size, (List.range 8).find? (fun k => cs.all (fun x => !(x.num == k))) with
  | true, some base, some k => some (slots.take n, k, base)
  | _, _, _ => none

/-! ## Creating waves (R54, R66, R151, R297, R368) -/

/-- A wave of a crew in an ordinary slot. -/
def mkWave (a : Arch) (c : Crew) (uid slot wnum role alloc pc : Nat) (live : Lanes) (spawned : Bool) : Thread :=
  let prio := ((a.thread c.parent).map (·.sr.prio)).getD 3
  let id := BitVec.ofNat 32 (c.pkg * 2 ^ 14 + c.core * 64 + slot)
  let gen := BitVec.ofNat 32 (tgetD a.slotGen (slotKey c.pkg c.core slot) 0)
  let t := Thread.blank uid c.ctx .lg { level := .core, pkg := c.pkg, idx := c.core } c.tree (some c.parent) c.launch pc live prio
  let t := (((t.setS64 0 c.arg).setS 2 (BitVec.ofNat 32 c.base)).setS 3 (BitVec.ofNat 32 c.size))
  let t := { t with slot := slot, waveid := id, wavegen := gen, crew := c.id, wnum := wnum, role := role, alloc := alloc,
                    spawned := spawned, sr := { t.sr with srkey0 := id, srkey1 := gen } }
  { t with barGen := initGens a t }

/-- Put a new wave into its slot: the generation counter advances and its locator entry becomes RESIDENT (R54, R205). -/
def enterWave (a : Arch) (t : Thread) : Arch :=
  let k := locKey t.waveid
  { a.setThread t with
      slotGen := tset a.slotGen k ((tgetD a.slotGen k 0 + 1) % 256),
      locs := tset a.locs k { ctx := t.ctx, gen := t.wavegen.toNat, state := .resident, uid := t.uid, queue := [] } }

/-- The role number, allocation and PC of each wave of a crew, in order (R62). -/
def crewPlan (c : Crew) : List (Nat × Nat × Nat) :=
  ((List.range c.roles.length).zip c.roles).flatMap (fun p =>
    List.replicate p.2.waves (if c.gang then p.1 else 3, p.2.vregs, p.2.pc))

/-- The barriers of a crew at its start: every wave a member, E = 0 (R58). -/
def startBars (c : Crew) (n : Nat) : Tab CrewBar :=
  (List.range c.nbar).map (fun b => (b, { members := 2 ^ n - 1, arrived := 0, e := 0, count := 0, heldEngine := 0, phase := 0 }))

/-- Start a crew whole. -/
def startCrew (a : Arch) (c : Crew) (slots : List Nat) (num base : Nat) : Arch :=
  let n := slots.length
  let c := { c with started := true, num := num, base := base, count := n, live := n, bars := startBars c n }
  let plan := (List.range n).zip (slots.zip (crewPlan c))
  let a := a.setCrew c
  plan.foldl (fun (a : Arch) p =>
    let t := mkWave a c a.nextId p.2.1 p.1 p.2.2.1 p.2.2.2.1 p.2.2.2.2 (BitVec.allOnes 32) false
    acquireIn (enterWave { a with nextId := a.nextId + 1 } t) t (childScope a t)) a

/-- The tree's class of a waiting crew (R30). -/
def crewClass (a : Arch) (c : Crew) : Nat := ((a.tree c.tree).map (·.cls)).getD 0

/-- The waiting crew that starts next: by class, then by launch (R30). -/
def nextCrew (a : Arch) : List Crew → Option Crew
  | [] => none
  | c :: r => match nextCrew a r with
    | none => some c
    | some d => if crewClass a c < crewClass a d ∨ (crewClass a c = crewClass a d ∧ d.order < c.order) then some d else some c

/-- CREW_START: the first waiting crew of a core starts once it fits (R30). A crew whose context a pre-emption holds on the core
(R75) does not stand in the order meanwhile (DESIGN CHOICE, log 78). -/
def execCrewStart (core : Nat) (s : State) : Out :=
  runEvent s fun a _ _ =>
    if berthStill a (core / 192) (core % 192 / 48) then (a, [])
    else match nextCrew a ((waitingCrews a (core / 192) (core % 192)).filter (fun c => !draining a c.pkg c.core c.ctx)) with
      | none => (a, [])
      | some c => match crewFit a c with
        | none => (a, [])
        | some (slots, num, base) => (startCrew a c slots num base, [])

/-! ## Retirement (R60, R83) -/

/-- Whether class-8 work of a wave is outstanding (R83, R386). -/
def matrixBusy (a : Arch) (uid : Nat) : Bool :=
  (tvals a.slice).any (fun o => o.uid == uid) || (tvals a.landings).any (fun l => l.uid == uid)

/-- Whether every completion flag of a thread is zero. -/
def flagsZero (t : Thread) : Bool := t.regs.f.all (fun p => p.2 == 0)

/-- WAVE_RETIRE: its release first waits for the wave's own accesses (R31, R46). -/
def execWaveRetire (uid : Nat) (s : State) : Out :=
  runEvent s fun a _ time =>
    match a.thread uid with
    | none => (a, [])
    | some t =>
      if t.isWave && t.front.isEmpty && t.clause.isNone && flagsZero t && !matrixBusy a uid && !ownPending a uid && !t.tm && !threadStill a t then
        (retireWave a time t false, [])
      else (a, [])

/-- Whether punnets of a crew still hold tasks (R60). -/
def crewPunnets (a : Arch) (c : Crew) : Bool :=
  (tvals a.punnets).any (fun p => p.crew == c.id && !(p.state == .empty)) ||
  a.images.any (fun g => (tvals g.punnets).any (fun p => p.crew == c.id && !(p.state == .empty)))

/-- The package, core and offset of the scratchpad that a VA of an agent's own-core or peer window names (R85, R86). -/
def windowSpad (g : Agent) (va : Nat) : Option (Nat × Nat × Nat) :=
  let off := va % 2 ^ 48
  if va / 2 ^ 48 = 0x7F ∧ off < 0xC00000 ∧ off % 0x200000 < 0x180000 then
    g.core.map (fun k => (g.wpkg, k / 6 * 6 + (k % 6 + off / 0x200000) % 6, off % 0x200000))
  else none

/-- Whether `n` bytes of an end lie, in part, in a crew's region: by a scratchpad offset, by an address of the physical map, or
through a window (R60, R86). -/
def Crew.namedBy (c : Crew) (n : Nat) (e : End) : Bool :=
  let meets (p k off : Nat) : Bool := p == c.pkg && k == c.core && decide (off < c.base + c.size) && decide (c.base < off + n)
  match e with
  | .spad p k off _ => meets p k off
  | .va g x => match windowSpad g x with | some y => meets y.1 y.2.1 y.2.2 | none => false
  | .phys x => decide (spadAddr c.pkg c.core + c.base < x + n) && decide (x < spadAddr c.pkg c.core + c.base + c.size)
  | .fabric _ x => decide (spadAddr c.pkg c.core + c.base < x + n) && decide (x < spadAddr c.pkg c.core + c.base + c.size)
  | .regs _ _ => false

/-- Whether a command names a crew's region or barriers (R60). -/
def crewCmds (a : Arch) (c : Crew) : Bool :=
  (tvals a.cmds).any (fun x => decide (x.ag.crew = some c.id) || x.arrive.contains c.id ||
    x.legs.any (fun l => c.namedBy l.size l.src || c.namedBy l.size l.dst))

/-- CREW_RETIRE: the crew's storage is freed (R60) (DEDUCED, log 70). -/
def execCrewRetire (crew : Nat) (s : State) : Out :=
  runEvent s fun a _ _ =>
    match a.crew crew with
    | none => (a, [])
    | some c =>
      if c.started && c.live == 0 && !crewPunnets a c && !crewCmds a c &&
          (tvals a.ops).all (fun o => !decide (o.ag.crew = some crew)) then ({ a with crews := tdel a.crews crew }, []) else (a, [])

/-! ## Punnets (R65, R66) -/

/-- PUNNET_TIMEOUT: a filling punnet whose timer has run becomes READY; a drain freezes it (R75). -/
def execPunnetTimeout (core n : Nat) (s : State) : Out :=
  runEvent s fun a _ _ =>
    let pkg := core / 192
    let k := core % 192
    let p := punnetAt a pkg k n
    match a.crew p.crew with
    | none => (a, [])
    | some c =>
      if p.state == .filling && decide (p.deadline ≤ (a.berth pkg (k / 48)).cycles) && !draining a pkg k c.ctx then
        ({ a with punnets := tset a.punnets (punnetKey pkg k n) { p with state := .ready } }, [])
      else (a, [])

/-- The lowest wave number free in a crew. -/
def freeWnum (a : Arch) (crew : Nat) : Option Nat :=
  (List.range 32).find? (fun k => (tvals a.threads).all (fun t => !(t.isWave && t.crew == crew && t.wnum == k)))

/-- Hand records to lanes: record l, word j to v j of lane l (R66). -/
def giveRecords (t : Thread) (recs : List (List W32)) : Thread :=
  t.setVs (((List.range recs.length).zip recs).flatMap (fun p =>
    (List.range 16).map (fun j => (j, p.1, p.2.getD j 0))))

/-- PUNNET_LAUNCH (DEDUCED, log 62). -/
def execPunnetLaunch (core n : Nat) (s : State) : Out :=
  runEvent s fun a _ _ =>
    let pkg := core / 192
    let k := core % 192
    let p := punnetAt a pkg k n
    match a.crew p.crew, (freeSlots a pkg k).head? with
    | some c, some slot =>
      match freeWnum a c.id with
      | none => (a, [])
      | some w =>
        if p.state == .ready && !c.out && !berthStill a pkg (k / 48) && !draining a pkg k c.ctx && decide (c.live < 32) &&
            decide (slotsUsed a pkg k c.ctx < slotCap a pkg k c.ctx) && decide (regsUsed a pkg k + p.alloc ≤ 3072) then
          let live := Lanes.ofPred (fun l => decide (l < p.recs.length))
          let t := giveRecords (mkWave a c a.nextId slot w 3 p.alloc p.pc live true) p.recs
          let a := enterWave { a with nextId := a.nextId + 1 } t
          let a := a.setCrew { c with live := c.live + 1, count := max c.count (w + 1) }
          (acquireAt { a with punnets := tdel a.punnets (punnetKey pkg k n) } t .core, [])
        else (a, [])
    | _, _ => (a, [])

/-! ## Migration (R80, R81, R137, R205, R427) -/

/-- Where a migrant goes on its target berth: an ordinary slot of its crew's core when that berth is its crew's and there is
room, the lowest that is its own or free for creation (DESIGN CHOICE, log 79); else the lowest free mooring slot, from the same
cluster and core numbers on (R80), of a core whose register file has room (R3, R55) (DESIGN CHOICE, log 79). -/
def mooring (a : Arch) (t : Thread) (pkg berth : Nat) : Option (Nat × Nat) :=
  let back := match a.crew t.crew with
    | some c =>
      if c.pkg = pkg ∧ c.core / 48 = berth then
        let rs := occupants a pkg c.core
        let fit := decide (slotsUsed a pkg c.core t.ctx < slotCap a pkg c.core t.ctx) &&
          decide (regsUsed a pkg c.core + t.alloc ≤ 3072)
        let own := t.waveid.toNat % 64
        let free (n : Nat) : Bool := rs.all (fun x => !(x.slot == n)) &&
          (n == own || (match tget a.locs (slotKey pkg c.core n) with | some e => decide (e.state = LocState.retired) | none => true))
        if fit then ((List.range 48).find? free).map (fun n => (c.core, n)) else none
      else none
    | none => none
  back.orElse (fun _ =>
    ((List.range 48).flatMap (fun i =>
      let core := berth * 48 + (t.unit.idx % 48 + i) % 48
      [48, 49, 50, 51].map (fun n => (core, n)))).find? (fun p => (occupants a pkg p.1).all (fun x => !(x.slot == p.2)) &&
        decide (regsUsed a pkg p.1 + t.alloc ≤ 3072)))

/-- Whether a wave's move has nothing left to wait for (R80, R382, R427). -/
def moveReady (a : Arch) (t : Thread) : Bool :=
  t.isWave && !t.saved && !t.halted && t.clause.isNone && !t.tm && flagsZero t && !matrixBusy a t.uid && !ownPending a t.uid

/-- A pre-emption that a wave's move takes to another core saves it there too (R77), where the context has an image place. -/
def Pre.follow (p : Pre) (a : Arch) (t : Thread) (core : Nat) : Pre :=
  if !p.resume && p.ctx == t.ctx && p.pkg == t.unit.pkg && p.cores.contains t.unit.idx && !p.saved.contains t.unit.idx &&
      a.images.any (fun g => g.pkg == p.pkg && g.core == core && g.ctx == p.ctx) then
    { p with cores := if p.cores.contains core then p.cores else p.cores ++ [core], saved := p.saved.filter (fun k => !(k == core)) }
  else p

/-- A pre-emption that reaches a wave on its way to another package saves it there too (R77): a request of that package, without a
command of its own. -/
def followAway (a : Arch) (time : Nat) (t : Thread) (pkg core : Nat) : Arch :=
  if draining a t.unit.pkg t.unit.idx t.ctx && !draining a pkg core t.ctx &&
      a.images.any (fun g => g.pkg == pkg && g.core == core && g.ctx == t.ctx) then
    { a with nextId := a.nextId + 1,
             pres := tset a.pres a.nextId { id := a.nextId, pkg := pkg, ctx := t.ctx, cores := [core], began := time, cmd := none,
                                            resume := false, switchTo := none, saved := [], reported := [] } }
  else a

/-- A wave lands in the slot kept for it: the locator entry is updated and its queued sends drain (R205). sr.prio is not shipped
(R298), the last-page registers stay behind (DEDUCED, log 21), and the reference timer goes on from what it read (R300). -/
def landWave (a : Arch) (mem : Memory) (time : Nat) (t : Thread) (pkg core slot : Nat) : Arch × Writes :=
  let prio := ((a.tree t.tree).map (·.cls)).getD 0
  let a := if pkg = t.unit.pkg then { a with pres := a.pres.map (fun p => (p.1, p.2.follow a t core)) } else followAway a time t pkg core
  let a := a.setThread { t with unit := { level := .core, pkg := pkg, idx := core }, slot := slot, mig := none, going := none,
                                age := a.nextId, lastPage := [], sr := { t.sr with prio := prio }, eligible := 0, promoted := false,
                                rtFloor := timerOf a time t }
  setLoc { a with nextId := a.nextId + 1 } mem [] time t.waveid .resident

/-- Whether a clock crossing holds a move between a wave's berth and another (R428). -/
def moveHeld (a : Arch) (t : Thread) (pkg berth : Nat) : Bool :=
  unitStill a t || (a.berth pkg berth).relock.isSome || berthStill a pkg berth

/-- MIGRATION_ARRIVAL: once the wave's work is done, it leaves for a slot that is kept for it; then it arrives. Its locator entry is MOVING
from the end of its clause on (R80, R205). -/
def execMigrationArrival (uid : Nat) (s : State) : Out :=
  runEvent s fun a mem time =>
    match a.thread uid with
    | none => (a, [])
    | some t => match t.mig, t.going with
      | none, _ => (a, [])
      | some (pkg, berth), some (core, slot) => if moveHeld a t pkg berth then (a, []) else landWave a mem time t pkg core slot
      | some (pkg, berth), none =>
        let a := startMoves a uid
        if moveReady a t && !t.front.isEmpty && !moveHeld a t pkg berth then
          match mooring a t pkg berth with
          | none => (a, [])
          | some x => (a.setThread { t with going := some x }, [])
        else (a, [])

/-! ## After a word -/

/-- After a word: the entries that have moved take the priority of their header (R50), a word that has issued counts towards the budget of
its context's drain (R79), and a move whose clause is over begins (R80). -/
def wordDone (a : Arch) (mem : Memory) (time uid : Nat) : Arch :=
  match a.thread uid with
  | none => a
  | some t =>
    let t := takePrios a mem time t
    startMoves (a.setThread (if t.isWave && t.wait.isNone && draining a t.unit.pkg t.unit.idx t.ctx then
      { t with drained := t.drained + 1 } else t)) uid

/-- SPOP_RELEASE: the bytes are there, and the waiting SPOP completes and releases them (R358); the word has then issued. -/
def execSpopRelease (uid : Nat) (s : State) : Out :=
  runEvent s fun a mem time =>
    match a.thread uid with
    | none => (a, [])
    | some t => if unitStill a t then (a, []) else match spopReady a t with
      | some (crew, q, n, c) =>
        (wordDone ((popStream (releaseAt a t .core) crew q n).modThread uid (fun t => advance t c (c.sizeAt c.pos))) mem time uid, [])
      | none => (a, [])

end Sys2Proof.Machine
end

