-- ==== Sys2Proof/Machine/Preempt.lean ====
section
/-! DEFINITION. Pre-emption of a context on a core (spec/03 R74 to R79; spec/13 R220 to R223): the watchdog, the save with its
image bytes, and the restore. -/

namespace Sys2Proof.Machine

/-! ## What a wave at a safe point keeps -/

/-- PC of the safe-point clause at which a wave goes on (R74). -/
def safePc (a : Arch) (mem : Memory) (time : Nat) (t : Thread) : Option Nat :=
  match t.clause with
  | some c => some (c.pc + 8 * (c.words.length + 1))
  | none => (pickEntry (readPrios a mem time t)).map (·.pc)

/-- The scalar and vector LIVE masks of that clause (R250) (DEDUCED, log 73). -/
def liveMasks (a : Arch) (mem : Memory) (time : Nat) (t : Thread) : Nat × Nat :=
  match safePc a mem time t with
  | none => (0, 0)
  | some pc => match fetchWord a mem time t 0 (pc + 8) with
    | .word w _ => (bits w 32 24, bits w 0 24)
    | _ => (0, 0)

/-- The vector registers that a save keeps: those of the LIVE granules and the open ones (R196, R223). -/
def savedRegs (t : Thread) (vmask : Nat) : List Nat :=
  (List.range t.alloc).filter (fun r => bitAt vmask (r / 8) || t.isOpen r)

/-- Contributions of a wave that a reduce unit has read, whose flags a save does not await (R382): instance and contribution. -/
def heldReds (a : Arch) (uid : Nat) : List (Red × Contrib) :=
  (tvals a.reds).flatMap (fun r => (r.contribs.filter (fun c => c.uid == uid && c.arrived && !c.saved)).map (fun c => (r, c)))

/-- Whether a SPUSH is not admitted. -/
def Cmd.unadmitted (c : Cmd) : Bool := match c.kind with | .spush _ adm _ => !adm | _ => false

/-- SPUSH commands of a wave that are not admitted, which a save cancels (R360). -/
def waitingPushes (a : Arch) (uid : Nat) : List Cmd :=
  (tvals a.cmds).filter (fun c => decide (c.owner = .thread uid) && c.unadmitted)

/-- Whether a wave has drained: it is at a safe point, and none of its sends is in flight (R75, R427) (DEDUCED, log 45). -/
def drained (a : Arch) (mem : Memory) (time : Nat) (t : Thread) : Bool :=
  atSafePoint a mem time t && (tvals a.sends).all (fun x => !(x.sender == t.uid))

/-- Engine commands over the streams and channels of a context's crews on a core (R360). -/
def crewCopies (a : Arch) (pkg core ctx : Nat) : List Cmd :=
  (tvals a.cmds).filter (fun c => (match c.kind with | .copyIn _ => true | .copyOut => true | .spush .. => true | _ => false) &&
    (match c.ag.crew.bind a.crew with | some k => k.pkg == pkg && k.core == core && k.ctx == ctx && !k.out | none => false))

/-- Whether some such command is still to complete before the save: a moved wave's among them (R360). -/
def crewBusy (a : Arch) (pkg core ctx : Nat) : Bool := (crewCopies a pkg core ctx).any (fun c => !c.unadmitted)

/-- Whether a wave is ready for the save: at a safe point, its class-8 work, accesses and sends done, and its flags zero but
for held reduces and SPUSHes that will be cancelled (R75, R156, R360, R382, R408, R427) (DEDUCED, log 45). -/
def settled (a : Arch) (mem : Memory) (time : Nat) (t : Thread) : Bool :=
  let reds := heldReds a t.uid
  let pushes := waitingPushes a t.uid
  atSafePoint a mem time t && !matrixBusy a t.uid && !ownPending a t.uid &&
  (tvals a.sends).all (fun x => !(x.sender == t.uid)) &&
  (List.range 12).all (fun k =>
    t.getF k == (reds.filter (fun x => x.2.flag == k)).length + (pushes.filter (fun c => decide (c.flag = some k))).length)

/-- The waves of a context that run on a core. -/
def ctxWaves (a : Arch) (pkg core ctx : Nat) : List Thread := (residents a pkg core).filter (fun t => t.ctx == ctx)

/-! ## The watchdog (R76) -/

/-- PC of the next word that a wave would issue (R76). -/
def nextPc (a : Arch) (mem : Memory) (time : Nat) (t : Thread) : Nat :=
  if t.halted then t.haltPc
  else match t.clause with
    | some c => c.va c.pos
    | none => ((pickEntry (readPrios a mem time t)).map (·.pc)).getD 0

/-- Whether the watchdog of a request watches a thread: a wave of the context on a core of the request that is not saved, or a frame
on such a core's sequencer (R36, R76) (DEDUCED, log 90). -/
def Pre.watches (p : Pre) (t : Thread) : Bool :=
  !p.resume && !t.saved && t.ctx == p.ctx && t.unit.pkg == p.pkg && decide (t.unit.level = .core) &&
    p.cores.contains t.unit.idx && !p.saved.contains t.unit.idx && (t.isWave || decide (t.phase = .active))

/-- SAFE_POINT_OVERRUN: 20 µs after the request, a wave or frame not at a safe point is reported once. -/
def execSafePointOverrun (pre uid : Nat) (s : State) : Out :=
  runEvent s fun a mem time =>
    match tget a.pres pre, a.thread uid with
    | some p, some t =>
      if p.watches t && decide (p.began + 20000 ≤ time) && !p.reported.contains uid && !atSafePoint a mem time t then
        ({ a with pres := tset a.pres pre { p with reported := p.reported ++ [uid] } }.event time p.pkg 3 p.ctx 0 t.eventId
          (nextPc a mem time t), [])
      else (a, [])
    | _, _ => (a, [])

/-! ## The image (R221 to R223) -/

/-- Zero bytes. -/
def zeros (n : Nat) : List Byte := List.replicate n 0
/-- Pad to 128 bytes. -/
def pad128 (b : List Byte) : List Byte := b ++ zeros (roundUp 128 b.length - b.length)

/-- Where a crew's accumulators lie in the main bank: each crew number has a share that holds 16 tiles and the latch records
(DESIGN CHOICE, log 91). -/
def accBase (c : Crew) : Nat := c.num * accBytes 16

/-- The 640-byte crew record (R222). -/
def crewRecord (c : Crew) (punnets : Nat) : List Byte :=
  leBytes 4 c.num ++ leBytes 4 c.live ++ leBytes 4 c.base ++ leBytes 4 c.size ++ leBytes 4 (accBase c) ++ leBytes 4 c.acc ++
    leBytes 4 punnets ++ zeros 36 ++
  (List.range 16).flatMap (fun b => match tget c.bars b with
    | some x => leBytes 4 x.members ++ leBytes 4 x.arrived ++ leBytes 2 x.e ++ leBytes 2 x.count ++ leBytes 4 (x.phase % 2)
    | none => zeros 16) ++
  (List.range 8).flatMap (fun v => match tget c.cvs v with
    | some x => leBytes 4 x.expected.toNat ++ leBytes 4 x.owner ++ leBytes 4 x.signed.toNat ++ zeros 4
    | none => zeros 16) ++
  (List.range 4).flatMap (fun q => match tget c.streams q with
    | some x => leBytes 8 x.base ++ leBytes 8 x.cap ++ leBytes 8 x.wp ++ leBytes 8 x.rp
    | none => zeros 32) ++
  (List.range 4).flatMap (fun ch => leBytes 8 (tgetD c.chans ch 0)) ++ zeros 32

/-- The shadows that hold data of a wave's window, as a mask of tiles (R404). -/
def shadowMask (a : Arch) (t : Thread) : Nat :=
  match a.crew t.crew with
  | some c => c.shadowOwner.foldl (fun m p => if p.2 == t.uid then setBit m p.1 else m) 0
  | none => 0

/-- One frontier entry (R223). -/
def FEntry.bytes (e : FEntry) : List Byte :=
  leBytes 8 (e.pc / 8 * 2048 + e.pass) ++ leBytes 4 e.lanes.toNat ++ leBytes 2 e.rank ++ leBytes 2 0

/-- The frontier entries of a wave record: those that run, then those of a frozen frontier (R220, R223). -/
def recordEntries (a : Arch) (mem : Memory) (time : Nat) (t : Thread) : List FEntry :=
  readPrios a mem time t ++ (match t.frozen with
    | some f => readPrios a mem time { t with front := f.front }
    | none => [])

/-- A wave record: its parts, and its bytes padded to 128 (R223, R404) (DEDUCED, log 43). -/
def waveRecord (a : Arch) (mem : Memory) (time : Nat) (t : Thread) : ImageWave × List Byte :=
  let m := liveMasks a mem time t
  let gs := savedRegs t m.2
  let es := recordEntries a mem time t
  let reds := heldReds a t.uid
  let crew := ((a.crew t.crew).map (·.num)).getD 0
  let parked := match t.wait with | some (.park _) => true | _ => false
  let lv := [0, 1, 2, 3, 4, 5]
  let shw := shadowMask a t
  let sreg (k : Nat) : Nat := if bitAt m.1 (k / 2) || (t.tm && decide (40 ≤ k)) then (tgetD t.regs.s k 0).toNat else 0
  let head :=
    leBytes 4 t.waveid.toNat ++ leBytes 4 t.wavegen.toNat ++ leBytes 4 crew ++ leBytes 4 t.role ++ leBytes 4 t.slot ++
    leBytes 4 (b2n t.tm + 2 * b2n t.halted + 4 * b2n parked) ++ leBytes 4 es.length ++ leBytes 4 gs.length ++
    leBytes 4 m.1 ++ leBytes 4 m.2 ++ leBytes 4 t.regs.part.toNat ++ zeros 20 ++
    leBytes 4 t.sr.fpctl.toNat ++ leBytes 4 t.sr.fpstat.toNat ++ leBytes 4 t.sr.srkey0.toNat ++ leBytes 4 t.sr.srkey1.toNat ++
    leBytes 4 t.sr.srctr0.toNat ++ leBytes 4 t.sr.srctr1.toNat ++ leBytes 4 t.sr.rfault.toNat ++ leBytes 4 t.sr.rfsrc.toNat ++
    leBytes 4 t.sr.rsstat.toNat ++ leBytes 4 t.sr.sp ++ leBytes 4 t.sr.tblk.toNat ++ zeros 20 ++
    lv.flatMap (fun l => leBytes 4 (tgetD t.barGen l 0)) ++ lv.flatMap (fun l => leBytes 4 (tgetD t.redSeq l 0)) ++
    leBytes 1 (b2n t.spec.isOpen + 2 * b2n t.spec.pred) ++ leBytes 1 t.spec.reg ++ leBytes 2 shw ++ zeros 12 ++
    (List.range 48).flatMap (fun k => leBytes 4 (sreg k)) ++
    (List.range 8).flatMap (fun k => leBytes 4 (tgetD t.bank k 0).toNat) ++
    (List.range 8).flatMap (fun k => leBytes 4 (t.getP k).toNat) ++
    (List.range 4).flatMap (fun k => laneList.flatMap (fun l => leBytes 2 (t.getX k l).toNat)) ++
    leBytes 24 t.regs.openBits ++ leBytes 2 (t.pbar.foldl (fun n p => setBit n p.1) 0) ++ leBytes 2 reds.length ++ zeros 36 ++
    es.flatMap FEntry.bytes ++ gs.flatMap (fun r => leBytes 4 (t.arrived r).toNat)
  ({ uid := t.uid, off := 0, front := es.length, own := t.front.length, regs := gs, reds := reds.length },
   pad128 (pad128 head ++
     gs.flatMap (fun r => laneList.flatMap (fun l => leBytes 4 (t.getV r l).toNat)) ++
     reds.flatMap (fun x => leBytes 4 x.1.seq ++ leBytes 1 x.1.level.code ++ leBytes 1 x.2.flag ++ leBytes 1 (0xC0 + x.2.status) ++ zeros 9)))

/-- A latch record: granules, headers, presence mask, valid byte, padding (R404). -/
def Frag.bytes (f : Frag) : List Byte :=
  (List.range 512).flatMap (fun k => leBytes 4 (tgetD f.data k 0).toNat) ++
  (List.range 32).flatMap (fun r => leBytes 2 (tgetD f.hdr r 0).toNat) ++ leBytes 4 f.present.toNat ++ leBytes 1 (b2n f.valid) ++
  zeros 59

/-- A tile of 32 rows of 32 words. -/
def tileBytes (ts : Tab W32) (t : Nat) : List Byte := (List.range 1024).flatMap (fun k => leBytes 4 (tgetD ts (1024 * t + k) 0).toNat)

/-- The accumulator allocation of a crew (R404). -/
def accImage (c : Crew) : List Byte :=
  if c.acc = 0 then []
  else (List.range c.acc).flatMap (tileBytes c.tiles) ++ c.latchA.bytes ++ c.latchB.bytes ++
    c.shadowOwner.flatMap (fun p => tileBytes c.shadows p.1)

/-- The punnets of a crew on its core, by number. -/
def crewPunnetTab (a : Arch) (c : Crew) : Tab Punnet := a.punnets.filter (fun p => p.2.crew == c.id && !(p.2.state == .empty))

/-- The records of a punnet: 32 of 64 bytes. -/
def punnetBytes (p : Punnet) : List Byte :=
  (List.range 32).flatMap (fun i => (List.range 16).flatMap (fun j => leBytes 4 ((p.recs.getD i []).getD j 0).toNat))

/-- The parts of one crew in an image: where they lie, the crew record, and part 4: punnet records, scratchpad region and
accumulator allocation (R221). -/
structure CrewPart where
  at' : ImageCrew
  record : List Byte
  punnets : List Byte
  region : List Byte
  acc : List Byte

/-- The parts of a crew on its core; part 4 is left out for a resident pair, its punnets with it (R78, R221) (DEDUCED, log 87). -/
def crewPart (a : Arch) (mem : Memory) (pair : Bool) (c : Crew) : CrewPart :=
  let ps := crewPunnetTab a c
  { at' := { crew := c.id, off := 0, punnets := if pair then [] else ps.map (·.1), punnetOff := 0, regionOff := 0, accOff := 0,
             shadows := if pair then [] else c.shadowOwner.map (·.1) },
    record := crewRecord c ps.length,
    punnets := if pair then [] else ps.flatMap (fun p => punnetBytes p.2),
    region := if pair then [] else mbytes mem (spadAddr c.pkg c.core + c.base) c.size,
    acc := if pair then [] else accImage c }

/-- The parts of a crew that an image at address `at'` already holds: those of a crew that stayed on its core hold no part 4. -/
def crewPartAgain (mem : Memory) (at' : Nat) (x : ImageCrew) (c : Crew) : CrewPart :=
  { at' := x, record := mbytes mem (at' + x.off) 640,
    punnets := mbytes mem (at' + x.punnetOff) (2048 * x.punnets.length),
    region := if !c.out then [] else mbytes mem (at' + x.regionOff) c.size,
    acc := if !c.out || c.acc == 0 then [] else mbytes mem (at' + x.accOff) (4096 * c.acc + 4352 + 4096 * x.shadows.length) }

/-- Give each wave record its offset. -/
def layWaves : Nat → List (ImageWave × List Byte) → List ImageWave
  | _, [] => []
  | n, x :: r => { x.1 with off := n } :: layWaves (n + x.2.length) r

/-- Give each crew's parts their offsets: crew records from `n`, parts 4 from `m`. -/
def layCrews : Nat → Nat → List CrewPart → List ImageCrew
  | _, _, [] => []
  | n, m, x :: r =>
    let p := m + (pad128 x.punnets).length
    let q := p + (pad128 x.region).length
    { x.at' with off := n, punnetOff := m, regionOff := p, accOff := q } :: layCrews (n + 640) (q + (pad128 x.acc).length) r

/-- The image of a context on a core (R221, R222): its bytes, and where its parts lie. -/
def imageBytes (core ctx : Nat) (pair : Bool) (ws : List (ImageWave × List Byte)) (cs : List CrewPart) :
    List Byte × List ImageWave × List ImageCrew :=
  let body := cs.flatMap (·.record) ++ ws.flatMap (·.2) ++
    cs.flatMap (fun c => pad128 c.punnets ++ pad128 c.region ++ pad128 c.acc)
  let n := 128 + 640 * cs.length
  (leBytes 2 1 ++ leBytes 2 ctx ++ leBytes 1 core ++ leBytes 1 cs.length ++ leBytes 1 ws.length ++ leBytes 1 (b2n pair) ++
    leBytes 8 (128 + body.length) ++ zeros 112 ++ body,
   layWaves n ws, layCrews 128 (n + (ws.flatMap (·.2)).length) cs)

/-! ## The save (R75, R79, R202, R220, R382) -/

/-- A clause that is fetched again before it goes on (R260). -/
def Clause.again (c : Clause) : Clause := { c with refetch := true }

/-- A wave in its image: what the LIVE masks leave out reads as at creation after the resume. -/
def saveThread (a : Arch) (mem : Memory) (time : Nat) (t : Thread) : Thread :=
  let m := liveMasks a mem time t
  let gs := savedRegs t m.2
  let t := (heldReds a t.uid).foldl (fun t x => t.lower x.2.flag x.2.tm) t
  { t with saved := true, lastPage := [], eligible := 0, promoted := false,
           clause := t.clause.map Clause.again, frozen := t.frozen.map (fun f => { f with clause := f.clause.map Clause.again }),
           regs := { t.regs with
             s := t.regs.s.filter (fun p => bitAt m.1 (p.1 / 2) || (t.tm && decide (40 ≤ p.1))),
             v := t.regs.v.filter (fun p => gs.contains (p.1 / 32)),
             clear := t.regs.clear.filter (fun p => gs.contains p.1) } }

/-- Mark the contributions that the reduce units hold for a saved wave (R382). -/
def holdReds (a : Arch) (uid : Nat) : Arch :=
  { a with reds := a.reds.map (fun p => (p.1, { p.2 with
      contribs := p.2.contribs.map (fun c => if c.uid == uid && c.arrived then { c with saved := true } else c) })) }

/-- Put the locator entries of some waves into a state, after writes of the same step (R205). -/
def setLocs (mem : Memory) (time : Nat) (st : LocState) : List Thread → Arch → Writes → Arch × Writes
  | [], a, ws => (a, ws)
  | t :: r, a, ws => let x := setLoc a mem ws time t.waveid st; setLocs mem time st r x.1 x.2

/-- The crews of a context that hold storage on a core. -/
def ctxCrews (a : Arch) (pkg core ctx : Nat) : List Crew :=
  (tvals a.crews).filter (fun c => c.started && !c.out && c.pkg == pkg && c.core == core && c.ctx == ctx)

/-- A crew leaves its core: its punnets and region go into the image. -/
def swapCrew (a : Arch) (c : Crew) : Arch :=
  { a.setCrew { c with out := true } with punnets := a.punnets.filter (fun p => !(p.2.crew == c.id)) }

/-- The cores, by package, to which moves took waves of crews of some cores, and where they are saved: they resume there with their crews
(R77). -/
def mooredOn (a : Arch) (pkg ctx : Nat) (cores : List Nat) : List (Nat × Nat) :=
  (((tvals a.threads).filter (fun t => t.isWave && t.saved && t.ctx == ctx && !(t.unit.pkg == pkg && cores.contains t.unit.idx) &&
    (match a.crew t.crew with | some c => c.pkg == pkg && cores.contains c.core | none => false))).map
      (fun t => (t.unit.pkg, t.unit.idx))).eraseDups

/-- Those of them on the crews' own package. -/
def mooredCores (a : Arch) (pkg ctx : Nat) (cores : List Nat) : List Nat :=
  ((mooredOn a pkg ctx cores).filter (fun x => x.1 == pkg)).map (·.2)

/-- A resume on each core of another package where such a wave is saved, without a command of its own. -/
def resumeAway (a : Arch) (time pkg ctx : Nat) (cores : List Nat) : Arch :=
  ((mooredOn a pkg ctx cores).filter (fun x => !(x.1 == pkg))).foldl (fun a x =>
    { a with nextId := a.nextId + 1,
             pres := tset a.pres a.nextId { id := a.nextId, pkg := x.1, ctx := ctx, cores := [x.2], began := time, cmd := none,
                                            resume := true, switchTo := none, saved := [], reported := [] } }) a

/-- Complete a pre-emption or resume whose every core is done; a switch goes on to resume the other context (R78, R233). -/
def finishPre (a : Arch) (time : Nat) (p : Pre) : Arch :=
  let ended (a : Arch) : Arch :=
    let a := { a with pres := tdel a.pres p.id }
    match p.cmd with
    | some c => a.complete time p.pkg 0 c .ok 0
    | none => a
  if p.cores.all (fun k => p.saved.contains k) then
    match p.switchTo with
    | none => ended a
    | some c =>
      let cores := p.cores ++ mooredCores a p.pkg c p.cores
      let q := { p with ctx := c, cores := cores, resume := true, switchTo := none, saved := cores.filter (fun k => !isOut a p.pkg k c) }
      let a := resumeAway a time p.pkg c p.cores
      if q.cores.all (fun k => q.saved.contains k) then ended a else { a with pres := tset a.pres p.id q }
  else { a with pres := tset a.pres p.id p }

/-- A core of a pre-emption or resume is done. -/
def coreDone (a : Arch) (time : Nat) (p : Pre) (core : Nat) : Arch :=
  finishPre a time { p with saved := p.saved ++ [core], busy := p.busy.filter (fun k => !(k == core)) }

/-- The waves of a context that are saved on a core. -/
def savedWaves (a : Arch) (pkg core ctx : Nat) : List Thread :=
  (tvals a.threads).filter (fun t => t.isWave && t.saved && t.ctx == ctx && t.unit.pkg == pkg && t.unit.idx == core)

/-- The crews of a context that are swapped out of a core. -/
def outCrews (a : Arch) (pkg core ctx : Nat) : List Crew :=
  (tvals a.crews).filter (fun c => c.out && c.pkg == pkg && c.core == core && c.ctx == ctx)

/-- The BUDGET event of a switch on a core, once (R79). -/
def overBudget (a : Arch) (time : Nat) (p : Pre) (core : Nat) (late : Bool) : Arch × Pre :=
  if late && p.switch && !p.budget.contains core then
    (a.event time p.pkg 4 p.ctx core 0 0, { p with budget := p.budget ++ [core] })
  else (a, p)

/-- The granules that a run of bytes covers whole hold no error any more (R216, R217). -/
def cleared (a : Arch) (lo n : Nat) : Arch :=
  { a with bad := a.bad.filter (fun p => !(decide (lo ≤ 64 * p.1) && decide (64 * p.1 + 64 ≤ lo + n))) }

/-- The uncorrectable granules of some bytes, as fabric addresses. -/
def badIn (a : Arch) (lo n : Nat) : List Nat :=
  (a.bad.filter (fun p => decide (lo < 64 * p.1 + 64) && decide (64 * p.1 < lo + n))).map (fun p => 64 * p.1)

/-- The UNCORRECTED events of a save or a restore that meets some granules (R218). -/
def imageUnc (a : Arch) (time ctx : Nat) (fas : List Nat) : Arch :=
  fas.foldl (fun a fa => a.event time (faPkg fa) 7 ctx (faPlace fa).mem fa 0xFFFFFF) a

/-- What the copy of a crew's region into its image meets: each uncorrectable granule is reported, and stays uncorrectable in the image
at `lo` (R217, R218) (DESIGN CHOICE, log 94). -/
def saveBad (time : Nat) (lo : Nat) (a : Arch) (ic : ImageCrew) : Arch :=
  match a.crew ic.crew with
  | none => a
  | some c =>
    let from' := spadAddr c.pkg c.core + c.base
    let fas := badIn a from' c.size
    { imageUnc a time c.ctx fas with
      bad := tsets a.bad (fas.filterMap (fun fa => (tget a.bad (granule fa)).map (fun v => (granule (lo + ic.regionOff + (fa - from')), v)))) }

/-- The save begins once every wave has drained: SPUSHes that are not admitted end (R360), and the locator entries are SAVING (R202, R205). -/
def beginSave (a : Arch) (mem : Memory) (time : Nat) (p : Pre) (core : Nat) : Arch × Writes :=
  let pushes := (ctxWaves a p.pkg core p.ctx).flatMap (fun t => waitingPushes a t.uid) ++
    (crewCopies a p.pkg core p.ctx).filter (·.unadmitted)
  let a := ((pushes.map (·.id)).eraseDups.filterMap (tget a.cmds)).foldl (fun a c => endCmd a c 3 0) a
  let a := { a with pres := tset a.pres p.id { p with busy := p.busy ++ [core] } }
  setLocs mem time .saving (ctxWaves a p.pkg core p.ctx) a []

/-- Save a context on a core and mark it OUT there (DEDUCED, log 44). A wave that a move brings to a core whose context is OUT joins
the image there (R77). -/
def saveCore (a : Arch) (mem : Memory) (time : Nat) (p : Pre) (core : Nat) (g : Image) : Arch × Writes :=
  let at' := imageAddr a g
  let ws := ctxWaves a p.pkg core p.ctx
  let cs := ctxCrews a p.pkg core p.ctx
  let pair := inPair a p.pkg core p.ctx
  let recs := ws.map (waveRecord a mem time) ++
    (if g.out then g.waves.map (fun x => (x, mbytes mem (at' + x.off) x.size)) else [])
  let parts := cs.map (crewPart a mem pair) ++
    (if g.out then (g.crews.filterMap (fun x => ((a.crew x.crew).filter (fun c => !(cs.any (fun k => k.id == c.id)))).map
      (crewPartAgain mem at' x))) else [])
  let img := imageBytes core p.ctx pair recs parts
  let fits := decide (img.1.length ≤ g.room)
  let late := decide (96 * 1024 < (recs.flatMap (·.2)).length) || ws.any (fun t => decide (20 < t.drained))
  let out := (at', img.1.take g.room)
  let a := ws.foldl (fun a t => (holdReds a t.uid).setThread (saveThread a mem time t)) a
  let punnets := if pair then [] else cs.flatMap (crewPunnetTab a)
  let a := if pair then a else cs.foldl swapCrew a
  let a := if pair then cleared a at' out.2.length else
    (img.2.2.filter (fun x => cs.any (fun k => k.id == x.crew))).foldl (saveBad time at') (cleared a at' out.2.length)
  let a := setImage a
    { g with out := true, size := img.1.length, bad := !fits, waves := img.2.1, crews := img.2.2, punnets := tsets g.punnets punnets }
  let a := if fits then a else a.event time p.pkg 9 p.ctx core at' 0
  let b := overBudget a time p core late
  let a := setLocs mem time .saved ws b.1 [out]
  (coreDone a.1 time b.2 core, a.2)

/-- PREEMPT_SAVE: once every wave of the context on the core has drained, the save begins; once their flags are zero, the core writes the image and frees
what it holds. -/
def execPreemptSave (pre core : Nat) (s : State) : Out :=
  runEvent s fun a mem time =>
    match tget a.pres pre with
    | none => (a, [])
    | some p =>
      if p.resume || !p.cores.contains core || p.saved.contains core then (a, [])
      else match imageOf a p.pkg core p.ctx with
        | none => (a, [])
        | some g =>
          let ws := ctxWaves a p.pkg core p.ctx
          if g.out && ws.isEmpty then (coreDone a time p core, [])
          else if (a.berth p.pkg (core / 48)).relock.isSome then (a, [])
          else if p.busy.contains core then
            if ws.all (settled a mem time) && !crewBusy a p.pkg core p.ctx then saveCore a mem time p core g else (a, [])
          else if ws.all (drained a mem time) then beginSave a mem time p core
          else (a, [])

/-! ## The restore (R75, R202, R217, R298, R382) -/

/-- Whether a core has room for what a restore brings back. -/
def restoreFits (a : Arch) (pkg core ctx : Nat) : Bool :=
  let ws := savedWaves a pkg core ctx
  let cs := outCrews a pkg core ctx
  let rs := occupants a pkg core
  let held := heldCrews a pkg core
  ws.all (fun t => rs.all (fun r => !(r.slot == t.slot))) &&
  decide (regsUsed a pkg core + ws.foldl (fun n t => n + t.alloc) 0 ≤ 3072) &&
  cs.all (fun c => held.all (fun x => !(x.num == c.num)) && regionFree held c.base c.size) &&
  decide ((held ++ cs).foldl (fun m x => m + accBytes x.acc) 0 ≤ 0x100000)

/-- The uncorrectable granules of an image, as fabric addresses. -/
def imageBad (a : Arch) (g : Image) : List Nat := badIn a (imageAddr a g) (min g.size g.room)

/-- The flag of a contribution held through a save is raised again (R382). -/
def raiseAgain (t : Thread) (c : Contrib) : Thread :=
  let t' := t.setF c.flag (t.getF c.flag + 1)
  if c.tm then { t' with tmCounts := tset t.tmCounts c.flag (tgetD t.tmCounts c.flag 0 + 1) } else t'

/-- Contributions of a restored wave: each flag is raised again, and falls at once where the instance has ended (R382). -/
def releaseReds (a : Arch) (uid : Nat) : Arch :=
  (tvals a.reds).foldl (fun a r =>
    let mine := r.contribs.filter (fun c => c.uid == uid && c.saved)
    if mine.isEmpty then a
    else
      let a := a.modThread uid (fun t => mine.foldl raiseAgain t)
      let r := { r with contribs := r.contribs.map (fun c => if c.uid == uid then { c with saved := false } else c) }
      if r.fin then endRed a r r.status else { a with reds := tset a.reds r.id r }) a

/-- A table of the values that are not zero. -/
def nonZero {n : Nat} (l : List (Nat × BitVec n)) : Tab (BitVec n) := l.filter (fun p => !decide (p.2 = 0))

/-- A counter whose low 32 bits an image holds. -/
def counterOf (old x : Nat) : Nat := if old % 2 ^ 32 = x then old else x

/-- Frontier entry `i` of a wave record at `ad` (R223). -/
def entryOf (mem : Memory) (ad i : Nat) : FEntry :=
  let x := mnum mem (ad + 768 + 16 * i) 8
  { pc := x / 2048 * 8, pass := x % 2048, lanes := BitVec.ofNat 32 (mnum mem (ad + 776 + 16 * i) 4),
    prio := some (mnum mem (ad + 780 + 16 * i) 2) }

/-- The register file that a wave record at `ad` holds; flags are zero until held REDUCEs raise theirs (R223). -/
def recordRegs (mem : Memory) (ad : Nat) (x : ImageWave) : Regs :=
  let w (o : Nat) : W32 := BitVec.ofNat 32 (mnum mem (ad + o) 4)
  let rs := (List.range x.regs.length).zip x.regs
  { s := nonZero ((List.range 48).map (fun k => (k, w (192 + 4 * k)))),
    v := tsets [] (nonZero (rs.flatMap (fun p => laneList.map (fun l => (vkey p.2 l, w (x.vAt p.1 + 4 * l)))))),
    p := nonZero ((List.range 7).map (fun k => (k, w (416 + 4 * k)))),
    x := nonZero ((List.range 128).map (fun k => (k, BitVec.ofNat 16 (mnum mem (ad + 448 + 2 * k) 2)))),
    f := [], part := w 40 &&& 7,
    clear := nonZero (rs.map (fun p => (p.2, ~~~(w (x.arrAt p.1))))),
    openBits := mnum mem (ad + 704) 24 }

/-- The special registers of a wave record; what it holds in a reserved field is not taken (R7), and sr.prio is not kept and reads the class of the wave's tree (R298). -/
def recordSRegs (mem : Memory) (ad cls : Nat) : SRegs :=
  let w (o : Nat) : W32 := BitVec.ofNat 32 (mnum mem (ad + o) 4)
  { fpctl := w 64 &&& 7, fpstat := w 68 &&& 0x1F, srkey0 := w 72, srkey1 := w 76, srctr0 := w 80, srctr1 := w 84,
    rfault := w 88 &&& 0x80FFFF00, rfsrc := w 92 &&& 0xFFFFFF, rsstat := w 96 &&& 0xF00FE, sp := mnum mem (ad + 100) 4,
    tblk := w 104 &&& 0x1FFFC1, prio := cls }

/-- A wave as its record gives it (R223). What the record has no field for stays as the save left it (DEDUCED, log 43). -/
def restoreThread (a : Arch) (mem : Memory) (ad : Nat) (x : ImageWave) (t : Thread) : Thread :=
  let es := (List.range x.front).map (entryOf mem ad)
  let count (o : Nat) (old : Tab Nat) : Tab Nat :=
    ((List.range 6).map (fun l => (l, counterOf (tgetD old l 0) (mnum mem (ad + o + 4 * l) 4)))).filter (fun p => !(p.2 == 0))
  let sp := mnum mem (ad + 176) 1
  let pb := mnum mem (ad + 728) 2
  { t with
    saved := false, regs := recordRegs mem ad x, sr := recordSRegs mem ad (((a.tree t.tree).map (·.cls)).getD 0),
    bank := (List.range 8).map (fun k => (k, BitVec.ofNat 32 (mnum mem (ad + 384 + 4 * k) 4))),
    barGen := count 128 t.barGen, redSeq := count 152 t.redSeq,
    spec := { isOpen := bitAt sp 0, pred := bitAt sp 1, reg := mnum mem (ad + 177) 1 },
    pbar := (List.range 16).filterMap (fun b => if bitAt pb b then some (b, (tget t.pbar b).getD
      ((((a.crew t.crew).bind (fun c => tget c.bars b)).map (·.phase)).getD 0)) else none),
    front := es.take x.own, frozen := t.frozen.map (fun f => { f with front := es.drop x.own }) }

/-- A latch record of an image (R404). -/
def fragOf (mem : Memory) (ad : Nat) : Frag :=
  { data := nonZero ((List.range 512).map (fun k => (k, BitVec.ofNat 32 (mnum mem (ad + 4 * k) 4)))),
    hdr := nonZero ((List.range 32).map (fun r => (r, BitVec.ofNat 16 (mnum mem (ad + 2048 + 2 * r) 2)))),
    present := BitVec.ofNat 32 (mnum mem (ad + 2112) 4), valid := bitAt (mnum mem (ad + 2116) 1) 0 }

/-- The words of tile `t` as an image holds them at `ad`. -/
def tileFrom (mem : Memory) (ad t : Nat) : Tab W32 :=
  nonZero ((List.range 1024).map (fun k => (1024 * t + k, BitVec.ofNat 32 (mnum mem (ad + 4 * k) 4))))

/-- A crew barrier from the 16 bytes of its record that `n` reads at an offset. -/
def recordBar (n : Nat → Nat) (x : CrewBar) : CrewBar :=
  { x with members := n 0 % 2 ^ 32, arrived := n 4 % 2 ^ 32, e := n 8 % 2 ^ 16, count := n 10 % 2 ^ 16,
           phase := if x.phase % 2 = n 12 % 2 then x.phase else x.phase + 1 }

/-- A crew as its record gives it (R222). -/
def recordCrew (mem : Memory) (ad : Nat) (c : Crew) : Crew :=
  let n (o k : Nat) : Nat := mnum mem (ad + o) k
  { c with
    bars := c.bars.map (fun p => (p.1, recordBar (fun o => n (64 + 16 * p.1 + o) 4) p.2)),
    cvs := c.cvs.map (fun p => (p.1, { p.2 with
      expected := BitVec.ofNat 32 (n (320 + 16 * p.1) 4), owner := n (324 + 16 * p.1) 4,
      signed := BitVec.ofNat 32 (n (328 + 16 * p.1) 4) })),
    streams := c.streams.map (fun p => (p.1, { p.2 with
      base := n (448 + 32 * p.1) 8, cap := n (456 + 32 * p.1) 8, wp := n (464 + 32 * p.1) 8, rp := n (472 + 32 * p.1) 8 })),
    chans := ((List.range 4).map (fun ch => (ch, n (576 + 8 * ch) 8))).filter (fun p => !(p.2 == 0)) }

/-- The accumulator allocation of a crew as its image gives it (R404). -/
def recordAcc (mem : Memory) (ad : Nat) (x : ImageCrew) (c : Crew) : Crew :=
  if c.acc = 0 then c
  else
    let o := ad + 4096 * c.acc
    { c with tiles := (List.range c.acc).flatMap (fun t => tileFrom mem (ad + 4096 * t) t),
             latchA := fragOf mem o, latchB := fragOf mem (o + 2176),
             shadows := ((List.range x.shadows.length).zip x.shadows).flatMap (fun p => tileFrom mem (o + 4352 + 4096 * p.1) p.2) }

/-- A punnet with the records that an image holds at `ad`. -/
def recordPunnet (mem : Memory) (ad : Nat) (p : Punnet) : Punnet :=
  { p with recs := (List.range p.recs.length).map (fun i =>
      (List.range 16).map (fun j => BitVec.ofNat 32 (mnum mem (ad + 64 * i + 4 * j) 4))) }

/-- Bring one crew back, with the bytes of its region (R221); one that has stayed on its core as a resident pair's is as it was (R78). -/
def restoreCrew (mem : Memory) (g : Image) (at' : Nat) (x : Arch × Writes) (ic : ImageCrew) : Arch × Writes :=
  match (x.1.crew ic.crew).filter (·.out) with
  | none => x
  | some c =>
    let c := { recordAcc mem (at' + ic.accOff) ic (recordCrew mem (at' + ic.off) c) with out := false }
    let ps := ((List.range ic.punnets.length).zip ic.punnets).filterMap (fun p =>
      (tget g.punnets p.2).map (fun q => (p.2, recordPunnet mem (at' + ic.punnetOff + 2048 * p.1) q)))
    ({ x.1.setCrew c with punnets := tsets x.1.punnets ps },
     x.2 ++ [(spadAddr c.pkg c.core + c.base, mbytes mem (at' + ic.regionOff) c.size)])

/-- Bring one wave back. -/
def restoreWave (mem : Memory) (at' : Nat) (a : Arch) (x : ImageWave) : Arch :=
  match a.thread x.uid with
  | none => a
  | some t => if t.saved then releaseReds (a.setThread (restoreThread a mem (at' + x.off) x t)) t.uid else a

/-- The timers of a context's punnets on a core: from what is left to the cycle at which they fall due, or back (R75). -/
def thawPunnets (a : Arch) (pkg core ctx : Nat) (f : Nat → Nat) : Arch :=
  { a with punnets := a.punnets.map (fun p =>
      match a.crew p.2.crew with
      | some c => if c.ctx == ctx && c.pkg == pkg && c.core == core then (p.1, { p.2 with deadline := f p.2.deadline }) else p
      | none => p) }

/-- The restore begins: the locator entries are RESTORING (R202, R205). -/
def beginRestore (a : Arch) (mem : Memory) (time : Nat) (p : Pre) (core : Nat) : Arch × Writes :=
  setLocs mem time .restoring (savedWaves a p.pkg core p.ctx) { a with pres := tset a.pres p.id { p with busy := p.busy ++ [core] } } []

/-- Restore a context on a core from its image. Sends that were held land before a wave's
first clause, and barriers that awaited its waves are looked at again (R48). -/
def restoreCore (a : Arch) (mem : Memory) (time : Nat) (p : Pre) (core : Nat) (g : Image) : Arch × Writes :=
  let at' := imageAddr a g
  let ws := savedWaves a p.pkg core p.ctx
  let late := decide (96 * 1024 < g.waves.foldl (fun n x => n + roundUp 128 x.size) 0)
  let x := g.crews.foldl (restoreCrew mem g at') (a, [])
  let a := g.waves.foldl (restoreWave mem at') x.1
  let now := (a.berth p.pkg (core / 48)).cycles
  let a := thawPunnets a p.pkg core p.ctx (· + now)
  let a := setImage a { g with out := false, punnets := [], waves := [], crews := [] }
  let b := overBudget a time p core late
  let y := setLocs mem time .resident ws b.1 x.2
  let a := (ws.map (·.tree)).eraseDups.foldl (fun a n => barSweep a n .lg) y.1
  (coreDone a time b.2 core, y.2)

/-- An image with an uncorrectable granule is held and reported (R217, R218). -/
def imageFails (a : Arch) (time : Nat) (p : Pre) (core : Nat) (g : Image) (fas : List Nat) : Arch :=
  (imageUnc (setImage { a with pres := tset a.pres p.id { p with busy := p.busy.filter (fun k => !(k == core)) } } { g with bad := true })
    time p.ctx fas).event
      time p.pkg 9 p.ctx core (fas.headD 0) 0

/-- RESTORE_COMPLETE: a core's restore begins once there is room; then its image is read. One that cannot be read is held and reported
(R217). -/
def execRestoreComplete (pre core : Nat) (s : State) : Out :=
  runEvent s fun a mem time =>
    match tget a.pres pre with
    | none => (a, [])
    | some p =>
      if !p.resume || !p.cores.contains core || p.saved.contains core then (a, [])
      else match imageOf a p.pkg core p.ctx with
        | none => (coreDone a time p core, [])
        | some g =>
          if !g.out then (coreDone a time p core, [])
          else if g.bad then (a, [])
          else match imageBad a g with
            | [] =>
              if !restoreFits a p.pkg core p.ctx || (a.berth p.pkg (core / 48)).relock.isSome then (a, [])
              else if p.busy.contains core then restoreCore a mem time p core g
              else beginRestore a mem time p core
            | fas => setLocs mem time .saved (savedWaves a p.pkg core p.ctx) (imageFails a time p core g fas) []

/-! ## Beginning (R75, R233) -/

/-- Freeze the punnet timers of a context on a core where no drain has frozen them, and start counting its waves' words. -/
def startDrain (pkg ctx : Nat) (a : Arch) (core : Nat) : Arch :=
  let now := (a.berth pkg (core / 48)).cycles
  let a := if draining a pkg core ctx then a else thawPunnets a pkg core ctx (· - now)
  (ctxWaves a pkg core ctx).foldl (fun a t => a.setThread { t with drained := 0 }) a

/-- Begin a pre-emption of a context on some cores, with the context to resume after it, if any. -/
def startPre (a : Arch) (time pkg ctx : Nat) (cores : List Nat) (cmd : Nat) (switchTo : Option Nat) : Arch :=
  let a := cores.foldl (startDrain pkg ctx) a
  let p : Pre := { id := a.nextId, pkg := pkg, ctx := ctx, cores := cores, began := time, cmd := some cmd, resume := false,
                   switchTo := switchTo, saved := cores.filter (fun k => isOut a pkg k ctx), reported := [], switch := switchTo.isSome }
  finishPre { a with nextId := a.nextId + 1 } time p

/-- Begin a resume of a context on some cores. -/
def startResume (a : Arch) (time pkg ctx : Nat) (cores : List Nat) (cmd : Nat) : Arch :=
  let a := resumeAway a time pkg ctx cores
  let cores := cores ++ mooredCores a pkg ctx cores
  let p : Pre := { id := a.nextId, pkg := pkg, ctx := ctx, cores := cores, began := time, cmd := some cmd, resume := true,
                   switchTo := none, saved := cores.filter (fun k => !isOut a pkg k ctx), reported := [] }
  finishPre { a with nextId := a.nextId + 1 } time p

end Sys2Proof.Machine
end

