-- ==== Sys2Proof/Machine/FrontEnd.lean ====
section
/-! DEFINITION. The host transport (spec/30 R430 to R433) and the front end (spec/14 R224 to R231): packets, queues and their
order, and the queue commands LAUNCH, WRITE, COPY and QWAIT. -/

namespace Sys2Proof.Machine

/-! ## Command packets (R224 to R226) -/

/-- What an opcode is: a queue command or not, and the length it requires, 0 for WRITE's 48 bytes and data (R229, R232, R445). -/
def opInfo (opc : Nat) : Option (Bool × Nat) :=
  match opc with
  | 0x01 => some (true, 64) | 0x02 => some (true, 64) | 0x03 => some (true, 112) | 0x04 => some (true, 0)
  | 0x05 => some (true, 64) | 0x06 => some (true, 32)
  | 0x40 => some (false, 112) | 0x41 => some (false, 112) | 0x42 => some (false, 48) | 0x43 => some (false, 48)
  | 0x44 => some (false, 48) | 0x45 => some (false, 64) | 0x46 => some (false, 64) | 0x47 => some (false, 64)
  | 0x48 => some (false, 64) | 0x49 => some (false, 48) | 0x4A => some (false, 48) | 0x4B => some (false, 48)
  | 0x4C => some (false, 48) | 0x4D => some (false, 48) | 0x4E => some (false, 48) | 0x4F => some (false, 48)
  | 0x50 => some (false, 48) | 0x51 => some (false, 48)
  | 0x60 => some (false, 32) | 0x61 => some (false, 48) | 0x62 => some (false, 48) | 0x63 => some (false, 64)
  | 0x64 => some (false, 48) | 0x65 => some (false, 48) | 0x66 => some (false, 48)
  | _ => none

/-- Whether LEN is right for the opcode and for the packet's length. -/
def lenOk (opc len real : Nat) : Bool :=
  len == real && len % 16 == 0 && decide (32 ≤ len) && decide (len ≤ 8192) &&
  (match opInfo opc with
   | some (_, 0) => decide (64 ≤ len)
   | some (_, n) => len == n
   | none => true)

/-- Byte offset of the first of some fields that is bad. -/
def firstOff (l : List (Nat × Bool)) : Option Nat := (l.find? (·.2)).map (·.1)

/-- Whether bytes lo to hi - 1 are not all zero. -/
def dirty (b : List Byte) (lo hi : Nat) : Bool := !allZero ((b.drop lo).take (hi - lo))

/-- The header checks that give MALFORMED (R225, step 3): byte offset of the first bad field. -/
def packetBad (b : List Byte) : Option Nat :=
  firstOff [(0, (opInfo (numAt b 0 1)).isNone), (1, !(numAt b 1 1 == 1)), (2, decide (8 ≤ numAt b 2 1)), (3, !(numAt b 3 1 == 0)),
    (6, !lenOk (numAt b 0 1) (numAt b 6 2) b.length), (24, dirty b 24 32)]

/-- A completion record for a packet that is no command of a queue. -/
def refusePacket (a : Arch) (time p port : Nat) (b : List Byte) (st : Status) (detail : Nat) : Arch :=
  a.report time p port (.completion st.code (numAt b 4 2) detail (numAt b 8 8) (numAt b 16 8) (refTimer a time p))

/-- Whether an endpoint is bound to a queue's world (R226, R437). -/
def endpointOk (a : Arch) (p q : Nat) (k : Queue) (session : Nat) : Bool :=
  let secure := match k.ctx with | some c => a.ctxWorld p c | none => q == 0
  !secure || decide ((a.pkg p).session0 = some session)

/-- Take the packet with SEQ = E into its queue (R225). -/
def takePacket (a : Arch) (time p q : Nat) (k : Queue) (x : Packet) : Arch :=
  let k := { k with expect := k.expect + 1 }
  match packetBad x.bytes with
  | some off => refusePacket (a.setQueue p q k) time p k.port x.bytes .malformed off
  | none =>
    if (opInfo (numAt x.bytes 0 1)).map (·.1) = some (!(q == 0)) then
      { a.setQueue p q { k with cmds := k.cmds ++
          [{ id := a.nextId, seq := x.seq, bytes := x.bytes, begun := false, started := false, faulted := false }] } with
        nextId := a.nextId + 1 }
    else refusePacket (a.setQueue p q k) time p k.port x.bytes .owner 0

/-- Take held packets while the next SEQ is among them. -/
def takeHeld (time p q : Nat) : Nat → Arch → Arch
  | 0, a => a
  | n + 1, a =>
    match a.queue p q with
    | none => a
    | some k => match k.held.find? (fun x => x.seq == k.expect) with
      | none => a
      | some x => takeHeld time p q n (takePacket a time p q { k with held := k.held.filter (fun y => !(y.seq == x.seq)) } x)

/-- An arriving packet: queue and endpoint, window, header (R225). -/
def intake (time p port session : Nat) (a : Arch) (b : List Byte) : Arch :=
  let q := numAt b 4 2
  let seq := numAt b 8 8
  match (if q < 256 then a.queue p q else none) with
  | none => refusePacket a time p port b .owner 0
  | some k =>
    if !endpointOk a p q k session then refusePacket a time p port b .owner 0
    else
      let k := { k with port := port }
      let a := a.setQueue p q k
      let x : Packet := { seq := seq, bytes := b, port := port, session := session }
      if seq < k.expect then a
      else if k.expect + 64 < seq then refusePacket a time p port b .window (k.expect % 2 ^ 32)
      else if seq = k.expect then takeHeld time p q 65 (takePacket a time p q k x)
      else if k.held.any (fun y => y.seq == seq) then a
      else a.setQueue p q { k with held := k.held ++ [x] }

/-! ## The transport (R430 to R433) -/

/-- The packets of a datagram's body, whole and back to back; a LEN that does not fit takes the rest. -/
def splitPackets : Nat → List Byte → List (List Byte)
  | 0, _ => []
  | n + 1, b =>
    if b.length < 32 then []
    else
      let len := numAt b 6 2
      if 32 ≤ len ∧ len ≤ b.length then b.take len :: splitPackets n (b.drop len) else [b]

/-- The largest frame that a port accepts (R430). -/
def frameMax : Nat := 9216

/-- Whether a datagram has the header of R431 for a type, and its frame is not too large for a port (R430) (DEDUCED, log 46). -/
def datagramOk (type : Nat) (b : List Byte) : Bool :=
  decide (16 ≤ b.length) && decide (b.length ≤ frameMax) && numAt b 0 1 == 1 && numAt b 1 1 == type && numAt b 2 2 == b.length - 16 && !dirty b 12 16

/-- A port by number. -/
def Pkg.port (k : Pkg) (i : Nat) : Port := k.ports.getD i Port.reset

/-- What a port does with a protected frame: a frame without a session is dropped, one that does not verify is dropped and
counted (R430), else `f` runs with the session. -/
def onPort (a : Arch) (pkg port : Nat) (verified : Bool) (f : Nat → Arch) : Arch :=
  let k := a.pkg pkg
  let t := k.port port
  if !t.up then a
  else match t.session with
    | none => a
    | some s => if verified then f s else a.setPkg pkg { k with badFrames := k.badFrames + 1 }

/-- What a port does with a frame of the SPDM exchange: without a session it passes unprotected; from FINISH on it must verify under
the current key too, or it is dropped and counted (R430). -/
def onSpdm (a : Arch) (pkg port : Nat) (verified : Bool) (f : Arch) : Arch :=
  if ((a.pkg pkg).port port).session.isSome then onPort a pkg port verified (fun _ => f)
  else if ((a.pkg pkg).port port).up then f else a

/-- The free bytes of an SPDM message, of a free length (PRESUMED, log 41). -/
def spdmBytes (free : Nat) : List Byte := (List.range (Config.spdmLen free)).map (Config.spdmByte free)

/-- A response leaves a port in a datagram of TYPE 4. -/
def respond (a : Arch) (pkg port : Nat) (body : List Byte) (f : Port → Port) : Arch :=
  let a := { a with free := a.free + 1 }
  a.setPkg pkg ((a.pkg pkg).modPort port (fun t => f { t with sent := t.sent ++ [datagram 4 0 0 body] }))

/-- Whether the part has booted. -/
def Pkg.booted (k : Pkg) : Bool := decide (k.boot = .up) || decide (k.boot = .ready)

/-- The request codes of the ten SPDM messages that the responder supports (R436), as SPDM 1.3 numbers them (PRESUMED, log 40). -/
def spdmCodes : List Nat := [0x81, 0x82, 0x83, 0x84, 0xE0, 0xE1, 0xE3, 0xE4, 0xE5, 0xEC]

/-- Whether a datagram carries an SPDM request that the responder does not support (R436): the code is the second byte of the message. -/
def unsupported (b : List Byte) : Bool := datagramOk 4 b && decide (18 ≤ b.length) && !spdmCodes.contains (numAt b 17 1)

/-- COMMAND_DATAGRAM: taken in PSN order and acknowledged, and its packets enter the front end (R431, R432). A datagram with an SPDM
request that the responder does not support is answered with an error (R436) (PRESUMED, log 40). -/
def execCommandDatagram (pkg port : Nat) (verified : Bool) (b : List Byte) (s : State) : Out :=
  runEvent s fun a _ time =>
    (if unsupported b then
      onSpdm a pkg port verified (if (a.pkg pkg).booted then respond a pkg port (spdmBytes a.free) id else a)
    else onPort a pkg port verified fun session =>
      if datagramOk 1 b && numAt b 8 4 == 0 then
        let n := ((a.pkg pkg).port port).lastTaken
        let psn := numAt b 4 4
        let ack (m : Nat) (a : Arch) : Arch :=
          a.setPkg pkg ((a.pkg pkg).modPort port (fun t => { t with lastTaken := m, sent := t.sent ++ [datagram 2 0 (m % 2 ^ 32) []] }))
        if psn = (n + 1) % 2 ^ 32 then
          (splitPackets b.length (b.drop 16)).foldl (intake time pkg port session) (ack (n + 1) a)
        else if 2 ^ 32 ≤ n ∨ (1 ≤ psn ∧ psn ≤ n) then ack n a
        else a
      else a, [])

/-- ACK_DATAGRAM: the datagrams up to APSN are retired, and waiting reports leave (R432). -/
def execAckDatagram (pkg port : Nat) (verified : Bool) (b : List Byte) (s : State) : Out :=
  runEvent s fun a _ time =>
    (onPort a pkg port verified fun _ =>
      if datagramOk 2 b && numAt b 4 4 == 0 then
        let apsn := numAt b 8 4
        a.setPkg pkg ((a.pkg pkg).modPort port (fun t =>
          let n := match t.unacked.find? (fun u => u.1 % 2 ^ 32 == apsn) with | some u => u.1 | none => 0
          Port.pump time t.waiting.length { t with unacked := t.unacked.filter (fun u => decide (n < u.1)) }))
      else a, [])

/-- DATAGRAM_RESEND: REPORT datagrams that 100 µs have passed without an acknowledgement are sent again (R432). -/
def execDatagramResend (pkg port : Nat) (s : State) : Out :=
  runEvent s fun a _ time =>
    let k := a.pkg pkg
    let t := k.port port
    let due (u : Nat × Nat × Report) : Bool := decide (u.2.1 + 100000 ≤ time)
    if t.session.isSome && t.up then
      (a.setPkg pkg (k.modPort port (fun t =>
        { t with sent := t.sent ++ (t.unacked.filter due).map (fun u => datagram 3 (u.1 % 2 ^ 32) 0 u.2.2.bytes),
                 unacked := t.unacked.map (fun u => if due u then (u.1, time, u.2.2) else u) })), [])
    else (a, [])

/-! ## Queue order (R227, R228) -/

/-- Whether a command of a queue waits for RETRY: it holds its queue (R229); queue 0, which carries RETRY, is not held. -/
def queueFaulted (a : Arch) (p q : Nat) (k : Queue) : Bool :=
  k.cmds.any (·.faulted) ||
  (tvals a.cmds).any (fun c => c.faulted && (match c.owner with | .queue p' q' _ => p' == p && q' == q | _ => false))

/-- Whether a context is being aborted. -/
def aborting (a : Arch) (p : Nat) (c : Option Nat) : Bool :=
  match c.bind (a.ctx p) with
  | some x => x.aborting.isSome
  | none => false

/-- The command of a queue that may begin now (R227). A packet that was refused left no command, and holds none back (DESIGN CHOICE,
log 101). -/
def readyCmd (a : Arch) (p q : Nat) (k : Queue) : Option QCmd :=
  match k.cmds.find? (fun c => !c.begun) with
  | none => none
  | some c =>
    let prev := match k.cmds.find? (fun x => x.seq + 1 == c.seq) with | some x => x.begun && x.async | none => true
    let wait := c.num 0 1 == 6 && !(k.cmds.head?.map (·.id) == some c.id)
    if prev && !wait && (q == 0 || !queueFaulted a p q k) && !aborting a p k.ctx then some c else none

/-- The rank of a queue among those with a command ready: queue 0, then class, then round robin after the queue of its class
that was served last. -/
def queueRank (last : Tab Nat) (q : Nat) (k : Queue) : Nat :=
  if q = 0 then 0 else (4 - k.cls) * 256 + (q + 255 - tgetD last k.cls 0) % 256

/-- The queue that the front end chooses. -/
def chooseQueue (a : Arch) (p : Nat) : Option (Nat × Queue × QCmd) :=
  let ready := (List.range 256).filterMap (fun q => (a.queue p q).bind (fun k => (readyCmd a p q k).map (fun c => (q, k, c))))
  ready.foldl (fun b x => match b with
    | none => some x
    | some y => if queueRank (a.pkg p).lastQueue x.1 x.2.1 < queueRank (a.pkg p).lastQueue y.1 y.2.1 then some x else some y) none

/-- Change a command in its queue. -/
def Arch.modCmd (a : Arch) (p q id : Nat) (f : QCmd → QCmd) : Arch :=
  { a with queues := tmod a.queues (qKey p q) (fun k => { k with cmds := k.cmds.map (fun c => if c.id = id then f c else c) }) }

/-- QUEUE_COMMAND_BEGIN. -/
def execQueueCommandBegin (pkg : Nat) (s : State) : Out :=
  runEvent s fun a _ _ =>
    match chooseQueue a pkg with
    | none => (a, [])
    | some (q, k, c) =>
      let a := a.modCmd pkg q c.id (fun c => { c with begun := true })
      (if q = 0 then a else a.setPkg pkg { a.pkg pkg with lastQueue := tset (a.pkg pkg).lastQueue k.cls q }, [])

/-- A command of a package's queues by its identifier. -/
def findCmd (a : Arch) (p cmd : Nat) : Option (Nat × Queue × QCmd) :=
  (List.range 256).findSome? (fun q => (a.queue p q).bind (fun k => (k.cmd cmd).map (fun c => (q, k, c))))

/-- A command as its row sees it. -/
structure QW where
  a : Arch
  mem : Memory
  time : Nat
  p : Nat
  q : Nat
  k : Queue
  c : QCmd

/-- The row of a command with an opcode: it acts once, when the command has begun, waits for no RETRY, and under TF follows
every earlier WRITE of its queue (R228). -/
def cmdRow (opc pkg cmd : Nat) (s : State) (f : QW → Arch × Writes) : Out :=
  runEvent s fun a mem time =>
    match findCmd a pkg cmd with
    | none => (a, [])
    | some (q, k, c) =>
      if c.num 0 1 == opc && c.begun && !c.started && !c.faulted && !aborting a pkg k.ctx &&
          !(c.tf && k.cmds.any (fun x => decide (x.seq < c.seq) && x.num 0 1 == 4)) then
        f { a := a, mem := mem, time := time, p := pkg, q := q, k := k, c := c }
      else (a, [])

/-- Complete the command. -/
def QW.done (w : QW) (a : Arch) (st : Status) (detail : Nat) : Arch × Writes := (a.complete w.time w.p w.q w.c.id st detail, [])
def QW.ok (w : QW) (a : Arch) : Arch × Writes := w.done a .ok 0
def QW.fail (w : QW) (st : Status) : Arch × Writes := w.done w.a st 0
/-- Go on when no field is bad, else complete with MALFORMED and the offset of the first. -/
def QW.fields (w : QW) (l : List (Nat × Bool)) (k : Arch × Writes) : Arch × Writes :=
  match firstOff l with
  | some off => w.done w.a .malformed off
  | none => k
/-- The command's row has acted; it completes later. -/
def QW.started (w : QW) (a : Arch) : Arch := a.modCmd w.p w.q w.c.id (fun c => { c with started := true })

/-- The agent of a front end or collective engine for a context (R115) (DEDUCED, log 50). -/
def frontAgent (pkg ctx : Nat) : Agent :=
  { ctx := ctx, pkg := pkg, uid := 0, crew := none, wpkg := pkg, core := none, clu := none, die := none }

/-- The FAULT event of a command of a queue (R107, R235). -/
def cmdFault (a : Arch) (time p ctx q seq entry kind va : Nat) : Arch :=
  a.event time p 1 ctx (kind + entry * 65536) va (q + seq % 2 ^ 48 * 65536)

/-- Read bytes for a command as a copy command reads, then go on (R107, R231). -/
def QW.read (w : QW) (ctx va n : Nat) (k : List Byte → Arch × Writes) : Arch × Writes :=
  let g := frontAgent w.p ctx
  match resolveRange w.a w.mem w.time w.c.id g (.va g va) .rd n none with
  | .held => (w.a, [])
  | .fault kind x =>
    (cmdFault (w.a.modCmd w.p w.q w.c.id (fun c => { c with faulted := true })) w.time w.p ctx w.q w.c.seq 0xFFFF kind x, [])
  | .access kind => w.done w.a .access kind
  | .error fas => w.done (engineUnc w.a w.time ctx fas) .error (faPlace (fas.headD 0)).mem
  | .ok ps => k (sourceBytes w.mem ps)

/-! ## LAUNCH (R22, R230, R231) -/

/-- The unit that ROOT and UNIT name (R230). -/
def rootUnit (p lvl unit : Nat) : UnitId :=
  { level := Level.ofCode lvl, pkg := p, idx := if lvl < 4 then unit else 0 }

/-- Whether a unit exists and is the world's. -/
def unitOwned (a : Arch) (world : Bool) (u : UnitId) (unit : Nat) : Bool :=
  unitExists a { u with idx := unit } && (match unitWorld a u with | some x => x == world | none => true)

/-- Place the root frame of a new tree (DEDUCED, log 49). -/
def placeRoot (w : QW) (ctx : Nat) (u : UnitId) (desc pc : Nat) (arg : W64) : Arch :=
  let a := w.started w.a
  let id := a.nextId
  let uid := a.nextId + 1
  let ph : Phase := if heldFor a u || decide (64 ≤ pendingOn a u) then .held else .pending
  let t := mkFrame uid ctx u id none id 0 1 desc pc arg w.k.cls ph []
  let r : Tree := { id := id, rootLevel := u.level, unit := u, ctx := ctx, cls := w.k.cls, failed := false, aborted := false,
                    queue := w.q, cmd := w.c.id, root := uid, gone := [], bars := [] }
  { a with nextId := a.nextId + 2, trees := tset a.trees id r, threads := tset a.threads uid t }

/-- KERNEL_LAUNCH_COMMAND. -/
def execKernelLaunchCommand (pkg cmd : Nat) (s : State) : Out :=
  cmdRow 1 pkg cmd s fun w =>
    let b := w.c.bytes
    let lvl := w.c.num 32 1
    let unit := w.c.num 34 2
    let desc := w.c.num 40 8
    let ctx := w.k.ctx.getD 0
    let u := rootUnit pkg lvl unit
    w.fields [(33, dirty b 33 34), (36, dirty b 36 40), (40, !(desc % 64 == 0)), (56, dirty b 56 64)] <|
      if lvl < 1 ∨ 5 < lvl then w.fail .level
      else if !unitOwned w.a (w.a.ctxWorld pkg ctx) u unit then w.fail .world
      else w.read ctx desc 64 fun d =>
        let pc := numAt d 8 8
        if numAt d 0 1 = 1 ∧ numAt d 1 3 = 0 ∧ pc % 8 = 0 then
          (placeRoot w ctx u desc pc (BitVec.ofNat 64 (w.c.num 48 8)), [])
        else w.fail .desc

/-! ## WRITE, COPY, QWAIT (R229) -/

/-- An engine command of a queue. -/
def QW.engine (w : QW) (kind : CmdKind) (l : Leg) : Arch × Writes :=
  let a := w.started w.a
  let ctx := w.k.ctx.getD 0
  let c : Cmd :=
    { id := a.nextId, owner := .queue w.p w.q w.c.id, ctx := ctx, pkg := w.p, ag := frontAgent w.p ctx, kind := kind, legs := [l],
      flag := none, tm := false, acq := false, rel := false, status := none, bar := none, noarr := false, statCode := 0,
      kindCode := 0, memCode := 0, pc := 0, word := 0, opidx := 0, faulted := false, committed := false, arrive := [] }
  ({ a with nextId := a.nextId + 1, cmds := tset a.cmds c.id c }, [])

/-- QUEUE_WRITE (DEDUCED, log 54). -/
def execQueueWrite (pkg cmd : Nat) (s : State) : Out :=
  cmdRow 4 pkg cmd s fun w =>
    let b := w.c.bytes
    let addr := w.c.num 32 8
    let phys := w.c.num 40 1 % 2 == 1
    let ctx := w.k.ctx.getD 0
    w.fields [(32, !(addr % 16 == 0)), (40, decide (2 ≤ w.c.num 40 1)), (41, dirty b 41 48)] <|
      if phys && !w.k.driver then w.fail .owner
      else
        let dst : End := if phys then .fabric (w.a.ctxWorld pkg ctx) addr else .va (frontAgent pkg ctx) addr
        w.engine (.queueWrite (b.drop 48)) (leg dst dst (b.length - 48))

/-- QUEUE_COPY. -/
def execQueueCopy (pkg cmd : Nat) (s : State) : Out :=
  cmdRow 5 pkg cmd s fun w =>
    let src := w.c.num 32 8
    let dst := w.c.num 40 8
    let n := w.c.num 48 8
    let g := frontAgent pkg (w.k.ctx.getD 0)
    w.fields [(32, !(src % 16 == 0)), (40, !(dst % 16 == 0)),
        (48, !(n % 16 == 0) || decide (n < 16) || decide (2 ^ 40 < n)), (56, dirty w.c.bytes 56 64)] <|
      w.engine .queueCopy (leg (.va g src) (.va g dst) n)

/-- QWAIT: complete at once; it begins only when every earlier command of its queue has completed. -/
def execQwait (pkg cmd : Nat) (s : State) : Out := cmdRow 6 pkg cmd s fun w => w.ok w.a

end Sys2Proof.Machine
end

