-- ==== Sys2Proof/Machine/Coll.lean ====
section
/-! DEFINITION. Communicators, flights and the collective engine (spec/14 R236 to R244, spec/28 R429). -/

namespace Sys2Proof.Machine

/-! ## Communicators and flights (R236, R237) -/

def commKey (p c : Nat) : Nat := 256 * p + c
def Arch.comm (a : Arch) (p c : Nat) : Option Comm := tget a.comms (commKey p c)
def Arch.modComm (a : Arch) (p c : Nat) (f : Comm → Comm) : Arch := { a with comms := tmod a.comms (commKey p c) f }
def flightKey (p c f : Nat) : Nat := 16 * commKey p c + f
def Arch.flight (a : Arch) (p c f : Nat) : Option Flight := tget a.flights (flightKey p c f)

/-- The element format of a DTYPE below 11 (R237). -/
def dtypeOf : Nat → EF
  | 0 => .f32 | 1 => .bf16 | 2 => .f16 | 3 => .e4m3 | 4 => .e5m2 | 5 => .t8 | 6 => .t6 | 7 => .i8 | 8 => .i16 | 9 => .i32 | _ => .i64
/-- The operator of RED 1 to 6. -/
def redOf : Nat → RedOp
  | 1 => .add | 2 => .min | 3 => .max | 4 => .and | 5 => .or | _ => .xor
/-- The summary kind of RED 7 to 9. -/
def kindOf : Nat → SKind
  | 7 => .qsk | 8 => .hhl | _ => .dcr

/-- Bytes of an entry's chunk in element format and in wire format (R237, R242). -/
def entrySizes (e : FlightEntry) : Nat × Nat :=
  if e.op = 3 then (e.nelem * (kindOf e.red).size, e.nelem * (kindOf e.red).size)
  else if e.dtype = 11 then (e.nelem, e.nelem)
  else (elemBytes (dtypeOf e.dtype) e.nelem, wireBytes (dtypeOf e.dtype) e.nelem)

/-- Read an entry's fields (R237). -/
def FlightEntry.of (b : List Byte) : FlightEntry :=
  let fl := numAt b 3 1
  { op := numAt b 0 1, dtype := numAt b 1 1, red := numAt b 2 1, sw := bitAt fl 0, dw := bitAt fl 1, push := bitAt fl 2,
    acq := bitAt fl 3, rel := bitAt fl 4, init := numAt b 4 2, rnext := numAt b 6 2, nelem := numAt b 8 4, sbase := numAt b 12 1,
    dbase := numAt b 13 1, dpkg := numAt b 14 2, soff := numAt b 16 8, doff := numAt b 24 8,
    succ := (List.range 4).map (fun i => numAt b (32 + 2 * i) 2) }

/-- The byte offset of an entry's first bad field, if it is malformed (R237, R243). -/
def entryBad (b : List Byte) (count : Nat) (members : List Nat) (push : Bool) : Option Nat :=
  let e := FlightEntry.of b
  let sz := entrySizes e
  firstOff <| [(0, decide (3 < e.op)), (1, decide (11 < e.dtype) || (e.op == 3 && !(e.dtype == 0)) || (e.op == 2 && e.dtype == 11)),
      (2, decide (9 < e.red) || (e.op == 1 && !(e.red == 0)) || (e.op == 2 && (e.red == 0 || decide (7 ≤ e.red))) ||
        (e.op == 3 && decide (e.red < 7))),
      (3, decide (32 ≤ numAt b 3 1) || (e.dtype == 11 && (e.sw || e.dw)) || (e.push && !(e.op == 2 && e.red == 1 && push))),
      (8, !(e.op == 0) && (!(sz.1 % 16 == 0) || !(sz.2 % 16 == 0) || decide (65536 < sz.2))),
      (12, decide (7 < e.sbase)), (13, decide (7 < e.dbase)), (14, !(e.dpkg == 0xFFFF) && !members.contains e.dpkg)] ++
    (List.range 4).map (fun i => (32 + 2 * i, !(e.succ.getD i 0 == 0xFFFF) && decide (count ≤ e.succ.getD i 0))) ++
    [(40, dirty b 40 64)]

/-- The entry of 64 bytes at index `i`. -/
def entryBytes (d : List Byte) (i : Nat) : List Byte := (d.drop (64 * i)).take 64

/-- FLIGHT_LOAD (R237): the entries are checked and stored; replay numbers and contribution bitmaps start again. The owner is the queue
of that number, also one created since (R236) (DESIGN CHOICE, log 102). -/
def execFlightLoad (pkg cmd : Nat) (s : State) : Out :=
  cmdRow 2 pkg cmd s fun w =>
    let c := w.c.num 32 1
    let f := w.c.num 33 1
    let n := w.c.num 34 2
    let va := w.c.num 40 8
    let b := w.c.bytes
    w.fields [(33, decide (15 < f)), (34, n == 0 || decide (4096 < n)), (36, dirty b 36 40), (40, !(va % 64 == 0)), (48, dirty b 48 64)] <|
      match w.a.comm pkg c with
      | none => w.fail .unknown
      | some m =>
        if !(m.queue == w.q) then w.fail .owner
        else w.read m.ctx va (64 * n) fun d =>
          match (List.range n).findSome? (fun i => (entryBad (entryBytes d i) n m.members m.push).map (fun o => i * 65536 + o)) with
          | some off => w.done w.a .malformed off
          | none =>
            let fl : Flight := { entries := (List.range n).map (fun i => FlightEntry.of (entryBytes d i)), lastReplay := 0, applied := [] }
            w.ok { w.a with flights := tset w.a.flights (flightKey pkg c f) fl,
                            replays := w.a.replays.filter (fun p => !(p.2.pkg == pkg && p.2.comm == c && p.2.flight == f && p.2.fin)) }

/-! ## Replays (R238) -/

/-- Lower the counters of some entries; a NOP whose counter reaches zero is done at that moment and lowers its successors
(R238, R429). An index beyond the flight is ignored (R239); a counter at 0 stays there (DESIGN CHOICE, log 103). -/
def lowerAll : Nat → Replay → List Nat → Replay
  | 0, r, _ => r
  | _ + 1, r, [] => r
  | n + 1, r, e :: es =>
    match r.cnt[e]?, r.entries[e]? with
    | some k, some x =>
      let r := { r with cnt := r.cnt.set e (k - 1) }
      if k = 1 ∧ x.op = 0 then lowerAll n { r with doneE := r.doneE.set e true } (x.succ.filter (fun s => !(s == 0xFFFF)) ++ es)
      else lowerAll n r es
    | _, _ => lowerAll n r es

/-- Lower some counters of a replay. -/
def lower (r : Replay) (es : List Nat) : Replay := lowerAll (5 * r.entries.length + es.length + 1) r es

/-- Entries whose counters start at zero and are NOPs are done when the replay begins (R429). -/
def startNops (r : Replay) : Replay :=
  let ns := (List.range r.entries.length).filter (fun e => r.cnt.getD e 1 == 0 && ((r.entries[e]?).map (·.op)) == some 0)
  let r := ns.foldl (fun r e => { r with doneE := r.doneE.set e true }) r
  lower r (ns.flatMap (fun e => ((r.entries[e]?).map (fun x => x.succ.filter (fun s => !(s == 0xFFFF)))).getD []))

/-- A communicator that is being destroyed goes once its flights have completed (R236). -/
def dropComm (a : Arch) (time p c : Nat) : Arch :=
  match a.comm p c with
  | none => a
  | some m => match m.destroying with
    | none => a
    | some d =>
      if (tvals a.replays).all (fun r => !(r.pkg == p && r.comm == c) || r.fin) then
        { a with comms := tdel a.comms (commKey p c),
                 flights := a.flights.filter (fun x => !(x.1 / 16 == commKey p c)),
                 replays := a.replays.filter (fun x => !(x.2.pkg == p && x.2.comm == c)) }.complete time p 0 d .ok 0
      else a

/-- Store a replay; it completes when every entry is done, or it is aborted, and no chunk of it runs (R238, R242, R244). -/
def settleReplay (a : Arch) (time : Nat) (r : Replay) : Arch :=
  if !r.fin && (r.aborted || r.doneE.all (fun d => d)) && (tvals a.chunks).all (fun c => !(c.replay == r.id)) then
    let a := { a with replays := tset a.replays r.id { r with fin := true } }
    let q := ((a.comm r.pkg r.comm).map (·.queue)).getD 0
    let a := if r.aborted then a.complete time r.pkg q r.cmd .aborted 0
      else if r.status = 0 then a.complete time r.pkg q r.cmd .ok 0
      else a.complete time r.pkg q r.cmd .coll r.status
    dropComm a time r.pkg r.comm
  else { a with replays := tset a.replays r.id r }

/-! ## Chunks (R240, R242, R429) -/

/-- The FAULT event of a flight entry (R107, R235). -/
def entryFault (a : Arch) (time : Nat) (r : Replay) (entry kind va : Nat) : Arch :=
  match a.comm r.pkg r.comm with
  | none => a
  | some m => cmdFault a time r.pkg m.ctx m.queue r.seq entry kind va

/-- Whether an entry's data travel as the bytes that its source holds: raw bytes, and T6 words that are copied (R101, R145, R242). -/
def FlightEntry.raw (e : FlightEntry) : Bool := e.dtype == 11 || (e.op == 1 && e.dtype == 6 && !e.sw && !e.dw)

/-- Wire values of a chunk's bytes: elements, or bytes for raw data and summaries (R242). -/
def toWire (e : FlightEntry) (b : List Byte) : List Nat :=
  if e.op = 3 ∨ e.raw = true then b.map (·.toNat)
  else if e.sw then wireRead (dtypeOf e.dtype) e.nelem b
  else widenBytes (dtypeOf e.dtype) e.nelem b

/-- Parts of a range with their offsets. -/
def offsets : Nat → List (Place1 × Nat) → List (Nat × Place1 × Nat)
  | _, [] => []
  | o, (p, n) :: r => (o, p, n) :: offsets (o + n) r

/-- Metadata of the whole aligned source granules of a COPY (R101). -/
def sourceMetas (a : Arch) (ps : List (Place1 × Nat)) : Tab (Nat × Nat) :=
  tsets [] ((offsets 0 ps).filterMap (fun x => match x.2.1 with
    | .mem fa attr =>
      if x.2.2 = 64 ∧ fa % 64 = 0 then
        some (x.1, gradeCount (attrGrade attr), metaOf a (granule fa) (gradeCount (attrGrade attr)))
      else none
    | .tile _ => none))

/-- The package, the address and the size of a running chunk's source. -/
def chunkSource (a : Arch) (ch : Chunk) : Option (Replay × FlightEntry × Agent × Nat × Nat) :=
  (tget a.replays ch.replay).bind (fun r => (r.entries[ch.entry]?).bind (fun x => (a.comm r.pkg r.comm).map (fun m =>
    (r, x, frontAgent r.pkg m.ctx, (r.bases.getD x.sbase 0 + x.soff) % 2 ^ 64, if x.sw then (entrySizes x).2 else (entrySizes x).1))))

/-- A chunk's arrival sets out (R239, R242). -/
def sendArrival (a : Arch) (r : Replay) (ch : Chunk) (x : FlightEntry) (data : Option (List Nat)) (metas : Tab (Nat × Nat)) : Arch :=
  let rank := ((a.comm r.pkg r.comm).map (fun m => m.members.idxOf r.pkg)).getD 0
  let ar : Arrival :=
    { id := a.nextId, src := r.pkg, dst := if x.dpkg = 0xFFFF then r.pkg else x.dpkg, comm := r.comm, flight := r.flight, n := r.n,
      entry := ch.entry, rank := rank, replay := r.id, data := data, metas := metas, desc := x, direct := ch.direct, came := none,
      acked := false, faulted := false }
  { a with nextId := a.nextId + 1, arrivals := tset a.arrivals ar.id ar }

/-- Read a running chunk's source and send its arrival; a read that fails with UNMAPPED or TABLE faults to the driver, and one
that fails otherwise sends an arrival without data (R242) (DEDUCED, log 51). -/
def runChunk (a : Arch) (mem : Memory) (time : Nat) (ch : Chunk) : Arch :=
  match chunkSource a ch with
  | none => a
  | some (r, x, g, va, n) =>
    let bad (st : Nat) (a : Arch) : Arch :=
      let r := { r with status := r.status ||| st }
      sendArrival { dropEarly a ch.id with replays := tset a.replays r.id r } r ch x none []
    match resolveRange a mem time ch.id g (.va g va) .rd n none with
    | .held => a
    | .fault kind v => entryFault { a with chunks := tset a.chunks ch.id { ch with faulted := true } } time r ch.entry kind v
    | .access _ => bad 4 a
    | .error fas => bad 8 (engineUnc a time g.ctx fas)
    | .ok ps => sendArrival (dropEarly a ch.id) r ch x (some (toWire x (withEarly a ch.id (sourceBytes mem ps))))
        (if x.op = 1 then sourceMetas a ps else [])

/-- The arrival of a chunk. -/
def chunkArrival (a : Arch) (c : Chunk) : Option Arrival := (tvals a.arrivals).find? (fun x => x.replay == c.replay && x.entry == c.entry)

/-- Whether a running chunk still contributes to a pushed entry at a package (R243). -/
def pushOpen (a : Arch) (dst comm flight n entry : Nat) : Bool :=
  (tvals a.chunks).any (fun c => c.entry == entry && !(((chunkArrival a c).map (·.acked)).getD false) && match tget a.replays c.replay with
    | some r => r.comm == comm && r.flight == flight && r.n == n &&
        (match r.entries[entry]? with | some x => x.push && x.dpkg == dst | none => false)
    | none => false)

/-- Whether the buffers of an entry are free (R240); the contributions of a pushed entry share one receive buffer. -/
def buffersFree (a : Arch) (m : Comm) (r : Replay) (e : Nat) (x : FlightEntry) : Bool :=
  decide (m.sendUsed < m.bufs) &&
  (x.dpkg == 0xFFFF || (match a.comm x.dpkg r.comm with
    | some t => decide (t.recvUsed < t.bufs) || (x.push && pushOpen a x.dpkg r.comm r.flight r.n e)
    | none => false))

/-- The first admissible entry of a replay (R240). -/
def admissible (a : Arch) (m : Comm) (r : Replay) : Option (Nat × FlightEntry) :=
  if r.fin || r.aborted then none
  else ((List.range r.entries.length).zip r.entries).find? (fun p =>
    !(p.2.op == 0) && r.cnt.getD p.1 1 == 0 && !(r.started.getD p.1 true) && buffersFree a m r p.1 p.2)

/-- Whether a candidate goes before another: class, least recently served communicator, oldest replay (R240). -/
def admitBefore (x y : Comm × Replay × Nat × FlightEntry) : Bool :=
  if ¬ x.1.cls = y.1.cls then decide (y.1.cls < x.1.cls)
  else if ¬ x.1.lastServed = y.1.lastServed then decide (x.1.lastServed < y.1.lastServed)
  else decide (x.2.1.id < y.2.1.id)

/-- The entry that the engine of a package admits next, if one of its 8 places is free (R240). -/
def nextEntry (a : Arch) (pkg : Nat) : Option (Comm × Replay × Nat × FlightEntry) :=
  let mine := (tvals a.replays).filter (fun r => r.pkg == pkg)
  let running := ((tvals a.chunks).filter (fun c => mine.any (fun r => r.id == c.replay))).length
  let cands := mine.filterMap (fun r => (a.comm pkg r.comm).bind (fun m => (admissible a m r).map (fun e => (m, r, e.1, e.2))))
  if running < 8 then cands.foldl (fun b x => match b with
      | none => some x
      | some y => if admitBefore x y then some x else some y) none
  else none

/-- Admit an entry: the engine takes a place and all of the entry's buffers together, and reads its source (R240). -/
def admitEntry (a : Arch) (mem : Memory) (time pkg : Nat) (r : Replay) (e : Nat) (x : FlightEntry) : Arch :=
  let shared := x.push && pushOpen a x.dpkg r.comm r.flight r.n e
  let a := a.modComm pkg r.comm (fun m => { m with sendUsed := m.sendUsed + 1, lastServed := a.nextId })
  let a := if x.dpkg = 0xFFFF ∨ shared = true then a else a.modComm x.dpkg r.comm (fun m => { m with recvUsed := m.recvUsed + 1 })
  let ch : Chunk := { id := a.nextId, replay := r.id, entry := e, faulted := false, direct := false }
  let a := { a with nextId := a.nextId + 1, chunks := tset a.chunks ch.id ch,
                    replays := tset a.replays r.id { r with started := r.started.set e true, lastProgress := time } }
  runChunk a mem time ch

/-- Admit up to `n` entries one after the other. -/
def admitUpTo (mem : Memory) (time pkg : Nat) : Nat → Arch → Arch
  | 0, a => a
  | n + 1, a => match nextEntry a pkg with
    | none => a
    | some (_, r, e, x) => admitUpTo mem time pkg n (admitEntry a mem time pkg r e x)

/-- What the engine of a package admits at a chunk boundary, when a replay begins and when a counter reaches zero: every admissible
entry for which a place is free, in the order of R240 (R429). -/
def admitAll (a : Arch) (mem : Memory) (time pkg : Nat) : Arch := admitUpTo mem time pkg 8 a

/-- CHUNK_ADMIT: a receive buffer has become free at another package, which ends the wait of an entry that had none
(spec/28, "Why no wait forms a cycle") (DESIGN CHOICE, log 92). -/
def execChunkAdmit (pkg : Nat) (s : State) : Out := runEvent s fun a mem time => (admitAll a mem time pkg, [])

/-- A chunk ends: its place and send buffer are free, and its successors' counters fall (R429). -/
def endChunk (a : Arch) (time : Nat) (c : Chunk) : Arch :=
  match tget a.replays c.replay with
  | none => { a with chunks := tdel a.chunks c.id }
  | some r =>
    let a := { a with chunks := tdel a.chunks c.id }.modComm r.pkg r.comm (fun m => { m with sendUsed := m.sendUsed - 1 })
    if r.aborted then settleReplay a time r
    else
      let succ := ((r.entries[c.entry]?).map (fun x => x.succ.filter (fun s => !(s == 0xFFFF)))).getD []
      settleReplay a time (lower { r with doneE := r.doneE.set c.entry true, lastProgress := time } succ)

/-- CHUNK_BOUNDARY: a chunk whose arrival is acknowledged ends, and the engine admits what its place and buffers let it; one whose
source waited is read. -/
def execChunkBoundary (chunk : Nat) (s : State) : Out :=
  runEvent s fun a mem time =>
    match tget a.chunks chunk with
    | none => (a, [])
    | some c => match chunkArrival a c with
      | none => if c.faulted then (a, []) else (runChunk a mem time c, [])
      | some x =>
        if x.acked then (admitAll (endChunk { a with arrivals := tdel a.arrivals x.id } time c) mem time x.src, []) else (a, [])

/-! ## Arrivals (R239, R241 to R243) -/

/-- The operands of a store at DPKG: the address and size at the destination. -/
def destSize (x : FlightEntry) : Nat := if x.dw then (entrySizes x).2 else (entrySizes x).1

/-- What a destination's bytes become, with status bits and the next free value (R239, R242). -/
def mergedBytes (x : FlightEntry) (cur : List Byte) (data : List Nat) (hw : Nat) : List Byte × Nat × Nat :=
  if x.op = 3 then
    let k := kindOf x.red
    let d := freeMalformed k x.nelem cur hw
    let b := freeMalformed k x.nelem (data.map (BitVec.ofNat 8)) d.2
    let r := mergeAll k x.nelem d.1 b.1 b.2
    (r.1, 0, r.2)
  else if x.raw then (data.map (BitVec.ofNat 8), 0, hw)
  else
    let e := dtypeOf x.dtype
    let r := if x.op = 2 then
        wireOps e (redOf x.red) (if x.dw then wireRead e x.nelem cur else widenBytes e x.nelem cur) data
      else (data, 0)
    if x.dw then (wireWrite e r.1, r.2, hw)
    else
      let o := narrowBytes e (if x.op = 2 then redOf x.red else .add) r.1
      (o.1, r.2 ||| o.2, hw)

/-- Resolve a destination range; a granule that the store covers whole may be uncorrectable when it is not read (R216). -/
def storeRange (a : Arch) (mem : Memory) (time id : Nat) (g : Agent) (va n : Nat) (reads : Bool) : Ranged :=
  if reads then resolveRange a mem time id g (.va g va) .rdw n none
  else match resolveRange { a with bad := [] } mem time id g (.va g va) .w n none with
    | .ok ps =>
      let bads := ps.filterMap (fun p => match p.1 with
        | .mem fa _ => if isBad a (granule fa) && !(p.2 == 64 && fa % 64 == 0) then some fa else none
        | .tile _ => none)
      if bads.isEmpty then .ok ps else .error bads
    | r => r

/-- The metadata and protection of granules that a COPY or a whole store writes (R101, R216). -/
def storeMetas (a : Arch) (x : FlightEntry) (metas : Tab (Nat × Nat)) (ps : List (Place1 × Nat)) : Arch :=
  let same := x.raw || x.sw == x.dw || (entrySizes x).1 == (entrySizes x).2
  (offsets 0 ps).foldl (fun a p => match p.2.1 with
    | .mem fa attr =>
      if p.2.2 = 64 ∧ fa % 64 = 0 then
        let a := { a with bad := tdel a.bad (granule fa) }
        if x.op = 1 then
          let nd := gradeCount (attrGrade attr)
          let v := if same then (tget metas p.1).getD (0, 0) else (0, 0)
          setMeta a (granule fa) nd (v.2 % 2 ^ (min v.1 nd))
        else a
      else a
    | .tile _ => a) a

/-- Free the receive buffer that an arrival holds (R429). -/
def freeRecv (a : Arch) (ar : Arrival) : Arch :=
  if ar.desc.dpkg = 0xFFFF then a else a.modComm ar.dst ar.comm (fun m => { m with recvUsed := m.recvUsed - 1 })

/-- Acknowledge some arrivals. -/
def ackAll (a : Arch) (ids : List Nat) : Arch :=
  ids.foldl (fun a i => { a with arrivals := tmod a.arrivals i (fun x => { x with acked := true, faulted := false }) }) a

/-- Acknowledge the arrivals that one arrival stands for and free its receive buffer; the contributions to a pushed entry share
one, which is free with the last of them (DESIGN CHOICE, log 92). -/
def release (a : Arch) (ar : Arrival) (ids : List Nat) : Arch :=
  let a := ackAll a ids
  if ar.desc.push && pushOpen a ar.dst ar.comm ar.flight ar.n ar.entry then a else freeRecv a ar

/-- Whether an arrival belongs to the same entry of the same replay at the same package. -/
def Arrival.sameTag (x y : Arrival) : Bool :=
  x.dst == y.dst && x.comm == y.comm && x.flight == y.flight && x.n == y.n && x.entry == y.entry

/-- The contributions to a pushed entry that have reached the switch, in arrival order (R243). -/
def pushGroup (a : Arch) (ar : Arrival) : List Arrival :=
  let xs := (tvals a.arrivals).filter (fun x => x.desc.push && !x.direct && x.sameTag ar && !x.acked && x.came.isSome)
  (tsets [] (xs.map (fun x => (x.came.getD 0, x)))).map (·.2)

/-- Contributions to a pushed entry that went or go point to point: applied, and not yet applied (R243). -/
def directs (a : Arch) (ar : Arrival) : Nat × Nat :=
  ((((a.flight ar.dst ar.comm ar.flight).map (·.applied)).getD []).countP (fun t => t.1 == ar.n && t.2.1 == ar.entry && !(t.2.2 == 0xFFFF)),
   (tvals a.arrivals).countP (fun x => x.desc.push && x.direct && x.sameTag ar && !x.acked))

/-- Whether an arrival that has just been applied is the last of its entry, which lowers RNEXT once (R241): for a pushed entry,
the switch's sum and every contribution resent point to point have been applied (DESIGN CHOICE, log 92). -/
def lastApplied (a : Arch) (ar : Arrival) (members : Nat) : Bool :=
  !ar.desc.push || ar.desc.dpkg == 0xFFFF ||
  ((directs a ar).2 == 0 && ((directs a ar).1 == members ||
    (((a.flight ar.dst ar.comm ar.flight).map (·.applied)).getD []).contains (ar.n, ar.entry, 0xFFFF)))

/-- Apply an arrival to a replay at its destination, once, then lower RNEXT and acknowledge (R239, R241, R242). `ids` are the
arrivals that it stands for, `rank` its contributor, and `extra` status bits of a push (R243). -/
def applyArrival (a : Arch) (mem : Memory) (time : Nat) (ar : Arrival) (r : Replay) (data : Option (List Nat)) (rank extra : Nat)
    (ids : List Nat) : Arch × Writes :=
  let finish (a : Arch) (st : Nat) (ws : Writes) : Arch × Writes :=
    let a := if ar.desc.dpkg = 0xFFFF then a else
      { a with flights := tmod a.flights (flightKey ar.dst ar.comm ar.flight) (fun f => { f with applied := f.applied ++ [(ar.n, ar.entry, rank)] }) }
    let a := release a ar ids
    let r := { r with status := r.status ||| st, lastProgress := time }
    let last := lastApplied a ar (((a.comm ar.dst ar.comm).map (·.members.length)).getD 0)
    (settleReplay a time (if ar.desc.rnext = 0xFFFF ∨ last = false then r else lower r [ar.desc.rnext]), ws)
  if r.aborted then (release a ar ids, [])
  else match data, a.comm ar.dst ar.comm with
    | some d, some m =>
      let g := frontAgent ar.dst m.ctx
      let va := (r.bases.getD ar.desc.dbase 0 + ar.desc.doff) % 2 ^ 64
      let reads := decide (2 ≤ ar.desc.op)
      match storeRange a mem time ar.id g va (destSize ar.desc) reads with
      | .held => (a, [])
      | .fault kind v =>
        (entryFault { a with arrivals := tmod a.arrivals ar.id (fun x => { x with faulted := true }) } time r ar.entry kind v, [])
      | .access _ => finish a 4 []
      | .error fas => finish (engineUnc a time g.ctx fas) 8 []
      | .ok ps =>
        if ps.any (fun p => match p.1 with | .mem fa _ => writeShut a (frontInside ar.dst) fa p.2 | .tile _ => false) then (a, []) else
        let o := mergedBytes ar.desc (sourceBytes mem ps) d a.free
        finish (storeMetas { ageParts (.va g va) 0 ps a with free := o.2.2 } ar.desc ar.metas ps) (o.2.1 ||| extra) (writeParts ps o.1)
    | _, _ => finish a 0 []

/-- The replay at a destination that an arrival belongs to. -/
def replayFor (a : Arch) (ar : Arrival) : Option Replay :=
  if ar.desc.dpkg = 0xFFFF then tget a.replays ar.replay
  else (tvals a.replays).find? (fun r => r.pkg == ar.dst && r.comm == ar.comm && r.flight == ar.flight && r.n == ar.n)

/-- Whether an arrival is a duplicate or older than the current and the previous replay of its flight (R241). -/
def staleArrival (a : Arch) (ar : Arrival) (rank : Nat) : Bool :=
  match a.flight ar.dst ar.comm ar.flight with
  | none => false
  | some f => !(ar.desc.dpkg == 0xFFFF) && (decide (ar.n + 1 < f.lastReplay) || f.applied.contains (ar.n, ar.entry, rank))

/-- The switch's sum of contributions in arrival order (R164, R243); a contribution without data adds nothing. -/
def pushSum (xs : List Arrival) : Option (List Nat) :=
  xs.foldl (fun acc x => match acc, x.data with
    | none, d => d
    | some s, none => some s
    | some s, some d => some (wireOps (dtypeOf x.desc.dtype) .add s d).1) none

/-- OVF of a pushed sum: an infinity, or the INT64 minimum or maximum (R243). -/
def pushOvf (e : EF) (d : List Nat) : Nat :=
  b2n (d.any (fun v => if wireInt e then v == 2 ^ 63 || v == 2 ^ 63 - 1 else v == 0x7F800000 || v == 0xFF800000))

/-- Acknowledge and discard an arrival. -/
def discard (a : Arch) (x : Arrival) : Arch := release a x [x.id]

/-- Deliver what has arrived, when its replay has begun: a point-to-point arrival, or the sum of a push once every member has
contributed or resends its contribution point to point. -/
def deliverArrival (a : Arch) (mem : Memory) (time : Nat) (ar : Arrival) : Arch × Writes :=
  match a.comm ar.dst ar.comm with
  | none => (ackAll a [ar.id], [])
  | some m =>
    if m.aborted then (discard a ar, [])
    else if ar.desc.push && !ar.direct && !(ar.desc.dpkg == 0xFFFF) then
      let xs := pushGroup a ar
      let ids := xs.map (·.id)
      if xs.any (·.faulted) || decide (xs.length + (directs a ar).1 + (directs a ar).2 < m.members.length) then (a, [])
      else if staleArrival a ar 0xFFFF then (release a ar ids, [])
      else match replayFor a ar with
        | none => (a, [])
        | some r =>
          let d := pushSum xs
          applyArrival a mem time ar r d 0xFFFF ((d.map (pushOvf (dtypeOf ar.desc.dtype))).getD 0) ids
    else if staleArrival a ar ar.rank then (discard a ar, [])
    else match replayFor a ar with
      | none => (a, [])
      | some r => applyArrival a mem time ar r ar.data ar.rank 0 [ar.id]

/-- What is admitted once some writes are performed (R429). -/
def thenAdmit (mem : Memory) (time pkg : Nat) (x : Arch × Writes) : Arch × Writes := (admitAll x.1 (mwrites mem x.2) time pkg, x.2)

/-- COLLECTIVE_ARRIVAL: an arrival reaches DPKG, or the switch; it is applied, discarded, or held for its replay. A counter that it
lowers to zero is a moment of admission. -/
def execCollectiveArrival (arr : Nat) (s : State) : Out :=
  runEvent s fun a mem time =>
    match tget a.arrivals arr with
    | none => (a, [])
    | some ar =>
      if ar.acked || ar.faulted then (a, [])
      else if ar.came.isSome then thenAdmit mem time ar.dst (deliverArrival a mem time ar)
      else
        let ar := { ar with came := some a.nextId }
        thenAdmit mem time ar.dst
          (deliverArrival { a with nextId := a.nextId + 1, arrivals := tset a.arrivals arr ar } mem time ar)

/-- Deliver some arrivals one after the other. -/
def deliverEach (mem : Memory) (time : Nat) (a : Arch) (ids : List Nat) : Arch × Writes :=
  ids.foldl (fun x i => match tget x.1.arrivals i with
    | some r => if r.acked || r.faulted then x else
      let y := deliverArrival x.1 (mwrites mem x.2) time r
      (y.1, x.2 ++ y.2)
    | none => x) (a, [])

/-- Apply, in arrival order, what was held for a replay that begins (R238, R239). -/
def applyHeld (mem : Memory) (time p c f n : Nat) (x : Arch × Writes) : Arch × Writes :=
  let held := (tvals x.1.arrivals).filter (fun r => r.dst == p && r.comm == c && r.flight == f && r.n == n && !r.acked && !r.faulted &&
    r.came.isSome && !(r.desc.dpkg == 0xFFFF))
  let y := deliverEach (mwrites mem x.2) time x.1 ((tsets [] (held.map (fun r => (r.came.getD 0, r.id)))).map (·.2))
  (y.1, x.2 ++ y.2)

/-- FLIGHT_REPLAY (R238). -/
def execFlightReplay (pkg cmd : Nat) (s : State) : Out :=
  cmdRow 3 pkg cmd s fun w =>
    let c := w.c.num 32 1
    let f := w.c.num 33 1
    let n := w.c.num 36 4
    let b := w.c.bytes
    w.fields [(33, decide (15 < f)), (34, dirty b 34 36), (104, dirty b 104 112)] <|
      match w.a.comm pkg c with
      | none => w.fail .unknown
      | some m =>
        if !(m.queue == w.q) then w.fail .owner
        else match w.a.flight pkg c f with
          | none => w.fail .unknown
          | some fl =>
            if !(n == fl.lastReplay + 1) then w.fail .busy
            else if m.aborted then w.fail .aborted
            else
              let a := w.started w.a
              let k := fl.entries.length
              let r := startNops
                { id := a.nextId, pkg := pkg, comm := c, flight := f, n := n, cmd := w.c.id, seq := w.c.seq, entries := fl.entries,
                  bases := (List.range 8).map (fun i => w.c.num (40 + 8 * i) 8), cnt := fl.entries.map (·.init),
                  started := List.replicate k false, doneE := List.replicate k false, status := 0, lastProgress := w.time,
                  aborted := false, fin := false }
              let fl := { fl with lastReplay := n, applied := fl.applied.filter (fun t => decide (n ≤ t.1 + 1)) }
              let a := { a with nextId := a.nextId + 1, flights := tset a.flights (flightKey pkg c f) fl,
                                replays := tset (a.replays.filter (fun x => !(x.2.pkg == pkg && x.2.comm == c && x.2.flight == f && x.2.fin &&
                                  decide (x.2.n + 1 < n)))) r.id r }
              let x := applyHeld w.mem w.time pkg c f n (a, [])
              thenAdmit w.mem w.time pkg (match tget x.1.replays r.id with | some r => settleReplay x.1 w.time r | none => x.1, x.2)

/-- COLL_STALL: no entry of a replay has progressed for 100 ms (R238). -/
def execCollStall (replay : Nat) (s : State) : Out :=
  runEvent s fun a _ time =>
    match tget a.replays replay with
    | none => (a, [])
    | some r =>
      if !r.fin && decide (r.lastProgress + 100000000 ≤ time) then
        let ctx := ((a.comm r.pkg r.comm).map (·.ctx)).getD 0
        ({ a with replays := tset a.replays replay { r with lastProgress := time } }.event time r.pkg 11 ctx
          (r.comm + r.flight * 256) r.n 0, [])
      else (a, [])

/-! ## COMM_CREATE, COMM_DESTROY (R232, R236) -/

/-- Collective buffers of a package in use (R236). -/
def buffersUsed (a : Arch) (p : Nat) : Nat := (a.comms.filter (fun x => x.1 / 256 == p)).foldl (fun n x => n + 2 * x.2.bufs) 0

/-- Whether a list names something twice. -/
def repeats : List Nat → Bool
  | [] => false
  | x :: r => r.contains x || repeats r

/-- COMM_CREATE: the member list is read as the owning queue's context, whose world must be the collective engine's (R234, R439)
(DEDUCED, log 32). -/
def execCommCreate (pkg cmd : Nat) (s : State) : Out :=
  cmdRow 0x4C pkg cmd s fun w =>
    let c := w.c.num 32 1
    let q := w.c.num 34 2
    let n := w.c.num 36 2
    let bufs := w.c.num 38 1
    let b := w.c.bytes
    w.fields [(32, decide (31 < c)), (33, decide (2 ≤ w.c.num 33 1)), (36, n == 0 || decide (1024 < n)), (38, bufs == 0 || decide (8 < bufs)),
        (39, dirty b 39 40)] <|
      match (if q < 256 then w.a.queue pkg q else none).bind (fun k => k.ctx.map (fun x => (k, x))) with
      | none => w.fail .unknown
      | some (k, ctx) =>
        if !(w.a.ctxWorld pkg ctx == (w.a.pkg pkg).collWorld) then w.fail .world
        else if (w.a.comm pkg c).isSome || decide (128 < buffersUsed w.a pkg + 2 * bufs) then w.fail .busy
        else w.read ctx (w.c.num 40 8) (2 * n) fun d =>
          let ms := (List.range n).map (fun i => numAt d (2 * i) 2)
          if !ms.contains pkg || repeats ms || ms.any (fun x => decide (1023 < x)) then w.done w.a .malformed 40
          else
            let m : Comm := { queue := q, ctx := ctx, cls := k.cls, world := w.a.ctxWorld pkg ctx, push := w.c.num 33 1 == 1, members := ms, bufs := bufs, sendUsed := 0, recvUsed := 0,
                              lastServed := 0, destroying := none, aborted := false }
            w.ok { w.a with comms := tset w.a.comms (commKey pkg c) m }

/-- COMM_DESTROY: it completes once the communicator's flights have. -/
def execCommDestroy (pkg cmd : Nat) (s : State) : Out :=
  cmdRow 0x4D pkg cmd s fun w =>
    let c := w.c.num 32 1
    w.fields [(32, decide (31 < c)), (33, dirty w.c.bytes 33 48)] <|
      match w.a.comm pkg c with
      | none => w.fail .unknown
      | some m =>
        if m.destroying.isSome then w.fail .busy
        else (dropComm ((w.started w.a).modComm pkg c (fun m => { m with destroying := some w.c.id })) w.time pkg c, [])

/-! ## Abort and retry (R219, R233, R242, R244) -/

/-- Abort the communicators of a context on a package: replays end at the boundary of their running chunks, and what has
arrived for them is acknowledged and discarded. -/
def abortComms (a : Arch) (time p ctx : Nat) : Arch :=
  let cs := (a.comms.filter (fun x => x.1 / 256 == p && x.2.ctx == ctx)).map (fun x => x.1 % 256)
  let mine (r : Replay) : Bool := r.pkg == p && cs.contains r.comm && !r.fin
  let a := cs.foldl (fun a c => a.modComm p c (fun m => { m with aborted := true })) a
  let a := { a with replays := a.replays.map (fun x => if mine x.2 then (x.1, { x.2 with aborted := true, status := x.2.status ||| 16 }) else x) }
  let held := (tvals a.arrivals).filter (fun x => x.dst == p && cs.contains x.comm && !x.acked && x.came.isSome)
  let a := held.foldl discard a
  let idle := (tvals a.chunks).filter (fun c => (chunkArrival a c).isNone && (match tget a.replays c.replay with | some r => mine r | none => false))
  let a := idle.foldl (fun a c => endChunk a time c) a
  (tvals a.replays).foldl (fun a r => if mine r then (match tget a.replays r.id with | some r => settleReplay a time r | none => a) else a) a

/-- Chunks that wait for a RETRY of the replay command at a queue and SEQ. -/
def faultedChunks (a : Arch) (p q seq : Nat) : List Chunk :=
  (tvals a.chunks).filter (fun c => c.faulted && (match tget a.replays c.replay with
    | some r => r.pkg == p && r.seq == seq && ((a.comm p r.comm).map (·.queue)) == some q
    | none => false))

/-- Arrivals that wait for a RETRY at the package that applies them. -/
def faultedArrivals (a : Arch) (p q seq : Nat) : List Arrival :=
  (tvals a.arrivals).filter (fun x => x.faulted && x.dst == p && (match replayFor a x with
    | some r => r.seq == seq && ((a.comm p r.comm).map (·.queue)) == some q
    | none => false))

/-- Reissue the chunks and arrivals that wait at a queue and SEQ. An entry resent after a fault goes point to point: a pushed one
is no longer part of the switch's sum, and a sum that could not be written becomes its contributions again (R243). -/
def retryColl (mem : Memory) (time p q seq : Nat) (a : Arch) : Arch × Writes :=
  let cs := faultedChunks a p q seq
  let as := (faultedArrivals a p q seq).flatMap (fun r => if r.desc.push && !r.direct && !(r.desc.dpkg == 0xFFFF) then pushGroup a r else [r])
  let again (c : Chunk) : Chunk := { c with faulted := false, direct := true }
  let a := cs.foldl (fun a c => runChunk { a with chunks := tset a.chunks c.id (again c) } mem time (again c)) a
  let a := as.foldl (fun a r => { a with arrivals := tset a.arrivals r.id { r with faulted := false, direct := true } }) a
  thenAdmit mem time p (deliverEach mem time a (as.map (·.id)))

/-- MEMORY_REQUEST_COMPLETE: a request of a memory operation (R105), a unit of an engine command, or a 16-byte unit of a contribution or a
chunk that is read before the rest of it (R126, R187, R188). -/
def execMemoryRequestComplete (op req : Nat) (s : State) : Out :=
  runEvent s fun a mem time =>
    match tget a.cmds op, (tvals a.reds).findSome? (fun r => r.contribs.find? (fun c => c.id == op)), tget a.chunks op with
    | some c, _, _ => match c.kind with
      | .queueWrite _ => (a, [])
      | .claim .. => (a, [])
      | _ => stepCmd a mem time c req
    | none, some c, _ => (earlyContrib a mem time c req, [])
    | none, none, some ch => (match chunkSource a ch with
      | some (_, _, g, va, n) => if ch.faulted || (chunkArrival a ch).isSome then a
          else earlyRead a mem time ch.id g va n req (fun _ _ => false)
      | none => a, [])
    | none, none, none => memoryRequest a mem time op req

end Sys2Proof.Machine
end

