-- ==== Sys2Proof/Machine/Manage.lean ====
section
/-! DEFINITION. Management commands (spec/14 R232, R233): contexts and their abort (spec/13 R219), queues, pre-emption, pairs,
RETRY and the context areas. -/

namespace Sys2Proof.Machine

/-! ## Context memory descriptors (R96) -/

/-- The context that a 64-byte descriptor describes, if it is well formed. -/
def ctxOf (d : List Byte) (handler : Nat) : Option Ctx :=
  let root := numAt d 0 8
  let pb := numAt d 8 8
  let ps := numAt d 16 4
  let hwm := numAt d 20 4
  let lease := numAt d 24 1
  let world := numAt d 25 1
  if root % 4096 = 0 ∧ root < 2 ^ 52 ∧ pb % 65536 = 0 ∧ pb < 0x7F * 2 ^ 48 ∧ ps % 65536 = 0 ∧ 65536 ≤ ps ∧ ps ≤ 2 ^ 28 ∧
      hwm % 65536 = 0 ∧ hwm ≤ ps ∧ lease ≤ 64 ∧ world ≤ 1 ∧ dirty d 26 64 = false then
    some { root := root, privBase := pb, pstride := ps, hwm := hwm, lease := lease, world := world == 1, handler := handler,
           aborting := none, tagRefusals := 0 }
  else none

/-- The tag key that a context takes on a package: the pod's, where the ID is live elsewhere, else a new one (R192) (DEDUCED, log 53). -/
def takeKey (a : Arch) (p c : Nat) : Arch :=
  match a.ctxs.find? (fun x => x.1 % 65536 == c && !(x.1 / 65536 == p)) with
  | some x => { a with keys := tset a.keys (ctxKey p c) (tgetD a.keys x.1 0) }
  | none => { a with keys := tset a.keys (ctxKey p c) (Config.tagKey a.free), free := a.free + 1 }

/-- CTX_CREATE. -/
def execCtxCreate (pkg cmd : Nat) (s : State) : Out :=
  cmdRow 0x40 pkg cmd s fun w =>
    let c := w.c.num 32 2
    let world := w.c.num 34 1
    let h := w.c.num 40 8
    w.fields [(34, decide (1 < world)), (35, dirty w.c.bytes 35 40), (40, !(h % 8 == 0))] <|
      if (w.a.ctx pkg c).isSome then w.fail .busy
      else match ctxOf (w.c.bytes.drop 48) h with
        | none => w.fail .desc
        | some x =>
          if x.world == (world == 1) then
            let a := takeKey w.a pkg c
            w.ok { a with ctxs := tset a.ctxs (ctxKey pkg c) x }
          else w.fail .desc

/-- TAG_KEY_MESSAGE: a security processor that holds a live context installs the key of the other package where it has none,
or where that package's number is lower (R192). -/
def execTagKeyMessage (pkg src ctx : Nat) (s : State) : Out :=
  runEvent s fun a _ _ =>
    match a.ctx pkg ctx, a.ctx src ctx, tget a.keys (ctxKey src ctx) with
    | some _, some _, some k =>
      if src < pkg ∨ (tget a.keys (ctxKey pkg ctx)).isNone then ({ a with keys := tset a.keys (ctxKey pkg ctx) k }, []) else (a, [])
    | _, _, _ => (a, [])

/-- Parked waves check again after a raise of HWM; those still beyond it send a growth request again (R108). -/
def recheckParked (a : Arch) (time p c hwm : Nat) : Arch :=
  (tvals a.threads).foldl (fun a t => match t.wait with
    | some (.park n) =>
      if t.ctx == c && t.unit.pkg == p && decide (hwm < n) then a.event time p 2 c 0 t.waveid.toNat n else a
    | _ => a) a

/-- CTX_UPDATE. -/
def execCtxUpdate (pkg cmd : Nat) (s : State) : Out :=
  cmdRow 0x41 pkg cmd s fun w =>
    let c := w.c.num 32 2
    w.fields [(34, dirty w.c.bytes 34 48)] <|
      match w.a.ctx pkg c with
      | none => w.fail .unknown
      | some x => match ctxOf (w.c.bytes.drop 48) x.handler with
        | none => w.fail .desc
        | some y =>
          if y.privBase = x.privBase ∧ y.pstride = x.pstride ∧ y.world = x.world ∧ x.hwm ≤ y.hwm then
            let a := { w.a with ctxs := tset w.a.ctxs (ctxKey pkg c) { x with root := y.root, lease := y.lease, hwm := y.hwm } }
            w.ok (if x.hwm < y.hwm then recheckParked a w.time pkg c y.hwm else a)
          else w.fail .desc

/-- GROWTH_REFUSE: the parked wave takes a growth trap (R108). -/
def execGrowthRefuse (pkg cmd : Nat) (s : State) : Out :=
  cmdRow 0x4A pkg cmd s fun w =>
    let c := w.c.num 32 2
    let id := w.c.num 36 3
    w.fields [(34, dirty w.c.bytes 34 36), (39, dirty w.c.bytes 39 48)] <|
      if (w.a.ctx pkg c).isNone then w.fail .unknown
      else match (tvals w.a.threads).find? (fun t => t.isWave && t.ctx == c && t.unit.pkg == pkg && t.waveid.toNat % 2 ^ 24 == id &&
          (match t.wait with | some (.park _) => true | _ => false)) with
        | none => w.ok w.a
        | some t => match t.wait, t.clause with
          | some (.park n), some k =>
            let b : Bad := { cls := .growth, addr := BitVec.ofNat 64 n, synd := 1, mask := none, kind := 0, kinds := 0 }
            let x := takeTrap w.a w.time t (b.record t k.pos (k.va k.pos) (k.words.getD k.pos 0) (refTimer w.a w.time pkg)) k.pc
            ((w.ok x.1).1, x.2)
          | _, _ => w.ok w.a

/-! ## Abort (R219) -/

/-- Drop what has not started or launched: waiting crews and punnets of a context on a package, and its images. -/
def abortWaiting (a : Arch) (p c : Nat) : Arch :=
  let crews := (tvals a.crews).filter (fun x => x.ctx == c && x.pkg == p)
  { a with
    crews := a.crews.filter (fun x => !(x.2.ctx == c && x.2.pkg == p && !x.2.started)),
    punnets := a.punnets.filter (fun x => !(crews.any (fun k => k.id == x.2.crew))),
    images := a.images.map (fun g => if g.pkg == p && g.ctx == c then { g with out := false, bad := false, punnets := [], waves := [], crews := [] } else g),
    slice := a.slice.filter (fun x => !(crews.any (fun k => k.id == x.2.crew))),
    landings := a.landings.filter (fun x => match a.thread x.2.uid with | some t => !(t.ctx == c && t.unit.pkg == p) | none => false),
    sums := a.sums.filter (fun x => match a.thread x.2.uid with | some t => !(t.ctx == c && t.unit.pkg == p) | none => false) }

/-- Retire every wave, then the frames from CORE upward, as aborted (R49). -/
def abortThreads (a : Arch) (time p c : Nat) : Arch :=
  let mine (l : Nat) : List Thread := (tvals a.threads).filter (fun t => t.ctx == c && t.unit.pkg == p && t.level.code == l)
  let a := (tvals a.trees).foldl (fun a r =>
    if r.ctx == c && r.unit.pkg == p then { a with trees := tset a.trees r.id { r with aborted := true } } else a) a
  ((List.range 6).flatMap mine).foldl (fun a t => match a.thread t.uid with
    | some t => retireThread a time t true
    | none => a) a

/-- End an engine command with status ABORTED; a CLAIM that has taken effect goes on (R350). -/
def abortCmd (time : Nat) (a : Arch) (c : Cmd) : Arch :=
  match c.kind with
  | .claim .. => if c.committed then a else endClaim a c
  | _ => match c.owner with
    | .queue .. => endQueueCmd time a c 3 0
    | .thread _ => endCmd a c 3 0

/-- End the reduce instances of a context that a package reduces (R378); what contributors that are gone left, saved ones among
them, is released (R219). -/
def abortReds (a : Arch) (p c : Nat) : Arch :=
  (tvals a.reds).foldl (fun a r =>
    if r.ctx == c && (r.pkg == p || r.contribs.any (fun k => (a.thread k.uid).isNone)) then
      endRed a { r with contribs := r.contribs.filter (fun k => (a.thread k.uid).isSome) } (r.status ||| 16)
    else a) a

/-- Commands of a context's queues that have begun and not acted complete with ABORTED. -/
def abortQueued (a : Arch) (time p c : Nat) : Arch :=
  (List.range 256).foldl (fun a q => match a.queue p q with
    | none => a
    | some k =>
      if k.ctx = some c then (k.cmds.filter (fun x => x.begun && !x.started)).foldl (fun a x => a.complete time p q x.id .aborted 0) a
      else a) a

/-- Pre-emptions and resumes of a context have nothing left to do on any core. -/
def abortPres (a : Arch) (time p c : Nat) : Arch :=
  (tvals a.pres).foldl (fun a x => if x.pkg == p && x.ctx == c then finishPre a time { x with saved := x.cores } else a) a

/-- Stop and retire a context's work on a package (DEDUCED, log 52). -/
def abortCtx (a : Arch) (time p c : Nat) : Arch :=
  let a := abortThreads (abortWaiting a p c) time p c
  let a := ((tvals a.cmds).filter (fun x => x.ctx == c && x.pkg == p)).foldl (abortCmd time) a
  abortPres (abortQueued (abortComms (abortReds a p c) time p c) time p c) time p c

/-- CTX_ABORT: it completes at ABORT_DONE. -/
def execCtxAbort (pkg cmd : Nat) (s : State) : Out :=
  cmdRow 0x42 pkg cmd s fun w =>
    let c := w.c.num 32 2
    w.fields [(34, dirty w.c.bytes 34 48)] <|
      match w.a.ctx pkg c with
      | none => w.fail .unknown
      | some x =>
        if x.aborting.isSome then (w.a, [])
        else
          let a := w.started w.a
          (admitAll (abortCtx { a with ctxs := tset a.ctxs (ctxKey pkg c) { x with aborting := some w.c.id } } w.time pkg c) w.mem w.time pkg, [])

/-- Whether nothing of a context is left on a package (R219, step 5). -/
def ctxQuiet (a : Arch) (p c : Nat) : Bool :=
  (tvals a.threads).all (fun t => !(t.ctx == c && t.unit.pkg == p)) &&
  (tvals a.crews).all (fun k => !(k.ctx == c && k.pkg == p)) &&
  (tvals a.cmds).all (fun x => !(x.ctx == c && x.pkg == p)) &&
  (tvals a.ops).all (fun o => !(o.ag.ctx == c && o.ag.pkg == p)) &&
  (tvals a.reds).all (fun r => !(r.ctx == c && r.pkg == p)) &&
  (tvals a.replays).all (fun r => r.fin || !(r.pkg == p) || !(((a.comm p r.comm).map (·.ctx)) == some c))

/-- ABORT_DONE. -/
def execAbortDone (pkg ctx : Nat) (s : State) : Out :=
  runEvent s fun a _ time =>
    match a.ctx pkg ctx with
    | none => (a, [])
    | some x => match x.aborting with
      | none => (a, [])
      | some cmd =>
        if ctxQuiet a pkg ctx then
          let a := { a with ctxs := tset a.ctxs (ctxKey pkg ctx) { x with aborting := none } }
          ((a.event time pkg 10 ctx 0 0 0).complete time pkg 0 cmd .ok 0, [])
        else (a, [])

/-- CTX_DESTROY. -/
def execCtxDestroy (pkg cmd : Nat) (s : State) : Out :=
  cmdRow 0x4F pkg cmd s fun w =>
    let c := w.c.num 32 2
    let a := w.a
    w.fields [(34, dirty w.c.bytes 34 48)] <|
      if (a.ctx pkg c).isNone then w.fail .unknown
      else if a.queues.any (fun x => x.1 / 256 == pkg && decide (x.2.ctx = some c)) ||
          a.comms.any (fun x => x.1 / 256 == pkg && x.2.ctx == c) || a.pairs.any (fun p =>
          (p.a == c || p.b == c) && p.cores.any (fun k => k / 192 == pkg)) || !ctxQuiet a pkg c then w.fail .busy
      else w.ok { a with ctxs := tdel a.ctxs (ctxKey pkg c), keys := tdel a.keys (ctxKey pkg c),
                         images := a.images.filter (fun g => !(g.pkg == pkg && g.ctx == c)) }

/-! ## Queues -/

/-- QUEUE_CREATE. -/
def execQueueCreate (pkg cmd : Nat) (s : State) : Out :=
  cmdRow 0x43 pkg cmd s fun w =>
    let q := w.c.num 32 2
    let c := w.c.num 34 2
    let cls := w.c.num 36 1
    w.fields [(32, q == 0 || decide (255 < q)), (36, decide (3 < cls)), (37, decide (2 ≤ w.c.num 37 1)), (38, dirty w.c.bytes 38 48)] <|
      if (w.a.ctx pkg c).isNone then w.fail .unknown
      else if (w.a.queue pkg q).isSome then w.fail .busy
      else w.ok (w.a.setQueue pkg q { ctx := some c, cls := cls, driver := w.c.num 37 1 == 1, expect := 1, held := [], cmds := [],
                                      port := 0, destroying := none })

/-- QUEUE_DESTROY: it completes after the queue's last command (DEDUCED, log 47). -/
def execQueueDestroy (pkg cmd : Nat) (s : State) : Out :=
  cmdRow 0x44 pkg cmd s fun w =>
    let q := w.c.num 32 2
    w.fields [(32, q == 0 || decide (255 < q)), (34, dirty w.c.bytes 34 48)] <|
      match w.a.queue pkg q with
      | none => w.fail .unknown
      | some k =>
        if k.destroying.isSome then w.fail .busy
        else if k.cmds.isEmpty then w.ok { w.a with queues := tdel w.a.queues (qKey pkg q) }
        else ((w.started w.a).setQueue pkg q { k with destroying := some w.c.id }, [])

/-! ## Pre-emption and pairs -/

/-- CORES of a command: the core indices of its 192-bit mask (R232). -/
def QW.cores (w : QW) : List Nat := (List.range 192).filter (fun k => bitAt (w.c.num 40 24) k)

/-- Whether a named core has no image location for a context. -/
def noImage (a : Arch) (p c : Nat) (cores : List Nat) : Bool := cores.any (fun k => (imageOf a p k c).isNone)

/-- PREEMPT. -/
def execPreempt (pkg cmd : Nat) (s : State) : Out :=
  cmdRow 0x45 pkg cmd s fun w =>
    let c := w.c.num 32 2
    w.fields [(34, dirty w.c.bytes 34 40)] <|
      if (w.a.ctx pkg c).isNone then w.fail .unknown
      else if noImage w.a pkg c w.cores then w.fail .busy
      else (startPre (w.started w.a) w.time pkg c w.cores w.c.id none, [])

/-- RESUME. -/
def execResume (pkg cmd : Nat) (s : State) : Out :=
  cmdRow 0x46 pkg cmd s fun w =>
    let c := w.c.num 32 2
    w.fields [(34, dirty w.c.bytes 34 40)] <|
      if (w.a.ctx pkg c).isNone then w.fail .unknown
      else (startResume (w.started w.a) w.time pkg c w.cores w.c.id, [])

/-- Declarations without some cores: those of the same two contexts go, others lose the cores. -/
def undeclare (ps : List Pair) (a b : Nat) (cores : List Nat) : List Pair :=
  ((ps.filter (fun p => !((p.a == a && p.b == b) || (p.a == b && p.b == a)) || p.cores.all (fun k => !(k / 192 == (cores.head?.getD 0) / 192)))).map
    (fun p => { p with cores := p.cores.filter (fun k => !cores.contains k) })).filter (fun p => !p.cores.isEmpty)

/-- PAIR_DECLARE (DEDUCED, log 48). -/
def execPairDeclare (pkg cmd : Nat) (s : State) : Out :=
  cmdRow 0x47 pkg cmd s fun w =>
    let x := w.c.num 32 2
    let y := w.c.num 34 2
    let sa := w.c.num 36 1
    let sb := w.c.num 37 1
    w.fields [(34, x == y), (38, dirty w.c.bytes 38 40)] <|
      if (w.a.ctx pkg x).isNone || (w.a.ctx pkg y).isNone then w.fail .unknown
      else if decide (48 < sa + sb) || noImage w.a pkg x w.cores || noImage w.a pkg y w.cores then w.fail .busy
      else
        let ks := w.cores.map (fun k => 192 * pkg + k)
        let ps := undeclare w.a.pairs x y ks
        w.ok { w.a with pairs := if ks.isEmpty then ps else ps ++ [{ a := x, b := y, slotsA := sa, slotsB := sb, cores := ks }] }

/-- PAIR_SWITCH. -/
def execPairSwitch (pkg cmd : Nat) (s : State) : Out :=
  cmdRow 0x48 pkg cmd s fun w =>
    let x := w.c.num 32 2
    let y := w.c.num 34 2
    let paired (k : Nat) : Bool := w.a.pairs.any (fun p =>
      p.cores.contains (192 * pkg + k) && ((p.a == x && p.b == y) || (p.a == y && p.b == x)))
    w.fields [(36, dirty w.c.bytes 36 40)] <|
      if (w.a.ctx pkg x).isNone || (w.a.ctx pkg y).isNone || !w.cores.all paired then w.fail .unknown
      else if noImage w.a pkg x w.cores then w.fail .busy
      else (startPre (w.started w.a) w.time pkg x w.cores w.c.id (some y), [])

/-- AREA_SET (R110). -/
def execAreaSet (pkg cmd : Nat) (s : State) : Out :=
  cmdRow 0x50 pkg cmd s fun w =>
    let b := w.c.num 32 1
    let n := w.c.num 34 2
    let gs := w.a.images.filter (fun g => g.pkg == pkg && g.core / 48 == b)
    w.fields [(32, decide (3 < b)), (33, dirty w.c.bytes 33 34), (34, decide (256 < n)), (36, dirty w.c.bytes 36 48)] <|
      if gs.any (fun g => decide (n * 0x100000 < g.offset + g.room) || g.out) then w.fail .busy
      else w.ok (w.a.setBerth pkg b { w.a.berth pkg b with area := n })

/-- IMAGE_SET (R221). -/
def execImageSet (pkg cmd : Nat) (s : State) : Out :=
  cmdRow 0x51 pkg cmd s fun w =>
    let c := w.c.num 32 2
    let k := w.c.num 34 1
    let off := w.c.num 36 4
    let n := w.c.num 40 4
    w.fields [(34, decide (191 < k)), (35, dirty w.c.bytes 35 36), (36, !(off % 128 == 0)), (40, !(n % 128 == 0)), (44, dirty w.c.bytes 44 48)] <|
      if (w.a.ctx pkg c).isNone then w.fail .unknown
      else if (w.a.berth pkg (k / 48)).area * 0x100000 < off + n ∨ isOut w.a pkg k c = true then w.fail .busy
      else
        let rest := w.a.images.filter (fun g => !(g.pkg == pkg && g.core == k && g.ctx == c))
        w.ok { w.a with images := rest ++ [{ ctx := c, pkg := pkg, core := k, offset := off, room := n, out := false, punnets := [],
                                             waves := [], crews := [], size := 0, bad := false }] }

/-! ## The rest -/

/-- POOL_SET (R95). -/
def execPoolSet (pkg cmd : Nat) (s : State) : Out :=
  cmdRow 0x49 pkg cmd s fun w =>
    let base := w.c.num 32 8
    let n := w.c.num 40 8
    w.fields [(32, !(base % 65536 == 0)), (40, !(n % 65536 == 0))] <|
      w.ok (w.a.setPkg pkg { w.a.pkg pkg with poolBase := base, poolSize := n })

/-- EVT_CFG (R218). -/
def execEvtCfg (pkg cmd : Nat) (s : State) : Out :=
  cmdRow 0x4E pkg cmd s fun w =>
    w.fields [(36, dirty w.c.bytes 36 48)] (w.ok (w.a.setPkg pkg { w.a.pkg pkg with corrThreshold := w.c.num 32 4 }))

/-- Whether a package is that of a tree's root. -/
def rootedOn (a : Arch) (p tree : Nat) : Bool := ((a.tree tree).map (fun r => r.unit.pkg == p)).getD false

/-- Engine commands that wait for a RETRY at a queue and SEQ of a package. -/
def faultedCmds (a : Arch) (p q seq : Nat) : List Cmd :=
  (tvals a.cmds).filter (fun c => c.faulted && decide (c.faultSeq a = (q, seq)) && (c.pkg == p || (match c.owner with
    | .thread u => ((a.thread u).map (fun t => rootedOn a p t.tree)).getD false
    | .queue .. => false)))

/-- Reduce instances with something that waits for a RETRY. -/
def faultedReds (a : Arch) (p q seq : Nat) : List Red :=
  (tvals a.reds).filter (fun r => (r.writeFaulted || r.contribs.any (·.faulted)) && decide (treeSeq a r.tree = (q, seq)) &&
    (r.pkg == p || rootedOn a p r.tree))

/-- RETRY: what waits at the named queue and SEQ is reissued (R233). -/
def execRetry (pkg cmd : Nat) (s : State) : Out :=
  cmdRow 0x4B pkg cmd s fun w =>
    let q := w.c.num 32 2
    let seq := w.c.num 40 8
    let a := w.a
    w.fields [(34, dirty w.c.bytes 34 40)] <|
      match (if q < 256 then a.queue pkg q else none) with
      | none => w.fail .unknown
      | some k =>
        let cs := faultedCmds a pkg q seq
        let rs := faultedReds a pkg q seq
        let qs := k.cmds.filter (fun c => c.faulted && c.seq == seq)
        if cs.isEmpty && rs.isEmpty && qs.isEmpty && (faultedChunks a pkg q seq).isEmpty && (faultedArrivals a pkg q seq).isEmpty then
          w.fail .notFaulted
        else
          let a := a.complete w.time w.p w.q w.c.id .ok 0
          let a := cs.foldl (fun a c => { a with cmds := tset a.cmds c.id { c with faulted := false } }) a
          let a := rs.foldl (fun a r => { a with reds := tset a.reds r.id { r with
            writeFaulted := false, contribs := r.contribs.map (fun c => { c with faulted := false }) } }) a
          let a := qs.foldl (fun a c => a.modCmd pkg q c.id (fun c => { c with faulted := false })) a
          retryColl w.mem w.time pkg q seq a

end Sys2Proof.Machine
end

