-- ==== Sys2Proof/Machine/Platform.lean ====
section
/-! DEFINITION. The platform (spec/30 R434 to R446, spec/13 R218): capability list, clocks, worlds, firewalls, layer map-out, boot,
attestation, timer synchronisation, power and the platform events. -/

namespace Sys2Proof.Machine

/-! ## Capability list (R443) -/

/-- One entry of the list, the i-th of n: ID i + 1, version 1, one unit of 8 bytes, and the offset of the next one; its last two
bytes are free (DEDUCED, log 30). -/
def capEntry (free n i : Nat) : List Byte :=
  leBytes 2 (i + 1) ++ leBytes 1 1 ++ leBytes 1 1 ++ leBytes 2 (if i + 1 < n then 8 * (i + 1) else 0) ++
    [Config.openByte (free + 2 * i + 1), Config.openByte (free + 2 * i + 2)]

/-- The capability block; its byte 1 is free. -/
def capBlock (free : Nat) : List Byte :=
  leBytes 1 0x82 ++ [Config.openByte free] ++ leBytes 2 52 ++ (List.range 6).flatMap (capEntry free 6)

/-- CAP_READ. -/
def execCapRead (pkg cmd : Nat) (s : State) : Out :=
  cmdRow 0x60 pkg cmd s fun w =>
    let a := { w.a with free := w.a.free + 13 }
    w.ok (a.report w.time pkg w.k.port (.capability (capBlock w.a.free)))

/-! ## Clocks (R441, R428, R300) -/

/-- INC of the rescaled counter at a frequency: 1200 × 2^32 / f, rounded to nearest (R300). -/
def rcInc (mhz : Nat) : Nat := (2 * 1200 * 2 ^ 32 + mhz) / (2 * mhz)

/-- CLK_SET (DEDUCED, log 42). -/
def execClkSet (pkg cmd : Nat) (s : State) : Out :=
  cmdRow 0x61 pkg cmd s fun w =>
    let b := w.c.num 32 1
    let f := w.c.num 34 2
    w.fields [(32, decide (3 < b)), (33, dirty w.c.bytes 33 34),
        (34, decide (f < 600) || decide (1800 < f) || !(f % 25 == 0)), (36, dirty w.c.bytes 36 48)] <|
      let x := w.a.berth pkg b
      if x.relock.isSome then (w.a, [])
      else if x.mhz = f then w.ok w.a
      else ((w.started w.a).setBerth pkg b { x with relock := some (1500, 0, f, w.c.id) }, [])

/-- PLL_RELOCK_END: 1.5 µs have passed; the stall is added to the rescaled counter. -/
def execPllRelockEnd (pkg berth : Nat) (s : State) : Out :=
  runEvent s fun a _ time =>
    let x := a.berth pkg berth
    match x.relock with
    | some (0, stall, f, cmd) =>
      let a := a.setBerth pkg berth { x with relock := none, mhz := f, rcAcc := x.rcAcc + stall * 6 * 2 ^ 32 / 5 }
      (a.complete time pkg 0 cmd .ok 0, [])
    | _ => (a, [])

/-! ## Worlds and firewalls (R439) -/

/-- Whether a context holds slots or storage of a core: a frame, waves, crews that hold storage, or an image of crews that are to come
back to it (DEDUCED, log 32). -/
def coreHolds (a : Arch) (p n : Nat) : Bool :=
  seqHolds a { level := .core, pkg := p, idx := n } || !(residents a p n).isEmpty || !(heldCrews a p n).isEmpty ||
  a.images.any (fun g => g.pkg == p && g.core == n && g.out)
where
  /-- A frame on a sequencer. -/
  seqHolds (a : Arch) (u : UnitId) : Bool := (tvals a.threads).any (fun t => !t.isWave && decide (t.unit = u))

/-- Whether a context holds slots or storage on a core, on a cluster or one of its cores, on a berth, one of its cores or clusters or
its context area, or in the collective engine (DEDUCED, log 32). -/
def unitHeld (a : Arch) (p kind n : Nat) : Bool :=
  let clu (c : Nat) : Bool := coreHolds.seqHolds a { level := .clu, pkg := p, idx := c } ||
    (List.range 6).any (fun k => coreHolds a p (6 * c + k))
  match kind with
  | 0 => coreHolds a p n
  | 1 => clu n
  | 2 => coreHolds.seqHolds a { level := .die, pkg := p, idx := n } || (List.range 8).any (fun c => clu (8 * n + c)) ||
    a.images.any (fun g => g.pkg == p && g.core / 48 == n && decide (0 < g.room))
  | _ => a.comms.any (fun c => c.1 / 256 == p)

/-- One bit of a mask set to a world. -/
def putBit (m n : Nat) (w : Bool) : Nat := if w then setBit m n else clearBit m n

/-- Put a unit into a world. -/
def setWorld (a : Arch) (p kind n : Nat) (w : Bool) : Arch :=
  match kind with
  | 0 => let x := a.berth p (n / 48); a.setBerth p (n / 48) { x with coreWorld := putBit x.coreWorld (n % 48) w }
  | 1 => let x := a.berth p (n / 8); a.setBerth p (n / 8) { x with clusterWorld := putBit x.clusterWorld (n % 8) w }
  | 2 => a.setBerth p n { a.berth p n with world := w }
  | _ => a.setPkg p { a.pkg p with collWorld := w }

/-- How many units of a kind a package has. -/
def unitCount : Nat → Nat
  | 0 => 192 | 1 => 32 | 2 => 4 | _ => 1

/-- WORLD_SET. -/
def execWorldSet (pkg cmd : Nat) (s : State) : Out :=
  cmdRow 0x62 pkg cmd s fun w =>
    let kind := w.c.num 32 1
    let world := w.c.num 33 1
    let n := w.c.num 34 2
    w.fields [(32, decide (3 < kind)), (33, decide (1 < world)), (34, decide (unitCount kind ≤ n)), (36, dirty w.c.bytes 36 48)] <|
      if unitHeld w.a pkg kind n then w.fail .busy else w.ok (setWorld w.a pkg kind n (world == 1))

/-- FIREWALL_SET. -/
def execFirewallSet (pkg cmd : Nat) (s : State) : Out :=
  cmdRow 0x63 pkg cmd s fun w =>
    let b := w.c.bytes
    let stack := w.c.num 32 1
    let n := w.c.num 33 1
    let world := w.c.num 34 1
    let base := w.c.num 40 8
    let lim := w.c.num 48 8
    let k := w.a.pkg pkg
    w.fields [(32, decide (7 < stack)), (33, decide (15 < n)), (34, decide (1 < world)), (35, dirty b 35 40),
        (40, !(base % 65536 == 0) || decide (2 ^ 52 ≤ base)), (48, !(lim % 65536 == 0) || decide (2 ^ 52 ≤ lim)), (56, dirty b 56 64)] <|
      w.ok (w.a.setPkg pkg { k with firewall := tset k.firewall (16 * stack + n) { base := base, limit := lim, world := world == 1 } })

/-! ## Layer map-out (R444) -/

/-- HBM_MAPOUT: the copy starts; another one of the same berth is waited for (DEDUCED, log 34). -/
def execHbmMapout (pkg cmd : Nat) (s : State) : Out :=
  cmdRow 0x64 pkg cmd s fun w =>
    let b := w.c.num 32 1
    let stack := w.c.num 33 1
    w.fields [(32, decide (3 < b)), (33, !(stack == 2 * b) && !(stack == 2 * b + 1)), (35, dirty w.c.bytes 35 48)] <|
      let x := w.a.berth pkg b
      if x.mapout.isSome then (w.a, []) else ((w.started w.a).setBerth pkg b { x with mapout := some w.c.id }, [])

/-- HOT_REMOVE: the copy has ended. -/
def execHotRemove (pkg berth : Nat) (s : State) : Out :=
  runEvent s fun a _ time =>
    let x := a.berth pkg berth
    match x.mapout with
    | none => (a, [])
    | some cmd =>
      let k := a.pkg pkg
      let n := k.capacity.getD berth 0 - 1
      let a := (a.setBerth pkg berth { x with mapout := none }).setPkg pkg { k with capacity := k.capacity.set berth n }
      ((a.event time pkg 0x42 0 berth (n * 2 ^ 33) 0).complete time pkg 0 cmd .ok 0, [])

/-! ## Authentication of a berth, power settings (R438, R442) -/

/-- A berth after its reset; its context area stays (R438), and so do a relock and a layer copy in progress (R441, R444)
(DEDUCED, log 35). -/
def Berth.restart (x : Berth) : Berth := { Berth.reset with area := x.area, relock := x.relock, mapout := x.mapout }

/-- What ran in a berth ends with its reset: its waves, its frames and the crews that had not started retire as aborted, and its engines
and caches are empty; what an image holds stays (DEDUCED, log 35). -/
def dropBerth (a : Arch) (time p b : Nat) : Arch :=
  let here (core : Nat) : Bool := core / 48 == 4 * p + b
  let mine (l : Nat) : List Thread :=
    (tvals a.threads).filter (fun t => t.unit.pkg == p && decide (t.berthOf = some b) && t.level.code == l && !t.saved)
  let a := { a with
    crews := a.crews.filter (fun x => !(here (192 * x.2.pkg + x.2.core) && !x.2.started)),
    punnets := a.punnets.filter (fun x => !here (x.1 / 32)), tlb := a.tlb.filter (fun x => !here (x.1 / 256)),
    icache := a.icache.filter (fun x => !here x.1), lines := a.lines.filter (fun x => !(lineNode x.1 / 64 == p && lineNode x.1 % 64 / 8 == b)) }
  let a := ((List.range 6).flatMap mine).foldl (fun a t => match a.thread t.uid with
    | some t => retireThread a time t true
    | none => a) a
  let alive (u : Nat) : Bool := (a.thread u).isSome
  { a with
    ops := a.ops.filter (fun x => alive x.2.uid), slice := a.slice.filter (fun x => alive x.2.uid),
    landings := a.landings.filter (fun x => alive x.2.uid), sums := a.sums.filter (fun x => alive x.2.uid),
    cmds := a.cmds.filter (fun x => match x.2.owner, x.2.kind with
      | _, .claim .. => true
      | .thread u, _ => alive u
      | .queue .., _ => true) }

/-- The reset of a berth: its slots' generations and its cores' punnet timers start again too (R54, R67). -/
def restartBerth (a : Arch) (time p b : Nat) : Arch :=
  let a := dropBerth (a.setBerth p b (a.berth p b).restart) time p b
  { a with slotGen := a.slotGen.filter (fun x => !(x.1 / 2304 == 4 * p + b)),
           pntimer := a.pntimer.filter (fun x => !(x.1 / 48 == 4 * p + b)) }

/-- The outcome of a berth's authentication (DEDUCED, log 35). -/
def authenticate (a : Arch) (time p b : Nat) (ok : Bool) : Arch :=
  let x := a.berth p b
  if ok then (if x.held then restartBerth a time p b else a)
  else (a.setBerth p b { x with held := true }).event time p 0x41 0 b 0 0

/-- BERTH_RETRY. -/
def execBerthRetry (pkg cmd : Nat) (ok : Bool) (s : State) : Out :=
  cmdRow 0x65 pkg cmd s fun w =>
    let b := w.c.num 32 1
    w.fields [(32, decide (3 < b)), (33, dirty w.c.bytes 33 48)] (w.ok (authenticate w.a w.time pkg b ok))

/-- POWER_CFG. -/
def execPowerCfg (pkg cmd : Nat) (s : State) : Out :=
  cmdRow 0x66 pkg cmd s fun w =>
    w.fields [(35, dirty w.c.bytes 35 48)] <|
      w.ok (w.a.setPkg pkg { w.a.pkg pkg with powerLimit := some (w.c.num 32 2), warnTemp := some (w.c.num 34 1) })

/-! ## Boot (R434, R435) -/

/-- Everything that a package holds is gone; memory bytes are not touched (DEDUCED, log 36). -/
def wipePkg (a : Arch) (p : Nat) : Arch :=
  let here (n : Nat) {α : Type} (t : Tab α) : Tab α := t.filter (fun x => !(x.1 / n == p))
  let alive (u : Nat) : Bool := match a.thread u with | some t => !(t.unit.pkg == p) | none => false
  { a with
    pkgs := tset a.pkgs p Pkg.reset, berths := here 4 a.berths, pntimer := here 192 a.pntimer, slotGen := here 9216 a.slotGen,
    locs := here 9216 a.locs, punnets := here (192 * 32) a.punnets, lines := here (64 * 65536 * 2 ^ 49) a.lines,
    tlb := here (192 * 256) a.tlb, icache := a.icache.filter (fun x => !(x.1 / 192 == p)), ctxs := here 65536 a.ctxs,
    keys := here 65536 a.keys, images := a.images.filter (fun g => !(g.pkg == p)),
    pairs := (a.pairs.map (fun x => { x with cores := x.cores.filter (fun k => !(k / 192 == p)) })).filter (fun x => !x.cores.isEmpty),
    queues := here 256 a.queues, comms := here 256 a.comms, flights := here (16 * 256) a.flights,
    replays := a.replays.filter (fun x => !(x.2.pkg == p)),
    chunks := a.chunks.filter (fun x => match tget a.replays x.2.replay with | some r => !(r.pkg == p) | none => false),
    arrivals := a.arrivals.filter (fun x => !(x.2.src == p) && !(x.2.dst == p)),
    trees := a.trees.filter (fun x => !(x.2.unit.pkg == p)), crews := a.crews.filter (fun x => !(x.2.pkg == p)),
    threads := a.threads.filter (fun x => !(x.2.unit.pkg == p)), ops := a.ops.filter (fun x => alive x.2.uid),
    cmds := a.cmds.filter (fun x => !(x.2.pkg == p)), reds := a.reds.filter (fun x => !(x.2.pkg == p)),
    slice := a.slice.filter (fun x => alive x.2.uid), landings := a.landings.filter (fun x => alive x.2.uid),
    sends := a.sends.filter (fun x => !(x.2.senderPkg == p)), sums := a.sums.filter (fun x => alive x.2.uid),
    fetches := a.fetches.filter (fun x => !(x.2.pkg == p)), pres := a.pres.filter (fun x => !(x.2.pkg == p)) }

/-- The measurements of a boot (R435): the ROM and the fused configuration stay, and each firmware's digest is what this boot, the n-th,
read and verified (R434). -/
def measure (pkg n : Nat) : List (List Byte) :=
  (List.range 9).map (fun i => (List.range 48).map (fun j =>
    if i = 0 ∨ i = 8 then Config.fixedDigest pkg (i + 1) j else Config.firmwareDigest n (i + 1) j))

/-- POWER_ON_RESET: the steps of the boot up to the Ethernet ports. The signatures of steps 1 and 2 are verified and the digests extend
into the measurements; a failed signature stops the boot. -/
def execPowerOnReset (pkg : Nat) (romOk fwOk : Bool) (authOk : BitVec 4) (capacity : List Nat) (s : State) : Out :=
  runEvent s fun a _ time =>
    let a := wipePkg a pkg
    if !romOk || !fwOk then (a.setPkg pkg { a.pkg pkg with boot := .failed }, [])
    else
      let a := { a.setPkg pkg { a.pkg pkg with boot := .up, digests := measure pkg a.free } with free := a.free + 1 }
      let a := (List.range 4).foldl (fun a b => authenticate a time pkg b (authOk.getLsbD b)) a
      let k := a.pkg pkg
      (a.setPkg pkg { k with capacity := (List.range 4).map (fun b => min 16 (capacity.getD b 0)), locked := true,
                             ports := k.ports.map (fun t => { t with up := true }) }, [])

/-! ## Attestation (R436, R437) -/

/-- The free bytes of a signed response, then the ML-DSA-65 signature as opaque data and the Ed25519 signature, both over the same
transcript (R436); the bytes are free, the sizes those of the algorithms (PRESUMED, log 41). -/
def signedBytes (free : Nat) : List Byte :=
  spdmBytes free ++ (List.range 3309).map (Config.signature 1 free) ++ (List.range 64).map (Config.signature 0 free)

/-- A request that reaches the responder of a port whose exchange has come as far as `stage`: it is answered, and the exchange
moves on; one out of order is answered with an error, whose bytes are free like those of every response (PRESUMED, log 40). -/
def spdmRow (pkg : Nat) (frame : PortFrame) (stage next : Nat) (body : Pkg → Nat → List Byte) (s : State) : Out :=
  runEvent s fun a _ _ =>
    let k := a.pkg pkg
    (onSpdm a pkg frame.port frame.verifies
      (if !k.booted then a
      else if stage ≤ (k.port frame.port).spdm then respond a pkg frame.port (body k a.free) (fun t => { t with spdm := max next t.spdm })
      else respond a pkg frame.port (spdmBytes a.free) id), [])

/-- A response of free bytes. -/
def plainBody (_ : Pkg) (free : Nat) : List Byte := spdmBytes free
/-- A signed response. -/
def signedBody (_ : Pkg) (free : Nat) : List Byte := signedBytes free

/-- GET_VERSION: it starts the exchange, and a part whose boot failed answers it alone (R434). -/
def execSpdmGetVersion (pkg : Nat) (frame : PortFrame) (s : State) : Out :=
  runEvent s fun a _ _ =>
    let k := a.pkg pkg
    let answer := respond a pkg frame.port (spdmBytes a.free) (fun t => { t with spdm := 1 })
    (if decide (k.boot = .failed) then answer else onSpdm a pkg frame.port frame.verifies (if k.booted then answer else a), [])

def execSpdmGetCapabilities (pkg : Nat) (frame : PortFrame) (s : State) : Out := spdmRow pkg frame 1 2 plainBody s
def execSpdmNegotiateAlgorithms (pkg : Nat) (frame : PortFrame) (s : State) : Out := spdmRow pkg frame 2 3 plainBody s
def execSpdmGetDigests (pkg : Nat) (frame : PortFrame) (s : State) : Out := spdmRow pkg frame 3 3 plainBody s
def execSpdmGetCertificate (pkg : Nat) (frame : PortFrame) (s : State) : Out := spdmRow pkg frame 3 3 plainBody s
/-- CHALLENGE: answered with both signatures. -/
def execSpdmChallenge (pkg : Nat) (frame : PortFrame) (s : State) : Out := spdmRow pkg frame 3 3 signedBody s

/-- The digest of a measurement (R435). -/
def Pkg.digest (k : Pkg) (idx : Nat) : List Byte := k.digests.getD (idx - 1) []

/-- GET_MEASUREMENTS of one index, or of all (0xFF): the digests, then the rest of the signed response. -/
def execSpdmGetMeasurements (pkg : Nat) (frame : PortFrame) (idx : Nat) (s : State) : Out :=
  spdmRow pkg frame 3 3 (fun k free =>
    (if 1 ≤ idx ∧ idx ≤ 9 then k.digest idx else if idx = 255 then (List.range 9).flatMap (fun i => k.digest (i + 1)) else []) ++
      signedBytes free) s

/-- KEY_EXCHANGE: signed by both keys; FINISH may follow. -/
def execSpdmKeyExchange (pkg : Nat) (frame : PortFrame) (s : State) : Out := spdmRow pkg frame 3 4 signedBody s

/-- The session of a port ends. When it is the platform endpoint's, its reports are held, at most 256 of them (R437); the records
of other queues wait for the port's next session (DEDUCED, log 37). -/
def endSession (k : Pkg) (port : Nat) : Pkg :=
  let t := k.port port
  match t.session with
  | none => k
  | some n =>
    let all := t.unacked.map (·.2.2) ++ t.waiting
    if k.session0 = some n then
      let mine := all.filter (·.platform) ++ k.heldReports
      { k.modPort port (fun t => { t with session := none, spdm := min t.spdm 3, unacked := [], waiting := all.filter (fun r => !r.platform) }) with
        session0Ended := true, heldReports := mine.take 256, lostReports := k.lostReports + (mine.length - 256) }
    else k.modPort port (fun t => { t with session := none, spdm := min t.spdm 3, unacked := [], waiting := all })

/-- Queue 0 of a package (R226). -/
def queueZero (port : Nat) : Queue :=
  { ctx := none, cls := 3, driver := false, expect := 1, held := [], cmds := [], port := port, destroying := none }

/-- A new session on a port: PSNs start again (R432), and what the exchange has negotiated holds, so that every request but FINISH may
follow (R436). The first since boot becomes the platform endpoint (R437): queue 0 comes to
exist and BOOT_DONE follows the events held so far (R434). -/
def startSession (a : Arch) (time pkg port : Nat) : Arch :=
  let k := endSession (a.pkg pkg) port
  let n := k.nextSession
  let k := { k.modPort port (fun t => { t with session := some n, lastTaken := 0, lastSent := 0, spdm := 3 }) with nextSession := n + 1 }
  if k.session0.isNone then
    let k := { k.modPort port (fun t => { t with waiting := k.heldReports ++ t.waiting }) with
               heldReports := [], session0 := some n, boot := .ready }
    ((a.setPkg pkg k).setQueue pkg 0 (queueZero port)).event time pkg 0x40 0 0 (Config.capacityWord k.capacity).toNat 0
  else a.setPkg pkg (k.modPort port (fun t => t.pump time t.waiting.length))

/-- FINISH: where it verifies, the response leaves and the session is established. -/
def execSpdmFinish (pkg : Nat) (frame : PortFrame) (verified : Bool) (s : State) : Out :=
  runEvent s fun a _ time =>
    let k := a.pkg pkg
    (onSpdm a pkg frame.port frame.verifies
      (if !k.booted then a
      else
        let a := respond a pkg frame.port (spdmBytes a.free) id
        if verified && (k.port frame.port).spdm == 4 then startSession a time pkg frame.port else a), [])

/-- END_SESSION: answered, and the port's traffic is dropped from then on. -/
def execSpdmEndSession (pkg : Nat) (frame : PortFrame) (s : State) : Out :=
  runEvent s fun a _ _ =>
    (onPort a pkg frame.port frame.verifies fun _ =>
      let a := respond a pkg frame.port (spdmBytes a.free) id
      a.setPkg pkg (endSession (a.pkg pkg) frame.port), [])

/-! ## Timer, power, temperature, links, corrected errors (R218, R440, R442, R446) -/

/-- TIME_MESSAGE: by how many ns the pod's time is ahead of the count of ns since reset. The package's offset is its timer's lead over
the pod's time: beyond S the lock is lost, within it the lock is regained. The timer steps forward to the pod's time; it keeps counting
and never goes back (R300, R440) (DEDUCED, log 38). -/
def execTimeMessage (pkg : Nat) (ahead : Int) (s : State) : Out :=
  runEvent s fun a _ time =>
    let offset := (a.pkg pkg).timerOff - ahead
    let k := { a.pkg pkg with timerOff := max (a.pkg pkg).timerOff ahead }
    let far := decide (Config.timerBound < offset.natAbs)
    if far && k.locked then
      ((a.setPkg pkg { k with locked := false }).event time pkg 0x45 0 0 ((BitVec.ofInt 64 offset).toNat) 0, [])
    else if !far && !k.locked && k.booted then
      ((a.setPkg pkg { k with locked := true }).event time pkg 0x46 0 0 0 0, [])
    else (a.setPkg pkg k, [])

/-- POWER: the measured power has exceeded the limit for 1 ms (DEDUCED, log 39). -/
def execPower (pkg watts : Nat) (s : State) : Out :=
  runEvent s fun a _ time =>
    let k := a.pkg pkg
    (if k.powerLimit.any (fun l => decide (l < watts)) then a.event time pkg 0x43 0 watts 0 0 else a, [])

/-- THERMAL: a die's temperature reaches the warning limit. -/
def execThermal (pkg berth degC : Nat) (s : State) : Out :=
  runEvent s fun a _ time =>
    let k := a.pkg pkg
    (if k.warnTemp.any (fun l => decide (l ≤ degC)) then a.event time pkg 0x44 0 berth degC 0 else a, [])

/-- THERMAL_CUT: core rail power is gone, without an event. -/
def execThermalCut (pkg : Nat) (s : State) : Out :=
  runEvent s fun a _ _ => (a.setPkg pkg { a.pkg pkg with railOff := true }, [])

/-- LINK_DOWN. -/
def execLinkDown (pkg port : Nat) (ualink : Bool) (s : State) : Out :=
  runEvent s fun a _ time =>
    let a := if ualink then a else a.setPkg pkg ((a.pkg pkg).modPort port (fun t => { t with up := false }))
    (a.event time pkg 0x47 0 (port % 256 + if ualink then 256 else 0) 0 0, [])

/-- CORRECTED: a memory has corrected an error; at the threshold the event is sent. -/
def execCorrected (pkg memory addr : Nat) (s : State) : Out :=
  runEvent s fun a _ time =>
    let k := a.pkg pkg
    let n := tgetD k.corrCount memory 0 + 1
    let a := a.setPkg pkg { k with corrCount := tset k.corrCount memory n }
    (if n = k.corrThreshold then a.event time pkg 6 0 memory addr n else a, [])

end Sys2Proof.Machine
end

