-- ==== Sys2Proof/Machine/Scalar.lean ====
section
/-! DEFINITION. The scalar instructions of class 0 (spec/18 R283 to R290). -/

namespace Sys2Proof.Machine

/-! ## Shared operations -/

/-- The value of a scalar source of either width. -/
def W.sv (w : W) (wide : Bool) (o : Opnd) : Nat := if wide then (w.rs64 o).toNat else (w.rs o).toNat
/-- The check of a scalar source of either width (R283, R285). -/
def srcW (j : Nat) (wide : Bool) (o : Opnd) : Option Bad := if wide then srcS64 j o else srcS j o
/-- The check of a scalar destination of either width. -/
def dstW (wide : Bool) (o : Opnd) : Option Bad := dstS (if wide then 2 else 1) o
/-- Write a scalar destination of either width. -/
def Thread.wrW (t : Thread) (wide : Bool) (o : Opnd) (x : Nat) : Thread :=
  if wide then t.wr64 o (BitVec.ofNat 64 x) else t.wr o (BitVec.ofNat 32 x)

/-- A scalar instruction: its checks, then one write for the whole wave (R283, R284). -/
def W.scalar (w : W) (bad : Option Bad) (wide : Bool) (d : Opnd) (x : Nat) : WRes :=
  checked bad (w.acts (WRes.own w (w.t.wrW wide d x)))

/-- A form with D, A and B of one width. -/
def scalar2 (h : Hd) (wide : Bool) (d a b : Opnd) (f : Nat → Nat → Nat) (s : State) : Out :=
  runWord 0 .any h s fun w =>
    w.scalar (firstBad [dstW wide d, srcW 1 wide a, srcW 2 wide b]) wide d (f (w.sv wide a) (w.sv wide b))

/-- A shift: B is a 32-bit count (R287). -/
def scalarShift (h : Hd) (wide : Bool) (d a b : Opnd) (f : Nat → Nat → Nat → Nat) (s : State) : Out :=
  runWord 0 .any h s fun w =>
    w.scalar (firstBad [dstW wide d, srcW 1 wide a, srcW 2 false b]) wide d (f (wbits wide) (w.sv wide a) (w.sv false b))

/-- A form with D and A, the widths of which may differ. -/
def scalar1 (h : Hd) (dw wide : Bool) (d a : Opnd) (f : Nat → Nat) (s : State) : Out :=
  runWord 0 .any h s fun w => w.scalar (firstBad [dstW dw d, srcW 1 wide a]) dw d (f (w.sv wide a))

/-! ## Meanings -/

/-- SADD (R286). -/
def execSadd (h : Hd) (v : IVar) (sat : Bool) (d a b : Opnd) (s : State) : Out := scalar2 h v.wide d a b (iAdd v sat) s
/-- SSUB (R286). -/
def execSsub (h : Hd) (v : IVar) (sat : Bool) (d a b : Opnd) (s : State) : Out := scalar2 h v.wide d a b (iSub v sat) s
/-- SMUL (R286). -/
def execSmul (h : Hd) (v : IVar) (sat : Bool) (d a b : Opnd) (s : State) : Out := scalar2 h v.wide d a b (iMul v sat) s
/-- SMULH (R286). -/
def execSmulh (h : Hd) (v : IVar) (d a b : Opnd) (s : State) : Out := scalar2 h v.wide d a b (iMulh v) s
/-- SMIN (R286). -/
def execSmin (h : Hd) (v : IVar) (d a b : Opnd) (s : State) : Out := scalar2 h v.wide d a b (iMin v) s
/-- SMAX (R286). -/
def execSmax (h : Hd) (v : IVar) (d a b : Opnd) (s : State) : Out := scalar2 h v.wide d a b (iMax v) s
/-- SAND (R287). -/
def execSand (h : Hd) (w : Bool) (d a b : Opnd) (s : State) : Out := scalar2 h w d a b (fun x y => x &&& y) s
/-- SOR (R287). -/
def execSor (h : Hd) (w : Bool) (d a b : Opnd) (s : State) : Out := scalar2 h w d a b (fun x y => x ||| y) s
/-- SXOR (R287). -/
def execSxor (h : Hd) (w : Bool) (d a b : Opnd) (s : State) : Out := scalar2 h w d a b (fun x y => x ^^^ y) s
/-- SNOT (R287). -/
def execSnot (h : Hd) (w : Bool) (d a : Opnd) (s : State) : Out := scalar1 h w w d a (iNot (wbits w)) s
/-- SSHL (R287). -/
def execSshl (h : Hd) (w : Bool) (d a b : Opnd) (s : State) : Out := scalarShift h w d a b iShl s
/-- SSHR (R287). -/
def execSshr (h : Hd) (w : Bool) (d a b : Opnd) (s : State) : Out := scalarShift h w d a b iShr s
/-- SSRA (R287). -/
def execSsra (h : Hd) (w : Bool) (d a b : Opnd) (s : State) : Out := scalarShift h w d a b iSra s

/-- SCMP: the predicate is written in the lanes that take part (R284, R288). -/
def execScmp (h : Hd) (v : IVar) (c : Cmp) (p : Fin 8) (a b : Opnd) (s : State) : Out :=
  runWord 0 .any h s fun w =>
    checked (firstBad [srcW 1 v.wide a, srcW 2 v.wide b])
      (w.acts (WRes.own w (w.t.setP p.val w.part
        (if c.holds (v.val (w.sv v.wide a)) (v.val (w.sv v.wide b)) then BitVec.allOnes 32 else 0))))

/-- SSEL: C is a 32-bit operand in both variants (R289). -/
def execSsel (h : Hd) (wide : Bool) (d a b c : Opnd) (s : State) : Out :=
  runWord 0 .any h s fun w =>
    w.scalar (firstBad [dstW wide d, srcW 1 wide a, srcW 2 wide b, srcW 3 false c]) wide d
      (if w.sv false c = 0 then w.sv wide b else w.sv wide a)

/-- SMOV (R289). -/
def execSmov (h : Hd) (w : Bool) (d a : Opnd) (s : State) : Out := scalar1 h w w d a (fun x => x) s
/-- SPOPC: D is 32-bit (R289). -/
def execSpopc (h : Hd) (w : Bool) (d a : Opnd) (s : State) : Out := scalar1 h false w d a (popCount (wbits w)) s
/-- SCLZ: D is 32-bit (R289). -/
def execSclz (h : Hd) (w : Bool) (d a : Opnd) (s : State) : Out := scalar1 h false w d a (iClz (wbits w)) s

/-- NOP (R290). -/
def execNop (h : Hd) (s : State) : Out := runWord 0 .any h s fun w => .done w.a []

/-- The LIVE word changes no state (R250); a VMASK granule beyond the allocation is a DECODE trap with cause 3. -/
def execLiveWord (_smask vmask : BitVec 24) (s : State) : Out :=
  runWord 0 .any { gp := 7, gn := false, ext := .none } s fun w =>
    if w.t.isWave && !(vmask.toNat / 2 ^ (w.t.alloc / 8) == 0) then .bad (decodeBad 3) else .done w.a []

end Sys2Proof.Machine
end

