-- ==== Sys2Proof/Machine/Dispatch.lean ====
section
/-! DEFINITION. One arm for each constructor of Instr: a direct call of its meaning. -/

namespace Sys2Proof.Machine

/-- What an instruction or a step of the opcode table does to the machine. -/
def exec (i : Instr) (s : State) : Host.Outcome State Fault Refusal :=
  match i with
  -- class 0: scalar and control (spec/18)
  | .sadd h v sat d a b => Sys2Proof.Machine.execSadd h v sat d a b s
  | .ssub h v sat d a b => Sys2Proof.Machine.execSsub h v sat d a b s
  | .smul h v sat d a b => Sys2Proof.Machine.execSmul h v sat d a b s
  | .smulh h v d a b => Sys2Proof.Machine.execSmulh h v d a b s
  | .smin h v d a b => Sys2Proof.Machine.execSmin h v d a b s
  | .smax h v d a b => Sys2Proof.Machine.execSmax h v d a b s
  | .sand h w d a b => Sys2Proof.Machine.execSand h w d a b s
  | .sor h w d a b => Sys2Proof.Machine.execSor h w d a b s
  | .sxor h w d a b => Sys2Proof.Machine.execSxor h w d a b s
  | .snot h w d a => Sys2Proof.Machine.execSnot h w d a s
  | .sshl h w d a b => Sys2Proof.Machine.execSshl h w d a b s
  | .sshr h w d a b => Sys2Proof.Machine.execSshr h w d a b s
  | .ssra h w d a b => Sys2Proof.Machine.execSsra h w d a b s
  | .scmp h v c p a b => Sys2Proof.Machine.execScmp h v c p a b s
  | .ssel h w d a b c => Sys2Proof.Machine.execSsel h w d a b c s
  | .smov h w d a => Sys2Proof.Machine.execSmov h w d a s
  | .spopc h w d a => Sys2Proof.Machine.execSpopc h w d a s
  | .sclz h w d a => Sys2Proof.Machine.execSclz h w d a s
  | .nop h => Sys2Proof.Machine.execNop h s
  | .br h disp => Sys2Proof.Machine.execBr h disp s
  | .brx h a => Sys2Proof.Machine.execBrx h a s
  | .call h disp link => Sys2Proof.Machine.execCall h disp link s
  | .ret h link => Sys2Proof.Machine.execRet h link s
  | .loop h disp code => Sys2Proof.Machine.execLoop h disp code s
  | .exit h => Sys2Proof.Machine.execExit h s
  | .yield h => Sys2Proof.Machine.execYield h s
  | .liveWord smask vmask => Sys2Proof.Machine.execLiveWord smask vmask s
  -- class 11: system (spec/18)
  | .srr h n w64 d => Sys2Proof.Machine.execSrr h n w64 d s
  | .srrRfault h w64 d => Sys2Proof.Machine.execSrrRfault h w64 d s
  | .srw h n w64 a => Sys2Proof.Machine.execSrw h n w64 a s
  | .srwFpstat h w64 a => Sys2Proof.Machine.execSrwFpstat h w64 a s
  | .srwFpctl h w64 a => Sys2Proof.Machine.execSrwFpctl h w64 a s
  | .srwPntimer h w64 a => Sys2Proof.Machine.execSrwPntimer h w64 a s
  | .trap h imm => Sys2Proof.Machine.execTrap h imm s
  | .trapretResume h => Sys2Proof.Machine.execTrapretResume h s
  | .trapretSkip h => Sys2Proof.Machine.execTrapretSkip h s
  | .trapretReplace h a => Sys2Proof.Machine.execTrapretReplace h a s
  | .trapretAbort h => Sys2Proof.Machine.execTrapretAbort h s
  | .iflush h lvl a b => Sys2Proof.Machine.execIflush h lvl a b s
  | .prioset h a => Sys2Proof.Machine.execPrioset h a s
  -- class 1: vector integer and address (spec/19)
  | .iadd h v sat d a b => Sys2Proof.Machine.execIadd h v sat d a b s
  | .isub h v sat d a b => Sys2Proof.Machine.execIsub h v sat d a b s
  | .imul h v sat d a b => Sys2Proof.Machine.execImul h v sat d a b s
  | .imulh h v d a b => Sys2Proof.Machine.execImulh h v d a b s
  | .imad h v sat d a b c => Sys2Proof.Machine.execImad h v sat d a b c s
  | .imin h v d a b => Sys2Proof.Machine.execImin h v d a b s
  | .imax h v d a b => Sys2Proof.Machine.execImax h v d a b s
  | .iabs h v sat d a => Sys2Proof.Machine.execIabs h v sat d a s
  | .icmp h v c elem p a b => Sys2Proof.Machine.execIcmp h v c elem p a b s
  | .iand h w d a b => Sys2Proof.Machine.execIand h w d a b s
  | .ior h w d a b => Sys2Proof.Machine.execIor h w d a b s
  | .ixor h w d a b => Sys2Proof.Machine.execIxor h w d a b s
  | .inot h w d a => Sys2Proof.Machine.execInot h w d a s
  | .ishl h w d a b => Sys2Proof.Machine.execIshl h w d a b s
  | .ishr h w d a b => Sys2Proof.Machine.execIshr h w d a b s
  | .isra h w d a b => Sys2Proof.Machine.execIsra h w d a b s
  | .ipopc h w d a => Sys2Proof.Machine.execIpopc h w d a s
  | .iclz h w d a => Sys2Proof.Machine.execIclz h w d a s
  | .ibfe h u d a b c => Sys2Proof.Machine.execIbfe h u d a b c s
  | .ibfi h d a b c => Sys2Proof.Machine.execIbfi h d a b c s
  | .isel h w p d a b => Sys2Proof.Machine.execIsel h w p d a b s
  | .imov h w d a => Sys2Proof.Machine.execImov h w d a s
  | .pack h v sat d a b => Sys2Proof.Machine.execPack h v sat d a b s
  | .unpk h v sel d a => Sys2Proof.Machine.execUnpk h v sel d a s
  | .iaddsh h w sh d a b => Sys2Proof.Machine.execIaddsh h w sh d a b s
  | .xset h x a => Sys2Proof.Machine.execXset h x a s
  | .xsetRd h d x => Sys2Proof.Machine.execXsetRd h d x s
  | .xadd h xd xa b => Sys2Proof.Machine.execXadd h xd xa b s
  | .plog h op pd pa pb => Sys2Proof.Machine.execPlog h op pd pa pb s
  | .philox h d a b => Sys2Proof.Machine.execPhilox h d a b s
  -- class 2: vector float and conversion (spec/19)
  | .fadd h f rm d a b => Sys2Proof.Machine.execFadd h f rm d a b s
  | .fsub h f rm d a b => Sys2Proof.Machine.execFsub h f rm d a b s
  | .fmul h f rm d a b => Sys2Proof.Machine.execFmul h f rm d a b s
  | .ffma h f rm d a b c => Sys2Proof.Machine.execFfma h f rm d a b c s
  | .fmin h f d a b => Sys2Proof.Machine.execFmin h f d a b s
  | .fmax h f d a b => Sys2Proof.Machine.execFmax h f d a b s
  | .fabs h f d a => Sys2Proof.Machine.execFabs h f d a s
  | .fneg h f d a => Sys2Proof.Machine.execFneg h f d a s
  | .fcmp h f c elem p a b => Sys2Proof.Machine.execFcmp h f c elem p a b s
  | .fdiv h rm d a b => Sys2Proof.Machine.execFdiv h rm d a b s
  | .fsqrt h rm d a => Sys2Proof.Machine.execFsqrt h rm d a s
  | .frcp h rm d a => Sys2Proof.Machine.execFrcp h rm d a s
  | .frsq h rm d a => Sys2Proof.Machine.execFrsq h rm d a s
  | .fexp2 h rm d a => Sys2Proof.Machine.execFexp2 h rm d a s
  | .flog2 h rm d a => Sys2Proof.Machine.execFlog2 h rm d a s
  | .fsin h rm d a => Sys2Proof.Machine.execFsin h rm d a s
  | .fcos h rm d a => Sys2Proof.Machine.execFcos h rm d a s
  | .ftanh h rm d a => Sys2Proof.Machine.execFtanh h rm d a s
  | .fclass h f d a => Sys2Proof.Machine.execFclass h f d a s
  | .frnd h f rm d a => Sys2Proof.Machine.execFrnd h f rm d a s
  | .fcvt h dst src pos sat rm d a => Sys2Proof.Machine.execFcvt h dst src pos sat rm d a s
  | .nenc h e rm d a b => Sys2Proof.Machine.execNenc h e rm d a b s
  | .ndec h e rm d a b => Sys2Proof.Machine.execNdec h e rm d a b s
  -- class 3: lane and partition (spec/19)
  | .vote h o => Sys2Proof.Machine.execVote h o s
  | .shfl h o d a b => Sys2Proof.Machine.execShfl h o d a b s
  | .scani h e op rm sat d a => Sys2Proof.Machine.execScani h e op rm sat d a s
  | .scanx h e op rm sat d a => Sys2Proof.Machine.execScanx h e op rm sat d a s
  | .lred h e op rm sat d a => Sys2Proof.Machine.execLred h e op rm sat d a s
  | .partset h a => Sys2Proof.Machine.execPartset h a s
  | .partget h d => Sys2Proof.Machine.execPartget h d s
  -- class 4: memory (spec/20)
  | .ld h w m inv d a b => Sys2Proof.Machine.execLd h w m inv d a b s
  | .st h w m a b c => Sys2Proof.Machine.execSt h w m a b c s
  | .atom h op m nr sgn sz d a b c => Sys2Proof.Machine.execAtom h op m nr sgn sz d a b c s
  | .ldmeta h m d a => Sys2Proof.Machine.execLdmeta h m d a s
  | .stmeta h m a c => Sys2Proof.Machine.execStmeta h m a c s
  | .flush h m a b => Sys2Proof.Machine.execFlush h m a b s
  | .frame h d a => Sys2Proof.Machine.execFrame h d a s
  | .claim h m a b => Sys2Proof.Machine.execClaim h m a b s
  | .migrate h a => Sys2Proof.Machine.execMigrate h a s
  | .sld h w m inv d a b => Sys2Proof.Machine.execSld h w m inv d a b s
  | .sst h w m a b c => Sys2Proof.Machine.execSst h w m a b c s
  | .satom h op m nr sgn sz d a b c => Sys2Proof.Machine.execSatom h op m nr sgn sz d a b c s
  -- class 5: scratchpad (spec/20)
  | .lds h w m win d a b => Sys2Proof.Machine.execLds h w m win d a b s
  | .sts h w m win a b c => Sys2Proof.Machine.execSts h w m win a b c s
  | .atoms h op m win nr sgn sz d a b c => Sys2Proof.Machine.execAtoms h op m win nr sgn sz d a b c s
  | .bararr h b => Sys2Proof.Machine.execBararr h b s
  | .barwait h b => Sys2Proof.Machine.execBarwait h b s
  | .barsync h b => Sys2Proof.Machine.execBarsync h b s
  | .barcfg h b e a => Sys2Proof.Machine.execBarcfg h b e a s
  -- class 6: copy and stream (spec/20)
  | .copyIn h m bar be ch d a b c => Sys2Proof.Machine.execCopyIn h m bar be ch d a b c s
  | .copyOut h m bar be ch d a b c => Sys2Proof.Machine.execCopyOut h m bar be ch d a b c s
  | .acopy h m a b => Sys2Proof.Machine.execAcopy h m a b s
  | .spush h m q d a b => Sys2Proof.Machine.execSpush h m q d a b s
  | .spop h q a => Sys2Proof.Machine.execSpop h q a s
  | .qcfg h q a b => Sys2Proof.Machine.execQcfg h q a b s
  | .wprd h m stream n d => Sys2Proof.Machine.execWprd h m stream n d s
  -- class 7: hierarchy primitives (spec/21)
  | .launch h lvl a => Sys2Proof.Machine.execLaunch h lvl a s
  | .launchGang h lvl a => Sys2Proof.Machine.execLaunchGang h lvl a s
  | .join h lvl => Sys2Proof.Machine.execJoin h lvl s
  | .bar h lvl => Sys2Proof.Machine.execBar h lvl s
  | .mcopyDown h m bar be crew d a b c => Sys2Proof.Machine.execMcopyDown h m bar be crew d a b c s
  | .mcopyUp h m bar be crew d a b c => Sys2Proof.Machine.execMcopyUp h m bar be crew d a b c s
  | .reduce h m ty op d a b c => Sys2Proof.Machine.execReduce h m ty op d a b c s
  | .fence h lvl acq rel mx cp => Sys2Proof.Machine.execFence h lvl acq rel mx cp s
  | .spawn h a b => Sys2Proof.Machine.execSpawn h a b s
  | .fetchw h f a => Sys2Proof.Machine.execFetchw h f a s
  -- class 8: matrix, speculation and inference (spec/22)
  | .mma h v lvl acq asrc bsrc ka kb rm cv t a b => Sys2Proof.Machine.execMma h v lvl acq asrc bsrc ka kb rm cv t a b s
  | .latch h b lvl acq src a => Sys2Proof.Machine.execLatch h b lvl acq src a s
  | .unlatch h b => Sys2Proof.Machine.execUnlatch h b s
  | .accz h t => Sys2Proof.Machine.execAccz h t s
  | .accrd h e rm d t => Sys2Proof.Machine.execAccrd h e rm d t s
  | .accwr h t a => Sys2Proof.Machine.execAccwr h t a s
  | .accst h m a t => Sys2Proof.Machine.execAccst h m a t s
  | .accld h lvl acq t a => Sys2Proof.Machine.execAccld h lvl acq t a s
  | .accmov h tr d a => Sys2Proof.Machine.execAccmov h tr d a s
  | .specBegin h pred a => Sys2Proof.Machine.execSpecBegin h pred a s
  | .specResolve h p => Sys2Proof.Machine.execSpecResolve h p s
  | .treemask h ap t a b => Sys2Proof.Machine.execTreemask h ap t a b s
  | .kvcommit h m d a b => Sys2Proof.Machine.execKvcommit h m d a b s
  -- class 9: fabric registers (spec/23)
  | .grant h lvl ovw cnt d a b => Sys2Proof.Machine.execGrant h lvl ovw cnt d a b s
  | .revoke h cnt a => Sys2Proof.Machine.execRevoke h cnt a s
  | .expect h cnt a => Sys2Proof.Machine.execExpect h cnt a s
  | .rsend h f rel idx a b => Sys2Proof.Machine.execRsend h f rel idx a b s
  | .rsendv h f rel idx a b => Sys2Proof.Machine.execRsendv h f rel idx a b s
  | .rfence h => Sys2Proof.Machine.execRfence h s
  | .rget h cnt d a => Sys2Proof.Machine.execRget h cnt d a s
  | .rgetTk h cnt d a => Sys2Proof.Machine.execRgetTk h cnt d a s
  -- class 10: summaries (spec/23)
  | .skinit h f kind coin a b => Sys2Proof.Machine.execSkinit h f kind coin a b s
  | .skins h f kind w64 a b c => Sys2Proof.Machine.execSkins h f kind w64 a b c s
  | .skmrg h f kind a b => Sys2Proof.Machine.execSkmrg h f kind a b s
  | .skquant h f d a b => Sys2Proof.Machine.execSkquant h f d a b s
  | .skrank h f d a b => Sys2Proof.Machine.execSkrank h f d a b s
  | .sktop h f d a b => Sys2Proof.Machine.execSktop h f d a b s
  | .skpoint h f d a b => Sys2Proof.Machine.execSkpoint h f d a b s
  | .skest h f d a => Sys2Proof.Machine.execSkest h f d a s
  -- steps of execution (spec/03, spec/01)
  | .clauseBegin core slot => Sys2Proof.Machine.execClauseBegin core slot s
  | .sequencerClauseBegin u => Sys2Proof.Machine.execSequencerClauseBegin u s
  | .passCountEscape uid => Sys2Proof.Machine.execPassCountEscape uid s
  | .issueAgePromotion uid => Sys2Proof.Machine.execIssueAgePromotion uid s
  | .sequencerAgePromotion uid => Sys2Proof.Machine.execSequencerAgePromotion uid s
  | .frameActivate u => Sys2Proof.Machine.execFrameActivate u s
  | .tilePlacement uid => Sys2Proof.Machine.execTilePlacement uid s
  | .crewStart core => Sys2Proof.Machine.execCrewStart core s
  | .waveRetire uid => Sys2Proof.Machine.execWaveRetire uid s
  | .crewRetire crew => Sys2Proof.Machine.execCrewRetire crew s
  | .punnetTimeout core n => Sys2Proof.Machine.execPunnetTimeout core n s
  | .punnetLaunch core n => Sys2Proof.Machine.execPunnetLaunch core n s
  | .fetchwReply req => Sys2Proof.Machine.execFetchwReply req s
  -- steps of the memory path and the engines (spec/05, spec/06, spec/20 to spec/23)
  | .memoryRequestComplete op req => Sys2Proof.Machine.execMemoryRequestComplete op req s
  | .staleReissue op => Sys2Proof.Machine.execStaleReissue op s
  | .leaseExpiry core n => Sys2Proof.Machine.execLeaseExpiry core n s
  | .copyComplete cmd => Sys2Proof.Machine.execCopyComplete cmd s
  | .spushAdmit cmd => Sys2Proof.Machine.execSpushAdmit cmd s
  | .spopRelease uid => Sys2Proof.Machine.execSpopRelease uid s
  | .mcopyComplete cmd => Sys2Proof.Machine.execMcopyComplete cmd s
  | .reduceContributionArrival red n => Sys2Proof.Machine.execReduceContributionArrival red n s
  | .matrixOperationComplete core => Sys2Proof.Machine.execMatrixOperationComplete core s
  | .accrdLanding op => Sys2Proof.Machine.execAccrdLanding op s
  | .accstComplete cmd => Sys2Proof.Machine.execAccstComplete cmd s
  | .kvcommitComplete cmd => Sys2Proof.Machine.execKvcommitComplete cmd s
  | .summaryInstructionComplete core => Sys2Proof.Machine.execSummaryInstructionComplete core s
  | .claimComplete cmd => Sys2Proof.Machine.execClaimComplete cmd s
  | .migrationArrival uid => Sys2Proof.Machine.execMigrationArrival uid s
  | .registerSendArrival send => Sys2Proof.Machine.execRegisterSendArrival send s
  | .sendAcknowledgement send => Sys2Proof.Machine.execSendAcknowledgement send s
  -- pre-emption (spec/03)
  | .safePointOverrun pre uid => Sys2Proof.Machine.execSafePointOverrun pre uid s
  | .preemptSave pre core => Sys2Proof.Machine.execPreemptSave pre core s
  | .restoreComplete pre core => Sys2Proof.Machine.execRestoreComplete pre core s
  -- collectives (spec/14)
  | .chunkAdmit pkg => Sys2Proof.Machine.execChunkAdmit pkg s
  | .chunkBoundary chunk => Sys2Proof.Machine.execChunkBoundary chunk s
  | .collectiveArrival arr => Sys2Proof.Machine.execCollectiveArrival arr s
  | .collStall replay => Sys2Proof.Machine.execCollStall replay s
  -- host transport and front end (spec/14, spec/30)
  | .commandDatagram pkg port verified bytes => Sys2Proof.Machine.execCommandDatagram pkg port verified bytes s
  | .ackDatagram pkg port verified bytes => Sys2Proof.Machine.execAckDatagram pkg port verified bytes s
  | .datagramResend pkg port => Sys2Proof.Machine.execDatagramResend pkg port s
  | .queueCommandBegin pkg => Sys2Proof.Machine.execQueueCommandBegin pkg s
  | .kernelLaunchCommand pkg cmd => Sys2Proof.Machine.execKernelLaunchCommand pkg cmd s
  | .flightLoad pkg cmd => Sys2Proof.Machine.execFlightLoad pkg cmd s
  | .flightReplay pkg cmd => Sys2Proof.Machine.execFlightReplay pkg cmd s
  | .queueWrite pkg cmd => Sys2Proof.Machine.execQueueWrite pkg cmd s
  | .queueCopy pkg cmd => Sys2Proof.Machine.execQueueCopy pkg cmd s
  | .qwait pkg cmd => Sys2Proof.Machine.execQwait pkg cmd s
  | .ctxCreate pkg cmd => Sys2Proof.Machine.execCtxCreate pkg cmd s
  | .ctxUpdate pkg cmd => Sys2Proof.Machine.execCtxUpdate pkg cmd s
  | .ctxAbort pkg cmd => Sys2Proof.Machine.execCtxAbort pkg cmd s
  | .abortDone pkg ctx => Sys2Proof.Machine.execAbortDone pkg ctx s
  | .queueCreate pkg cmd => Sys2Proof.Machine.execQueueCreate pkg cmd s
  | .queueDestroy pkg cmd => Sys2Proof.Machine.execQueueDestroy pkg cmd s
  | .preempt pkg cmd => Sys2Proof.Machine.execPreempt pkg cmd s
  | .resume pkg cmd => Sys2Proof.Machine.execResume pkg cmd s
  | .pairDeclare pkg cmd => Sys2Proof.Machine.execPairDeclare pkg cmd s
  | .pairSwitch pkg cmd => Sys2Proof.Machine.execPairSwitch pkg cmd s
  | .poolSet pkg cmd => Sys2Proof.Machine.execPoolSet pkg cmd s
  | .growthRefuse pkg cmd => Sys2Proof.Machine.execGrowthRefuse pkg cmd s
  | .retry pkg cmd => Sys2Proof.Machine.execRetry pkg cmd s
  | .commCreate pkg cmd => Sys2Proof.Machine.execCommCreate pkg cmd s
  | .commDestroy pkg cmd => Sys2Proof.Machine.execCommDestroy pkg cmd s
  | .evtCfg pkg cmd => Sys2Proof.Machine.execEvtCfg pkg cmd s
  | .ctxDestroy pkg cmd => Sys2Proof.Machine.execCtxDestroy pkg cmd s
  | .areaSet pkg cmd => Sys2Proof.Machine.execAreaSet pkg cmd s
  | .imageSet pkg cmd => Sys2Proof.Machine.execImageSet pkg cmd s
  | .capRead pkg cmd => Sys2Proof.Machine.execCapRead pkg cmd s
  | .clkSet pkg cmd => Sys2Proof.Machine.execClkSet pkg cmd s
  | .pllRelockEnd pkg berth => Sys2Proof.Machine.execPllRelockEnd pkg berth s
  | .worldSet pkg cmd => Sys2Proof.Machine.execWorldSet pkg cmd s
  | .firewallSet pkg cmd => Sys2Proof.Machine.execFirewallSet pkg cmd s
  | .hbmMapout pkg cmd => Sys2Proof.Machine.execHbmMapout pkg cmd s
  | .hotRemove pkg berth => Sys2Proof.Machine.execHotRemove pkg berth s
  | .berthRetry pkg cmd ok => Sys2Proof.Machine.execBerthRetry pkg cmd ok s
  | .powerCfg pkg cmd => Sys2Proof.Machine.execPowerCfg pkg cmd s
  -- boot, security, platform events (spec/30)
  | .powerOnReset pkg romOk fwOk authOk capacity => Sys2Proof.Machine.execPowerOnReset pkg romOk fwOk authOk capacity s
  | .spdmGetVersion pkg frame => Sys2Proof.Machine.execSpdmGetVersion pkg frame s
  | .spdmGetCapabilities pkg frame => Sys2Proof.Machine.execSpdmGetCapabilities pkg frame s
  | .spdmNegotiateAlgorithms pkg frame => Sys2Proof.Machine.execSpdmNegotiateAlgorithms pkg frame s
  | .spdmGetDigests pkg frame => Sys2Proof.Machine.execSpdmGetDigests pkg frame s
  | .spdmGetCertificate pkg frame => Sys2Proof.Machine.execSpdmGetCertificate pkg frame s
  | .spdmChallenge pkg frame => Sys2Proof.Machine.execSpdmChallenge pkg frame s
  | .spdmGetMeasurements pkg frame idx => Sys2Proof.Machine.execSpdmGetMeasurements pkg frame idx s
  | .spdmKeyExchange pkg frame => Sys2Proof.Machine.execSpdmKeyExchange pkg frame s
  | .spdmFinish pkg frame verified => Sys2Proof.Machine.execSpdmFinish pkg frame verified s
  | .spdmEndSession pkg frame => Sys2Proof.Machine.execSpdmEndSession pkg frame s
  | .timeMessage pkg offset => Sys2Proof.Machine.execTimeMessage pkg offset s
  | .power pkg watts => Sys2Proof.Machine.execPower pkg watts s
  | .thermal pkg berth degC => Sys2Proof.Machine.execThermal pkg berth degC s
  | .thermalCut pkg => Sys2Proof.Machine.execThermalCut pkg s
  | .linkDown pkg port ualink => Sys2Proof.Machine.execLinkDown pkg port ualink s
  | .corrected pkg memory addr => Sys2Proof.Machine.execCorrected pkg memory addr s
  | .tagKeyMessage pkg src ctx => Sys2Proof.Machine.execTagKeyMessage pkg src ctx s

end Sys2Proof.Machine
end

