-- ==== Sys2Proof/Machine/Reads.lean ====
section
/-! DEFINITION. Uncorrectable errors of the register files (spec/13 R206, R213, R218): which registers a word reads, and what reading a
register that holds such an error comes to (log 26). -/

namespace Sys2Proof.Machine

/-- One register that a word reads: vector or scalar, with the lanes it is read in, or those it is read for. -/
structure RegRead where
  vec : Bool
  reg : Nat
  lanes : Lanes
  deriving DecidableEq, Repr

/-- A source field of `n` registers. -/
def srcFld (j : Nat) (o : Opnd) (n : Nat) : VF := { j := j, o := o, n := n, dst := false }

/-- Registers of a value of one word or two. -/
def regsOf (wide : Bool) : Nat := if wide then 2 else 1

/-- The source field of an MMA or LATCH operand (R388). -/
def matSrcFld (j : Nat) (src : MSrc) (o : Opnd) : List VF :=
  match src with
  | .reg => [srcFld j o 16]
  | .regH => [srcFld j o 17]
  | .desc => [srcFld j o 2]
  | .latch => []

/-- The source fields of an atomic after its address. -/
def atomSrcs (op : AtOp) (sz : AtSz) (b c : Opnd) : List VF :=
  srcFld 2 b sz.words :: (if op = .cas then [srcFld 3 c sz.words] else [])

/-- The register operands that a word reads, with the registers each names: from the operand tables of spec/18 to spec/23. SHFL's A,
LOOP's counter, SPEC.RESOLVE's register and TRAPRET's replacement registers are in `W.regReads`. -/
def sourcesOf : Instr → List VF
  | .sadd _ v _ _ a b | .ssub _ v _ _ a b | .smul _ v _ _ a b | .smulh _ v _ a b | .smin _ v _ a b | .smax _ v _ a b
  | .scmp _ v _ _ a b | .iadd _ v _ _ a b | .isub _ v _ _ a b | .imul _ v _ _ a b | .imulh _ v _ a b | .imin _ v _ a b
  | .imax _ v _ a b | .icmp _ v _ _ _ a b => [srcFld 1 a (regsOf v.wide), srcFld 2 b (regsOf v.wide)]
  | .sand _ w _ a b | .sor _ w _ a b | .sxor _ w _ a b | .iand _ w _ a b | .ior _ w _ a b | .ixor _ w _ a b
  | .isel _ w _ _ a b => [srcFld 1 a (regsOf w), srcFld 2 b (regsOf w)]
  | .sshl _ w _ a b | .sshr _ w _ a b | .ssra _ w _ a b | .ishl _ w _ a b | .ishr _ w _ a b | .isra _ w _ a b
  | .iaddsh _ w _ _ a b => [srcFld 1 a (regsOf w), srcFld 2 b 1]
  | .snot _ w _ a | .smov _ w _ a | .spopc _ w _ a | .sclz _ w _ a | .inot _ w _ a | .ipopc _ w _ a | .iclz _ w _ a
  | .imov _ w _ a | .srw _ _ w a | .srwFpstat _ w a | .srwFpctl _ w a | .srwPntimer _ w a => [srcFld 1 a (regsOf w)]
  | .ssel _ w _ a b c => [srcFld 1 a (regsOf w), srcFld 2 b (regsOf w), srcFld 3 c 1]
  | .imad _ v _ _ a b c => [srcFld 1 a (regsOf v.wide), srcFld 2 b (regsOf v.wide), srcFld 3 c (regsOf v.wide)]
  | .iabs _ v _ _ a => [srcFld 1 a (regsOf v.wide)]
  | .ibfe _ _ _ a b c | .ffma _ _ _ _ a b c => [srcFld 1 a 1, srcFld 2 b 1, srcFld 3 c 1]
  | .ibfi _ d a b c => [srcFld 0 d 1, srcFld 1 a 1, srcFld 2 b 1, srcFld 3 c 1]
  | .pack _ _ _ _ a b | .fadd _ _ _ _ a b | .fsub _ _ _ _ a b | .fmul _ _ _ _ a b | .fmin _ _ _ a b | .fmax _ _ _ a b
  | .fcmp _ _ _ _ _ a b | .fdiv _ _ _ a b => [srcFld 1 a 1, srcFld 2 b 1]
  | .unpk _ _ _ _ a | .xset _ _ a | .prioset _ a | .fabs _ _ _ a | .fneg _ _ _ a | .fsqrt _ _ _ a | .frcp _ _ _ a | .frsq _ _ _ a
  | .fexp2 _ _ _ a | .flog2 _ _ _ a | .fsin _ _ _ a | .fcos _ _ _ a | .ftanh _ _ _ a | .fclass _ _ _ a | .frnd _ _ _ _ a
  | .vote _ (.eq _ a) | .partset _ a | .frame _ _ a | .barcfg _ _ _ a | .spop _ _ a | .fetchw _ _ a => [srcFld 1 a 1]
  | .xadd _ _ _ b | .shfl _ _ _ _ b => [srcFld 2 b 1]
  | .philox _ _ a b => [srcFld 1 a 4, srcFld 2 b 2]
  | .fcvt _ dst src _ _ _ d a => [srcFld 0 d (regsOf (EF.isPair dst)), srcFld 1 a (regsOf (EF.isPair src))]
  | .nenc _ e _ _ a b => [srcFld 1 a e.count, srcFld 2 b 1]
  | .ndec _ e _ _ a b => [srcFld 1 a (regsOf (EF.isPair e)), srcFld 2 b 1]
  | .scani _ e _ _ _ _ a | .scanx _ e _ _ _ _ a | .lred _ e _ _ _ _ a => [srcFld 1 a (regsOf (EF.isPair e))]
  | .brx _ a | .ret _ a | .ldmeta _ _ _ a | .migrate _ a | .launch _ _ a | .launchGang _ _ a | .accst _ _ a _ | .accld _ _ _ _ a
  | .skest _ _ _ a => [srcFld 1 a 2]
  | .iflush _ _ a b | .flush _ _ a b | .acopy _ _ a b | .spush _ _ _ _ a b | .ld _ _ _ _ _ a b | .sld _ _ _ _ _ a b
  | .kvcommit _ _ _ a b | .skquant _ _ _ a b | .skrank _ _ _ a b | .sktop _ _ _ a b | .skpoint _ _ _ a b => [srcFld 1 a 2, srcFld 2 b 1]
  | .st _ w _ a b c | .sst _ w _ a b c => [srcFld 1 a 2, srcFld 2 b 1, srcFld 3 c w.words]
  | .atom _ op _ _ _ sz _ a b c | .satom _ op _ _ _ sz _ a b c => srcFld 1 a 2 :: atomSrcs op sz b c
  | .stmeta _ _ a c => [srcFld 1 a 2, srcFld 3 c 2]
  | .claim _ _ a b | .skinit _ _ _ _ a b | .skmrg _ _ _ a b => [srcFld 1 a 2, srcFld 2 b 2]
  | .lds _ _ _ _ _ a b | .qcfg _ _ a b | .treemask _ _ _ a b => [srcFld 1 a 1, srcFld 2 b 1]
  | .sts _ w _ _ a b c => [srcFld 1 a 1, srcFld 2 b 1, srcFld 3 c w.words]
  | .atoms _ op _ _ _ _ sz _ a b c => srcFld 1 a 1 :: atomSrcs op sz b c
  | .copyIn _ _ _ _ _ _ a b c | .copyOut _ _ _ _ _ _ a b c | .reduce _ _ _ _ _ a b c =>
    [srcFld 1 a 2, srcFld 2 b 2, srcFld 3 c 1]
  | .mcopyDown _ _ _ _ _ _ a b c | .mcopyUp _ _ _ _ _ _ a b c => [srcFld 1 a 4, srcFld 2 b 1, srcFld 3 c 2]
  | .spawn _ a b => [srcFld 1 a 2, srcFld 2 b 16]
  | .mma _ _ _ _ asrc bsrc _ _ _ _ _ a b => matSrcFld 1 asrc a ++ matSrcFld 2 bsrc b
  | .latch _ _ _ _ src a => matSrcFld 1 src a
  | .accwr _ _ a => [srcFld 1 a 32]
  | .grant _ _ _ _ _ _ b => [srcFld 2 b 1]
  | .rsend _ _ _ _ a b | .rsendv _ _ _ _ a b => [srcFld 1 a 4, srcFld 2 b 1]
  | .rget _ cnt _ a | .rgetTk _ cnt _ a => [srcFld 1 a (cnt.val + 1)]
  | .skins _ _ kind w64 a b c =>
    [srcFld 1 a 2, srcFld 2 b (regsOf w64)] ++ (if decide (kind = .hhl) then [srcFld 3 c 1] else [])
  | _ => []

/-- The registers that a source field names, with the lanes of `m` that it is read for. -/
def W.fieldReads (w : W) (m : Lanes) (f : VF) : List RegRead :=
  match f.o with
  | .v r => (List.range f.n).map (fun i => { vec := true, reg := r.val + i, lanes := m })
  | .s r => (List.range f.n).map (fun i => { vec := false, reg := r.val + i, lanes := m })
  | .ix => (Lanes.toList m).flatMap (fun l => (List.range f.n).map (fun i =>
      { vec := true, reg := w.vreg f.j f.o l + i, lanes := BitVec.ofNat 32 (2 ^ l) }))
  | _ => []

/-- The registers that a word reads, in field order. -/
def W.regReads (w : W) (i : Instr) : List RegRead :=
  (match i with
    | .shfl _ o _ a b => (Lanes.toList w.part).flatMap (fun l =>
        let j := ShflOp.source o (w.base l) w.t.tileWidth l (w.rd 2 b l).toNat
        match a with
        | .v r => [{ vec := true, reg := r.val, lanes := BitVec.ofNat 32 (2 ^ j) }]
        | .s r => [{ vec := false, reg := r.val, lanes := BitVec.ofNat 32 (2 ^ l) }]
        | .ix => [{ vec := true, reg := w.vreg 1 a l, lanes := BitVec.ofNat 32 (2 ^ j) }]
        | _ => [])
    | .loop _ _ code => if 0xC0 ≤ code.val then [{ vec := false, reg := code.val - 0xC0, lanes := w.part }] else []
    | .specResolve .. => [{ vec := false, reg := w.t.spec.reg, lanes := w.part }]
    | .trapretReplace _ a => w.fieldReads (((w.t.record).map (·.mask)).getD 0) (srcFld 1 a (replCount w.t))
    | _ => []) ++ (sourcesOf i).flatMap (w.fieldReads w.part)

/-- The lanes of a read that meet an error. A register with a clear arrival bit is not read (R72), and s40 to s47 name the bank in trap
mode (R211). -/
def RegRead.errors (t : Thread) (x : RegRead) : Lanes :=
  if x.vec then Lanes.ofPred (fun l => t.regs.badV.contains (vkey x.reg l)) &&& x.lanes &&& t.arrived x.reg
  else if t.regs.badS.contains x.reg && !(t.tm && decide (40 ≤ x.reg)) then x.lanes else 0

/-- Join the reads of one register. -/
def joinRead (x : RegRead) : List RegRead → List RegRead
  | [] => [x]
  | y :: r => if y.vec = x.vec ∧ y.reg = x.reg then { y with lanes := y.lanes ||| x.lanes } :: r else y :: joinRead x r

/-- The registers whose error a word meets, with the lanes concerned. -/
def W.regErrors (w : W) (i : Instr) : List RegRead :=
  (((w.regReads i).map (fun x => { x with lanes := x.errors w.t })).filter (fun x => !decide (x.lanes = 0))).foldl
    (fun r x => joinRead x r) []

/-- The destination words that an instruction writes in some lanes: a wave's scalar destination as lane 0's (R214). -/
def W.destWords (w : W) (i : Instr) (m : Lanes) : List (List DestWord) :=
  match destOf i with
  | none => []
  | some (d, n, _) => (List.range n).map (fun k => match d with
    | .s r => [{ reg := 0xC0 + r.val + k, lane := 0 }]
    | _ => (Lanes.toList m).map (fun l => { reg := w.vreg 0 d l + k, lane := l }))

/-- The record of an error of the register file (R213): ADDR the register number, memory code 4 or 5. The destination words that depend on
the read are those of the instruction in the lanes concerned (DESIGN CHOICE, log 26). -/
def W.regRecord (w : W) (i : Instr) (x : RegRead) : TrapRec :=
  { cls := .error, opidx := w.c.pos, kinds := 0, kind := 0, mask := x.lanes, pc := w.c.va w.c.pos, addr := BitVec.ofNat 64 x.reg,
    synd := if x.vec then 4 else 5, word := BitVec.ofNat 64 (w.c.words.getD w.c.pos 0), faddr := 0,
    time := refTimer w.a w.time w.t.unit.pkg, dests := w.destWords i x.lanes, wide := ((destOf i).map (·.2.2)).getD false }

/-- A word whose value the spec leaves open. -/
def openWord (n : Nat) : W32 :=
  BitVec.ofNat 32 ((List.range 4).foldl (fun x i => x * 256 + (Config.openByte (n + i)).toNat) 0)

/-- The registers of a read hold free values. -/
def Thread.openRead (t : Thread) (n : Nat) (x : RegRead) : Thread :=
  if x.vec then (Lanes.toList x.lanes).foldl (fun t l => t.setV x.reg l (openWord (n + 4 * l))) t else t.setS x.reg (openWord n)

/-- One error: its event (R218), its pending trap (R209), and a free value in the register, which the word reads (DESIGN CHOICE,
log 26). -/
def W.regError (w : W) (i : Instr) (a : Arch) (x : RegRead) : Arch :=
  let a := a.event w.time w.t.unit.pkg 7 w.t.ctx (if x.vec then 4 else 5) 0 w.t.eventId
  Arch.modThread { a with free := a.free + 128 } w.t.uid (fun t =>
    { t.openRead a.free x with pend := t.pend ++ [{ trap := w.regRecord i x }] })

/-- The guard bits of an instruction word (R251). -/
def headOf (word : Nat) : Hd := { gp := Fin.ofNat 8 (word / 2 ^ 49), gn := word / 2 ^ 48 % 2 == 1, ext := .none }

/-- The machine once a word's registers have been read: as it was where no register of the thread holds an error. -/
def State.readRegs (s : State) (t : Thread) (c : Clause) (i : Instr) : State :=
  if t.regs.badV.isEmpty && t.regs.badS.isEmpty then s
  else
    let w := s.view t c (headOf (c.words.getD c.pos 0))
    { s with a := (w.regErrors i).foldl (w.regError i) s.a }

end Sys2Proof.Machine
end

