-- ==== Sys2Proof/Machine/Sched.lean ====
section
/-! DEFINITION. What moves next: the issue of a clause word (spec/03 R72, spec/16 R245 to R248), the passing of time (spec/18 R300,
spec/03 R71, R73, spec/27 R428), and the order in which the model lets things happen when nothing is asked of it (MODEL). -/

namespace Sys2Proof.Machine

/-! ## Issuing a word -/

/-- The threads that issue at the same slot or sequencer. -/
def sameIssuer (a : Arch) (t : Thread) : List Thread :=
  if t.isWave then slotWaves a t.coreKey (t.slot % 4) else seqFrames a t.unit

/-- Whether a thread's stalled word may be tried again. A word that holds its slot is tried there until it issues. One that does not,
at the end of its clause, takes the slot when no clause is in progress there and no wave of a higher class is eligible (R71, R72)
(DEDUCED, log 17). -/
def mayRetry (a : Arch) (mem : Memory) (time : Nat) (t : Thread) (w : Wait) : Bool :=
  !w.suspends && (t.holdsSlot || (sameIssuer a t).all (fun x => x.uid == t.uid ||
    !(x.holdsSlot || (decide (classOf a t < classOf a x) && (waveEligible a mem time x || frameEligible a mem time x)))))

/-- Whether a word acts on the barriers, streams, copy channels or punnets of its wave's crew. -/
def crewWord (i : Instr) : Bool :=
  match i with
  | .bararr .. => true | .barwait .. => true | .barsync .. => true | .barcfg .. => true | .copyIn .. => true | .copyOut .. => true
  | .spush .. => true | .spop .. => true | .qcfg .. => true | .wprd .. => true | .spawn .. => true
  | _ => false

/-- Whether a thread issues a word now, or tries its stalled word again. While a core writes or restores its context's image none of
its waves there issues (R75, R202), and a moored wave's word that acts on a crew which is swapped out waits (DEDUCED, log 44). -/
def mayIssue (a : Arch) (mem : Memory) (time : Nat) (t : Thread) : Bool :=
  t.clause.isSome && !t.halted && !t.saved && (t.isWave || decide (t.phase = .active)) && !unitStill a t &&
  !(t.isWave && busyOn a t.unit.pkg t.unit.idx t.ctx) &&
  !(t.clause.any (fun c => c.refetch && clauseHeld a mem time t c.pc)) &&
  !(t.isWave && crewOut a t.crew && (((t.clause.bind Clause.instr).map crewWord).getD false)) &&
  match t.wait with
  | none => true
  | some w => mayRetry a mem time t w

/-- A clause that a save or a move has taken along is fetched again before it goes on (R260). Its bindings of SETA and SETB stay those of its
first begin (R72, R214, R247). -/
def refetched (a : Arch) (mem : Memory) (time : Nat) (t : Thread) (c : Clause) : Except NoClause (Arch × Clause) :=
  if c.refetch then
    (fetchClause a mem time t c.lanes c.pc).map (fun x => (x.2.2, { c with hdr := { x.1 with seta := c.hdr.seta, setb := c.hdr.setb },
                                                                                 words := x.2.1, refetch := false }))
  else .ok (a, c)

/-- The machine as the word of a thread sees it. -/
def State.issuing (s : State) (t : Thread) : State := { s with cur := some t.uid }

/-- What follows a word. -/
def afterWord (uid : Nat) (s : State) : State := { s with a := wordDone s.a s.mem s.time uid }

/-- No word executes any more. -/
def settle (uid : Nat) : Out → Out
  | .next s => .next { afterWord uid s with cur := none }
  | .fault f => .fault f
  | .refused r => .refused r

/-- Decode and execute the word at which a thread stands, once its registers have been read (R206); a word that does not decode traps
(R245, R248). -/
def issueAt (s : State) (t : Thread) (c : Clause) : Out :=
  settle t.uid (match decodeAt c.hdr.cls c.hdr.safe c.words c.pos with
    | .ok (i, _) => exec i ((s.readRegs t c i).issuing t)
    | .error e => .next (trapWord s t c (decodeBad e)))

/-- Issue the next word of a thread. A thread that does not issue does nothing. -/
def issueWord (uid : Nat) (s : State) : Out :=
  match s.a.thread uid with
  | none => .next s
  | some t => match t.clause with
    | none => .next s
    | some c =>
      if mayIssue s.a s.mem s.time t then
        match refetched s.a s.mem s.time t c with
        | .ok (a, c) =>
          let t := { t with clause := some c }
          issueAt { s with a := a.setThread t } t c
        | .error e => let x := refetchFails s.time t c.pc e; .next (s.commit x.1 x.2)
      else .next s

/-! ## Time -/

/-- A berth over some ns. During a relock the cycle counter holds (R300, R428); a berth in reset counts nothing (R438), nor one without
core power (R442) (DEDUCED, log 29). -/
def tickBerth (ns : Nat) (power : Bool) (x : Berth) : Berth :=
  match x.relock with
  | some (left, stall, f, cmd) => { x with relock := some (left - ns, stall + ns, f, cmd) }
  | none =>
    if x.held || !power then x
    else
      let n := x.cycFrac + ns * x.mhz
      { x with cycles := x.cycles + n / 1000, cycFrac := n % 1000, rcAcc := x.rcAcc + n / 1000 * rcInc x.mhz }

/-- The berths of the packages that have booted. -/
def tickBerths (ns : Nat) (a : Arch) : Arch :=
  (a.pkgs.filter (fun k => decide (k.2.boot = .up) || decide (k.2.boot = .ready))).foldl (fun a k =>
    (List.range 4).foldl (fun a b => a.setBerth k.1 b (tickBerth ns (!k.2.railOff) (a.berth k.1 b))) a) a

/-- Cycles of a thread's issuer between two moments; the hub runs at 1.2 GHz. -/
def issuerCycles (a a' : Arch) (time time' : Nat) (t : Thread) : Nat :=
  match t.berthOf with
  | some b => (a'.berth t.unit.pkg b).cycles - (a.berth t.unit.pkg b).cycles
  | none => time' * 6 / 5 - time * 6 / 5

/-- Count consecutive eligible cycles (R71, R73). -/
def ageThread (a a' : Arch) (mem : Memory) (time time' : Nat) (t : Thread) : Thread :=
  if waveEligible a mem time t || frameEligible a mem time t then { t with eligible := t.eligible + issuerCycles a a' time time' t }
  else { t with eligible := 0, promoted := false }

/-- Some ns pass. -/
def elapse (ns : Nat) (s : State) : State :=
  let a := tickBerths ns s.a
  { s with time := s.time + ns,
           a := { a with threads := a.threads.map (fun p => (p.1, ageThread s.a a s.mem s.time (s.time + ns) p.2)) } }

/-! ## The model's order of happenings (MODEL) -/

/-- The row of a queue command by its opcode; the outcome of BERTH_RETRY comes from outside. -/
def rowOf (opc pkg cmd : Nat) : Option Instr :=
  match opc with
  | 0x01 => some (.kernelLaunchCommand pkg cmd) | 0x02 => some (.flightLoad pkg cmd) | 0x03 => some (.flightReplay pkg cmd)
  | 0x04 => some (.queueWrite pkg cmd) | 0x05 => some (.queueCopy pkg cmd) | 0x06 => some (.qwait pkg cmd)
  | 0x40 => some (.ctxCreate pkg cmd) | 0x41 => some (.ctxUpdate pkg cmd) | 0x42 => some (.ctxAbort pkg cmd)
  | 0x43 => some (.queueCreate pkg cmd) | 0x44 => some (.queueDestroy pkg cmd) | 0x45 => some (.preempt pkg cmd)
  | 0x46 => some (.resume pkg cmd) | 0x47 => some (.pairDeclare pkg cmd) | 0x48 => some (.pairSwitch pkg cmd)
  | 0x49 => some (.poolSet pkg cmd) | 0x4A => some (.growthRefuse pkg cmd) | 0x4B => some (.retry pkg cmd)
  | 0x4C => some (.commCreate pkg cmd) | 0x4D => some (.commDestroy pkg cmd) | 0x4E => some (.evtCfg pkg cmd)
  | 0x4F => some (.ctxDestroy pkg cmd) | 0x50 => some (.areaSet pkg cmd) | 0x51 => some (.imageSet pkg cmd)
  | 0x60 => some (.capRead pkg cmd) | 0x61 => some (.clkSet pkg cmd) | 0x62 => some (.worldSet pkg cmd)
  | 0x63 => some (.firewallSet pkg cmd) | 0x64 => some (.hbmMapout pkg cmd) | 0x66 => some (.powerCfg pkg cmd)
  | _ => none

/-- What the engine that runs a command may do next. -/
def cmdRows (c : Cmd) : List Instr :=
  match c.kind with
  | .copyIn _ => [.memoryRequestComplete c.id 0, .copyComplete c.id]
  | .copyOut => [.memoryRequestComplete c.id 0, .copyComplete c.id]
  | .copySeq => [.memoryRequestComplete c.id 0, .copyComplete c.id]
  | .spush .. => [.spushAdmit c.id, .memoryRequestComplete c.id 0, .copyComplete c.id]
  | .mcopy .. => [.memoryRequestComplete c.id 0, .mcopyComplete c.id]
  | .kvcommit => [.memoryRequestComplete c.id 0, .kvcommitComplete c.id]
  | .queueCopy => [.memoryRequestComplete c.id 0, .copyComplete c.id]
  | .queueWrite _ => [.copyComplete c.id]
  | .accst .. => [.memoryRequestComplete c.id 0, .accstComplete c.id]
  | .claim .. => [.claimComplete c.id]

/-- Steps of a package's front end, collective engine and security processor. -/
def pkgRows (a : Arch) (p : Nat) : List Instr :=
  (List.range 4).flatMap (fun b => [Instr.pllRelockEnd p b, .hotRemove p b]) ++
  (List.range 2).map (fun i => Instr.datagramResend p i) ++
  a.queues.flatMap (fun q => if q.1 / 256 == p then
    (q.2.cmds.filter (fun c => c.begun && !c.started && !c.faulted)).filterMap (fun c => rowOf (c.num 0 1) p c.id) else []) ++
  [.queueCommandBegin p, .chunkAdmit p]

/-- Steps of a thread that are not words. -/
def threadRows (t : Thread) : List Instr :=
  if t.isWave then
    [.issueAgePromotion t.uid, .spopRelease t.uid, .migrationArrival t.uid, .waveRetire t.uid, .clauseBegin t.coreKey (t.slot % 4)]
  else [.sequencerAgePromotion t.uid, .tilePlacement t.uid, .frameActivate t.unit, .sequencerClauseBegin t.unit]

/-- Every step of the part that may be taken now. -/
def innerRows (a : Arch) : List Instr :=
  a.pkgs.flatMap (fun k => pkgRows a k.1) ++
  (a.ctxs.filter (fun c => c.2.aborting.isSome)).map (fun c => Instr.abortDone (c.1 / 65536) (c.1 % 65536)) ++
  a.replays.map (fun r => Instr.collStall r.1) ++ a.chunks.map (fun c => Instr.chunkBoundary c.1) ++
  a.arrivals.map (fun x => Instr.collectiveArrival x.1) ++
  a.pres.flatMap (fun p => p.2.cores.flatMap (fun k => [Instr.preemptSave p.1 k, .restoreComplete p.1 k]) ++
    a.threads.map (fun t => Instr.safePointOverrun p.1 t.1)) ++
  a.ops.flatMap (fun o => Instr.staleReissue o.1 :: o.2.reqs.map (fun r => Instr.memoryRequestComplete o.1 r.id)) ++
  (tvals a.cmds).flatMap cmdRows ++
  a.reds.flatMap (fun r => (List.range r.2.contribs.length).map (fun n => Instr.reduceContributionArrival r.1 n)) ++
  (tvals a.slice).filterMap (fun o => (o.coreKey a).map Instr.matrixOperationComplete) ++
  a.landings.map (fun x => Instr.accrdLanding x.1) ++ (tvals a.sums).map (fun x => Instr.summaryInstructionComplete x.core) ++
  a.sends.flatMap (fun x => [Instr.registerSendArrival x.1, .sendAcknowledgement x.1]) ++
  a.fetches.map (fun x => Instr.fetchwReply x.1) ++
  a.punnets.flatMap (fun x => [Instr.punnetTimeout (x.1 / 32) (x.1 % 32), .punnetLaunch (x.1 / 32) (x.1 % 32)]) ++
  (tvals a.crews).flatMap (fun c => [if c.started then Instr.crewRetire c.id else .crewStart (192 * c.pkg + c.core)]) ++
  a.tlb.map (fun e => Instr.leaseExpiry (e.1 / 256) (e.1 % 256)) ++
  (tvals a.threads).flatMap threadRows

/-- One round: every step of the part is tried once, every thread with a clause issues or tries its word, and 1 ns passes. -/
def round (a : Arch) : List Happening :=
  (innerRows a).map Happening.event ++ (a.threads.filter (fun t => t.2.clause.isSome)).map (fun t => Happening.issue t.1) ++ [.elapse 1]

/-- Take the head of the agenda; an empty agenda takes in a round (DESIGN CHOICE, log 7). -/
def moveOn (s : State) : Out :=
  match s.agenda with
  | [] => .next { s with agenda := round s.a }
  | .event i :: r => exec i { s with agenda := r, cur := none }
  | .issue u :: r => issueWord u { s with agenda := r, cur := none }
  | .elapse ns :: r => .next (elapse ns { s with agenda := r, cur := none })

/-! ## Placing one instruction -/

/-- A wave of context 0 on core 0 with a clause in progress. -/
def placedWave (uid : Nat) (hdr : Header) (words : List Nat) : Thread :=
  let t := Thread.blank uid 0 .lg { level := .core, pkg := 0, idx := 0 } 0 none 0 0 (BitVec.allOnes 32) 3
  { t with clause := some { pc := 0, hdr := hdr, words := words, pos := 0, lanes := BitVec.allOnes 32 } }

/-- The header of a clause laid out as a table word. -/
def placedHeader (w : Nat) : Header :=
  let c := tableClause w
  match decodeHeader (w % 2 ^ 64) with
  | .ok h => h
  | .error _ => { cls := c.1, wcnt := c.2.2.length - 1, wait := 0, seta := 15, setb := 15, prio := 0, yield := false, safe := c.2.1 }

/-- A wave whose next word is the instruction of a table word, first to move. -/
def placeWord (s : State) (w : Nat) : State :=
  let uid := s.a.nextId
  { s with agenda := .issue uid :: s.agenda,
           a := { s.a with nextId := uid + 1, threads := tset s.a.threads uid (placedWave uid (placedHeader w) (tableClause w).2.2) } }

end Sys2Proof.Machine
end

