-- ==== Sys2Proof/Machine/Step.lean ====
section
/-! DEFINITION. One step of the machine, and the state in which the next step runs a given instruction. -/

namespace Sys2Proof.Machine

/-- One step: the head of the agenda happens. -/
def step (s : State) : Host.Outcome State Fault Refusal := moveOn s

/-- The state whose next step issues the instruction of a table word from a clause in progress. -/
def State.withFetchWord (s : State) (nbits w : Nat) : State :=
  if nbits = 0 then s else placeWord s w

end Sys2Proof.Machine
end

