-- ==== Sys2Proof/Safety.lean ====
section
/-! DEFINITION. What counts as a safe run: the machine never stops, and memory keeps its canonical form. -/

namespace Sys2Proof.Machine

/-- The invariant of every state that a step leaves: memory in its canonical form. -/
def State.Inv (s : State) : Prop := Memory.wf s.mem = true

/-- A step that answers a next state. -/
def GoesOn (o : Out) : Prop := ∃ t, o = .next t

/-- A row of the opcode table that is an instruction word: it executes only for a thread that issues it. -/
def Instr.isWord : Instr → Bool
  | .clauseBegin .. => false | .sequencerClauseBegin .. => false | .passCountEscape .. => false | .issueAgePromotion .. => false
  | .sequencerAgePromotion .. => false | .frameActivate .. => false | .tilePlacement .. => false | .crewStart .. => false
  | .waveRetire .. => false | .crewRetire .. => false | .punnetTimeout .. => false | .punnetLaunch .. => false
  | .fetchwReply .. => false | .memoryRequestComplete .. => false | .staleReissue .. => false | .leaseExpiry .. => false
  | .copyComplete .. => false | .spushAdmit .. => false | .spopRelease .. => false | .mcopyComplete .. => false
  | .reduceContributionArrival .. => false | .matrixOperationComplete .. => false | .accrdLanding .. => false
  | .accstComplete .. => false | .kvcommitComplete .. => false | .summaryInstructionComplete .. => false
  | .claimComplete .. => false | .migrationArrival .. => false | .registerSendArrival .. => false | .sendAcknowledgement .. => false
  | .safePointOverrun .. => false | .preemptSave .. => false | .restoreComplete .. => false | .chunkAdmit .. => false
  | .chunkBoundary .. => false | .collectiveArrival .. => false | .collStall .. => false | .commandDatagram .. => false
  | .ackDatagram .. => false | .datagramResend .. => false | .queueCommandBegin .. => false | .kernelLaunchCommand .. => false
  | .flightLoad .. => false | .flightReplay .. => false | .queueWrite .. => false | .queueCopy .. => false | .qwait .. => false
  | .ctxCreate .. => false | .ctxUpdate .. => false | .ctxAbort .. => false | .abortDone .. => false | .queueCreate .. => false
  | .queueDestroy .. => false | .preempt .. => false | .resume .. => false | .pairDeclare .. => false | .pairSwitch .. => false
  | .poolSet .. => false | .growthRefuse .. => false | .retry .. => false | .commCreate .. => false | .commDestroy .. => false
  | .evtCfg .. => false | .ctxDestroy .. => false | .areaSet .. => false | .imageSet .. => false | .capRead .. => false
  | .clkSet .. => false | .pllRelockEnd .. => false | .worldSet .. => false | .firewallSet .. => false | .hbmMapout .. => false
  | .hotRemove .. => false | .berthRetry .. => false | .powerCfg .. => false | .powerOnReset .. => false
  | .spdmGetVersion .. => false | .spdmGetCapabilities .. => false | .spdmNegotiateAlgorithms .. => false
  | .spdmGetDigests .. => false | .spdmGetCertificate .. => false | .spdmChallenge .. => false | .spdmGetMeasurements .. => false
  | .spdmKeyExchange .. => false | .spdmFinish .. => false | .spdmEndSession .. => false | .timeMessage .. => false
  | .power .. => false | .thermal .. => false | .thermalCut .. => false | .linkDown .. => false | .corrected .. => false
  | .tagKeyMessage .. => false
  | _ => true

/-- The states that a run may pass through. -/
inductive Reaches : State → State → Prop where
  | refl (s : State) : Reaches s s
  | step (s t u : State) : Reaches s t → Machine.step t = .next u → Reaches s u

/-- A safe run: no state that it passes through stops, as long as the agenda names no bare instruction word. -/
def Safe (s : State) : Prop :=
  ∀ t, Reaches s t → (∀ i, t.agenda.head? = some (.event i) → Instr.isWord i = false) → GoesOn (Machine.step t)

end Sys2Proof.Machine
end

