-- ==== Sys2Proof/Certificates/Slice0/Obligations.lean ====
section
/-! DEFINITION. The statements about the machine, for the provers: first the words that the statements share (namespace
Sys2Proof.Spec), then one definition for each obligation. OBLIGATIONS.json names the rule or the section that each one formalises. -/

namespace Sys2Proof.Spec

open Sys2Proof.Machine

/-! ## Words shared by the statements -/

/-- Thread `t` issues the word at the position of its clause `c`. -/
structure Issues (s : State) (t : Thread) (c : Clause) : Prop where
  cur : s.cur = some t.uid
  thread : s.a.thread t.uid = some t
  clause : t.clause = some c

/-- The state in which everything but memory has become `a`. -/
def withA (s : State) (a : Arch) : State := { s with a := a }

/-- The state in which the issuing thread has become `t'` and goes on after the word of head `h`; nothing else differs. -/
def moved (s : State) (t' : Thread) (c : Clause) (h : Hd) : State := { s with a := s.a.setThread (advance t' c h.size) }

/-- The state in which everything but memory has become `a` and the issuing thread goes on after the word of head `h`. -/
def past (s : State) (a : Arch) (t : Thread) (c : Clause) (h : Hd) : State :=
  { s with a := a.modThread t.uid (fun t' => advance t' c h.size) }

/-- The state in which the issuing thread waits; nothing else differs. -/
def waits (s : State) (t : Thread) (w : Wait) : State := { s with a := s.a.setThread { t with wait := some w } }

/-- The thread with other vector registers and error marks on them, index registers or predicates. -/
def withV (t : Thread) (v : Tab W32 × List Nat) : Thread := { t with regs := { t.regs with v := v.1, badV := v.2 } }
def withX (t : Thread) (x : Tab (BitVec 16)) : Thread := { t with regs := { t.regs with x := x } }
def withP (t : Thread) (p : Tab Lanes) : Thread := { t with regs := { t.regs with p := p } }

/-- The lanes that take part in the word of head `h`. -/
def taking (s : State) (t : Thread) (c : Clause) (h : Hd) : Lanes := (s.view t c h).part

/-- The marks of the vector words that hold an uncorrectable error, after some words have been written: those words have none. -/
def MarksLeft (t : Thread) (bad : List Nat) (wrote : Nat → Nat → Prop) : Prop :=
  ∀ r l, l < 32 → (vkey r l ∈ bad ↔ vkey r l ∈ t.regs.badV ∧ ¬ wrote r l)

/-- The vector registers after a lanewise write: in each lane that takes part the destination (two registers of a wide form) holds
the value of the lane, and every other register and every other lane is unchanged. -/
def LaneWrite (s : State) (t : Thread) (c : Clause) (h : Hd) (d : Opnd) (wide : Bool) (val : Nat → Nat) (v1 : Tab W32 × List Nat) :
    Prop :=
  (∀ r l, l < 32 → tgetD v1.1 (vkey r l) 0 =
    if (taking s t c h).getLsbD l = true then
      if r = (s.view t c h).vreg 0 d l then BitVec.ofNat 32 (val l)
      else if wide = true ∧ r = (s.view t c h).vreg 0 d l + 1 then BitVec.ofNat 32 (val l / 2 ^ 32)
      else t.getV r l
    else t.getV r l) ∧
  MarksLeft t v1.2 (fun r l => (taking s t c h).getLsbD l = true ∧
    (r = (s.view t c h).vreg 0 d l ∨ (wide = true ∧ r = (s.view t c h).vreg 0 d l + 1)))

/-- How a word with checks ends: in the trap of the first that fails, else in `good`. -/
def Ends (s : State) (t : Thread) (c : Clause) (bad : Option Bad) (out : Out) (good : Prop) : Prop :=
  (∀ b, bad = some b → out = .next (trapWord s t c b)) ∧ (bad = none → good)

/-- How a word with checks and vector sources ends: in the trap of the first check that fails, waiting for an arrival bit, or in
`good`. -/
def WaitEnds (s : State) (t : Thread) (c : Clause) (bad : Option Bad) (ready : Bool) (out : Out) (good : Prop) : Prop :=
  (∀ b, bad = some b → out = .next (trapWord s t c b)) ∧
  (bad = none → ready = false → out = .next (waits s t .arrival)) ∧
  (bad = none → ready = true → good)

/-- How a vector word of fields `fs` ends. -/
def VectorEnds (s : State) (t : Thread) (c : Clause) (h : Hd) (fs : List VF) (out : Out) (good : Prop) : Prop :=
  WaitEnds s t c (vecBad (s.view t c h) fs) ((s.view t c h).arrived (fs.filter (fun x => !x.dst))) out good

/-- A vector word whose only effect is a lanewise write. -/
def VectorRule (s : State) (t : Thread) (c : Clause) (h : Hd) (fs : List VF) (d : Opnd) (wide : Bool) (val : Nat → Nat)
    (out : Out) : Prop :=
  VectorEnds s t c h fs out
    (∃ v1, out = .next (moved s (withV t v1) c h) ∧ LaneWrite s t c h d wide val v1)

/-- A vector word whose only effect is on one predicate: in each lane that takes part the bit is `val`, and every other bit of every
predicate is unchanged; p7 reads true whatever is written to it. -/
def PredicateRule (s : State) (t : Thread) (c : Clause) (h : Hd) (fs : List VF) (p : Nat) (val : Nat → Bool) (out : Out) : Prop :=
  VectorEnds s t c h fs out
    (∃ t', out = .next (moved s t' c h) ∧ withP t' t.regs.p = t ∧
      ∀ q l, l < 32 → (t'.getP q).getLsbD l =
        if q = p ∧ q ≠ 7 ∧ (taking s t c h).getLsbD l = true then val l else (t.getP q).getLsbD l)

/-- What a source field holds in a lane, as a number. -/
def src (s : State) (t : Thread) (c : Clause) (h : Hd) (wide : Bool) (j : Nat) (o : Opnd) (l : Nat) : Nat :=
  (s.view t c h).get wide j o l

/-- Whether an operand names vector registers. -/
def isVec : Opnd → Bool
  | .v _ => true
  | .ix => true
  | _ => false

/-- The thread with another sr.fpstat. -/
def withStat (t : Thread) (x : W32) : Thread := { t with sr := { t.sr with fpstat := x } }

/-- sr.fpstat after the flags of each lane of `m` have been ORed into it. -/
def raisedBy (x : W32) (m : Lanes) (fl : Nat → FFlags) : W32 := (Lanes.toList m).foldl (fun x l => x ||| BitVec.ofNat 32 (fl l).bits) x

/-- The thread after a float word: its flags are ORed in, and a word that takes part in some lane and rounds with .RS advances the
counter once. -/
def rounded (t : Thread) (m : Lanes) (mode : Option RMode) (fl : Nat → FFlags) : Thread :=
  if m = 0 then t else (withStat t (raisedBy t.sr.fpstat m fl)).afterRs mode

/-- A lanewise write of a float result, with its flags. -/
def FloatWrite (s : State) (t : Thread) (c : Clause) (h : Hd) (d : Opnd) (wide : Bool) (mode : Option RMode)
    (res : Nat → Nat × FFlags) (out : Out) : Prop :=
  ∃ v1, out = .next (moved s (rounded (withV t v1) (taking s t c h) mode (fun l => (res l).2)) c h) ∧
    LaneWrite s t c h d wide (fun l => (res l).1) v1

/-- A float word whose only effects are a lanewise write, its flags and the counter of .RS. -/
def FloatRule (s : State) (t : Thread) (c : Clause) (h : Hd) (fs : List VF) (d : Opnd) (wide : Bool) (mode : Option RMode)
    (res : Nat → Nat × FFlags) (out : Out) : Prop :=
  VectorEnds s t c h fs out (FloatWrite s t c h d wide mode res out)

/-- One result for each element of A, and of A and B, under the word's rounding mode and draws. -/
def elems1 (s : State) (t : Thread) (c : Clause) (h : Hd) (f : EF) (rm : RM) (a : Opnd)
    (op : Fmt → RMode → Nat → Nat → Nat × FFlags) (l : Nat) : Nat × FFlags :=
  let m := rm.resolve t.sr.fpctl
  mapElems f.width f.count (fun k => op (fmtOf f) m ((s.view t c h).draw m k l) (elemAt f.width (src s t c h false 1 a l) k))
def elems2 (s : State) (t : Thread) (c : Clause) (h : Hd) (f : EF) (rm : RM) (a b : Opnd)
    (op : Fmt → RMode → Nat → Nat → Nat → Nat × FFlags) (l : Nat) : Nat × FFlags :=
  let m := rm.resolve t.sr.fpctl
  mapElems f.width f.count (fun k => op (fmtOf f) m ((s.view t c h).draw m k l) (elemAt f.width (src s t c h false 1 a l) k)
    (elemAt f.width (src s t c h false 2 b l) k))

/-- What FCMP finds in a lane. -/
def compared (s : State) (t : Thread) (c : Clause) (h : Hd) (f : EF) (q : FCmp) (k : Bool) (a b : Opnd) (l : Nat) : Bool × FFlags :=
  fCmp (fmtOf f) q (elemAt f.width (src s t c h false 1 a l) (if k = true then 1 else 0))
    (elemAt f.width (src s t c h false 2 b l) (if k = true then 1 else 0))

/-- What a scalar source holds, as a number. -/
def sval (s : State) (t : Thread) (c : Clause) (h : Hd) (wide : Bool) (o : Opnd) : Nat := (s.view t c h).sv wide o

/-- A scalar word: a failed check traps; else the destination takes the value when some lane takes part, and nothing else changes. -/
def ScalarRule (s : State) (t : Thread) (c : Clause) (h : Hd) (bad : List (Option Bad)) (wide : Bool) (d : Opnd) (x : Nat)
    (out : Out) : Prop :=
  Ends s t c (firstBad bad) out (out = .next (moved s (if taking s t c h = 0 then t else t.wrW wide d x) c h))

/-- The state in which the issuing thread has become `t'` and its clause has ended, with targets for some lanes. -/
def ended (s : State) (t' : Thread) (c : Clause) (moves : List (Nat × Nat)) : State :=
  { s with a := s.a.setThread (endClause t' c 0 moves) }

/-- The target of a displacement, in words from the word that executes (R252). -/
def target (c : Clause) (disp : BitVec 32) : Nat := wrapTo 64 ((c.va c.pos : Int) + 8 * disp.toInt)

/-- One target for every lane that takes part. -/
def jumps (s : State) (t : Thread) (c : Clause) (h : Hd) (pc : Nat) : List (Nat × Nat) :=
  (Lanes.toList (taking s t c h)).map (fun l => (l, pc))

/-- A thread that has left trap mode: its frozen frontier and clause restored, the record and the bank gone (R214). -/
def thawed (t : Thread) (f : Frozen) : Thread :=
  { t with tm := false, record := none, bank := [], frozen := none, front := f.front, clause := f.clause, wait := none, tmCounts := [] }

/-- The thread with the replacement of an ACCESS trap (R214). -/
def replacing (t : Thread) (m : Lanes) (words : Tab W32) : Thread := { t with repl := some { mask := m, words := words } }

/-- The thread passed over at the next choice when `b` holds (R296). -/
def yielding (t : Thread) (b : Bool) : Thread := { t with yielded := t.yielded || b }

/-- A thread returns from its handler as `t'`; the handler clause's YIELD lets a wave be passed over (R214, R249). -/
def returned (s : State) (c : Clause) (t' : Thread) : State := withA s (s.a.setThread (yielding t' (c.hdr.yield && t'.isWave)))

/-- The accesses of a vector word: each lane that takes part and its VA, in ascending order. -/
def byLane (s : State) (t : Thread) (c : Clause) (h : Hd) (va : Nat → Nat) : List (Nat × Nat) :=
  (Lanes.toList (taking s t c h)).map (fun l => (l, va l))

/-- The lowest lane that takes part, if any, and the one access of a word that makes a single access. -/
def firstLane (s : State) (t : Thread) (c : Clause) (h : Hd) : List Nat := (Lanes.toList (taking s t c h)).take 1
def byFirst (s : State) (t : Thread) (c : Clause) (h : Hd) (va : Nat) : List (Nat × Nat) :=
  (firstLane s t c h).map (fun l => (l, va))

/-- A + sign-extended B, modulo 2^64 (R340). -/
def sum64 (s : State) (t : Thread) (c : Clause) (h : Hd) (a b : Opnd) (l : Nat) : Nat :=
  wrapTo 64 ((((s.view t c h).rd64 1 a l).toNat : Int) + ((s.view t c h).rd 2 b l).toInt)

/-- The first destination register of each lane that takes part. -/
def destsOf (s : State) (t : Thread) (c : Clause) (h : Hd) (d : Opnd) : Tab Nat :=
  tsets [] ((Lanes.toList (taking s t c h)).map (fun l => (l, (s.view t c h).destReg d l)))

/-- One memory operation is issued: it stands under a fresh number with the requests of its parts, its flag counts one more, the
thread goes on, and nothing else changes but the translation caches. -/
def IssuedOp (s : State) (t : Thread) (c : Clause) (h : Hd) (m : MMod) (inv single : Bool) (what : MemWhat) (ps : List Part)
    (out : Out) : Prop :=
  ∃ a' t' o, out = .next (past s a' t c h) ∧
    { a' with threads := s.a.threads, tlb := s.a.tlb, ops := s.a.ops, nextId := s.a.nextId } = s.a ∧
    a'.nextId = s.a.nextId + 1 ∧ a'.ops = tset s.a.ops s.a.nextId o ∧
    o.id = s.a.nextId ∧ o.uid = t.uid ∧ o.what = what ∧ o.flag = (s.view t c h).sel m.fsel ∧ o.tm = t.tm ∧
    o.ag.ctx = t.ctx ∧ o.ag.pkg = t.unit.pkg ∧ o.reqs = requests o.ag what.isMeta ps ∧
    o.acq = (m.acq && what.isLoad) ∧ o.rel = (m.rel && what.isStore) ∧ o.scope = scopeOf s.a t (s.a.resolve t m.lvl) ∧
    o.single = single ∧ o.inv = inv ∧
    (∀ u, u ≠ t.uid → a'.thread u = s.a.thread u) ∧ a'.thread t.uid = some t' ∧
    { t' with lastPage := t.lastPage, regs := t.regs, tmCounts := t.tmCounts } = t ∧
    { t'.regs with f := t.regs.f } = t.regs ∧
    (∀ k, t'.getF k = if (s.view t c h).sel m.fsel = some k then t.getF k + 1 else t.getF k)

/-- An access word whose checks have passed: without a lane it goes on; a full flag or an earlier fence holds it; a lane that may not
make its access traps; else one operation is issued. `one` is the mask of an access that the lanes share. A fence does not hold an
invariant load whose pages are all marked invariant (R130). -/
def Issued (s : State) (t : Thread) (c : Clause) (h : Hd) (m : MMod) (inv : Bool) (right : Right) (bytes : Nat) (pre : Nat → Nat → Option AKind)
    (one : Option Lanes) (accs : List (Nat × Nat)) (what : MemWhat) (out : Out) : Prop :=
  let got := gather s.a s.mem s.time t right bytes pre accs
  let free := inv = true ∧ ∀ p ∈ got.1, p.x.attr / 2 ^ 12 % 2 = 1
  (accs = [] → out = .next (moved s t c h)) ∧
  (accs ≠ [] → (s.view t c h).flagFull m.fsel = true → out = .next (waits s t .flagFull)) ∧
  (accs ≠ [] → (s.view t c h).flagFull m.fsel = false → inv = false → fenceWait s.a t what.isStore = true →
    out = .next (waits s t .order)) ∧
  (accs ≠ [] → (s.view t c h).flagFull m.fsel = false → (inv = true ∨ fenceWait s.a t what.isStore = false) →
    (∀ b, gatherBad got.2.1 one what.isStore bytes = some b → out = .next (trapWord s t c b)) ∧
    (got.2.1 = [] → (free ∨ fenceWait s.a t what.isStore = false) → IssuedOp s t c h m inv one.isSome what got.1 out))

/-- The state after a word has put a command to its engine. -/
def commanded (s : State) (t : Thread) (c : Clause) (h : Hd) (k : Cmd) : State :=
  past s { s.a.setThread (t.raiseSel k.flag) with nextId := s.a.nextId + 1, cmds := tset s.a.cmds s.a.nextId k } t c h

/-- A wave leaves a crew barrier whose phase has completed: its pending bit is cleared and it makes its acquire at CORE (R58). -/
def leaveBar (t : Thread) (a : Arch) (b : Nat) : Arch :=
  acquireAt (a.modThread t.uid (fun t' => { t' with pbar := tdel t'.pbar b })) t .core

/-- The checks of COPY (R353), in their order. -/
def copyChecks (s : State) (t : Thread) (c : Clause) (h : Hd) (out : Bool) (m : MMod) (bar : Nat) (be : Bool)
    (d a b e : Opnd) : Option Bad :=
  firstBad [dstS 1 d, srcU64 1 a, srcU64 2 b, srcU 3 e, (s.view t c h).selBad m.fsel, rightsOf s.a t,
    if be && t.isWave then (match (s.view t c h).crewBar bar with | .error x => some x | .ok _ => none) else none,
    copySize 3 ((s.view t c h).rs e).toNat, addr16 1 ((s.view t c h).rs64 a), addr16 2 ((s.view t c h).rs64 b),
    if t.isWave then (if out then ownWindow 1 ((s.view t c h).rs64 a) else ownWindow 2 ((s.view t c h).rs64 b)) else none]

end Sys2Proof.Spec

open Sys2Proof Sys2Proof.Machine Sys2Proof.Spec

/-! ## Class 1 -/

/-- R308, R312 to R318, R257: what each vector integer word of class 1 writes, that it writes nothing else, when it waits and when it
traps. -/
def Obligations.VectorIntegerWords : Prop :=
  ∀ (s : State) (t : Thread) (c : Clause), Issues s t c → t.level = .lg →
    (∀ h v sat d a b, VectorRule s t c h [fld 0 d v.wide, fld 1 a v.wide, fld 2 b v.wide] d v.wide
      (fun l => imap2 v (fun x y => v.fit sat (v.val x + v.val y)) (src s t c h v.wide 1 a l) (src s t c h v.wide 2 b l))
      (exec (.iadd h v sat d a b) s)) ∧
    (∀ h v sat d a b, VectorRule s t c h [fld 0 d v.wide, fld 1 a v.wide, fld 2 b v.wide] d v.wide
      (fun l => imap2 v (fun x y => v.fit sat (v.val x - v.val y)) (src s t c h v.wide 1 a l) (src s t c h v.wide 2 b l))
      (exec (.isub h v sat d a b) s)) ∧
    (∀ h v sat d a b, VectorRule s t c h [fld 0 d v.wide, fld 1 a v.wide, fld 2 b v.wide] d v.wide
      (fun l => imap2 v (fun x y => v.fit sat (v.val x * v.val y)) (src s t c h v.wide 1 a l) (src s t c h v.wide 2 b l))
      (exec (.imul h v sat d a b) s)) ∧
    (∀ h v d a b, VectorRule s t c h [fld 0 d v.wide, fld 1 a v.wide, fld 2 b v.wide] d v.wide
      (fun l => imap2 v (iMulh v) (src s t c h v.wide 1 a l) (src s t c h v.wide 2 b l)) (exec (.imulh h v d a b) s)) ∧
    (∀ h v sat d a b e, VectorRule s t c h [fld 0 d v.wide, fld 1 a v.wide, fld 2 b v.wide, fld 3 e v.wide] d v.wide
      (fun l => imap3 v (fun x y z => v.fit sat (v.val x * v.val y + v.val z)) (src s t c h v.wide 1 a l)
        (src s t c h v.wide 2 b l) (src s t c h v.wide 3 e l)) (exec (.imad h v sat d a b e) s)) ∧
    (∀ h v d a b, VectorRule s t c h [fld 0 d v.wide, fld 1 a v.wide, fld 2 b v.wide] d v.wide
      (fun l => imap2 v (iMin v) (src s t c h v.wide 1 a l) (src s t c h v.wide 2 b l)) (exec (.imin h v d a b) s)) ∧
    (∀ h v d a b, VectorRule s t c h [fld 0 d v.wide, fld 1 a v.wide, fld 2 b v.wide] d v.wide
      (fun l => imap2 v (iMax v) (src s t c h v.wide 1 a l) (src s t c h v.wide 2 b l)) (exec (.imax h v d a b) s)) ∧
    (∀ h v sat d a, VectorRule s t c h [fld 0 d v.wide, fld 1 a v.wide] d v.wide
      (fun l => imap1 v (fun x => v.fit sat (v.val x).natAbs) (src s t c h v.wide 1 a l)) (exec (.iabs h v sat d a) s)) ∧
    (∀ h v sat d a b, VectorRule s t c h [fld 0 d false, fld 1 a false, fld 2 b false] d false
      (fun l => packN v.bits v.count (fun k => narrow v sat
        (if k < v.count / 2 then elemAt (2 * v.bits) (src s t c h false 1 a l) k
         else elemAt (2 * v.bits) (src s t c h false 2 b l) (k - v.count / 2)))) (exec (.pack h v sat d a b) s)) ∧
    (∀ h v sel d a, VectorRule s t c h [fld 0 d false, fld 1 a false] d false
      (fun l => packN (2 * v.bits) (v.count / 2) (fun k =>
        wrapTo (2 * v.bits) (v.val (elemAt v.bits (src s t c h false 1 a l) ((if sel = true then v.count / 2 else 0) + k)))))
      (exec (.unpk h v sel d a) s)) ∧
    (∀ h w sh d a b, VectorRule s t c h [fld 0 d w, fld 1 a w, fld 2 b false] d w
      (fun l => wrapTo (wbits w) ((src s t c h w 1 a l : Int) + signedOf 32 (src s t c h false 2 b l) * 2 ^ sh.val))
      (exec (.iaddsh h w sh d a b) s))

/-- R314 to R316: what each logic, shift, count, bit-field, select and move word of class 1 writes, that it writes nothing else, when
it waits and when it traps. -/
def Sys2Proof.Spec.VectorLogicWords : Prop :=
  ∀ (s : State) (t : Thread) (c : Clause), Issues s t c → t.level = .lg →
    (∀ h w d a b, VectorRule s t c h [fld 0 d w, fld 1 a w, fld 2 b w] d w
      (fun l => src s t c h w 1 a l &&& src s t c h w 2 b l) (exec (.iand h w d a b) s)) ∧
    (∀ h w d a b, VectorRule s t c h [fld 0 d w, fld 1 a w, fld 2 b w] d w
      (fun l => src s t c h w 1 a l ||| src s t c h w 2 b l) (exec (.ior h w d a b) s)) ∧
    (∀ h w d a b, VectorRule s t c h [fld 0 d w, fld 1 a w, fld 2 b w] d w
      (fun l => src s t c h w 1 a l ^^^ src s t c h w 2 b l) (exec (.ixor h w d a b) s)) ∧
    (∀ h w d a, VectorRule s t c h [fld 0 d w, fld 1 a w] d w
      (fun l => 2 ^ wbits w - 1 - src s t c h w 1 a l) (exec (.inot h w d a) s)) ∧
    (∀ h w d a b, VectorRule s t c h [fld 0 d w, fld 1 a w, fld 2 b false] d w
      (fun l => iShl (wbits w) (src s t c h w 1 a l) (src s t c h false 2 b l)) (exec (.ishl h w d a b) s)) ∧
    (∀ h w d a b, VectorRule s t c h [fld 0 d w, fld 1 a w, fld 2 b false] d w
      (fun l => src s t c h w 1 a l / 2 ^ src s t c h false 2 b l) (exec (.ishr h w d a b) s)) ∧
    (∀ h w d a b, VectorRule s t c h [fld 0 d w, fld 1 a w, fld 2 b false] d w
      (fun l => iSra (wbits w) (src s t c h w 1 a l) (src s t c h false 2 b l)) (exec (.isra h w d a b) s)) ∧
    (∀ h w d a, VectorRule s t c h [fld 0 d false, fld 1 a w] d false
      (fun l => popCount (wbits w) (src s t c h w 1 a l)) (exec (.ipopc h w d a) s)) ∧
    (∀ h w d a, VectorRule s t c h [fld 0 d false, fld 1 a w] d false
      (fun l => if src s t c h w 1 a l = 0 then wbits w else wbits w - 1 - (src s t c h w 1 a l).log2) (exec (.iclz h w d a) s)) ∧
    (∀ h u d a b e, VectorRule s t c h [fld 0 d false, fld 1 a false, fld 2 b false, fld 3 e false] d false
      (fun l => bfe u (src s t c h false 1 a l) (src s t c h false 2 b l) (src s t c h false 3 e l)) (exec (.ibfe h u d a b e) s)) ∧
    (∀ h d a b e, VectorRule s t c h
      [fld 0 d false, { fld 0 d false with dst := false }, fld 1 a false, fld 2 b false, fld 3 e false] d false
      (fun l => bfi (src s t c h false 0 d l) (src s t c h false 1 a l) (src s t c h false 2 b l) (src s t c h false 3 e l))
      (exec (.ibfi h d a b e) s)) ∧
    (∀ h w p d a b, VectorRule s t c h [fld 0 d w, fld 1 a w, fld 2 b w] d w
      (fun l => if (t.getP p.val).getLsbD l = true then src s t c h w 1 a l else src s t c h w 2 b l)
      (exec (.isel h w p d a b) s)) ∧
    (∀ h w d a, VectorRule s t c h [fld 0 d w, fld 1 a w] d w (fun l => src s t c h w 1 a l) (exec (.imov h w d a) s))

/-- R313, R319 to R321: ICMP and PLOG write a predicate, XSET and XADD an index register, XSET.RD a register, PHILOX four. -/
def Sys2Proof.Spec.IndexPredicatePhiloxWords : Prop :=
  ∀ (s : State) (t : Thread) (c : Clause), Issues s t c → t.level = .lg →
    (∀ h v q k p a b, PredicateRule s t c h [fld 1 a v.wide, fld 2 b v.wide] p.val
      (fun l => Cmp.holds q (v.val (elemAt v.bits (src s t c h v.wide 1 a l) k.val))
        (v.val (elemAt v.bits (src s t c h v.wide 2 b l) k.val))) (exec (.icmp h v q k p a b) s)) ∧
    (∀ h op pd pa pb, PredicateRule s t c h [] pd.val
      (fun l => plogBit op ((t.getP pa.val).getLsbD l) ((t.getP pb.val).getLsbD l)) (exec (.plog h op pd pa pb) s)) ∧
    (∀ h x a, VectorEnds s t c h [fld 1 a false] (exec (.xset h x a) s)
      (∃ x1, exec (.xset h x a) s = .next (moved s (withX t x1) c h) ∧
        ∀ k l, l < 32 → tgetD x1 (vkey k l) 0 =
          if k = x.val ∧ (taking s t c h).getLsbD l = true then BitVec.ofNat 16 (src s t c h false 1 a l) else t.getX k l)) ∧
    (∀ h d x, VectorRule s t c h [fld 0 d false] d false (fun l => ((t.getX x.val l).signExtend 32).toNat) (exec (.xsetRd h d x) s)) ∧
    (∀ h xd xa b, VectorEnds s t c h [fld 2 b false] (exec (.xadd h xd xa b) s)
      (∃ x1, exec (.xadd h xd xa b) s = .next (moved s (withX t x1) c h) ∧
        ∀ k l, l < 32 → tgetD x1 (vkey k l) 0 =
          if k = xd.val ∧ (taking s t c h).getLsbD l = true then t.getX xa.val l + BitVec.ofNat 16 (src s t c h false 2 b l)
          else t.getX k l)) ∧
    (∀ h d a b, WaitEnds s t c (firstBad [runBad (s.view t c h) 0 d 4 1, runBad (s.view t c h) 1 a 4 1, uniformBad 2 2 b])
      ((s.view t c h).runArrived (regNo a) 4 (taking s t c h)) (exec (.philox h d a b) s)
      (∃ v1, exec (.philox h d a b) s = .next (moved s (withV t v1) c h) ∧
        MarksLeft t v1.2 (fun r l => (taking s t c h).getLsbD l = true ∧ regNo d ≤ r ∧ r < regNo d + 4) ∧
        ∀ r l, l < 32 → tgetD v1.1 (vkey r l) 0 =
          if (taking s t c h).getLsbD l = true ∧ regNo d ≤ r ∧ r < regNo d + 4 then
            let x (k : Nat) : Nat := (t.getV (regNo a + k) l).toNat
            let key := ((s.view t c h).rd64 2 b l).toNat
            let o := philox (x 0) (x 1) (x 2) (x 3) (key % 2 ^ 32) (key / 2 ^ 32)
            BitVec.ofNat 32 (if r = regNo d then o.1 else if r = regNo d + 1 then o.2.1
              else if r = regNo d + 2 then o.2.2.1 else o.2.2.2)
          else t.getV r l))

/-! ## Class 2 -/

/-- R322 to R328, R148, R150, R154: what each vector float word writes, the flags that it ORs into sr.fpstat, the counter that one
rounding with .RS advances, that nothing else changes, when it waits and when it traps. -/
def Obligations.VectorFloatWords : Prop :=
  ∀ (s : State) (t : Thread) (c : Clause), Issues s t c → t.level = .lg →
    (∀ h f rm d a b, FloatRule s t c h [fld 0 d false, fld 1 a false, fld 2 b false] d false (some (rm.resolve t.sr.fpctl))
      (fun l => elems2 s t c h f rm a b fAdd l) (exec (.fadd h f rm d a b) s)) ∧
    (∀ h f rm d a b, FloatRule s t c h [fld 0 d false, fld 1 a false, fld 2 b false] d false (some (rm.resolve t.sr.fpctl))
      (fun l => elems2 s t c h f rm a b fSub l) (exec (.fsub h f rm d a b) s)) ∧
    (∀ h f rm d a b, FloatRule s t c h [fld 0 d false, fld 1 a false, fld 2 b false] d false (some (rm.resolve t.sr.fpctl))
      (fun l => elems2 s t c h f rm a b fMul l) (exec (.fmul h f rm d a b) s)) ∧
    (∀ h f rm d a b e, FloatRule s t c h [fld 0 d false, fld 1 a false, fld 2 b false, fld 3 e false] d false
      (some (rm.resolve t.sr.fpctl))
      (fun l => mapElems f.width f.count (fun k =>
        fFma (fmtOf f) (rm.resolve t.sr.fpctl) ((s.view t c h).draw (rm.resolve t.sr.fpctl) k l)
          (elemAt f.width (src s t c h false 1 a l) k) (elemAt f.width (src s t c h false 2 b l) k)
          (elemAt f.width (src s t c h false 3 e l) k))) (exec (.ffma h f rm d a b e) s)) ∧
    (∀ h f d a b, FloatRule s t c h [fld 0 d false, fld 1 a false, fld 2 b false] d false none
      (fun l => mapElems f.width f.count (fun k =>
        fMin (fmtOf f) (elemAt f.width (src s t c h false 1 a l) k) (elemAt f.width (src s t c h false 2 b l) k)))
      (exec (.fmin h f d a b) s)) ∧
    (∀ h f d a b, FloatRule s t c h [fld 0 d false, fld 1 a false, fld 2 b false] d false none
      (fun l => mapElems f.width f.count (fun k =>
        fMax (fmtOf f) (elemAt f.width (src s t c h false 1 a l) k) (elemAt f.width (src s t c h false 2 b l) k)))
      (exec (.fmax h f d a b) s)) ∧
    (∀ h f d a, FloatRule s t c h [fld 0 d false, fld 1 a false] d false none
      (fun l => mapElems f.width f.count (fun k =>
        (elemAt f.width (src s t c h false 1 a l) k % (fmtOf f).signBit, FFlags.none))) (exec (.fabs h f d a) s)) ∧
    (∀ h f d a, FloatRule s t c h [fld 0 d false, fld 1 a false] d false none
      (fun l => mapElems f.width f.count (fun k =>
        (elemAt f.width (src s t c h false 1 a l) k ^^^ (fmtOf f).signBit, FFlags.none))) (exec (.fneg h f d a) s)) ∧
    (∀ h rm d a b, FloatRule s t c h [fld 0 d false, fld 1 a false, fld 2 b false] d false (some (rm.resolve t.sr.fpctl))
      (fun l => elems2 s t c h .f32 rm a b fDiv l) (exec (.fdiv h rm d a b) s)) ∧
    (∀ h rm d a, FloatRule s t c h [fld 0 d false, fld 1 a false] d false (some (rm.resolve t.sr.fpctl))
      (fun l => elems1 s t c h .f32 rm a fSqrt l) (exec (.fsqrt h rm d a) s)) ∧
    (∀ h f d a, FloatRule s t c h [fld 0 d false, fld 1 a false] d false none
      (fun l => mapElems f.width f.count (fun k =>
        (fClass (fmtOf f) (elemAt f.width (src s t c h false 1 a l) k), FFlags.none))) (exec (.fclass h f d a) s)) ∧
    (∀ h f rm d a, FloatRule s t c h [fld 0 d false, fld 1 a false] d false (some (rm.resolve t.sr.fpctl))
      (fun l => elems1 s t c h f rm a fRnd l) (exec (.frnd h f rm d a) s)) ∧
    (∀ h f q k p a b, VectorEnds s t c h [fld 1 a false, fld 2 b false] (exec (.fcmp h f q k p a b) s)
      (∃ t', exec (.fcmp h f q k p a b) s = .next (moved s t' c h) ∧ withStat (withP t' t.regs.p) t.sr.fpstat = t ∧
        (∀ r l, l < 32 → (t'.getP r).getLsbD l =
          if r = p.val ∧ r ≠ 7 ∧ (taking s t c h).getLsbD l = true then (compared s t c h f q k a b l).1
          else (t.getP r).getLsbD l) ∧
        t'.sr.fpstat = raisedBy t.sr.fpstat (taking s t c h) (fun l => (compared s t c h f q k a b l).2)))

/-- R326: FRCP, FRSQ, FEXP2, FLOG2, FSIN, FCOS and FTANH write the result that the model's function gives, and no other register or
lane, OR the flags and complete. How near the result lies to the exact value is the model's choice within R326 (UNVERIFIED, log 27). -/
def Sys2Proof.Spec.TranscendentalWords : Prop :=
  ∀ (s : State) (t : Thread) (c : Clause), Issues s t c → t.level = .lg → ∀ h rm d a,
    FloatRule s t c h [fld 0 d false, fld 1 a false] d false (some (rm.resolve t.sr.fpctl))
      (fun l => elems1 s t c h .f32 rm a fRcp l) (exec (.frcp h rm d a) s) ∧
    FloatRule s t c h [fld 0 d false, fld 1 a false] d false (some (rm.resolve t.sr.fpctl))
      (fun l => elems1 s t c h .f32 rm a fRsq l) (exec (.frsq h rm d a) s) ∧
    FloatRule s t c h [fld 0 d false, fld 1 a false] d false (some (rm.resolve t.sr.fpctl))
      (fun l => elems1 s t c h .f32 rm a fExp2 l) (exec (.fexp2 h rm d a) s) ∧
    FloatRule s t c h [fld 0 d false, fld 1 a false] d false (some (rm.resolve t.sr.fpctl))
      (fun l => elems1 s t c h .f32 rm a fLog2 l) (exec (.flog2 h rm d a) s) ∧
    FloatRule s t c h [fld 0 d false, fld 1 a false] d false (some (rm.resolve t.sr.fpctl))
      (fun l => elems1 s t c h .f32 rm a fSin l) (exec (.fsin h rm d a) s) ∧
    FloatRule s t c h [fld 0 d false, fld 1 a false] d false (some (rm.resolve t.sr.fpctl))
      (fun l => elems1 s t c h .f32 rm a fCos l) (exec (.fcos h rm d a) s) ∧
    FloatRule s t c h [fld 0 d false, fld 1 a false] d false (some (rm.resolve t.sr.fpctl))
      (fun l => elems1 s t c h .f32 rm a fTanh l) (exec (.ftanh h rm d a) s)

/-- R329 to R332: FCVT, NENC and NDEC write the converted elements and nothing else but sr.fpstat and the .RS counter; a block-scaled
word traps where a header's FORMAT differs from the variant. -/
def Sys2Proof.Spec.ConversionWords : Prop :=
  ∀ (s : State) (t : Thread) (c : Clause), Issues s t c → t.level = .lg →
    (∀ h dst sr pos sat rm d a, FloatRule s t c h
      [fld 0 d (EF.isPair dst), { fld 0 d (EF.isPair dst) with dst := false }, fld 1 a (EF.isPair sr)] d (EF.isPair dst)
      (some (rm.resolve t.sr.fpctl))
      (fun l => cvtLane dst sr pos.val sat (rm.resolve t.sr.fpctl) (fun k => (s.view t c h).draw (rm.resolve t.sr.fpctl) k l)
        (src s t c h (EF.isPair dst) 0 d l) (src s t c h (EF.isPair sr) 1 a l)) (exec (.fcvt h dst sr pos sat rm d a) s)) ∧
    (∀ h e rm d a b, WaitEnds s t c (firstBad [(fld 0 d (EF.isPair e)).bad (s.view t c h), runBad (s.view t c h) 1 a e.count 1,
        vecBad (s.view t c h) [fld 0 d (EF.isPair e), fld 2 b false], formatBad (s.view t c h) e b])
      ((s.view t c h).runArrived (regNo a) e.count (taking s t c h) && (s.view t c h).arrived [fld 2 b false])
      (exec (.nenc h e rm d a b) s)
      (FloatWrite s t c h d (EF.isPair e) (some (rm.resolve t.sr.fpctl))
        (fun l => mapElems e.width e.count (fun k => encodeScaled e (rm.resolve t.sr.fpctl)
          ((s.view t c h).draw (rm.resolve t.sr.fpctl) k l) (scaleOf (src s t c h false 2 b l)) (t.getV (regNo a + k) l).toNat))
        (exec (.nenc h e rm d a b) s))) ∧
    (∀ h e rm d a b, WaitEnds s t c (firstBad [runBad (s.view t c h) 0 d e.count 1,
        vecBad (s.view t c h) [fld 1 a (EF.isPair e), fld 2 b false], formatBad (s.view t c h) e b])
      ((s.view t c h).arrived [fld 1 a (EF.isPair e), fld 2 b false]) (exec (.ndec h e rm d a b) s)
      (let x (k l : Nat) : Nat × FFlags := decodeScaled e (rm.resolve t.sr.fpctl) ((s.view t c h).draw (rm.resolve t.sr.fpctl) k l)
          (scaleOf (src s t c h false 2 b l)) (elemAt e.width (src s t c h (EF.isPair e) 1 a l) k)
       ∃ v1, exec (.ndec h e rm d a b) s = .next (moved s (rounded (withV t v1) (taking s t c h) (some (rm.resolve t.sr.fpctl))
          (fun l => (List.range e.count).foldl (fun f k => f.or (x k l).2) FFlags.none)) c h) ∧
        MarksLeft t v1.2 (fun r l => (taking s t c h).getLsbD l = true ∧ regNo d ≤ r ∧ r < regNo d + e.count) ∧
        (∀ r l, l < 32 → tgetD v1.1 (vkey r l) 0 =
          if (taking s t c h).getLsbD l = true ∧ regNo d ≤ r ∧ r < regNo d + e.count then BitVec.ofNat 32 (x (r - regNo d) l).1
          else t.getV r l)))

/-! ## Class 3 -/

/-- R333, R334: each form of VOTE, over the lanes of the tile that take part. -/
def Sys2Proof.Spec.VoteWords : Prop :=
  ∀ (s : State) (t : Thread) (c : Clause), Issues s t c → t.level = .lg → ∀ h,
    let tile (l : Nat) : List Nat := (List.range 32).filter (fun i =>
      i / t.tileWidth == l / t.tileWidth && (taking s t c h).getLsbD i)
    t.regs.part.toNat % 8 ≤ 4 →
    (∀ pd pa, PredicateRule s t c h [] pd.val (fun l => (tile l).all (fun i => (t.getP pa.val).getLsbD i))
      (exec (.vote h (.all pd pa)) s)) ∧
    (∀ pd pa, PredicateRule s t c h [] pd.val (fun l => (tile l).any (fun i => (t.getP pa.val).getLsbD i))
      (exec (.vote h (.any pd pa)) s)) ∧
    (∀ d pa, VectorRule s t c h [fld 0 d false] d false
      (fun l => (Lanes.ofPred (fun i => (tile l).contains i && (t.getP pa.val).getLsbD i)).toNat) (exec (.vote h (.bal d pa)) s)) ∧
    (∀ pd a, PredicateRule s t c h [fld 1 a false] pd.val
      (fun l => (tile l).all (fun i => src s t c h false 1 a i == src s t c h false 1 a l)) (exec (.vote h (.eq pd a)) s))

/-- R335: SHFL reads A in the source lane that each form names, inside the lane's tile, and waits for that lane's arrival bit. -/
def Sys2Proof.Spec.ShuffleWord : Prop :=
  ∀ (s : State) (t : Thread) (c : Clause), Issues s t c → t.level = .lg → ∀ h o d a b,
    let from' (l : Nat) : Nat := ShflOp.source o (l / t.tileWidth * t.tileWidth) t.tileWidth l (src s t c h false 2 b l)
    WaitEnds s t c (vecBad (s.view t c h) [fld 0 d false, fld 1 a false, fld 2 b false])
      ((s.view t c h).arrived [fld 2 b false] && (!isVec a || (Lanes.toList (taking s t c h)).all (fun l =>
        (t.arrived ((s.view t c h).vreg 1 a l)).getLsbD (from' l)))) (exec (.shfl h o d a b) s)
      (∃ v1, exec (.shfl h o d a b) s = .next (moved s (withV t v1) c h) ∧
        LaneWrite s t c h d false (fun l => ((s.view t c h).rdFrom a l (from' l)).toNat) v1)

/-- R162, R163, R336: SCANI, SCANX and LRED give in each lane the scan or the tree of its tile, element position by element position,
and the identity where no lane contributed. Which draw a node of LRED's tree takes (DESIGN CHOICE, log 85), and that SCANX performs a step,
with its flags, only where a later lane of its tile takes part (DEDUCED, log 86), are the model's. -/
def Sys2Proof.Spec.ScanReduceWords : Prop :=
  ∀ (s : State) (t : Thread) (c : Clause), Issues s t c → t.level = .lg → ∀ h e op rm sat d a,
    let m := rm.resolve t.sr.fpctl
    let comb (k : Comb) (l j : Nat) : List (Option Nat) × FFlags :=
      combTile k (fun i x y => redOp e op m sat ((s.view t c h).draw m j (l / t.tileWidth * t.tileWidth + i)) x y)
        (((s.view t c h).tile l).map (fun i =>
          if (taking s t c h).getLsbD i then some (elemAt e.width (src s t c h (EF.isPair e) 1 a i) j) else none))
    let value (k : Comb) (l : Nat) : Nat := packN e.width e.count (fun j =>
      ((comb k l j).1.getD (l - l / t.tileWidth * t.tileWidth) none).getD (redIdentity e op))
    let flags (k : Comb) (l : Nat) : FFlags :=
      if ((s.view t c h).contrib l).head? = some l then
        (List.range e.count).foldl (fun f j => f.or (comb k l j).2) FFlags.none
      else FFlags.none
    let ends (k : Comb) (out : Out) : Prop := VectorEnds s t c h [fld 0 d (EF.isPair e), fld 1 a (EF.isPair e)] out
      (∃ v1, out = .next (moved s (rounded (withV t v1) (taking s t c h) (some m) (flags k)) c h) ∧
        LaneWrite s t c h d (EF.isPair e) (value k) v1)
    ends .scanI (exec (.scani h e op rm sat d a) s) ∧ ends .scanX (exec (.scanx h e op rm sat d a) s) ∧
      ends .tree (exec (.lred h e op rm sat d a) s)

/-- R53, R337: PARTSET stores a code of at most 4 and traps on a larger one; PARTGET reads PART. That PARTSET takes a constant that
varies by lane from a free lane is the model's choice (log 72). -/
def Sys2Proof.Spec.PartWords : Prop :=
  ∀ (s : State) (t : Thread) (c : Clause), Issues s t c → t.level = .lg →
    (∀ h a, uniformBad 1 1 a = none → 4 < ((s.view t c h).once 1 a).1.toNat % 8 → exec (.partset h a) s =
      .next (trapWord s t c (operandBad 1 11 0 (BitVec.ofNat 64 (((s.view t c h).once 1 a).1.toNat % 8))))) ∧
    (∀ h a, uniformBad 1 1 a = none → ((s.view t c h).once 1 a).1.toNat % 8 ≤ 4 → exec (.partset h a) s = .next (past s
      (if taking s t c h = 0 then s.a else
        { s.a.setThread { t with regs := { t.regs with part := BitVec.ofNat 32 (((s.view t c h).once 1 a).1.toNat % 8) } } with
          free := ((s.view t c h).once 1 a).2 }) t c h)) ∧
    (∀ h a, (∀ k, a = .k k → ¬(7 ≤ k.val ∧ k.val ≤ 9)) → (s.view t c h).once 1 a = ((s.view t c h).rs a, s.a.free)) ∧
    (∀ h, (∀ r, uniformBad 1 1 (.v r) = opBad 1 1 (.v r)) ∧ exec (.partset h (.v 0)) s = .next (trapWord s t c (operandBad 1 1 0 0))) ∧
    (∀ h (d : Fin 48), exec (.partget h (.s d)) s = .next (moved s (if taking s t c h = 0 then t else t.setS d.val t.regs.part) c h)) ∧
    (∀ h d, dstS 1 d = opBad 0 1 d → exec (.partget h d) s = .next (trapWord s t c (operandBad 0 1 0 (BitVec.ofNat 64 (Opnd.num d)))))

/-! ## Class 0 -/

/-- R283 to R289: what each scalar word writes to its destination when some lane takes part, that it changes nothing else, and that a
failed check traps. -/
def Obligations.ScalarWords : Prop :=
  ∀ (s : State) (t : Thread) (c : Clause), Issues s t c →
    (∀ h v sat d a b, ScalarRule s t c h [dstW v.wide d, srcW 1 v.wide a, srcW 2 v.wide b] v.wide d
      (v.fit sat (v.val (sval s t c h v.wide a) + v.val (sval s t c h v.wide b))) (exec (.sadd h v sat d a b) s)) ∧
    (∀ h v sat d a b, ScalarRule s t c h [dstW v.wide d, srcW 1 v.wide a, srcW 2 v.wide b] v.wide d
      (v.fit sat (v.val (sval s t c h v.wide a) - v.val (sval s t c h v.wide b))) (exec (.ssub h v sat d a b) s)) ∧
    (∀ h v sat d a b, ScalarRule s t c h [dstW v.wide d, srcW 1 v.wide a, srcW 2 v.wide b] v.wide d
      (v.fit sat (v.val (sval s t c h v.wide a) * v.val (sval s t c h v.wide b))) (exec (.smul h v sat d a b) s)) ∧
    (∀ h v d a b, ScalarRule s t c h [dstW v.wide d, srcW 1 v.wide a, srcW 2 v.wide b] v.wide d
      (iMulh v (sval s t c h v.wide a) (sval s t c h v.wide b)) (exec (.smulh h v d a b) s)) ∧
    (∀ h v d a b, ScalarRule s t c h [dstW v.wide d, srcW 1 v.wide a, srcW 2 v.wide b] v.wide d
      (if v.val (sval s t c h v.wide a) ≤ v.val (sval s t c h v.wide b) then sval s t c h v.wide a else sval s t c h v.wide b)
      (exec (.smin h v d a b) s)) ∧
    (∀ h v d a b, ScalarRule s t c h [dstW v.wide d, srcW 1 v.wide a, srcW 2 v.wide b] v.wide d
      (if v.val (sval s t c h v.wide b) ≤ v.val (sval s t c h v.wide a) then sval s t c h v.wide a else sval s t c h v.wide b)
      (exec (.smax h v d a b) s)) ∧
    (∀ h w d a b, ScalarRule s t c h [dstW w d, srcW 1 w a, srcW 2 w b] w d
      (sval s t c h w a &&& sval s t c h w b) (exec (.sand h w d a b) s)) ∧
    (∀ h w d a b, ScalarRule s t c h [dstW w d, srcW 1 w a, srcW 2 w b] w d
      (sval s t c h w a ||| sval s t c h w b) (exec (.sor h w d a b) s)) ∧
    (∀ h w d a b, ScalarRule s t c h [dstW w d, srcW 1 w a, srcW 2 w b] w d
      (sval s t c h w a ^^^ sval s t c h w b) (exec (.sxor h w d a b) s)) ∧
    (∀ h w d a, ScalarRule s t c h [dstW w d, srcW 1 w a] w d (2 ^ wbits w - 1 - sval s t c h w a) (exec (.snot h w d a) s)) ∧
    (∀ h w d a b, ScalarRule s t c h [dstW w d, srcW 1 w a, srcW 2 false b] w d
      (iShl (wbits w) (sval s t c h w a) (sval s t c h false b)) (exec (.sshl h w d a b) s)) ∧
    (∀ h w d a b, ScalarRule s t c h [dstW w d, srcW 1 w a, srcW 2 false b] w d
      (sval s t c h w a / 2 ^ sval s t c h false b) (exec (.sshr h w d a b) s)) ∧
    (∀ h w d a b, ScalarRule s t c h [dstW w d, srcW 1 w a, srcW 2 false b] w d
      (iSra (wbits w) (sval s t c h w a) (sval s t c h false b)) (exec (.ssra h w d a b) s)) ∧
    (∀ h w d a b e, ScalarRule s t c h [dstW w d, srcW 1 w a, srcW 2 w b, srcW 3 false e] w d
      (if sval s t c h false e = 0 then sval s t c h w b else sval s t c h w a) (exec (.ssel h w d a b e) s)) ∧
    (∀ h w d a, ScalarRule s t c h [dstW w d, srcW 1 w a] w d (sval s t c h w a) (exec (.smov h w d a) s)) ∧
    (∀ h w d a, ScalarRule s t c h [dstW false d, srcW 1 w a] false d (popCount (wbits w) (sval s t c h w a))
      (exec (.spopc h w d a) s)) ∧
    (∀ h w d a, ScalarRule s t c h [dstW false d, srcW 1 w a] false d
      (if sval s t c h w a = 0 then wbits w else wbits w - 1 - (sval s t c h w a).log2) (exec (.sclz h w d a) s)) ∧
    (∀ h v q (p : Fin 8) a b, Ends s t c (firstBad [srcW 1 v.wide a, srcW 2 v.wide b]) (exec (.scmp h v q p a b) s)
      (∃ t', exec (.scmp h v q p a b) s = .next (moved s t' c h) ∧ withP t' t.regs.p = t ∧
        ∀ r l, l < 32 → (t'.getP r).getLsbD l =
          if r = p.val ∧ r ≠ 7 ∧ (taking s t c h).getLsbD l = true then
            Cmp.holds q (v.val (sval s t c h v.wide a)) (v.val (sval s t c h v.wide b))
          else (t.getP r).getLsbD l))

/-- R250, R290 to R294, R296: NOP and LIVE change nothing; the control words end their clause, the lanes that take part going to the
target and the others to the word after the clause; CALL writes its link, LOOP its counter. -/
def Sys2Proof.Spec.BranchWords : Prop :=
  ∀ (s : State) (t : Thread) (c : Clause), Issues s t c →
    (∀ h, exec (.nop h) s = .next (moved s t c h)) ∧
    (∀ sm vm, t.isWave = false ∨ vm.toNat / 2 ^ (t.alloc / 8) = 0 →
      exec (.liveWord sm vm) s = .next (moved s t c { gp := 7, gn := false, ext := .none })) ∧
    (∀ sm vm, t.isWave = true → vm.toNat / 2 ^ (t.alloc / 8) ≠ 0 →
      exec (.liveWord sm vm) s = .next (trapWord s t c (decodeBad 3))) ∧
    (∀ h disp, exec (.br h disp) s = .next (ended s t c (jumps s t c h (target c disp)))) ∧
    (∀ h a, Ends s t c (firstBad [srcS64 1 a, targetBad 0 ((s.view t c h).rs64 a)]) (exec (.brx h a) s)
      (exec (.brx h a) s = .next (ended s t c (jumps s t c h ((s.view t c h).rs64 a).toNat)))) ∧
    (∀ h disp (n : Fin 48), n.val % 2 = 0 → exec (.call h disp (.s n)) s =
      .next (ended s (if taking s t c h = 0 then t else t.setS64 n.val (BitVec.ofNat 64 (c.va c.pos + 8))) c
        (jumps s t c h (target c disp)))) ∧
    (∀ h disp (n : Fin 192), n.val % 2 = 0 → n.val < t.alloc → ∃ v1,
      exec (.call h disp (.v n)) s = .next (ended s (withV t v1) c (jumps s t c h (target c disp))) ∧
        LaneWrite s t c h (.v n) true (fun _ => (c.va c.pos + 8) % 2 ^ 64) v1) ∧
    (∀ h link b, linkBad (s.view t c h) 4 link = some b → ∀ disp, exec (.call h disp link) s = .next (trapWord s t c b)) ∧
    (∀ h link, Ends s t c (linkBad (s.view t c h) 1 link) (exec (.ret h link) s)
      (let here := (s.view t c h).arrived [{ j := 1, o := link, n := 2, dst := false }]
       let to' (l : Nat) : W64 := (s.view t c h).rd64 1 link l
       (here = false → exec (.ret h link) s = .next (waits s t .arrival)) ∧
       (here = true → (∀ l ∈ Lanes.toList (taking s t c h), (to' l).toNat % 8 = 0) → exec (.ret h link) s = .next (ended s t c
          ((Lanes.toList (taking s t c h)).map (fun l => (l, (to' l).toNat))))) ∧
       (∀ l, here = true → l < 32 → (taking s t c h).getLsbD l = true → (to' l).toNat % 8 ≠ 0 →
          (∀ l', l' < l → (taking s t c h).getLsbD l' = true → (to' l').toNat % 8 = 0) →
          exec (.ret h link) s = .next (trapWord s t c (operandBad 1 6 l (to' l)))))) ∧
    (∀ h disp (code : Fin 256), 0xC0 ≤ code.val → code.val < 0xF0 → exec (.loop h disp code) s =
      .next (if taking s t c h = 0 then ended s t c []
        else ended s (t.setS (code.val - 0xC0) (t.getS (code.val - 0xC0) - 1)) c
          (if t.getS (code.val - 0xC0) - 1 = 0 then [] else jumps s t c h (target c disp)))) ∧
    (∀ h, exec (.yield h) s = .next (withA s (s.a.setThread (yielding (endClause t c 0 [])
      (t.isWave && !decide (taking s t c h = 0))))))

/-- R23, R32, R46, R51, R295, R393: EXIT ends the clause and its lanes leave the frontier, the frozen frontier and the wave's
convergence registers. A wave outside trap mode stays, with or without lanes (WAVE_RETIRE takes it); a wave in trap mode first
awaits its own accesses, stays while it has a lane, and else retires as aborted; a frame first awaits its own accesses, stays while it has
a lane, and else retires or drains. A speculative step that the exit would issue on a tile in another
wave's window traps (DEDUCED, log 89). -/
def Sys2Proof.Spec.ExitWord : Prop :=
  ∀ (s : State) (t : Thread) (c : Clause) (h : Hd), Issues s t c →
    let left : Arch := (if taking s t c h = 0 then s.a else cvExit s.a t (taking s t c h)).modThread t.uid (fun t' =>
      let x := endClause t' c (taking s t c h) []
      { x with frozen := x.frozen.map (fun f => f.exit (taking s t c h)) })
    let bad := if taking s t c h = 0 then none else cvExitBad s.a t (taking s t c h)
    (t.isWave = false ∨ t.tm = true → taking s t c h ≠ 0 → ownPending s.a t.uid = true → exec (.exit h) s = .next (waits s t .order)) ∧
    (((t.isWave = true ∧ t.tm = false) ∨ taking s t c h = 0 ∨ ownPending s.a t.uid = false) →
      (∀ b, bad = some b → exec (.exit h) s = .next (trapWord s t c b)) ∧
      (bad = none → t.isWave = true → t.tm = false → exec (.exit h) s = .next (withA s left)) ∧
      (bad = none → ∀ t', t.isWave = true → left.thread t.uid = some t' → t'.isWave = true → t'.tm = true →
        exec (.exit h) s = .next (withA s (if t'.live = 0 then retireWave left s.time t' true else left))) ∧
      (bad = none → ∀ t', t.isWave = false → left.thread t.uid = some t' → t'.isWave = false → exec (.exit h) s = .next (withA s
        (if t'.live = 0 then retireFrame left s.time t' false else left))))

/-! ## Class 11 -/

/-- R297 to R299, R203: SRR reads the register at one instant, and reading sr.rfault clears its FCNT. -/
def Sys2Proof.Spec.SpecialRegisterReads : Prop :=
  ∀ (s : State) (t : Thread) (c : Clause), Issues s t c → ∀ h w64 d,
    (∀ n : Fin 1024, n.val ≠ 0x030 → Ends s t c (firstBad [dstS (if w64 then 2 else 1) d, srBad (s.view t c h) n.val w64])
      (exec (.srr h n w64 d) s)
      (exec (.srr h n w64 d) s = .next (moved s (if taking s t c h = 0 then t else t.wrW w64 d (srRead s.a s.time t n.val w64)) c h))) ∧
    Ends s t c (firstBad [dstS (if w64 then 2 else 1) d, srBad (s.view t c h) 0x030 w64]) (exec (.srrRfault h w64 d) s)
      (exec (.srrRfault h w64 d) s = .next (moved s (if taking s t c h = 0 then t else
        let t' := t.wrW w64 d t.sr.rfault.toNat
        { t' with sr := { t'.sr with rfault := t'.sr.rfault &&& 0xFF00FFFF } }) c h))

/-- R148, R154, R299, R67: SRW writes a register by its access rule: sr.fpstat is cleared where the value has ones, sr.fpctl takes a
mode of at most 4 and traps on a larger one, sr.pntimer takes at least 16, and any other register what R299 says. -/
def Sys2Proof.Spec.SpecialRegisterWrites : Prop :=
  ∀ (s : State) (t : Thread) (c : Clause), Issues s t c → ∀ h a,
    (∀ n : Fin 1024, n.val ≠ 0x010 → n.val ≠ 0x020 → srcS 1 a = none → srHeld t n.val = true → exec (.srw h n false a) s =
      .next (moved s (if taking s t c h = 0 then t else srWrite1 t n.val ((s.view t c h).rs a)) c h)) ∧
    (∀ n : Fin 1024, srcS64 1 a = none → srHeld t n.val = true → srWideOk n.val = true → exec (.srw h n true a) s =
      .next (moved s (if taking s t c h = 0 then t else
        srWrite1 (srWrite1 t n.val ((s.view t c h).rs a)) (n.val + 1) (((s.view t c h).rs64 a >>> 32).setWidth 32)) c h)) ∧
    (t.isWave = true → srcS 1 a = none → exec (.srwFpstat h false a) s = .next (moved s (if taking s t c h = 0 then t else
      withStat t (t.sr.fpstat &&& ~~~(s.view t c h).rs a)) c h)) ∧
    (t.isWave = true → srcS 1 a = none → ((s.view t c h).rs a).toNat % 8 ≤ 4 → exec (.srwFpctl h false a) s =
      .next (moved s (if taking s t c h = 0 then t else { t with sr := { t.sr with fpctl := (s.view t c h).rs a &&& 7 } }) c h)) ∧
    (t.isWave = true → srcS 1 a = none → 4 < ((s.view t c h).rs a).toNat % 8 → exec (.srwFpctl h false a) s =
      .next (trapWord s t c (operandBad 1 11 0 (((s.view t c h).rs a).setWidth 64)))) ∧
    (srHeld t 0x010 = true → srcS 1 a = none → exec (.srwPntimer h false a) s = .next (past s
      (if taking s t c h = 0 then s.a else
        { s.a with pntimer := tset s.a.pntimer t.coreKey (max 16 (((s.view t c h).rs a).toNat % 65536)) }) t c h)) ∧
    (∀ n : Fin 1024, srHeld t n.val = false → srcS 1 a = none → exec (.srw h n false a) s =
      .next (trapWord s t c (operandBad 4 11 0 (BitVec.ofNat 64 n.val))))

/-- R301, R304: PRIOSET stores a priority of at most 3 and traps on a larger one; IFLUSH waits for the writes that a load by its issuer
would see, then drops exactly the cached instruction words of its context and range in the cores of its scope, and changes nothing else.
That the cache holds single words, and drops them one by one, is the model's choice (log 18). -/
def Sys2Proof.Spec.PriorityAndFlushWords : Prop :=
  ∀ (s : State) (t : Thread) (c : Clause), Issues s t c → ∀ h,
    (∀ a, srcS 1 a = none → ((s.view t c h).rs a).toNat ≤ 3 → exec (.prioset h a) s = .next (moved s
      (if taking s t c h = 0 then t else { t with sr := { t.sr with prio := ((s.view t c h).rs a).toNat } }) c h)) ∧
    (∀ a, srcS 1 a = none → 3 < ((s.view t c h).rs a).toNat → exec (.prioset h a) s =
      .next (trapWord s t c (operandBad 1 11 0 (BitVec.ofNat 64 ((s.view t c h).rs a).toNat)))) ∧
    (∀ lvl a b, firstBad [srcS64 1 a, srcS 2 b] = none → taking s t c h ≠ 0 → writesPending s.a t.uid = true →
      exec (.iflush h lvl a b) s = .next (waits s t .order)) ∧
    (∀ lvl a b, Ends s t c (firstBad [srcS64 1 a, srcS 2 b]) (exec (.iflush h lvl a b) s)
      (taking s t c h = 0 ∨ writesPending s.a t.uid = false → ∃ ic, exec (.iflush h lvl a b) s = .next (past s { s.a with icache := ic } t c h) ∧
        ∀ e, e ∈ ic ↔ e ∈ s.a.icache ∧ (taking s t c h ≠ 0 →
          ¬(coreIn (iflushUnit (s.view t c h) lvl) (e.1 / 192) (e.1 % 192) = true ∧ e.2.1 = t.ctx ∧
            0 < ((s.view t c h).rs b).toNat ∧ ((s.view t c h).rs64 a).toNat < 8 * e.2.2.1 + 8 ∧
            8 * e.2.2.1 < ((s.view t c h).rs64 a).toNat + ((s.view t c h).rs b).toNat))))

/-! ## Traps -/

/-- R302, R209, R211, R215: TRAP takes a SOFTWARE trap with its immediate in SYND when some lane takes part, else does nothing. -/
def Sys2Proof.Spec.TrapWord : Prop :=
  ∀ (s : State) (t : Thread) (c : Clause), Issues s t c → ∀ h imm, exec (.trap h imm) s =
    if taking s t c h = 0 then .next (moved s t c h)
    else .next (trapWord s t c { cls := .software, addr := 0, synd := imm.toNat, mask := none, kind := 0, kinds := 0 })

/-- R206, R210 to R213: outside trap mode a failed check freezes the frontier and the clause, fills the record, banks s40 to s47, sets
trap mode and starts the handler with the live lanes; the record block goes to memory where sr.tblk places it, and nothing else changes
but that an uncorrectable granule of a translation table is reported too (R218). A word whose table walk waits for its memory waits. That
such a granule gives an ERROR at the word itself is the model's choice (log 94). -/
def Sys2Proof.Spec.TrapIsTaken : Prop :=
  ∀ (s : State) (t : Thread) (c : Clause) (b : Bad), Issues s t c → (b.waits = true → trapWord s t c b = waits s t .order) ∧
  (t.tm = false → b.waits = false → ∃ r bank,
    trapWord s t c b = s.commit ((b.note s.a s.time t).setThread { t with
        tm := true, record := some r, bank := bank, frozen := some { front := t.front, clause := some c, entryPc := c.pc },
        front := [{ pc := handlerPc s.a t, prio := some 0xFFFF, lanes := t.live, pass := 0 }], clause := none, wait := none,
        tmCounts := [], repl := none })
      (match blockAddr s.a t with
        | some ad => [(ad, r.block t.level)]
        | none => []) ∧
    (b.cls ≠ .error → b.note s.a s.time t = s.a) ∧
    (b.cls = .error → b.note s.a s.time t = s.a.event s.time (b.faddr / 2 ^ 52) 7 t.ctx (b.synd % 16) b.faddr
      (if t.isWave then t.waveid.toNat else 0xFFFFFF)) ∧ r.faddr = BitVec.ofNat 64 b.faddr ∧
    r.cls = b.cls ∧ r.opidx = c.pos ∧ r.pc = c.pc + 8 * (c.pos + 1) ∧ r.addr = b.addr ∧ r.synd = BitVec.ofNat 64 b.synd ∧
    r.mask = b.mask.getD t.live ∧ r.word = BitVec.ofNat 64 (c.words.getD c.pos 0) ∧ r.time = refTimer s.a s.time t.unit.pkg ∧
    tgetD bank 0 0 = BitVec.ofNat 32 (r.info t.level (blockAddr s.a t).isNone) ∧ tgetD bank 1 0 = r.mask ∧
    tgetD bank 2 0 = BitVec.ofNat 32 r.pc ∧ tgetD bank 3 0 = BitVec.ofNat 32 (r.pc / 2 ^ 32) ∧
    tgetD bank 4 0 = r.addr.setWidth 32 ∧ tgetD bank 5 0 = (r.addr >>> 32).setWidth 32 ∧
    tgetD bank 6 0 = r.synd.setWidth 32 ∧ tgetD bank 7 0 = (r.synd >>> 32).setWidth 32)

/-- R215: a synchronous trap in trap mode halts the thread where it stands and sends event 8 with the PC. -/
def Sys2Proof.Spec.DoubleTrap : Prop :=
  ∀ (s : State) (t : Thread) (c : Clause) (b : Bad), Issues s t c → t.tm = true → b.waits = false →
    trapWord s t c b = withA s (((b.note s.a s.time t).setThread { t with halted := true, haltPc := c.pc + 8 * (c.pos + 1) }).event
      s.time t.unit.pkg 8 t.ctx 0 t.waveid.toNat (c.pc + 8 * (c.pos + 1)))

/-- The replacement of an asynchronous ERROR: each destination word of the record takes its replacement, and no other changes (R214). -/
def Sys2Proof.Spec.Replaced (t t' : Thread) (r : TrapRec) (a : Opnd) : Prop :=
  { t' with regs := t.regs } = t ∧ { t'.regs with s := t.regs.s, v := t.regs.v, badV := t.regs.badV, badS := t.regs.badS } = t.regs ∧
  (∀ i d, i < r.dests.length → d ∈ r.dests.getD i [] → (d.reg < 0xC0 → t'.getV d.reg d.lane = replWord t a i d.lane) ∧
    (0xC0 ≤ d.reg → t'.getS (d.reg - 0xC0) = replWord t a i d.lane)) ∧
  (∀ k l, l < 32 → (∀ d ∈ r.dests.flatten, d.reg ≠ k ∨ d.lane ≠ l) → k < 0xC0 → t'.getV k l = t.getV k l) ∧
  (∀ k, (∀ d ∈ r.dests.flatten, d.reg ≠ 0xC0 + k) → t'.getS k = t.getS k)

/-- R214, R249, R303: in trap mode, once the operations of trap mode have counted, RESUME and SKIP leave trap mode with the frozen clause:
RESUME at the trapped word again, or after a TRAP, SKIP at the next word; REPLACE of an ACCESS trap re-executes the word with the
record's lanes left out; ABORT retires the thread, once its accesses are performed. A trap that is no word's leaves trap mode with the
frozen frontier, and REPLACE of an asynchronous ERROR writes the replacements into the destination words of the record; of another
asynchronous trap, or of one taken at a fetch, it does what SKIP does. A handler clause with YIELD lets the wave be passed over. Outside
trap mode each is an OPERAND trap; while an operation is outstanding all four wait. That an ERROR of a word's own table walk is replaced as
an ACCESS trap is the model's choice (log 94). -/
def Obligations.TrapReturns : Prop :=
  ∀ (s : State) (t : Thread) (c : Clause) (h : Hd), Issues s t c → taking s t c h ≠ 0 →
    (t.tm = false → exec (.trapretResume h) s = .next (trapWord s t c (operandBad 4 5 0 0)) ∧
      exec (.trapretSkip h) s = .next (trapWord s t c (operandBad 4 5 0 0)) ∧
      exec (.trapretAbort h) s = .next (trapWord s t c (operandBad 4 5 0 0)) ∧
      ∀ a, exec (.trapretReplace h a) s = .next (trapWord s t c (operandBad 4 5 0 0))) ∧
    (t.tm = true → t.tmBusy = true → exec (.trapretResume h) s = .next (waits s t .trapret) ∧
      exec (.trapretSkip h) s = .next (waits s t .trapret) ∧ exec (.trapretAbort h) s = .next (waits s t .trapret) ∧
      ∀ a, replBad (s.view t c h) a = none → exec (.trapretReplace h a) s = .next (waits s t .trapret)) ∧
    (∀ a b, t.tm = true → replBad (s.view t c h) a = some b → exec (.trapretReplace h a) s = .next (trapWord s t c b)) ∧
    (t.tm = true → t.tmBusy = false → ownPending s.a t.uid = true → exec (.trapretAbort h) s = .next (waits s t .order)) ∧
    (∀ r f k, t.tm = true → t.tmBusy = false → t.record = some r → t.frozen = some f → f.clause = some k →
      (r.cls ≠ .software → exec (.trapretResume h) s = .next (returned s c (thawed t f))) ∧
      (r.cls = .software → exec (.trapretResume h) s = .next (returned s c (advance (thawed t f) k (k.sizeAt k.pos)))) ∧
      exec (.trapretSkip h) s = .next (returned s c (advance (thawed t f) k (k.sizeAt k.pos))) ∧
      (∀ a, r.cls = .access ∨ (r.cls = .error ∧ r.fetch = false) → replBad (s.view t c h) a = none → ∃ words,
        exec (.trapretReplace h a) s = .next (returned s c (replacing (thawed t f) r.mask words)) ∧
        ∀ i l, i < replCount t → l < 32 → r.mask.getLsbD l = true → tget words (32 * i + l) = some (replWord t a i l)) ∧
      (∀ a, r.cls ≠ .access → r.cls ≠ .error → replBad (s.view t c h) a = none → exec (.trapretReplace h a) s =
        .next (returned s c (advance (thawed t f) k (k.sizeAt k.pos))))) ∧
    (∀ r, t.tm = true → t.tmBusy = false → t.record = some r → ownPending s.a t.uid = false → exec (.trapretAbort h) s =
      .next (withA s (yieldAfter (retireThread s.a s.time t true) (s.view t c h)))) ∧
    (∀ r f, t.tm = true → t.tmBusy = false → t.record = some r → t.frozen = some f → f.clause = none →
      (r.cls ≠ .software → exec (.trapretResume h) s = .next (returned s c (thawed t f))) ∧
      (r.async = true → exec (.trapretSkip h) s = .next (returned s c (thawed t f))) ∧
      (∀ a, r.cls = .error → r.fetch = false → replBad (s.view t c h) a = none →
        r.dests.flatten.Pairwise (fun x y => x.reg ≠ y.reg ∨ (x.reg < 0xC0 ∧ x.lane ≠ y.lane)) → (∀ d ∈ r.dests.flatten, d.lane < 32) →
        ∃ t', exec (.trapretReplace h a) s = .next (returned s c t') ∧ Replaced (thawed t f) t' r a) ∧
      (∀ a, r.async = true → r.cls ≠ .error → r.cls ≠ .access → replBad (s.view t c h) a = none →
        exec (.trapretReplace h a) s = .next (returned s c (thawed t f))))

/-! ## Classes 4 and 5: accesses -/

/-- R104, R105, R107, R340 to R342, R344, R345: each vector access word traps on its first failed check, waits for its sources, and
else issues one operation over the addresses of the lanes that take part, counted on its flag: nothing else changes. Where a REPLACE is
pending (R214) the lanes that it names take no part, and each takes the words of the REPLACE instead. That the trap of LDMETA and STMETA
reports the size 1 is the model's choice (log 65). -/
def Obligations.VectorAccessWords : Prop :=
  (∀ (s : State) (t : Thread) (c : Clause) (q : Repl), Issues s t c → t.level = .lg → t.repl = some q →
    (∀ h, taking s t c h = guardLanes t c h &&& ~~~q.mask) ∧
    ∀ h mw m inv (r : Fin 192) a b, taking s t c h = 0 → r.val + mw.words ≤ 192 →
      firstBad [vecBad (s.view t c h) ({ j := 0, o := .v r, n := mw.words, dst := true } :: fields4 a b), (s.view t c h).selBad m.fsel] =
        none → (s.view t c h).arrived (fields4 a b) = true → ∃ t', exec (.ld h mw m inv (.v r) a b) s = .next (moved s t' c h) ∧
      { t' with regs := t.regs } = t ∧ { t'.regs with v := t.regs.v, badV := t.regs.badV } = t.regs ∧
      ∀ j l, l < 32 → t'.getV j l =
        if (guardLanes t c h).getLsbD l = true ∧ q.mask.getLsbD l = true ∧ r.val ≤ j ∧ j < r.val + mw.words then
          tgetD q.words (32 * (j - r.val) + l) 0 else t.getV j l) ∧
  ∀ (s : State) (t : Thread) (c : Clause), Issues s t c → t.level = .lg → t.repl = none →
    (∀ h mw m inv d a b, WaitEnds s t c
      (firstBad [vecBad (s.view t c h) ({ j := 0, o := d, n := mw.words, dst := true } :: fields4 a b), (s.view t c h).selBad m.fsel])
      ((s.view t c h).arrived (fields4 a b)) (exec (.ld h mw m inv d a b) s)
      (Issued s t c h m inv .rd mw.bytes (fun _ _ => none) none (byLane s t c h (sum64 s t c h a b))
        (.load mw.bytes mw.signed (destsOf s t c h d)) (exec (.ld h mw m inv d a b) s))) ∧
    (∀ h mw m a b e, WaitEnds s t c
      (firstBad [vecBad (s.view t c h) (fields4 a b ++ [{ j := 3, o := e, n := mw.words, dst := false }]), (s.view t c h).selBad m.fsel])
      ((s.view t c h).arrived (fields4 a b ++ [{ j := 3, o := e, n := mw.words, dst := false }])) (exec (.st h mw m a b e) s)
      (Issued s t c h m false .w mw.bytes (fun _ _ => none) none (byLane s t c h (sum64 s t c h a b))
        (.store mw.bytes ((Lanes.toList (taking s t c h)).flatMap (fun l =>
          storeData mw.bytes l ((s.view t c h).runVal mw.words 3 e l)))) (exec (.st h mw m a b e) s))) ∧
    (∀ h op m nr sgn sz d a b e, WaitEnds s t c
      (firstBad [vecBad (s.view t c h) ((atomFields op nr sz d b e).filter (·.dst) ++ [{ j := 1, o := a, n := 2, dst := false }] ++
        (atomFields op nr sz d b e).filter (fun f => !f.dst)), (s.view t c h).selBad m.fsel])
      ((s.view t c h).arrived ([{ j := 1, o := a, n := 2, dst := false }] ++ (atomFields op nr sz d b e).filter (fun f => !f.dst)))
      (exec (.atom h op m nr sgn sz d a b e) s)
      (Issued s t c h m false .rdw sz.bytes (fun _ va => if va % sz.bytes = 0 then none else some .align) none
        (byLane s t c h (fun l => ((s.view t c h).rd64 1 a l).toNat))
        ((s.view t c h).atomWhat op nr sgn sz d b e (Lanes.toList (taking s t c h))) (exec (.atom h op m nr sgn sz d a b e) s))) ∧
    (∀ h mw m (win : Fin 6) d a b, WaitEnds s t c
      (firstBad [vecBad (s.view t c h) ({ j := 0, o := d, n := mw.words, dst := true } :: fields5 a b), (s.view t c h).selBad m.fsel])
      ((s.view t c h).arrived (fields5 a b)) (exec (.lds h mw m win d a b) s)
      (Issued s t c h m false .rd mw.bytes (fun _ va => offBad win.val va) none
        (byLane s t c h (fun l => 0x7F000000000000 + win.val * 0x200000 + (((s.view t c h).rd 1 a l) + ((s.view t c h).rd 2 b l)).toNat))
        (.load mw.bytes mw.signed (destsOf s t c h d)) (exec (.lds h mw m win d a b) s))) ∧
    (∀ h mw m (win : Fin 6) a b e, WaitEnds s t c
      (firstBad [vecBad (s.view t c h) (fields5 a b ++ [{ j := 3, o := e, n := mw.words, dst := false }]), (s.view t c h).selBad m.fsel])
      ((s.view t c h).arrived (fields5 a b ++ [{ j := 3, o := e, n := mw.words, dst := false }])) (exec (.sts h mw m win a b e) s)
      (Issued s t c h m false .w mw.bytes (fun _ va => offBad win.val va) none
        (byLane s t c h (fun l => 0x7F000000000000 + win.val * 0x200000 + (((s.view t c h).rd 1 a l) + ((s.view t c h).rd 2 b l)).toNat))
        (.store mw.bytes ((Lanes.toList (taking s t c h)).flatMap (fun l =>
          storeData mw.bytes l ((s.view t c h).runVal mw.words 3 e l)))) (exec (.sts h mw m win a b e) s))) ∧
    (∀ h op m (win : Fin 6) nr sgn sz d a b e, WaitEnds s t c
      (firstBad [vecBad (s.view t c h) ((atomFields op nr sz d b e).filter (·.dst) ++ [{ j := 1, o := a, n := 1, dst := false }] ++
        (atomFields op nr sz d b e).filter (fun f => !f.dst)), (s.view t c h).selBad m.fsel])
      ((s.view t c h).arrived ([{ j := 1, o := a, n := 1, dst := false }] ++ (atomFields op nr sz d b e).filter (fun f => !f.dst)))
      (exec (.atoms h op m win nr sgn sz d a b e) s)
      (Issued s t c h m false .rdw sz.bytes
        (fun _ va => if va % sz.bytes = 0 then offBad win.val va else some .align) none
        (byLane s t c h (fun l => 0x7F000000000000 + win.val * 0x200000 + ((s.view t c h).rd 1 a l).toNat))
        ((s.view t c h).atomWhat op nr sgn sz d b e (Lanes.toList (taking s t c h))) (exec (.atoms h op m win nr sgn sz d a b e) s))) ∧
    (∀ h m d a, WaitEnds s t c
      (firstBad [vecBad (s.view t c h) [{ j := 0, o := d, n := 2, dst := true }, { j := 1, o := a, n := 2, dst := false }],
        (s.view t c h).selBad m.fsel])
      ((s.view t c h).arrived [{ j := 1, o := a, n := 2, dst := false }]) (exec (.ldmeta h m d a) s)
      (Issued s t c h m false .rd 1 (fun _ _ => none) none (byLane s t c h (fun l => ((s.view t c h).rd64 1 a l).toNat))
        (.ldmeta (destsOf s t c h d)) (exec (.ldmeta h m d a) s))) ∧
    (∀ h m a e, WaitEnds s t c
      (firstBad [vecBad (s.view t c h) [{ j := 1, o := a, n := 2, dst := false }, { j := 3, o := e, n := 2, dst := false }],
        (s.view t c h).selBad m.fsel])
      ((s.view t c h).arrived [{ j := 1, o := a, n := 2, dst := false }, { j := 3, o := e, n := 2, dst := false }])
      (exec (.stmeta h m a e) s)
      (Issued s t c h m false .w 1 (fun _ _ => none) none (byLane s t c h (fun l => ((s.view t c h).rd64 1 a l).toNat))
        (.stmeta ((Lanes.toList (taking s t c h)).map (fun l => (l, (s.view t c h).runVal 2 3 e l)))) (exec (.stmeta h m a e) s)))

/-- R341, R342, R344: SLD, SST and SATOM make one access for the whole wave or frame, by its lowest lane that takes part. Where a REPLACE is
pending (R214) the word makes no access, and an SLD's destination takes the words of the REPLACE in the lowest of its lanes. That the trap
of such an access reports every lane that takes part is the model's choice (log 71). -/
def Obligations.ScalarAccessWords : Prop :=
  (∀ (s : State) (t : Thread) (c : Clause) (q : Repl), Issues s t c → t.repl = some q → ∀ h mw m inv (n : Fin 48) a b,
    firstBad [dstS mw.words (.s n), srcU64 1 a, srcU 2 b, (s.view t c h).selBad m.fsel] = none →
    ∃ t', exec (.sld h mw m inv (.s n) a b) s = .next (moved s t' c h) ∧ { t' with regs := t.regs, bank := t.bank } = t ∧
      { t'.regs with s := t.regs.s, badS := t.regs.badS } = t.regs ∧ (guardLanes t c h &&& q.mask = 0 → t' = t) ∧
      ∀ l, l < 32 → (guardLanes t c h &&& q.mask).getLsbD l = true → (∀ k, k < l → (guardLanes t c h &&& q.mask).getLsbD k = false) →
        ∀ j, j < 48 → t'.getS j = if n.val ≤ j ∧ j < n.val + mw.words then tgetD q.words (32 * (j - n.val) + l) 0 else t.getS j) ∧
  ∀ (s : State) (t : Thread) (c : Clause), Issues s t c → t.repl = none →
    (∀ h mw m inv d a b, Ends s t c (firstBad [dstS mw.words d, srcU64 1 a, srcU 2 b, (s.view t c h).selBad m.fsel])
      (exec (.sld h mw m inv d a b) s)
      (Issued s t c h m inv .rd mw.bytes (fun _ _ => none) (some (taking s t c h)) (byFirst s t c h (sum64 s t c h a b 0))
        (.load mw.bytes mw.signed ((firstLane s t c h).map (fun l => (l, (s.view t c h).destReg d l)))) (exec (.sld h mw m inv d a b) s))) ∧
    (∀ h mw m a b e, Ends s t c (firstBad [srcU64 1 a, srcU 2 b, srcRunU 3 mw.words e, (s.view t c h).selBad m.fsel])
      (exec (.sst h mw m a b e) s)
      (Issued s t c h m false .w mw.bytes (fun _ _ => none) (some (taking s t c h)) (byFirst s t c h (sum64 s t c h a b 0))
        (.store mw.bytes ((firstLane s t c h).flatMap (fun l => storeData mw.bytes l ((s.view t c h).runVal mw.words 3 e l))))
        (exec (.sst h mw m a b e) s))) ∧
    (∀ h op m nr sgn sz d a b e, Ends s t c
      (firstBad [if nr then none else dstS sz.words d, srcU64 1 a, srcRunU 2 sz.words b,
        if op = .cas then srcRunU 3 sz.words e else none, (s.view t c h).selBad m.fsel])
      (exec (.satom h op m nr sgn sz d a b e) s)
      (Issued s t c h m false .rdw sz.bytes (fun _ va => if va % sz.bytes = 0 then none else some .align) (some (taking s t c h))
        (byFirst s t c h ((s.view t c h).rs64 a).toNat)
        ((s.view t c h).atomWhat op nr sgn sz d b e (firstLane s t c h)) (exec (.satom h op m nr sgn sz d a b e) s)))

/-- R108, R347: FRAME moves sr.sp by A and writes the VA of the new top of the private stack; beyond the high-water mark the wave
parks with event 2, and beyond the stride, or without a context, it takes the GROWTH trap. -/
def Sys2Proof.Spec.FrameWord : Prop :=
  ∀ (s : State) (t : Thread) (c : Clause) (h : Hd) (d a : Opnd), Issues s t c → t.level = .lg → dstS 2 d = none →
    srcU 1 a = none → taking s t c h ≠ 0 →
    let n : Int := (t.sr.sp : Int) + ((s.view t c h).rs a).toInt
    let growth : Bad := { cls := .growth, addr := BitVec.ofInt 64 n, synd := 0, mask := none, kind := 0, kinds := 0 }
    (n % 16 = 0 → s.a.ctx t.unit.pkg t.ctx = none → exec (.frame h d a) s = .next (trapWord s t c growth)) ∧
    ∀ k : Ctx, s.a.ctx t.unit.pkg t.ctx = some k →
    (n % 16 ≠ 0 → exec (.frame h d a) s = .next (trapWord s t c (operandBad 1 6 0 (BitVec.ofInt 64 n)))) ∧
    (n % 16 = 0 → 0 ≤ n → n ≤ k.hwm → n ≤ k.pstride → exec (.frame h d a) s = .next (moved s
      ({ t with sr := { t.sr with sp := n.toNat } }.wr64 d (BitVec.ofNat 64 (k.privBase +
        (bits t.waveid.toNat 6 8 * 48 + t.waveid.toNat % 64) * k.pstride + n.toNat))) c h)) ∧
    (n % 16 = 0 → (k.hwm : Int) < n → n ≤ k.pstride → t.wait ≠ some (.park n.toNat) → exec (.frame h d a) s = .next
      (withA s ((s.a.event s.time t.unit.pkg 2 t.ctx 0 t.waveid.toNat n.toNat).modThread t.uid
        (fun t' => { t' with wait := some (.park n.toNat) })))) ∧
    (n % 16 = 0 → (n < 0 ∨ (k.pstride : Int) < n) → exec (.frame h d a) s = .next (trapWord s t c growth))

/-- R346, R348, R349, R351, R124, R125: FLUSH drops the lines of its range in its scope; MIGRATE records the target berth for the end
of the clause; CLAIM issues one command over whole range entries; FENCE records a fence over what was issued before it. That FLUSH has
nothing to write back and is complete at once, for every line is clean, is the model's reading (DEDUCED, log 14). -/
def Sys2Proof.Spec.ScopeAndPlaceWords : Prop :=
  ∀ (s : State) (t : Thread) (c : Clause), Issues s t c → ∀ h, taking s t c h ≠ 0 →
    (∀ m a b, firstBad [srcU64 1 a, srcU 2 b, (s.view t c h).selBad m.fsel] = none →
      (s.view t c h).flagFull m.fsel = false → ∃ ls, exec (.flush h m a b) s = .next (past s { s.a with lines := ls } t c h) ∧
        ∀ e, e ∈ ls ↔ e ∈ s.a.lines ∧
          ¬(((s.view t c h).rs b).toNat ≠ 0 ∧ nodeIn (scopeUnit s.a t (if (s.a.resolve t m.lvl).code < 2 then .clu else s.a.resolve t m.lvl)) (lineNode e.1) = true ∧
            lineCtx e.1 = t.ctx ∧ lineVa e.1 < ((s.view t c h).rs64 a).toNat + ((s.view t c h).rs b).toNat ∧
            ((s.view t c h).rs64 a).toNat < lineVa e.1 + 128)) ∧
    (∀ a, t.level = .lg → srcU64 1 a = none → t.spec.isOpen = false → holdsCv s.a t = false → t.tm = false →
      let got := gather s.a s.mem s.time t .rd 1 (fun _ _ => none) (byFirst s t c h ((s.view t c h).rs64 a).toNat)
      got.2.1 = [] → ∀ p, got.1 = [p] → exec (.migrate h a) s = .next (past s (got.2.2.modThread t.uid (fun t' =>
        { t' with mig := if migrateTarget p.x = (t.unit.pkg, t.unit.idx / 48) then none else some (migrateTarget p.x) })) t c h)) ∧
    (∀ m a b es, t.level = .lg → firstBad [srcU64 1 a, srcU64 2 b, (s.view t c h).selBad m.fsel] = none →
      (s.view t c h).flagFull m.fsel = false → fenceWait s.a t true = false →
      let va := ((s.view t c h).rs64 a).toNat
      let n := ((s.view t c h).rs64 b).toNat
      n ≠ 0 → va / 2 ^ 48 ≠ 0x7F → va < 2 ^ 55 → va + n ≤ 2 ^ 55 →
      claimRange s.a s.mem (agentOf s.a t) (n / 65536 + 1) va (va + n - 1) = .ok es → mirrorBad s.a t.unit.pkg (t.unit.idx / 48) es = none →
      exec (.claim h m a b) s = .next (commanded s t c h ((s.view t c h).mkCmd (.claim va n t.unit.pkg (t.unit.idx / 48) 0) m.fsel m
        (claimLegs t.unit.pkg (t.unit.idx / 48) es) none none))) ∧
    (∀ lvl acq rel mx cp, (mx = true → t.isWave = true) →
      let l := s.a.resolve t lvl
      let u := scopeOf s.a t l
      let f : FenceRec := { id := s.a.nextId, form := (if acq && rel then 0 else if rel then 1 else 2) + b2n mx * 4 + b2n cp * 8, scope := u }
      let numbered := { s.a with nextId := s.a.nextId + 1 }
      let acquired := if acq then fenceAcquire numbered t f.id u else numbered
      exec (.fence h lvl acq rel mx cp) s =
        .next (past s ((if acq && rel then markSeen acquired t.uid f.id u true .direct else acquired).modThread t.uid (fun x =>
          { x with fences := x.fences.filter (fenceLive s.a x.uid) ++ [f], acqMx := if acq && mx then some l else x.acqMx,
                   acqCp := if acq && cp then some l else x.acqCp })) t c h))

/-! ## Class 5: crew barriers -/

/-- R58, R352: BARARR awaits the wave's own accesses (its release at CORE), arrives and records the phase; BARWAIT goes on when that
phase has completed, with an acquire at CORE, else waits; BARSYNC does both, and its waiting half needs no membership; BARCFG sets the members and the engine count when nothing
has arrived. -/
def Obligations.CrewBarrierWords : Prop :=
  ∀ (s : State) (t : Thread) (c : Clause) (k : Crew) (b : Fin 16) (x : CrewBar) (h : Hd), Issues s t c → t.level = .lg →
    taking s t c h ≠ 0 → s.a.crew t.crew = some k → b.val < k.nbar → tget k.bars b.val = some x →
    (x.members / 2 ^ t.wnum % 2 = 1 → x.arrived / 2 ^ t.wnum % 2 = 0 → exec (.bararr h b) s = .next
      (if ownPending s.a t.uid = true then waits s t .order else past s (arriveAt s.a t k b.val x) t c h)) ∧
    (x.members / 2 ^ t.wnum % 2 = 1 → x.arrived / 2 ^ t.wnum % 2 = 1 → exec (.bararr h b) s = .next (waits s t .crewBarBusy)) ∧
    (x.members / 2 ^ t.wnum % 2 ≠ 1 → exec (.bararr h b) s = .next (trapWord s t c (operandBad 4 5 0 (BitVec.ofNat 64 b.val)))) ∧
    (tget t.pbar b.val = none → exec (.barwait h b) s = .next (moved s t c h)) ∧
    (∀ ph, tget t.pbar b.val = some ph → ph < x.phase →
      exec (.barwait h b) s = .next (past s (leaveBar t s.a b.val) t c h)) ∧
    (∀ ph, tget t.pbar b.val = some ph → x.phase ≤ ph → exec (.barwait h b) s = .next (waits s t (.crewBar b.val ph))) ∧
    (∀ ph, t.wait = some (.crewBar b.val ph) → exec (.barsync h b) s = .next
      (if ph < x.phase then past s (leaveBar t s.a b.val) t c h else waits s t (.crewBar b.val ph))) ∧
    ((∀ j ph, t.wait ≠ some (.crewBar j ph)) → x.members / 2 ^ t.wnum % 2 = 1 → x.arrived / 2 ^ t.wnum % 2 = 0 →
      ownPending s.a t.uid = true → exec (.barsync h b) s = .next (waits s t .order)) ∧
    ((∀ j ph, t.wait ≠ some (.crewBar j ph)) → x.members / 2 ^ t.wnum % 2 = 1 → x.arrived / 2 ^ t.wnum % 2 = 0 →
      ownPending s.a t.uid = false → ((((arriveAt s.a t k b.val x).crew t.crew).bind (fun c => tget c.bars b.val)).getD x).phase ≤ x.phase →
      exec (.barsync h b) s = .next (withA s ((arriveAt s.a t k b.val x).modThread t.uid
        (fun t' => { t' with wait := some (.crewBar b.val x.phase) })))) ∧
    ((∀ j ph, t.wait ≠ some (.crewBar j ph)) → x.members / 2 ^ t.wnum % 2 = 1 → x.arrived / 2 ^ t.wnum % 2 = 0 →
      ownPending s.a t.uid = false →
      x.phase < ((((arriveAt s.a t k b.val x).crew t.crew).bind (fun c => tget c.bars b.val)).getD x).phase →
      exec (.barsync h b) s = .next (past s (leaveBar t (arriveAt s.a t k b.val x) b.val) t c h)) ∧
    (∀ (e : Fin 16) a, srcU 1 a = none → (∀ j ph, t.wait ≠ some (.crewBar j ph)) →
      (x.arrived = 0 → x.count = 0 → exec (.barcfg h b e a) s =
        .next (past s (s.a.setBar k b.val (x.config (((s.view t c h).rs a).toNat &&& crewMask s.a k.id) e.val)) t c h)) ∧
      ((x.arrived ≠ 0 ∨ x.count ≠ 0) → exec (.barcfg h b e a) s = .next (waits s t (.crewBar b.val x.phase)))) ∧
    (∀ ms e, x.arrived = 0 → x.count = 0 → x.heldEngine = 0 → x.config ms e =
      { x with members := ms, e := e, phase := if ms = 0 ∧ e = 0 then x.phase + 1 else x.phase })

/-! ## Class 6 -/

/-- R111, R353 to R359: COPY and SPUSH put one command to their engine, counted on the flag; SPOP takes bytes that are in the stream
and waits for others; QCFG empties and configures a stream; WPRD reads a write pointer. -/
def Sys2Proof.Spec.CopyStreamWords : Prop :=
  ∀ (s : State) (t : Thread) (c : Clause) (h : Hd), Issues s t c → taking s t c h ≠ 0 →
    (∀ m (bar : Fin 16) be (ch : Fin 4) d a b e, t.level = .lg → copyChecks s t c h false m bar.val be d a b e = none →
      (s.view t c h).flagFull m.fsel = false → fenceWaitPath s.a t false = false →
      exec (.copyIn h m bar be ch d a b e) s = .next (commanded s t c h ((s.view t c h).mkCmd (.copyIn ch.val) m.fsel m
        [leg (.va (agentOf s.a t) ((s.view t c h).rs64 a).toNat) (.va (agentOf s.a t) ((s.view t c h).rs64 b).toNat)
          ((s.view t c h).rs e).toNat] (statusReg d) (if be then some bar.val else none)))) ∧
    (∀ m (bar : Fin 16) d a b e, t.level = .lg → copyChecks s t c h true m bar.val false d a b e = none →
      (s.view t c h).flagFull m.fsel = false → fenceWaitPath s.a t false = false →
      exec (.copyOut h m bar false 0 d a b e) s = .next (commanded s t c h ((s.view t c h).mkCmd .copyOut m.fsel m
        [leg (.va (agentOf s.a t) ((s.view t c h).rs64 a).toNat) (.va (agentOf s.a t) ((s.view t c h).rs64 b).toNat)
          ((s.view t c h).rs e).toNat] (statusReg d) none))) ∧
    (∀ m d a b e out, t.isWave = false → copyChecks s t c h out m 0 false d a b e = none →
      (s.view t c h).flagFull m.fsel = false → fenceWaitPath s.a t false = false →
      exec (if out then .copyOut h m 0 false 0 d a b e else .copyIn h m 0 false 0 d a b e) s =
        .next (commanded s t c h ((s.view t c h).mkCmd .copySeq m.fsel m
          [leg (.va (agentOf s.a t) ((s.view t c h).rs64 a).toNat) (.va (agentOf s.a t) ((s.view t c h).rs64 b).toNat)
            ((s.view t c h).rs e).toNat] (statusReg d) none))) ∧
    (∀ m (q : Fin 4) d a b k st, t.level = .lg → s.a.crew t.crew = some k → tget k.streams q.val = some st → q.val < k.nq →
      firstBad [dstS 1 d, srcU64 1 a, srcU 2 b, (s.view t c h).selBad m.fsel, rightsOf s.a t] = none →
      ((s.view t c h).rs b).toNat % 16 = 0 → 16 ≤ ((s.view t c h).rs b).toNat → ((s.view t c h).rs b).toNat ≤ st.cap →
      ((s.view t c h).rs64 a).toNat % 16 = 0 → (s.view t c h).flagFull m.fsel = false → fenceWaitPath s.a t false = false →
      exec (.spush h m q d a b) s = .next (commanded s t c h ((s.view t c h).mkCmd (.spush q.val false 0) m.fsel m
        [leg (.va (agentOf s.a t) ((s.view t c h).rs64 a).toNat) (.va (agentOf s.a t) 0) ((s.view t c h).rs b).toNat]
        (statusReg d) none))) ∧
    (∀ (q : Fin 4) a k st, t.level = .lg → s.a.crew t.crew = some k → tget k.streams q.val = some st → q.val < k.nq →
      srcU 1 a = none → ((s.view t c h).rs a).toNat % 16 = 0 → ((s.view t c h).rs a).toNat ≤ st.cap →
      ((∀ p n j, t.wait ≠ some (.spop p n j)) → exec (.spop h q a) s = .next (if ownPending s.a t.uid = true then waits s t .order
        else if ((s.view t c h).rs a).toNat ≤ st.wp - st.rp ∧ popWaiters s.a k.id q.val = [] then
          past s (popStream (releaseAt s.a t .core) k.id q.val ((s.view t c h).rs a).toNat) t c h
        else withA s { s.a.setThread { t with wait := some (.spop q.val ((s.view t c h).rs a).toNat s.a.nextId) } with
          nextId := s.a.nextId + 1 })) ∧
      (∀ p n j, t.wait = some (.spop p n j) → exec (.spop h q a) s = .next (waits s t (.spop p n j)))) ∧
    (∀ (q : Fin 4) a b k, t.level = .lg → s.a.crew t.crew = some k → q.val < k.nq → srcU 1 a = none → srcU 2 b = none →
      rightsOf s.a t = none → ((s.view t c h).rs b).toNat % 16 = 0 → 16 ≤ ((s.view t c h).rs b).toNat →
      ((s.view t c h).rs b).toNat ≤ 1472 * 1024 → ((s.view t c h).rs a).toNat % 16 = 0 → k.base ≤ ((s.view t c h).rs a).toNat →
      ((s.view t c h).rs a).toNat + ((s.view t c h).rs b).toNat ≤ k.base + k.size →
      let st : Stream := { base := ((s.view t c h).rs a).toNat, cap := ((s.view t c h).rs b).toNat, wp := 0, rp := 0, rs := 0 }
      exec (.qcfg h q a b) s = .next (if (pushesOf s.a k.id q.val).isEmpty = true then
        past s (s.a.setCrew { k with streams := tset k.streams q.val st }) t c h else waits s t .qcfg)) ∧
    (∀ m (n : Fin 4) d k, t.level = .lg → s.a.crew t.crew = some k → dstS 2 d = none →
      exec (.wprd h m false n d) s = .next (past s
        ((if m.acq then acquireAt s.a t (s.a.resolve t m.lvl) else s.a).modThread t.uid
        (fun t' => t'.wr64 d (BitVec.ofNat 64 (tgetD k.chans n.val 0)))) t c h)) ∧
    (∀ m (n : Fin 4) d k st, t.level = .lg → s.a.crew t.crew = some k → tget k.streams n.val = some st → n.val < k.nq →
      dstS 2 d = none →
      exec (.wprd h m true n d) s = .next (past s
        ((if m.acq then acquireAt s.a t (s.a.resolve t m.lvl) else s.a).modThread t.uid
        (fun t' => t'.wr64 d (BitVec.ofNat 64 st.wp))) t c h))

/-- R355: ACOPY issues one operation that loads 16 bytes and stores them to the own-core window, per lane, when every lane's two
accesses are allowed. -/
def Sys2Proof.Spec.AcopyWord : Prop :=
  ∀ (s : State) (t : Thread) (c : Clause) (h : Hd), Issues s t c → t.level = .lg → ∀ m a b,
    WaitEnds s t c (firstBad [vecBad (s.view t c h) (fields4 a b), (s.view t c h).selBad m.fsel])
      ((s.view t c h).arrived (fields4 a b)) (exec (.acopy h m a b) s)
      (taking s t c h ≠ 0 → (s.view t c h).flagFull m.fsel = false → fenceWait s.a t true = false →
        let rs := gather s.a s.mem s.time t .rd 16 (fun _ va => if va % 16 = 0 then none else some .align)
          (byLane s t c h (fun l => ((s.view t c h).rd64 1 a l).toNat))
        let rd := gather rs.2.2 s.mem s.time t .w 16 (fun _ va => if va % 16 = 0 then offBad 0 va else some .align)
          (byLane s t c h (fun l => 0x7F000000000000 + ((s.view t c h).rd 2 b l).toNat))
        rs.2.1 = [] → rd.2.1 = [] →
        IssuedOp s t c h m false false (.acopy (tsets [] (rd.1.map (fun p => (p.lane, p.x.fa))))) rs.1 (exec (.acopy h m a b) s))

namespace Sys2Proof.Spec

/-- A launch above CORE creates `d.count` frames and changes nothing else: frame `i` goes to chosen child `i mod n`, waits in the
pending queue of its sequencer while that has room, and starts at the descriptor's PC with its argument in s0 and s1 (R29, R367). -/
def Launched (s : State) (t : Thread) (c : Clause) (h : Hd) (a : Arch) (va : Nat) (d : LDesc) (mask : Nat) (out : Out) : Prop :=
  let ks := chosen mask (maskWidth t.level)
  ∃ a', out = .next (past s a' t c h) ∧ { a' with threads := a.threads, nextId := a.nextId } = a ∧
    a'.nextId = a.nextId + 1 + d.count ∧
    (∀ u, u ≤ a.nextId ∨ a.nextId + d.count < u → a'.thread u = a.thread u) ∧
    (∀ i, i < d.count → ∃ x, a'.thread (a.nextId + 1 + i) = some x ∧ x.uid = a.nextId + 1 + i ∧
      x.unit = childUnit t.unit (ks.getD (i % ks.length) 0) ∧ x.level = x.unit.level ∧ x.tile = i ∧ x.ntiles = d.count ∧
      x.desc = va ∧ x.parent = some t.uid ∧ x.launch = a.nextId ∧ x.tree = t.tree ∧ x.ctx = t.ctx ∧ x.sr.prio = t.sr.prio ∧
      x.front = [{ pc := d.pc, prio := none, lanes := 1, pass := 0 }] ∧ x.clause = none ∧ x.wait = none ∧ x.tm = false ∧
      x.getS 0 = BitVec.ofNat 32 d.arg ∧ x.getS 1 = BitVec.ofNat 32 (d.arg / 2 ^ 32) ∧ (∀ n, 2 ≤ n → x.getS n = 0) ∧
      x.phase = if i / ks.length < (if heldFor a x.unit then 0 else 64 - pendingOn a x.unit) then .pending else .held)

/-- An MCOPY is put to its engine as one command with `legs`; it counts on the issuer's flag, and on the same flag of each wave that
takes part (R373); nothing else changes. -/
def MCopied (s : State) (t : Thread) (c : Clause) (h : Hd) (a : Arch) (l : Level) (up : Bool) (f : FSel) (bar : Option Nat)
    (legs : List Leg) (out : Out) : Prop :=
  let w := s.view t c h
  ∃ a' k, out = .next (past s a' t c h) ∧
    { a' with threads := a.threads, cmds := a.cmds, nextId := a.nextId } = a ∧
    a'.nextId = a.nextId + 1 ∧ a'.cmds = tset a.cmds a.nextId k ∧
    k.id = a.nextId ∧ k.owner = .thread t.uid ∧ k.kind = .mcopy l up ∧ k.legs = legs ∧ k.flag = w.sel f ∧ k.bar = bar ∧
    k.pkg = t.unit.pkg ∧ k.ctx = t.ctx ∧ k.statCode = 0 ∧ k.faulted = false ∧
    (∀ u y, a.thread u = some y → ∃ y', a'.thread u = some y' ∧
      { y' with regs := y.regs, tmCounts := y.tmCounts } = y ∧ { y'.regs with f := y.regs.f } = y.regs ∧
      ∀ j, y'.getF j = y.getF j +
        if w.sel f = some j then legs.countP (fun x => decide (x.wave = some u)) + (if u = t.uid then 1 else 0) else 0)

end Sys2Proof.Spec

/-! ## Class 7 -/

/-- R29, R62, R364, R366, R367: a launch of a cluster, die, package or pod frame reads its descriptor, and its gang block in the gang
form, traps when they are wrong, and else creates the frames that the descriptor names. That the gang form reads and checks its block
above CORE too is the model's reading (DEDUCED, log 31). The frames come after the launching frame's release at its level (R46). -/
def Sys2Proof.Spec.LaunchFrames : Prop :=
  ∀ (s : State) (t : Thread) (c : Clause) (h : Hd) (lvl : LvlCode) (o : Opnd), Issues s t c → t.level ≠ .lg →
    t.level ≠ .core → s.a.resolve t lvl = t.level → srcU64 1 o = none → ((s.view t c h).rs64 o).toNat % 64 = 0 →
    taking s t c h ≠ 0 → ownPending s.a t.uid = false → fenceWait s.a t false = false →
    passedPending s.a t.uid s.a.nextId = false →
    let w := s.view t c h
    let va := (w.rs64 o).toNat
    let ends (a : Arch) (d : LDesc) (gang : Option (List Byte)) (out : Out) : Prop :=
      (∀ x, framesBad w d gang = some x → out = .next (trapWord s t c x)) ∧
      (framesBad w d gang = none → t.level ≠ .pod → Launched s t c h (releaseAt a t t.level) va d d.mask out) ∧
      (framesBad w d gang = none → t.level = .pod → ∀ a2 m, w.readIssue a d.mask 128 = .ok (a2, some m) →
        (∀ x, placeBad w t.unit (leVal m) = some x → out = .next (trapWord s t c x)) ∧
        (placeBad w t.unit (leVal m) = none → Launched s t c h (releaseAt a2 t t.level) va d (leVal m) out))
    ∀ a1 b, w.readIssue s.a va 64 = .ok (a1, some b) →
      ends a1 (LDesc.of b) none (exec (.launch h lvl o) s) ∧
      (∀ a2 g, w.readIssue a1 (va + 64) 64 = .ok (a2, some g) → ends a2 (LDesc.of b) (some g) (exec (.launchGang h lvl o) s))

/-- R61, R62, R364, R366, R368: a launch of a core frame, with one role or with a gang block, creates one crew that waits for its core,
after the frame's release at its level (R46), or waits itself while eight crews wait there. -/
def Sys2Proof.Spec.LaunchCrew : Prop :=
  ∀ (s : State) (t : Thread) (c : Clause) (h : Hd) (lvl : LvlCode) (o : Opnd), Issues s t c → t.level = .core →
    s.a.resolve t lvl = .core → srcU64 1 o = none → ((s.view t c h).rs64 o).toNat % 64 = 0 → taking s t c h ≠ 0 →
    ownPending s.a t.uid = false → fenceWait s.a t false = false → passedPending s.a t.uid s.a.nextId = false →
    let w := s.view t c h
    let va := (w.rs64 o).toNat
    let ends (a : Arch) (d : LDesc) (gang : Option (List Byte)) (out : Out) : Prop :=
      let a' := releaseAt a t .core
      (∀ x, crewBad d gang = some x → out = .next (trapWord s t c x)) ∧
      (crewBad d gang = none → 8 ≤ (waitingCrews a t.unit.pkg t.unit.idx).length → out = .next (waits s t .launch)) ∧
      (crewBad d gang = none → (waitingCrews a t.unit.pkg t.unit.idx).length < 8 → ∃ k,
        out = .next (past s { a' with nextId := a'.nextId + 1, crews := tset a'.crews a'.nextId k } t c h) ∧
        k.id = a'.nextId ∧ k.core = t.unit.idx ∧ k.pkg = t.unit.pkg ∧ k.ctx = t.ctx ∧ k.tree = t.tree ∧ k.parent = t.uid ∧
        k.started = false ∧ k.count = d.count ∧ k.size = d.spad ∧ k.acc = d.acc ∧ k.nbar = d.nbar ∧ k.ncv = d.ncv ∧ k.nq = d.nq ∧
        k.arg = BitVec.ofNat 64 d.arg ∧ k.gang = gang.isSome ∧
        k.roles = match gang with
          | some g => [(roleOf g 0).1, (roleOf g 1).1, (roleOf g 2).1]
          | none => [{ waves := d.count, vregs := d.vregs, pc := d.pc }])
    ∀ a1 b, w.readIssue s.a va 64 = .ok (a1, some b) →
      ends a1 (LDesc.of b) none (exec (.launch h lvl o) s) ∧
      (∀ a2 g, w.readIssue a1 (va + 64) 64 = .ok (a2, some g) → ends a2 (LDesc.of b) (some g) (exec (.launchGang h lvl o) s))

/-- R32, R46, R369: JOIN waits while a child that the frame launched has not retired, and else makes an acquire at the frame's level. A
wave that SPAWN has placed is no child that the frame launched (the model's reading: DEDUCED, log 62). -/
def Sys2Proof.Spec.JoinWord : Prop :=
  ∀ (s : State) (t : Thread) (c : Clause) (h : Hd) (lvl : LvlCode), Issues s t c → t.level ≠ .lg → taking s t c h ≠ 0 →
    let left := (∃ x, x ∈ tvals s.a.threads ∧ x.parent = some t.uid ∧ x.spawned = false) ∨
      (∃ k, k ∈ tvals s.a.crews ∧ k.parent = t.uid ∧ k.started = false)
    (s.a.resolve t lvl ≠ t.level → exec (.join h lvl) s =
      .next (trapWord s t c (operandBad 4 10 0 (BitVec.ofNat 64 (s.a.resolve t lvl).code)))) ∧
    (s.a.resolve t lvl = t.level → left → exec (.join h lvl) s = .next (waits s t .join)) ∧
    (s.a.resolve t lvl = t.level → ¬ left → exec (.join h lvl) s =
      .next (past s (acquireAt s.a t t.level) t c h))

/-- R33, R34, R370: the last unit to arrive at a level barrier completes the generation of every participant and goes on; an earlier
one waits for its generation, and goes on once that has completed. Arriving is a release at the level, going on an acquire (R46). -/
def Sys2Proof.Spec.BarWord : Prop :=
  ∀ (s : State) (t : Thread) (c : Clause) (h : Hd) (lvl : LvlCode), Issues s t c → taking s t c h ≠ 0 →
    let l := s.a.resolve t lvl
    let here : Arch := (releaseAt s.a t l).modThread t.uid (fun x => { x with wait := some (.bar l.code (t.gen l)) })
    let all := t.saved = false ∧ ∀ p, p ∈ participants here t l → p.saved = false ∧ p.wait = some (.bar l.code (p.gen l))
    (l.code < t.level.code ∨ (s.a.rootLevel t).code < l.code → exec (.bar h lvl) s =
      .next (trapWord s t c (operandBad 4 10 0 (BitVec.ofNat 64 l.code)))) ∧
    (t.level.code ≤ l.code → l.code ≤ (s.a.rootLevel t).code →
      ((∀ k g, t.wait ≠ some (.bar k g)) →
        (ownPending s.a t.uid = true → exec (.bar h lvl) s = .next (waits s t .order)) ∧
        (ownPending s.a t.uid = false → ¬ all → exec (.bar h lvl) s = .next (withA s here)) ∧
        (ownPending s.a t.uid = false → all → t.aborted = false →
          (∀ p, p ∈ participants here t l → here.thread p.uid = some p) →
          (participants here t l).Pairwise (fun p q => p.uid ≠ q.uid) →
          ∃ a, exec (.bar h lvl) s = .next (past s (acquireAt a t l) t c h) ∧
            { a with threads := here.threads, trees := here.trees } = here ∧
            a.trees = tmod here.trees t.tree (fun r =>
              { r with bars := tset r.bars (barKey ((ancestor s.a t l).getD 0) l t.level) (t.gen l + 1) }) ∧
            (∀ p, p ∈ participants here t l → ∃ p', a.thread p.uid = some p' ∧ { p' with barGen := p.barGen } = p ∧
              ∀ k, p'.gen k = if k = l then p.gen l + 1 else p.gen k) ∧
            (∀ u, (∀ p, p ∈ participants here t l → p.uid ≠ u) → a.thread u = here.thread u))) ∧
      (t.wait = some (.bar l.code (t.gen l)) → exec (.bar h lvl) s = .next (waits s t (.bar l.code (t.gen l)))) ∧
      (∀ k g, t.wait = some (.bar k g) → k ≠ l.code ∨ t.gen l ≠ g →
        exec (.bar h lvl) s = .next (past s (acquireAt s.a t l) t c h)))

/-- R37 to R40, R371 to R373: MCOPY.DOWN and MCOPY.UP at CORE, CLU, DIE, PKG and POD put one command with a leg for each chosen child
to the engine. -/
def Sys2Proof.Spec.MulticastCopyWords : Prop :=
  ∀ (s : State) (t : Thread) (c : Clause) (h : Hd) (up be : Bool) (m : MMod) (bar : Fin 16) (crew : Fin 8) (d a b e : Opnd),
    Issues s t c → taking s t c h ≠ 0 →
    let w := s.view t c h
    let l := s.a.resolve t m.lvl
    let pa := (pair64 (t.getS (regNo a)) (t.getS (regNo a + 1))).toNat
    let ca := (pair64 (t.getS (regNo a + 2)) (t.getS (regNo a + 3))).toNat
    let size := (w.rs b).toNat
    let mask := (w.rs64 e).toNat
    let out := exec (if up then .mcopyUp h m bar be crew d a b e else .mcopyDown h m bar be crew d a b e) s
    let bo := if be then some bar.val else none
    firstBad [w.mcopyHandles up l m bo crew.val, dstS 1 d, srcRunS 1 4 a, srcU 2 b, srcU64 3 e] = none → l ≠ .lg → t.level.code ≤ l.code →
    mcopySize l size pa ca = none → w.flagFull m.fsel = false →
    fenceWaitPath s.a t false = false → mask ≠ 0 →
    (∀ k p, l = .core → w.mcopyCrew crew.val = some k →
      levelEnd s.a { agentOf s.a t with crew := some k.id } .core pa = some p → ca < 192 → mask < 2 ^ 32 →
      let ts := crewWaves s.a k.id mask
      (∀ x ∈ ts, ca + size / 128 ≤ x.2.alloc) → ts.length = (chosen mask 32).length → w.wavesFull m.fsel ts = false →
      MCopied s t c h s.a .core up m.fsel bo ((List.range ts.length).zip ts |>.map (fun x =>
        mcopyLeg up p (.regs x.2.2.uid ca) (if up then x.1 * size else 0) size (x.1 + 1) (some x.2.2.uid))) out) ∧
    (∀ p, l = .clu ∨ l = .die ∨ l = .pkg → levelEnd s.a (agentOf s.a t) l pa = some p →
      (∀ j ∈ chosen mask (maskWidth l), (childEnd s.a (agentOf s.a t) (w.mcopyUnit l) j ca).isSome = true) →
      w.childBad l mask = none →
      MCopied s t c h s.a l up m.fsel bo (w.mcopyLegs up l (agentOf s.a t) p ca size mask) out) ∧
    (∀ p a1 bs, l = .pod → levelEnd s.a (agentOf s.a t) .pod pa = some p →
      (childEnd s.a (agentOf s.a t) (w.mcopyUnit .pod) 0 ca).isSome = true → mask % 64 = 0 →
      ownPending s.a t.uid = false → passedPending s.a t.uid s.a.nextId = false → w.readIssue s.a mask 128 = .ok (a1, some bs) →
      w.childBad .pod (leVal bs) = none →
      a1.thread t.uid = some t → agentOf a1 t = agentOf s.a t →
      MCopied s t c h a1 .pod up m.fsel none (w.mcopyLegs up .pod (agentOf s.a t) p ca size (leVal bs)) out)

/-- R65: a record goes to the lowest punnet of its crew and PC, as long as that is filling, or to the lowest empty one when its crew has
none for the PC; it finds no place when that punnet is ready, or when none is empty. -/
def Sys2Proof.Spec.PlacesRecord : Prop :=
  ∀ (a : Arch) (k : Crew) (pc alloc : Nat) (x : List W32),
    let p (n : Nat) := punnetAt a k.pkg k.core n
    let ours (n : Nat) : Prop := (p n).state ≠ .empty ∧ (p n).crew = k.id ∧ (p n).pc = pc
    let puts (n : Nat) (q : Punnet) : Prop :=
      placeRecord a k pc alloc x = some { a with punnets := tset a.punnets (punnetKey k.pkg k.core n) q }
    (∀ n, n < 32 → ours n → (∀ j, j < n → ¬ ours j) →
      ((p n).state = .filling →
        puts n { p n with recs := (p n).recs ++ [x], state := if (p n).recs.length = 31 then .ready else .filling }) ∧
      ((p n).state = .ready → placeRecord a k pc alloc x = none)) ∧
    ((∀ j, j < 32 → ¬ ours j) →
      (∀ n, n < 32 → (p n).state = .empty → (∀ j, j < n → (p j).state ≠ .empty) →
        puts n { state := .filling, crew := k.id, pc := pc, recs := [x], deadline := punnetDue a k.pkg k.core k.ctx, alloc := alloc }) ∧
      ((∀ j, j < 32 → (p j).state ≠ .empty) → placeRecord a k pc alloc x = none))

/-- R64, R65, R380: SPAWN appends one record of sixteen registers for each lane, in ascending order, to the filling punnet of its crew
and PC, or to the lowest empty one, after the wave's release at CORE (R46), and waits with the lanes that found no place; it then goes on
with these alone. -/
def Sys2Proof.Spec.SpawnWord : Prop :=
  ∀ (s : State) (t : Thread) (c : Clause) (h : Hd) (a b : Opnd) (k : Crew), Issues s t c → t.level = .lg → taking s t c h ≠ 0 →
    let w := s.view t c h
    let pc := (w.rs64 a).toNat
    firstBad [srcU64 1 a, runBad w 2 b 16 1] = none → pc % 8 = 0 → s.a.crew t.crew = some k → ownPending s.a t.uid = false →
    ∀ left, (t.wait = some (.spawn left) ∨ (left = taking s t c h ∧ ∀ x, t.wait ≠ some (.spawn x))) →
    w.runArrived (w.vreg 2 b 0) 16 left = true →
    let a0 := releaseAt s.a t .core
    let r := placeLanes w k pc (w.vreg 2 b 0) (Lanes.toList left) a0
    { r.1 with punnets := a0.punnets } = a0 ∧
    (∀ l ls, placeLanes w k pc (w.vreg 2 b 0) (l :: ls) a0 =
      match placeRecord a0 k pc t.alloc ((List.range 16).map (fun j => t.getV (w.vreg 2 b 0 + j) l)) with
      | none => (a0, l :: ls)
      | some a => placeLanes w k pc (w.vreg 2 b 0) ls a) ∧
    (r.2 = [] → exec (.spawn h a b) s = .next (past s r.1 t c h)) ∧
    (r.2 ≠ [] → exec (.spawn h a b) s = .next (withA s (r.1.modThread t.uid
      (fun x => { x with wait := some (.spawn (Lanes.ofPred (fun l => r.2.contains l))) }))))

/-- R68 to R70, R381: FETCHW clears the state word of its mailbox, counts on its flag and puts one request; it waits while the mailbox
has a request. -/
def Sys2Proof.Spec.FetchWorkWord : Prop :=
  ∀ (s : State) (t : Thread) (c : Clause) (h : Hd) (f : FSel) (o : Opnd) (k : Crew) (j : Nat), Issues s t c → t.level = .lg →
    taking s t c h ≠ 0 →
    let w := s.view t c h
    let off := (w.rs o).toNat
    let fa := spadAddr k.pkg k.core + off
    srcU 1 o = none → w.selBad f = none → w.sel f = some j → s.a.crew t.crew = some k → off % 64 = 0 → k.base ≤ off →
    off + 64 ≤ k.base + k.size →
    ((∃ r ∈ tvals s.a.fetches, r.mailbox = fa) → exec (.fetchw h f o) s = .next (waits s t .fetchw)) ∧
    ((∀ r ∈ tvals s.a.fetches, r.mailbox ≠ fa) → w.flagFull f = true → exec (.fetchw h f o) s = .next (waits s t .flagFull)) ∧
    ((∀ r ∈ tvals s.a.fetches, r.mailbox ≠ fa) → w.flagFull f = false →
      (fenceWait s.a t true = true ∨ behalfWaits s.a fa = true) →
      exec (.fetchw h f o) s = .next (waits s t .order)) ∧
    ((∀ r ∈ tvals s.a.fetches, r.mailbox ≠ fa) → w.flagFull f = false → fenceWait s.a t true = false → behalfWaits s.a fa = false →
      let a := retireBehalf s.a s.time t.uid (some fa)
      let r : Fetch := { id := a.nextId, uid := t.uid, pkg := k.pkg, tree := t.tree, core := k.core, crew := k.id,
                         mailbox := fa, flag := j, tm := t.tm }
      let a' := { a.modThread t.uid (fun x => x.raise j) with nextId := a.nextId + 1, fetches := tset a.fetches a.nextId r }
      exec (.fetchw h f o) s = .next (s.commit (a'.modThread t.uid (fun x => advance x c h.size)) [(fa, [0, 0, 0, 0])]))

/-- R42, R43, R375, R376: REDUCE counts on its flag, takes the next number of its level and adds one contribution to the instance of
its ancestor at that level, which it creates when it is the first. -/
def Sys2Proof.Spec.ReduceWord : Prop :=
  ∀ (s : State) (t : Thread) (c : Clause) (h : Hd) (m : MMod) (ty : RedTy) (op : RedOp) (d a b e : Opnd), Issues s t c →
    taking s t c h ≠ 0 →
    let w := s.view t c h
    let l := s.a.resolve t m.lvl
    let addr := (w.rs64 a).toNat
    let n := (w.rs e).toNat
    let seq := tgetD t.redSeq l.code 0
    let anc := (ancestor s.a t l).getD t.uid
    firstBad [w.selBad m.fsel, dstS 1 d, srcU64 1 a, srcU64 2 b, srcU 3 e] = none → t.level.code ≤ l.code →
    l.code ≤ (s.a.rootLevel t).code → addr % redAlign ty = 0 → redDstBad w ty l (w.rs64 b).toNat (redBytes ty n) = none →
    redBytes ty n % 16 = 0 → 16 ≤ redBytes ty n → redBytes ty n ≤ 2 ^ 28 → w.flagFull m.fsel = false →
    fenceWaitPath s.a t false = false →
    ∃ t' r k, exec (.reduce h m ty op d a b e) s =
        .next (past s { s.a.setThread t' with nextId := s.a.nextId + 2, reds := tset s.a.reds r.id r } t c h) ∧
      { t' with regs := t.regs, tmCounts := t.tmCounts, redSeq := t.redSeq } = t ∧ { t'.regs with f := t.regs.f } = t.regs ∧
      (∀ j, t'.getF j = if w.sel m.fsel = some j then t.getF j + 1 else t.getF j) ∧ tgetD t'.redSeq l.code 0 = seq + 1 ∧
      k.uid = t.uid ∧ k.addr = addr ∧ k.dst = (w.rs64 b).toNat ∧ k.count = n ∧ k.ty = ty ∧ k.op = op ∧ k.arrived = false ∧
      k.flag = (w.sel m.fsel).getD 0 ∧
      (∀ r0, findRed s.a t.tree anc l t.level seq = some r0 → r = { r0 with contribs := r0.contribs ++ [k] }) ∧
      (findRed s.a t.tree anc l t.level seq = none → r.id = s.a.nextId + 1 ∧ r.contribs = [k] ∧ r.anc = anc ∧ r.level = l ∧
        r.seq = seq ∧ r.tree = t.tree ∧ r.issuerLevel = t.level ∧ r.first = none)

namespace Sys2Proof.Spec

/-- The operation of a class-8 word that a slice will perform. -/
def sliceOp (s : State) (t : Thread) (c : Clause) (h : Hd) (what : SliceWhat) (da db : Option RowDesc) (spec acq : Bool) : SliceOp :=
  { id := s.a.nextId, uid := t.uid, crew := t.crew, what := what, descA := da, descB := db, spec := spec, acq := acq, window := t.spec.isOpen,
    pc := c.va c.pos, word := c.words.getD c.pos 0, opidx := c.pos, part := taking s t c h }

/-- The state in which the word's operation has been queued, its thread has become `t'` and goes on. -/
def queued (s : State) (t : Thread) (c : Clause) (h : Hd) (t' : Thread) (what : SliceWhat) (da db : Option RowDesc)
    (spec acq : Bool) : State :=
  past s { s.a.setThread t' with
    nextId := s.a.nextId + 1, slice := tset s.a.slice s.a.nextId (sliceOp s t c h what da db spec acq) } t c h

/-- A class-8 word runs: a wave that is not moored issues it for some lane, in a crew. -/
structure MatrixIssue (s : State) (t : Thread) (c : Clause) (h : Hd) (k : Crew) : Prop where
  issues : Issues s t c
  wave : t.level = .lg
  slot : t.slot < 48
  crew : s.a.crew t.crew = some k
  lane : taking s t c h ≠ 0

/-- A tile that the wave may write: held by the crew and, in an open window, not in another wave's window (R385, R402). -/
def writable (s : State) (t : Thread) (k : Crew) (m : Nat) : Prop :=
  m < k.acc ∧ (t.spec.isOpen = true → shadowTaken s.a t k m = false)

/-- A thread whose completion flag counts one more: nothing else differs but the count of trap mode. -/
def Counted (t t' : Thread) (f : Option Nat) : Prop :=
  { t' with regs := t.regs, tmCounts := t.tmCounts } = t ∧ { t'.regs with f := t.regs.f } = t.regs ∧
    ∀ j, t'.getF j = if f = some j then t.getF j + 1 else t.getF j

/-- How an engine performs the rest of a command: nothing while the command is not ready; else it moves units in order until it is
done or must stop, memory being what the moved bytes make of it; a missing translation leaves it waiting for RETRY, another failure
or the last byte ends it with its status. -/
def CommandRuns (s : State) (x : Cmd) (fin : Arch → Cmd → Nat → Nat → Arch) (out : Out) : Prop :=
  (cmdReady s.a x = false → out = .next s) ∧
  (cmdReady s.a x = true →
    let r := moveAll s.time x.units (startMove s.a s.mem x)
    mwrites s.mem r.ws = r.mem ∧
    (∀ k va, r.fault = some (k, va) → out = .next (s.commit (faultCmd r.a s.time r.c k va) r.ws)) ∧
    (∀ st kd m, r.fault = none → r.fail = some (st, kd, m) →
      out = .next (s.commit (fin (skipRange r.a r.c) { r.c with memCode := m } st kd) r.ws)) ∧
    (r.fault = none → r.fail = none → r.c.done = true → out = .next (s.commit (fin r.a r.c 0 0) r.ws)) ∧
    (r.fault = none → r.fail = none → r.c.done = false →
      out = .next (s.commit { r.a with cmds := tset r.a.cmds r.c.id r.c } r.ws)))

end Sys2Proof.Spec

/-! ## Class 8 -/

/-- R384, R385, R388 to R394, R402: MMA without a convergence register queues one step over its fragments; with one, the first word
records a partial signature, a word of another wave waits, and one that does not match traps. -/
def Obligations.MatrixStepWord : Prop :=
  ∀ (s : State) (t : Thread) (c : Clause) (h : Hd) (k : Crew) (v : MmaV) (lvl : LvlCode) (acq : Bool) (asrc bsrc : MSrc)
    (ka kb : Bool) (rm : RM) (m : Fin 16) (a b : Opnd), MatrixIssue s t c h k →
    let w := s.view t c h
    let out (cv : Option (Fin 8)) := exec (.mma h v lvl acq asrc bsrc ka kb rm cv m a b) s
    writable s t k m.val → matSrcBad w k 1 asrc a = none → matSrcBad w k 2 bsrc b = none →
    matSrcArrived w asrc a (taking s t c h) = true → matSrcArrived w bsrc b (taking s t c h) = true →
    (asrc = .latch → latchQueued s.a k false = false) → (bsrc = .latch → latchQueued s.a k true = false) →
    fenceWaitPath s.a t true = false → (w.matAcq acq = true → ownPending s.a t.uid = false) →
    0 < mmaKlen h v → mmaKlen h v ≤ mmaDepth v →
    (mmaEmask h = 0 →
      (∀ x, w.mmaSources k v asrc bsrc a b (taking s t c h) = .error x → out none = .next (trapWord s t c x)) ∧
      (∀ fa fb, w.mmaSources k v asrc bsrc a b (taking s t c h) = .ok (fa, fb) → out none = .next (queued s t c h
        (t.afterRs (some (rm.resolve t.sr.fpctl)))
        (.mma v m.val fa.1 fb.1 (mmaKlen h v) (rm.resolve t.sr.fpctl).code ka kb t.sr.key t.sr.ctr) fa.2 fb.2 t.spec.isOpen (w.matAcq acq)))) ∧
    (∀ (j : Fin 8) x, j.val < k.ncv → tget k.cvs j.val = some x → x.owner ≠ t.wnum → out (some j) = .next (waits s t .cv)) ∧
    (∀ (j : Fin 8), j.val < k.ncv → tget k.cvs j.val = none →
      let expected := (if mmaEmask h = 0 then t.live else mmaEmask h) &&& t.live
      (taking s t c h &&& ~~~expected ≠ 0 →
        out (some j) = .next (trapWord s t c (operandBad 4 5 0 ((taking s t c h).setWidth 64)))) ∧
      (∀ fa fb, taking s t c h &&& ~~~expected = 0 → taking s t c h ≠ expected →
        w.mmaSources k v asrc bsrc a b (taking s t c h) = .ok (fa, fb) →
        ∃ x, out (some j) = .next (past s (s.a.setCrew { k with cvs := tset k.cvs j.val x }) t c h) ∧
          x.expected = expected ∧ x.signed = taking s t c h ∧ x.owner = t.wnum ∧ x.a = fa.1 ∧ x.b = fb.1 ∧
          x.word = BitVec.ofNat 64 (c.words.getD c.pos 0)) ∧
      (∀ fa fb, taking s t c h = expected → w.mmaSources k v asrc bsrc a b (taking s t c h) = .ok (fa, fb) →
        ∃ x, x.expected = expected ∧ x.signed = expected ∧ x.owner = t.wnum ∧ x.a = fa.1 ∧ x.b = fb.1 ∧
          ∀ i, x.instr = some i → out (some j) = .next (past s (issueCv s.a j.val k x i) t c h))) ∧
    (∀ (j : Fin 8) x, j.val < k.ncv → tget k.cvs j.val = some x → x.owner = t.wnum →
      (x.spec = true → shadowTaken s.a t k m.val = false) →
      (x.word ≠ BitVec.ofNat 64 (c.words.getD c.pos 0) ∨ taking s t c h &&& ~~~x.expected ≠ 0 ∨ taking s t c h &&& x.signed ≠ 0 →
        out (some j) = .next (trapWord s t c (operandBad 4 5 0 ((taking s t c h).setWidth 64)))) ∧
      (x.word = BitVec.ofNat 64 (c.words.getD c.pos 0) → x.lit = Hd.litRec h → taking s t c h &&& ~~~x.expected = 0 →
        taking s t c h &&& x.signed = 0 → x.signed ||| taking s t c h ≠ x.expected → asrc = .reg → bsrc = .reg →
        ∃ x', out (some j) = .next (past s (s.a.setCrew { k with cvs := tset k.cvs j.val x' }) t c h) ∧
          x'.signed = x.signed ||| taking s t c h ∧ x'.expected = x.expected ∧ x'.owner = t.wnum ∧
          x'.a = x.a.join (fragOfRegs t (regNo a) false (taking s t c h)) ∧
          x'.b = x.b.join (fragOfRegs t (regNo b) false (taking s t c h))))

/-- R397 to R400, R405: LATCH, UNLATCH, ACCZ, ACCMOV, ACCWR, ACCRD, ACCLD and TREEMASK queue one operation on the slice, which performs
it later; ACCRD clears the arrival bits of its run; ACCST queues one and puts a command to its engine, counted on its flag. -/
def Obligations.AccumulatorWords : Prop :=
  ∀ (s : State) (t : Thread) (c : Clause) (h : Hd) (k : Crew), MatrixIssue s t c h k →
    let w := s.view t c h
    (∀ b lvl acq src o f, matSrcBad w k 1 src o = none → 0 < k.acc → matSrcArrived w src o (taking s t c h) = true →
      fenceWaitPath s.a t true = false → (w.matAcq acq = true → ownPending s.a t.uid = false) →
      w.matSource k 1 src o (taking s t c h) = .ok f → headerBad 1 f.1 (fun x => decide (x % 256 ≤ 8)) = none →
      exec (.latch h b lvl acq src o) s = .next (queued s t c h t (.latch b f.1) f.2 none false (w.matAcq acq))) ∧
    (∀ b, 0 < k.acc → (latchNamed k b = true → exec (.unlatch h b) s = .next (waits s t .latch)) ∧
      (latchNamed k b = false → exec (.unlatch h b) s = .next (queued s t c h t (.unlatch b) none none false false))) ∧
    (∀ m : Fin 16, (k.acc ≤ m.val → exec (.accz h m) s = .next (trapWord s t c (operandBad 0 3 0 (BitVec.ofNat 64 m.val)))) ∧
      (writable s t k m.val → exec (.accz h m) s = .next (queued s t c h t (.accz m.val) none none t.spec.isOpen false))) ∧
    (∀ tr (d a : Fin 16), writable s t k d.val → a.val < k.acc →
      exec (.accmov h tr d a) s = .next (queued s t c h t (.accmov d.val a.val tr) none none t.spec.isOpen false)) ∧
    (∀ (m : Fin 16) a, writable s t k m.val → runBad w 1 a 32 1 = none →
      (w.runArrived (regNo a) 32 (taking s t c h) = false → exec (.accwr h m a) s = .next (waits s t .arrival)) ∧
      (w.runArrived (regNo a) 32 (taking s t c h) = true → exec (.accwr h m a) s = .next (queued s t c h t
        (.accwr m.val ((Lanes.toList (taking s t c h)).flatMap (fun i =>
          (List.range 32).map (fun j => (32 * i + j, t.getV (regNo a + j) i))))) none none t.spec.isOpen false))) ∧
    (∀ e rm d (m : Fin 16), runBad w 0 d (accrdRun e) 1 = none → m.val < k.acc → ∃ t',
      exec (.accrd h e rm d m) s = .next (queued s t c h t'
        (.accrd m.val e (rm.resolve t.sr.fpctl).code (regNo d) t.sr.key t.sr.ctr) none none false false) ∧
      { t' with regs := t.regs, sr := t.sr } = t ∧ { t'.regs with clear := t.regs.clear } = t.regs ∧
      ∀ r, t'.arrived r = if regNo d ≤ r ∧ r < regNo d + accrdRun e then t.arrived r &&& ~~~(taking s t c h) else t.arrived r) ∧
    (∀ m a (n : Fin 16) d, descFieldBad w 1 a = none → n.val < k.acc → w.selBad m.fsel = none → w.flagFull m.fsel = false →
      fenceWaitPath s.a t true = false → (w.matAcq m.acq = true → ownPending s.a t.uid = false) → w.rowDesc .w (w.descVal a) 128 = .ok d →
      ∃ t' x, exec (.accst h m a n) s = .next (past s { s.a.setThread t' with
          nextId := s.a.nextId + 2, cmds := tset s.a.cmds s.a.nextId x,
          slice := tset s.a.slice (s.a.nextId + 1) { sliceOp s t c h (.accst n.val s.a.nextId) none none false false with
            id := s.a.nextId + 1 } } t c h) ∧
        Counted t t' (w.sel m.fsel) ∧ x.id = s.a.nextId ∧ x.kind = .accst d none ∧ x.flag = w.sel m.fsel ∧ x.owner = .thread t.uid) ∧
    (∀ lvl acq (m : Fin 16) a d, writable s t k m.val → descFieldBad w 1 a = none → fenceWaitPath s.a t true = false →
      (w.matAcq acq = true → ownPending s.a t.uid = false) → w.rowDesc .rd (w.descVal a) 128 = .ok d →
      exec (.accld h lvl acq m a) s = .next (queued s t c h t (.accld m.val d) none none t.spec.isOpen (w.matAcq acq))) ∧
    (∀ ap (m : Fin 16) a b, writable s t k m.val → isVec a = true → vecBad w [{ j := 1, o := a, n := 1, dst := false }] = none →
      srcU 2 b = none → w.arrived [{ j := 1, o := a, n := 1, dst := false }] = true →
      (∀ i, i ∈ Lanes.toList (taking s t c h) → w.parent a i = -1 ∨
        (0 ≤ w.parent a i ∧ w.parent a i < i ∧ (taking s t c h).getLsbD (w.parent a i).toNat = true)) →
      exec (.treemask h ap m a b) s = .next (queued s t c h t (.treemask m.val ap ((Lanes.toList (taking s t c h)).map
        (fun i => (i, ancestorsOf (w.parent a) 32 i))) (w.rs b)) none none t.spec.isOpen false))

/-- R401 to R403: SPEC.BEGIN opens the window with its register and polarity, and traps in an open one; SPEC.RESOLVE closes it,
writes 1 to its predicate exactly when the register agrees with the polarity, and queues the resolution. -/
def Sys2Proof.Spec.SpeculationWords : Prop :=
  ∀ (s : State) (t : Thread) (c : Clause) (h : Hd) (k : Crew), MatrixIssue s t c h k →
    (∀ pred (r : Fin 48), (t.spec.isOpen = true → exec (.specBegin h pred (.s r)) s = .next (trapWord s t c (operandBad 4 5 0 0))) ∧
      (t.spec.isOpen = false → exec (.specBegin h pred (.s r)) s =
        .next (moved s { t with spec := { isOpen := true, pred := pred, reg := r.val } } c h))) ∧
    (∀ p : Fin 8, (t.spec.isOpen = false → exec (.specResolve h p) s = .next (trapWord s t c (operandBad 4 5 0 0))) ∧
      (t.spec.isOpen = true → (∀ x ∈ k.cvs, x.2.owner = t.wnum → x.2.spec = false) → ∃ t' commit,
        (commit = true ↔ (t.getS t.spec.reg ≠ 0 ↔ t.spec.pred = true)) ∧
        exec (.specResolve h p) s = .next (queued s t c h t' (.resolve commit) none none false false) ∧
        withP { t' with spec := t.spec } t.regs.p = t ∧ t'.spec.isOpen = false ∧
        ∀ q l, l < 32 → (t'.getP q).getLsbD l =
          if q = p.val ∧ q ≠ 7 ∧ (taking s t c h).getLsbD l = true then commit else (t.getP q).getLsbD l))

/-- R406, R407: KVCOMMIT reads its descriptor, traps when it is wrong, and else puts one command that copies each plane of each
accepted entry; KVCOMMIT_COMPLETE performs a command that is ready. -/
def Sys2Proof.Spec.KvCommit : Prop :=
  (∀ (s : State) (t : Thread) (c : Clause) (h : Hd) (k : Crew) (m : MMod) (d a b : Opnd), MatrixIssue s t c h k →
    let w := s.view t c h
    firstBad [dstS 1 d, srcU64 1 a, srcU 2 b, w.selBad m.fsel] = none → w.flagFull m.fsel = false →
    fenceWaitPath s.a t true = false → ownPending s.a t.uid = false → fenceWait s.a t false = false →
    passedPending s.a t.uid s.a.nextId = false →
    ∀ a1 bs, w.readIssue s.a (w.rs64 a).toNat 64 = .ok (a1, some bs) →
      (∀ x, kvBad bs = some x → exec (.kvcommit h m d a b) s = .next (trapWord s t c x)) ∧
      (kvBad bs = none → ∃ t0 t' x, exec (.kvcommit h m d a b) s =
          .next (past s { a1.setThread t' with nextId := a1.nextId + 1, cmds := tset a1.cmds a1.nextId x } t c h) ∧
        (a1.thread t.uid = some t0 ∨ a1.thread t.uid = none ∧ t0 = t) ∧ Counted t0 t' (w.sel m.fsel) ∧
        x.id = a1.nextId ∧ x.kind = .kvcommit ∧ x.flag = w.sel m.fsel ∧ x.owner = .thread t.uid ∧
        x.legs = kvLegs (agentOf s.a t) bs (w.rs b).toNat)) ∧
  (∀ (s : State) (n : Nat) (x : Cmd), tget s.a.cmds n = some x → x.kind = .kvcommit →
    CommandRuns s x endCmd (exec (.kvcommitComplete n) s))

/-- R385, R386, R394, R396 to R400, R402, R403: the slice of a core performs its oldest operation, in a crew without bad rows and from
memory without errors. An operation of a window works on the shadow of a tile that its wave holds, and a speculative write takes that
shadow first; the main contents stay. A step reads the fragments of its descriptors and writes each element of its rows and columns, ACCZ
zeroes a tile, ACCMOV copies or transposes one, ACCWR writes the rows that it carries, ACCLD the 32 rows that it reads, TREEMASK masks the
rows of its lanes, a latch takes its fragment or becomes empty, ACCRD leaves a landing, ACCST gives its command the tile, and a resolution
drops the wave's shadows, on a commit after they have become the main contents. A speculative write of a wave that has retired is
discarded with its window. No other tile changes. -/
def Sys2Proof.Spec.SliceSteps : Prop :=
  ∀ (s : State) (core : Nat) (o : SliceOp) (k : Crew),
    (tvals s.a.slice).find? (fun x => decide (x.coreKey s.a = some core)) = some o → s.a.crew o.crew = some k → k.id = o.crew →
    sliceHeld s.a o = false → k.badRows = [] → (o.spec = true → o.window = true) →
    (∀ d n, (d, n) ∈ o.rows → ∀ r x, r < 32 → x < n → isBad s.a (granule (d.addr + r * d.stride + x)) = false) →
    let own (k : Crew) (m : Nat) : Prop := tget k.shadowOwner m = some o.uid
    let main (k : Crew) (m e : Nat) : W32 := tgetD k.tiles (1024 * m + e) 0
    let shadow (k : Crew) (m e : Nat) : W32 := tgetD k.shadows (1024 * m + e) 0
    let word (m e : Nat) : W32 := if o.window = true ∧ own k m then shadow k m e else main k m e
    let row (d : RowDesc) (r j : Nat) : W32 := BitVec.ofNat 32 (mnum s.mem (d.addr + r * d.stride + 4 * j) 4)
    let filled (d : Option RowDesc) (f : Frag) : Frag := match d with
      | none => f
      | some d => { f with data := (List.range 32).flatMap (fun r => (List.range 16).map (fun j => (16 * r + j, row d r j))) }
    let writes (k' : Crew) (m : Nat) (new : Nat → W32) : Prop :=
      { k' with tiles := k.tiles, shadows := k.shadows, shadowOwner := k.shadowOwner } = k ∧
      (∀ n, tget k'.shadowOwner n = if o.spec = true ∧ n = m then some o.uid else tget k.shadowOwner n) ∧
      (∀ n e, e < 1024 → main k' n e = if n = m ∧ ¬ (o.window = true ∧ own k' m) then new e else main k n e) ∧
      (∀ n e, e < 1024 → shadow k' n e = if n = m ∧ o.window = true ∧ own k' m then new e else shadow k n e)
    ∃ a', exec (.matrixOperationComplete core) s = .next (withA s a') ∧ a'.slice = tdel s.a.slice o.id ∧
      (o.spec = true → s.a.thread o.uid = none → ∀ m, o.what.writes = some m → ∃ k', a'.crew o.crew = some k' ∧
        k'.tiles = k.tiles ∧ k'.shadows = k.shadows ∧ k'.shadowOwner = k.shadowOwner) ∧
      ((o.spec = true → (s.a.thread o.uid).isSome = true) →
        (∀ m fa fb v klen rm ka kb key ctr, o.what = .mma v m fa fb klen rm ka kb key ctr → ∃ k', a'.crew o.crew = some k' ∧
          let x := filled o.descA fa
          let y := filled o.descB fb
          k'.latchA = (if ka = true then x else k.latchA) ∧ k'.latchB = (if kb = true then y else k.latchB) ∧
          writes { k' with latchA := k.latchA, latchB := k.latchB } m (fun e =>
            if x.present.getLsbD (e / 32) = true ∧ y.present.getLsbD (e % 32) = true then
              BitVec.ofNat 32 (if mmaIsFloat v = true then
                (mmaFloat v x y (e / 32) (e % 32) klen (RMode.ofCode rm)
                  (match RMode.ofCode rm with | .rs => draw key ctr e 0xFFFFFFFF | _ => 0) (word m e).toNat).1
                else mmaInt v x y (e / 32) (e % 32) klen (word m e).toNat)
            else word m e)) ∧
        (∀ m, o.what = .accz m → ∃ k', a'.crew o.crew = some k' ∧ writes k' m (fun _ => 0)) ∧
        (∀ d m tr, o.what = .accmov d m tr → ∃ k', a'.crew o.crew = some k' ∧
          writes k' d (fun e => word m (if tr = true then 32 * (e % 32) + e / 32 else e))) ∧
        (∀ m data, o.what = .accwr m data → (∀ x ∈ data, x.1 < 1024) → ∃ k', a'.crew o.crew = some k' ∧
          writes k' m (fun e => tgetD (tsets [] data) e (word m e))) ∧
        (∀ m d, o.what = .accld m d → ∃ k', a'.crew o.crew = some k' ∧ writes k' m (fun e => row d (e / 32) (e % 32))) ∧
        (∀ m ap anc val, o.what = .treemask m ap anc val → (∀ x ∈ anc, x.1 < 32) → (anc.map (·.1)).Nodup →
          ∃ k', a'.crew o.crew = some k' ∧ writes k' m (fun e => match tget anc (e / 32) with
            | none => word m e
            | some x => if x.getLsbD (e % 32) = true then (if ap = true then word m e else 0) else val))) ∧
      (∀ b f, o.what = .latch b f → a'.crew o.crew =
        some (if b = true then { k with latchB := filled o.descA f } else { k with latchA := filled o.descA f })) ∧
      (∀ b, o.what = .unlatch b → a'.crew o.crew =
        some (if b = true then { k with latchB := Frag.empty } else { k with latchA := Frag.empty })) ∧
      (∀ m e rm reg key ctr, o.what = .accrd m e rm reg key ctr → ∃ l, a'.landings = tset s.a.landings s.a.nextId l ∧
        l.uid = o.uid ∧ l.rows = o.part ∧ l.first = reg ∧ l.count = accrdRun e ∧ l.err = none ∧
        (e = .f32 → ∀ r j, r < 32 → j < 32 → o.part.getLsbD r = true → tget l.regs (vkey (reg + j) r) = some (word m (32 * r + j)))) ∧
      (∀ m cmd, o.what = .accst m cmd → ∀ x d old, tget s.a.cmds cmd = some x → x.kind = .accst d old → ∃ data,
        a'.cmds = tset s.a.cmds cmd { x with kind := .accst d (some data) } ∧ ∀ e, e < 1024 → tgetD data e 0 = word m e) ∧
      (∀ commit, o.what = .resolve commit → ∃ k', a'.crew o.crew = some k' ∧
        { k' with tiles := k.tiles, shadows := k.shadows, shadowOwner := k.shadowOwner } = k ∧
        (∀ n, tget k'.shadowOwner n = if own k n then none else tget k.shadowOwner n) ∧
        (∀ n e, e < 1024 → main k' n e = if commit = true ∧ own k n then shadow k n e else main k n e) ∧
        (∀ n e, e < 1024 → ¬ own k n → shadow k' n e = shadow k n e))

/-- R399, R400: an ACCRD lands in its registers, sets their arrival bits and ORs its flags; an ACCST writes 128 bytes a row at its
stride, and ends its command. -/
def Sys2Proof.Spec.AccumulatorMoves : Prop :=
  (∀ (s : State) (n : Nat) (l : Landing) (t : Thread), tget s.a.landings n = some l → s.a.thread l.uid = some t →
    threadStill s.a t = false → ∃ t', exec (.accrdLanding n) s = .next (withA s ({ s.a with
        landings := tdel s.a.landings n, threads := tset s.a.threads l.uid t' })) ∧
      { t' with regs := t.regs, sr := t.sr, wait := t.wait, pend := t.pend } = t ∧
      t'.pend = t.pend ++ (l.err.map (fun r => ({ trap := r } : PendTrap))).toList ∧
      { t'.regs with v := t.regs.v, clear := t.regs.clear, badV := t.regs.badV } = t.regs ∧
      (∀ k, k ∈ t'.regs.badV ↔ k ∈ t.regs.badV ∧ ∀ p ∈ l.regs, p.1 ≠ k) ∧ t'.regs.v = tsets t.regs.v l.regs ∧ t'.sr = { t.sr with fpstat := t.sr.fpstat ||| BitVec.ofNat 32 l.flags } ∧
      ∀ r, t'.arrived r = if l.first ≤ r ∧ r < l.first + l.count then t.arrived r ||| l.rows else t.arrived r) ∧
  (∀ (s : State) (n : Nat) (x : Cmd) (d : RowDesc) (data : Tab W32), tget s.a.cmds n = some x → x.kind = .accst d (some data) →
    cmdReady s.a x = true → 128 ≤ d.stride → (∀ r, r < 32 → engineShut s.a x (d.addr + r * d.stride) 128 = false) →
    ∃ a' m', exec (.accstComplete n) s = .next { s with a := a', mem := m' } ∧ tget a'.cmds x.id = none ∧
      (∀ r j i, r < 32 → j < 32 → i < 4 →
        mget m' (d.addr + r * d.stride + 4 * j + i) = BitVec.ofNat 8 ((tgetD data (32 * r + j) 0).toNat / 2 ^ (8 * i))) ∧
      (∀ p, (∀ r, r < 32 → p < d.addr + r * d.stride ∨ d.addr + r * d.stride + 128 ≤ p) → mget m' p = mget s.mem p))

namespace Sys2Proof.Spec

/-- One send is issued: it stands under a fresh number, counts on its flag, and the thread goes on. -/
def SentOne (s : State) (t : Thread) (c : Clause) (h : Hd) (f : FSel) (rel : Bool) (idx : Nat) (lanes : Lanes) (val : Nat → W32)
    (out : Out) : Prop :=
  let w := s.view t c h
  (w.flagFull f = true → out = .next (waits s t .flagFull)) ∧
  (w.flagFull f = false → fenceWait s.a t true = true → out = .next (waits s t .order)) ∧
  (w.flagFull f = false → fenceWait s.a t true = false → ∃ t' x,
    out = .next (past s { s.a.setThread t' with nextId := s.a.nextId + 1, sends := tset s.a.sends s.a.nextId x } t c h) ∧
    Counted t t' (w.sel f) ∧ x.id = s.a.nextId ∧ x.sender = t.uid ∧ x.ctx = t.ctx ∧ x.idx = idx ∧ x.lanes = lanes ∧ x.rel = rel ∧
    x.status = none ∧ x.flag = (w.sel f).getD 0 ∧ x.vals = (Lanes.toList lanes).map (fun l => (l, val l)))

/-- A class-10 word: its checks, its waits, and the one operation that it puts to the core's summary unit, counted on its flag. -/
def SummaryEnds (s : State) (t : Thread) (c : Clause) (h : Hd) (f : FSel) (k : SKind) (bads : List (Option Bad)) (fs : List VF)
    (objs : List Obj) (what : Nat → SumWhat) (out : Out) : Prop :=
  let w := s.view t c h
  Ends s t c (firstBad (bads ++ objs.map (fun o => objBad o.j (BitVec.ofNat 64 o.va)) ++ [mooredBad t, w.selBad f])) out
    ((taking s t c h = 0 → out = .next (moved s t c h)) ∧
     (taking s t c h ≠ 0 → w.arrived fs = false → out = .next (waits s t .arrival)) ∧
     (taking s t c h ≠ 0 → w.arrived fs = true → w.flagFull f = false → fenceWait s.a t true = false →
      (∀ r, w.readObjects k objs = (r, true) → out = .next (waits s t .summary)) ∧
      (∀ b, w.readObjects k objs = (.error b, false) → out = .next (trapWord s t c b)) ∧
      (∀ fas, w.readObjects k objs = (.ok fas, false) → ∃ t' o,
        out = .next (past s { s.a.setThread t' with nextId := s.a.nextId + 1, sums := tset s.a.sums s.a.nextId o } t c h) ∧
        Counted t t' (w.sel f) ∧ o.id = s.a.nextId ∧ o.uid = t.uid ∧ o.core = t.coreKey ∧ o.what = what (fas.getD 1 0) ∧
        o.addr = fas.headD 0 ∧ o.part = taking s t c h ∧ o.flag = (w.sel f).getD 0)))

end Sys2Proof.Spec

/-! ## Class 9 -/

/-- R191, R192, R194, R421, R422: GRANT opens a run of registers and writes a capability that names the wave, the run, the lanes and
the level, with its tag under the context's key; REVOKE closes a run; EXPECT clears arrival bits. -/
def Sys2Proof.Spec.GrantWords : Prop :=
  ∀ (s : State) (t : Thread) (c : Clause) (h : Hd), Issues s t c → t.level = .lg → taking s t c h ≠ 0 →
    let w := s.view t c h
    (∀ lvl ovw (cnt : Fin 8) d a b, dstS 4 d = none → runBad w 1 a (cnt.val + 1) 1 = none → srcU 2 b = none →
      1 ≤ (s.a.resolve t lvl).code → w.rs b ≠ 0 → t.ctx < 65536 → w.vreg 1 a 0 < 256 →
      ∃ t', exec (.grant h lvl ovw cnt d a b) s = .next (moved s t' c h) ∧
        { t' with regs := t.regs, bank := t.bank } = t ∧
        { t'.regs with s := t.regs.s, openBits := t.regs.openBits, badS := t.regs.badS } = t.regs ∧
        (∀ n, n < regNo d ∨ regNo d + 4 ≤ n → (n ∈ t'.regs.badS ↔ n ∈ t.regs.badS)) ∧
        (∀ n, n < regNo d ∨ regNo d + 4 ≤ n → t'.getS n = t.getS n) ∧
        (∀ r, t'.isOpen r = (t.isOpen r || decide (w.vreg 1 a 0 ≤ r ∧ r ≤ w.vreg 1 a 0 + cnt.val))) ∧
        let k := Cap.of (t'.quad (regNo d))
        k.ctx = t.ctx ∧ k.wave = t.waveid.toNat % 2 ^ 24 ∧ k.gen = t.wavegen.toNat % 256 ∧ k.scope = (s.a.resolve t lvl).code ∧
          k.ovw = ovw ∧ k.base = w.vreg 1 a 0 ∧ k.cnt = cnt.val ∧ k.lmask = w.rs b ∧
          k.tag = tagOf (tgetD s.a.keys (ctxKey t.unit.pkg t.ctx) 0) (t'.quad (regNo d))) ∧
    (∀ (cnt : Fin 8) a, runBad w 1 a (cnt.val + 1) 1 = none → ∃ t', exec (.revoke h cnt a) s = .next (moved s t' c h) ∧
      { t' with regs := { t'.regs with openBits := t.regs.openBits } } = t ∧
      ∀ r, t'.isOpen r = (t.isOpen r && !decide (w.vreg 1 a 0 ≤ r ∧ r ≤ w.vreg 1 a 0 + cnt.val))) ∧
    (∀ (cnt : Fin 8) a, runBad w 1 a (cnt.val + 1) 1 = none → ∃ t', exec (.expect h cnt a) s = .next (moved s t' c h) ∧
      { t' with regs := { t'.regs with clear := t.regs.clear } } = t ∧
      ∀ r, t'.arrived r = if w.vreg 1 a 0 ≤ r ∧ r ≤ w.vreg 1 a 0 + cnt.val then t.arrived r &&& ~~~(taking s t c h) else t.arrived r)

/-- R197 to R199, R423 to R426: RSEND and RSENDV issue one send to the lanes of the capability, and trap on a malformed one or on a
register beyond its count; RFENCE waits for the thread's sends; RGET copies a run, and RGET.TK also clears its arrival bits
and makes the acquire of each value in them that a released send delivered (R135; that this read is the one that consumes is DEDUCED, log 88). -/
def Sys2Proof.Spec.SendWords : Prop :=
  ∀ (s : State) (t : Thread) (c : Clause) (h : Hd), Issues s t c → taking s t c h ≠ 0 →
    let w := s.view t c h
    (∀ f rel (idx : Fin 8) a b, firstBad [srcRunS 1 4 a, srcU 2 b, w.selBad f] = none →
      let cap := t.quad (regNo a)
      (capMalformed cap = true → exec (.rsend h f rel idx a b) s =
        .next (trapWord s t c (operandBad 1 4 0 (BitVec.ofNat 64 (capNat cap))))) ∧
      (capMalformed cap = false → (Cap.of cap).cnt < idx.val → exec (.rsend h f rel idx a b) s =
        .next (trapWord s t c (operandBad 4 5 0 (BitVec.ofNat 64 idx.val)))) ∧
      (capMalformed cap = false → idx.val ≤ (Cap.of cap).cnt →
        SentOne s t c h f rel idx.val (Cap.of cap).lmask (fun _ => w.rs b) (exec (.rsend h f rel idx a b) s))) ∧
    (∀ f rel (idx : Fin 8) a b, t.level = .lg →
      firstBad [srcRunS 1 4 a, vecBad w [{ j := 2, o := b, n := 1, dst := false }], w.selBad f] = none →
      let cap := t.quad (regNo a)
      let lanes := (Cap.of cap).lmask &&& taking s t c h
      capMalformed cap = false → idx.val ≤ (Cap.of cap).cnt → w.arrived [{ j := 2, o := b, n := 1, dst := false }] = true →
      (lanes = 0 → exec (.rsendv h f rel idx a b) s = .next (moved s t c h)) ∧
      (lanes ≠ 0 → SentOne s t c h f rel idx.val lanes (fun l => w.rd 2 b l) (exec (.rsendv h f rel idx a b) s))) ∧
    (t.level = .lg →
      ((∃ x ∈ tvals s.a.sends, x.sender = t.uid) → exec (.rfence h) s = .next (waits s t .rfence)) ∧
      ((∀ x ∈ tvals s.a.sends, x.sender ≠ t.uid) → exec (.rfence h) s = .next (moved s t c h))) ∧
    (∀ (tk : Bool) (cnt : Fin 8) d a, t.level = .lg → runBad w 0 d (cnt.val + 1) 1 = none → runBad w 1 a (cnt.val + 1) 1 = none →
      let out := exec (if tk then .rgetTk h cnt d a else .rget h cnt d a) s
      let ready := w.runArrived (w.vreg 1 a 0) (cnt.val + 1) (taking s t c h)
      (ready = false → out = .next (waits s t .arrival)) ∧
      (ready = true → ∃ a' t', out = .next (past s a' t c h) ∧ a'.thread t.uid = some t' ∧
        { a' with threads := s.a.threads, lines := s.a.lines } = s.a ∧ (∀ u, u ≠ t.uid → a'.thread u = s.a.thread u) ∧
        { t' with regs := { t'.regs with v := t.regs.v, clear := t.regs.clear, badV := t.regs.badV },
                  acqd := t.acqd, relArr := t.relArr } = t ∧
        (tk = false → a'.lines = s.a.lines ∧ t'.acqd = t.acqd ∧ t'.relArr = t.relArr) ∧
        (tk = true → ∀ e ∈ t.relArr, w.vreg 1 a 0 ≤ e.1 → e.1 ≤ w.vreg 1 a 0 + cnt.val → e.2.1 &&& taking s t c h ≠ 0 →
          let u := scopeOf s.a t e.2.2.1
          (∀ r ∈ s.a.rels, r.via = .send → r.stamp = e.2.2.2 → r.within u = true → insideUnit s.a t.uid r.unit = true →
            ∃ y ∈ t'.acqd, y.1 = r.stamp) ∧
          (∀ p ∈ a'.lines, p.2.old = true → lineCtx p.1 = t.ctx → (agentOf s.a t).served (lineNode p.1) = true →
            nodeIn u (lineNode p.1) = false)) ∧
        MarksLeft t t'.regs.badV (fun r l => (taking s t c h).getLsbD l = true ∧ w.vreg 0 d 0 ≤ r ∧ r ≤ w.vreg 0 d 0 + cnt.val) ∧
        (∀ r l, l < 32 → t'.getV r l =
          if (taking s t c h).getLsbD l = true ∧ w.vreg 0 d 0 ≤ r ∧ r ≤ w.vreg 0 d 0 + cnt.val then
            t.getV (w.vreg 1 a 0 + (r - w.vreg 0 d 0)) l else t.getV r l) ∧
        ∀ r, t'.arrived r = if tk = true ∧ w.vreg 1 a 0 ≤ r ∧ r ≤ w.vreg 1 a 0 + cnt.val then
          t.arrived r &&& ~~~(taking s t c h) else t.arrived r))

/-- R200 to R205: a send to a package that cannot be reached is refused with ABSENT, status 7; one that arrives is refused by the first
check that fails, a TAG refusal being counted on the sender's package and reported (DESIGN CHOICE, log 63); else it writes its lanes, sets
their arrival bits and is answered 0, a released one making its release, which its values carry to the read that consumes them (DEDUCED,
log 88). A send to a wave that is being saved, restored or moved waits in its locator entry; one to a saved wave is checked against the
wave's image and written into it; one to a wave of a berth held in reset is refused with ABSENT. The acknowledgement records the status
and lowers the flag; where the wave's MIGRATE then has nothing more to do but to wait for its flags, its entry becomes MOVING (DEDUCED,
log 96). -/
def Sys2Proof.Spec.RegisterSends : Prop :=
  (∀ (s : State) (n : Nat) (x : Send), tget s.a.sends n = some x → x.id = n →
    let k := Cap.of x.cap
    let out := exec (.registerSendArrival n) s
    let tagged := (podKey s.a (bits k.wave 14 10) k.ctx).map (fun y => tagOf y x.cap) = some k.tag
    let away := unreachable s.a x.senderPkg (bits k.wave 14 10)
    (sendReady s.a x k = false → out = .next s) ∧
    (sendReady s.a x k = true → away = true → out = .next (withA s (s.a.answer n 7))) ∧
    (sendReady s.a x k = true → away = false →
      (x.ctx ≠ k.ctx → out = .next (withA s (s.a.answer n 4))) ∧
      (x.ctx = k.ctx → ¬ tagged → out = .next (withA s ((tagRefusal s.a s.time x).answer n 3))) ∧
      (x.ctx = k.ctx → tagged → x.inScope = false → out = .next (withA s (s.a.answer n 5))) ∧
      (x.ctx = k.ctx → tagged → x.inScope = true →
        (191 < bits k.wave 6 8 ∨ 47 < k.wave % 64 → out = .next (withA s (s.a.answer n 2))) ∧
        (∀ e t, bits k.wave 6 8 ≤ 191 → k.wave % 64 ≤ 47 → tget s.a.locs (locKey (BitVec.ofNat 32 k.wave)) = some e →
          (e.ctx ≠ k.ctx ∨ e.gen ≠ k.gen ∨ e.state = .retired → out = .next (withA s (s.a.answer n 2))) ∧
          (e.ctx = k.ctx → e.gen = k.gen → e.state ≠ .retired → e.state.holds = false → s.a.thread e.uid = some t → t.uid = e.uid →
            (s.a.berth t.unit.pkg (t.unit.idx / 48)).held = false → t.saved = false →
            (t.isOpen (k.base + x.idx) = false → out = .next (withA s (s.a.answer n 6))) ∧
            (t.isOpen (k.base + x.idx) = true → k.ovw = false → t.arrived (k.base + x.idx) &&& x.lanes ≠ 0 →
              out = .next (withA s ((overwriteFault s.a s.time t (k.base + x.idx) x.senderId).answer n 1))) ∧
            (t.isOpen (k.base + x.idx) = true → k.ovw = true ∨ t.arrived (k.base + x.idx) &&& x.lanes = 0 → ∃ t',
              out = .next (withA s (noteDelivery ((s.a.setThread t').answer n 0) x t.uid)) ∧
              { t' with regs := { t'.regs with v := t.regs.v, clear := t.regs.clear, badV := t.regs.badV }, wait := t.wait } = t ∧
              MarksLeft t t'.regs.badV (fun r l => r = k.base + x.idx ∧ x.lanes.getLsbD l = true) ∧
              (∀ r l, l < 32 → t'.getV r l =
                if r = k.base + x.idx ∧ x.lanes.getLsbD l = true then tgetD x.vals l 0 else t.getV r l) ∧
              (∀ r, t'.arrived r = if r = k.base + x.idx then t.arrived r ||| x.lanes else t.arrived r))) ∧
          (e.ctx = k.ctx → e.gen = k.gen → e.state.holds = true → out = .next (withA s
            { s.a with locs := tset s.a.locs (locKey (BitVec.ofNat 32 k.wave)) { e with queue := e.queue ++ [n] } })) ∧
          (e.ctx = k.ctx → e.gen = k.gen → e.state ≠ .retired → e.state.holds = false → s.a.thread e.uid = some t → t.uid = e.uid →
            ((s.a.berth t.unit.pkg (t.unit.idx / 48)).held = true → out = .next (withA s (s.a.answer n 7))) ∧
            ((s.a.berth t.unit.pkg (t.unit.idx / 48)).held = false → t.saved = true →
              ∀ g r, imageOf s.a t.unit.pkg t.unit.idx t.ctx = some g → g.waves.find? (fun y => y.uid == t.uid) = some r →
              let reg := k.base + x.idx
              let at' := imageAddr s.a g + r.off
              (reg ∉ r.regs → out = .next (withA s (s.a.answer n 6))) ∧
              (∀ i, r.regs.idxOf? reg = some i →
                let arr := BitVec.ofNat 32 (mnum s.mem (at' + r.arrAt i) 4)
                let open' := bitAt (mget s.mem (at' + 704 + reg / 8)).toNat (reg % 8)
                let rf := BitVec.ofNat 32 (mnum s.mem (at' + 88) 4)
                let f := faultRecord rf (BitVec.ofNat 32 (mnum s.mem (at' + 92) 4)) reg x.senderId
                (open' = false → out = .next (withA s (s.a.answer n 6))) ∧
                (open' = true → k.ovw = false → arr &&& x.lanes ≠ 0 → out = .next (s.commit
                  ((overwriteTrap s.a s.time t (rf.getLsbD 31) reg x.senderId f.2.2).answer n 1)
                  [(at' + 88, leBytes 4 f.1.toNat ++ leBytes 4 f.2.1.toNat)])) ∧
                (open' = true → k.ovw = true ∨ arr &&& x.lanes = 0 → out = .next (s.commit (noteDelivery (s.a.answer n 0) x t.uid)
                  ((at' + r.arrAt i, leBytes 4 (arr ||| x.lanes).toNat) ::
                    (Lanes.toList x.lanes).map (fun l => (at' + r.vAt i + 4 * l, leBytes 4 (tgetD x.vals l 0).toNat)))))))))))) ∧
  (∀ (s : State) (n : Nat) (x : Send) (t : Thread) (code : Nat), tget s.a.sends n = some x → x.status = some code →
    s.a.thread x.sender = some t → threadCrossing s.a x.sender = false → targetCrossing s.a (Cap.of x.cap) = false → ∃ t',
      exec (.sendAcknowledgement n) s =
        .next (withA s (startMoves { s.a with threads := tset s.a.threads x.sender t', sends := tdel s.a.sends n } x.sender)) ∧
      { t' with regs := t.regs, sr := t.sr, tmCounts := t.tmCounts } = t ∧ { t'.regs with f := t.regs.f } = t.regs ∧
      (∀ j, t'.getF j = if j = x.flag then t.getF j - 1 else t.getF j) ∧
      { t'.sr with rsstat := t.sr.rsstat } = t.sr ∧
      t'.sr.rsstat = BitVec.ofNat 32 (code * 65536 +
        if code = 0 then t.sr.rsstat.toNat % 256 else setBit (t.sr.rsstat.toNat % 256) code)) ∧
  (∀ (a : Arch) (t : Thread), a.thread t.uid = some t →
    let begins := t.isWave = true ∧ t.mig ≠ none ∧ t.clause = none ∧ t.tm = false ∧ ∀ x ∈ tvals a.sends, x.sender ≠ t.uid
    (begins → startMoves a t.uid =
      { a with locs := tmod a.locs (locKey t.waveid) (fun e => if e.state = .resident then { e with state := .moving } else e) }) ∧
    (¬ begins → startMoves a t.uid = a))

/-! ## Class 10 -/

/-- R410 to R417: each summary word checks its operands and objects, waits while the object is in use, and puts one operation with its
values to the summary unit. -/
def Sys2Proof.Spec.SummaryWords : Prop :=
  ∀ (s : State) (t : Thread) (c : Clause) (h : Hd), Issues s t c → t.level = .lg →
    let w := s.view t c h
    let ls := Lanes.toList (taking s t c h)
    let query (k : SKind) (mk : Tab Nat → Tab W32 → SumWhat) (f : FSel) (d a b : Opnd) (out : Out) : Prop :=
      SummaryEnds s t c h f k
        [srcU64 1 a, vecBad w [{ j := 0, o := d, n := 1, dst := true }, { j := 2, o := b, n := 1, dst := false }]]
        [{ j := 2, o := b, n := 1, dst := false }] [{ j := 1, va := (w.rs64 a).toNat, r := .rd }]
        (fun _ => mk (ls.map (fun l => (l, w.destReg d l))) (ls.map (fun l => (l, w.rd 2 b l)))) out
    (∀ f kind coin a b, SummaryEnds s t c h f kind [srcU64 1 a, if kind = .qsk then srcU64 2 b else none] []
      [{ j := 1, va := (w.rs64 a).toNat, r := .w }] (fun _ => .init kind (w.rs64 b) coin) (exec (.skinit h f kind coin a b) s)) ∧
    (∀ f wide a b e, SummaryEnds s t c h f .qsk
      [srcU64 1 a, vecBad w [{ j := 2, o := b, n := if wide then 2 else 1, dst := false }]]
      [{ j := 2, o := b, n := if wide then 2 else 1, dst := false }] [{ j := 1, va := (w.rs64 a).toNat, r := .rdw }]
      (fun _ => .insQ (ls.map (fun l => w.rd 2 b l))) (exec (.skins h f .qsk wide a b e) s)) ∧
    (∀ f wide a b e, SummaryEnds s t c h f .hhl
      [srcU64 1 a, vecBad w [{ j := 2, o := b, n := if wide then 2 else 1, dst := false }, { j := 3, o := e, n := 1, dst := false }]]
      [{ j := 2, o := b, n := if wide then 2 else 1, dst := false }, { j := 3, o := e, n := 1, dst := false }]
      [{ j := 1, va := (w.rs64 a).toNat, r := .rdw }]
      (fun _ => .insH (ls.map (fun l => w.rd 2 b l)) (ls.map (fun l => w.rd 3 e l))) (exec (.skins h f .hhl wide a b e) s)) ∧
    (∀ f wide a b e, SummaryEnds s t c h f .dcr
      [srcU64 1 a, vecBad w [{ j := 2, o := b, n := if wide then 2 else 1, dst := false }]]
      [{ j := 2, o := b, n := if wide then 2 else 1, dst := false }] [{ j := 1, va := (w.rs64 a).toNat, r := .rdw }]
      (fun _ => .insD (ls.map (fun l => if wide = true then w.rd64 2 b l else (w.rd 2 b l).setWidth 64)))
      (exec (.skins h f .dcr wide a b e) s)) ∧
    (∀ f kind a b, SummaryEnds s t c h f kind [srcU64 1 a, srcU64 2 b, overlapBad kind.size (w.rs64 a) (w.rs64 b)] []
      [{ j := 1, va := (w.rs64 a).toNat, r := .rdw }, { j := 2, va := (w.rs64 b).toNat, r := .rd }] (fun x => .merge kind x)
      (exec (.skmrg h f kind a b) s)) ∧
    (∀ f d a b, query .qsk .quant f d a b (exec (.skquant h f d a b) s) ∧ query .qsk .rank f d a b (exec (.skrank h f d a b) s) ∧
      query .hhl .point f d a b (exec (.skpoint h f d a b) s)) ∧
    (∀ f d a b, SummaryEnds s t c h f .hhl [srcU64 1 a, srcU 2 b, runBad w 0 d 2 1] []
      [{ j := 1, va := (w.rs64 a).toNat, r := .rd }] (fun _ => .top (regNo d) (w.rs b).toNat (taking s t c h))
      (exec (.sktop h f d a b) s)) ∧
    (∀ f (d : Fin 48) a, SummaryEnds s t c h f .dcr [srcU64 1 a, none] [] [{ j := 1, va := (w.rs64 a).toNat, r := .rd }]
      (fun _ => .est [(0, 0xC0 + d.val)]) (exec (.skest h f (.s d) a) s)) ∧
    (∀ f d a, (∀ n, d ≠ .s n) → SummaryEnds s t c h f .dcr [srcU64 1 a, vecBad w [{ j := 0, o := d, n := 1, dst := true }]] []
      [{ j := 1, va := (w.rs64 a).toNat, r := .rd }] (fun _ => .est (ls.map (fun l => (l, w.destReg d l))))
      (exec (.skest h f d a) s))

/-- R186, R411, R418: the summary unit of a core performs its oldest operation when the wave's earlier accesses to the object are
performed: memory becomes what the summary's bytes say, nothing else in memory changes, the registers get the answers, and the flag
falls. -/
def Sys2Proof.Spec.SummaryCompletes : Prop :=
  ∀ (s : State) (core : Nat) (o : SumOp), (tvals s.a.sums).find? (fun x => x.core == core) = some o →
    (sumReady s.a o = false → exec (.summaryInstructionComplete core) s = .next s) ∧
    (sumReady s.a o = true → o.badGranules s.a = [] →
      let b := match o.what with | .merge _ fb => o.bytesAt s.mem fb | _ => []
      let r := sumEffect o.what o.part (o.bytesAt s.mem o.addr) b s.a.free
      ∃ a' m', exec (.summaryInstructionComplete core) s = .next { s with a := a', mem := m' } ∧
        a'.sums = tdel s.a.sums o.id ∧ a'.free = r.2.2 ∧
        (∀ p, (r.1 = none ∨ p < o.addr ∨ o.addr + (r.1.getD []).length ≤ p) → mget m' p = mget s.mem p) ∧
        (∀ bs i, r.1 = some bs → i < bs.length → mget m' (o.addr + i) = bs.getD i 0) ∧
        (∀ u, u ≠ o.uid → a'.thread u = s.a.thread u) ∧
        (∀ t, s.a.thread o.uid = some t → a'.thread o.uid =
          some ((r.2.1.foldl (fun t p => t.setRegAt o.tm p.1 p.2.1 p.2.2) t).lower o.flag o.tm)))

namespace Sys2Proof.Spec

/-- A byte lies in no piece of a request. -/
def outside (r : MemReq) (x : Nat) : Prop := ∀ p ∈ r.pieces, x < p.addr ∨ p.addr + p.len ≤ x

/-- No piece of a request meets an uncorrectable granule. -/
def sound (a : Arch) (r : MemReq) : Prop := ∀ p ∈ r.pieces, ∀ g ∈ granules p.addr p.len, isBad a g = false

/-- An architecture in which one operation has been performed as far as its request `n`: its requests say so, or it has gone. -/
def requestDone (a : Arch) (o : MemOp) (n : Nat) : Prop :=
  (∃ o', tget a.ops o.id = some o' ∧ o'.reqs = o.reqs.map (fun q => if q.id = n then { q with done := true, half := none } else q) ∧
    ∃ q ∈ o'.reqs, q.done = false) ∨
  (tget a.ops o.id = none ∧ ∀ q ∈ o.reqs, q.id = n ∨ q.done = true)

/-- No command, contribution or collective chunk bears the number of an operation: MEMORY_REQUEST_COMPLETE then names the operation. -/
def onlyOp (a : Arch) (n : Nat) : Prop :=
  tget a.cmds n = none ∧ (∀ r ∈ tvals a.reds, ∀ c ∈ r.contribs, c.id ≠ n) ∧ tget a.chunks n = none

/-- How a request of an operation of `k` bytes a lane lands: each lane whose last request it is gets its destination words, made of the
lane's bytes; nothing else in the registers changes but the flag of an operation that has ended. A vector destination is a register
number, a scalar one follows 0xC0. -/
def Lands (o : MemOp) (r : MemReq) (t t' : Thread) (k : Nat) (sext : Bool) (dest : Tab Nat) (byte : Nat → Nat → Byte) : Prop :=
  let words := (k + 3) / 4
  let ends (l : Nat) : Prop := (∃ p ∈ r.pieces, p.lane = l) ∧
    ∀ q ∈ o.reqs, q.id = r.id ∨ q.done = true ∨ ∀ p ∈ q.pieces, p.lane ≠ l
  let word (l i : Nat) : W32 :=
    let m := min 4 (k - 4 * i)
    let x := leVal ((List.range m).map (fun j => byte l (4 * i + j)))
    if sext = true then BitVec.ofInt 32 (signedOf (8 * m) x) else BitVec.ofNat 32 x
  { t' with regs := t.regs, bank := t.bank, tmCounts := t.tmCounts, acqd := t.acqd, readRels := t.readRels } = t ∧
  (∀ j, t'.getF j = if o.flag = some j ∧ ∀ q ∈ o.reqs, q.id = r.id ∨ q.done = true then t.getF j - 1 else t.getF j) ∧
  ((∀ l d, tget dest l = some d → d + 4 ≤ 192) →
    let wrote (q l : Nat) : Prop := ends l ∧ ∃ d, tget dest l = some d ∧ d ≤ q ∧ q < d + words
    t'.bank = t.bank ∧ { t'.regs with v := t.regs.v, f := t.regs.f, badV := t.regs.badV } = t.regs ∧ MarksLeft t t'.regs.badV wrote ∧
    (∀ l d i, tget dest l = some d → ends l → i < words → t'.getV (d + i) l = word l i) ∧
    ∀ q l, l < 32 → ¬ wrote q l → t'.getV q l = t.getV q l) ∧
  (∀ l d, dest = [(l, d)] → 0xC0 ≤ d → d + words ≤ 0xF0 → o.tm = t.tm → ends l →
    ∀ i, i < 48 → t'.getS i = if d ≤ 0xC0 + i ∧ 0xC0 + i < d + words then word l (0xC0 + i - d) else t.getS i)

end Sys2Proof.Spec

/-! ## Memory requests and engine commands -/

/-- R104, R105, R340 to R345: a request that may not yet be performed changes nothing. One that may is performed once: a store writes its
bytes and nothing else in memory, an atomic writes its new value, a load and a metadata access write no memory; when it was the last
the operation has gone. An atomic that another agent's write is not excluded from may only read at its first step (R129; log 93). -/
def Sys2Proof.Spec.RequestsPerform : Prop :=
  ∀ (s : State) (n m : Nat) (o : MemOp) (r : MemReq), onlyOp s.a n → tget s.a.ops n = some o → o.id = n →
    o.reqs.find? (fun x => x.id == m) = some r → r.half = none →
    let out := exec (.memoryRequestComplete n m) s
    let ordered := orderMarks s.a o r
    let whole := atomSplits ordered ((tget ordered.ops n).getD o) r = false
    (reqReady s.a s.time o r = true → ¬ whole → ∃ a', out = .next (withA s a') ∧ (sound s.a r → ∃ o' ws, tget a'.ops n = some o' ∧
      o'.reqs = o.reqs.map (fun q => if q.id = m then { q with half := some ws } else q))) ∧
    (reqReady s.a s.time o r = false → out = .next s) ∧
    (reqReady s.a s.time o r = true → whole → ∃ a' m', out = .next { s with a := a', mem := m' } ∧ requestDone a' o m ∧
      (o.what.isStore = false → m' = s.mem) ∧
      (∀ d, o.what = .stmeta d → m' = s.mem) ∧
      (∀ k d, o.what = .store k d → ∀ x, outside r x → mget m' x = mget s.mem x) ∧
      (∀ k d p, o.what = .store k d → sound s.a r → r.pieces = [p] → ∀ i, i < p.len →
        mget m' (p.addr + i) = tgetD d (16 * p.lane + p.off + i) 0) ∧
      (∀ k op sgn b c d p, o.what = .atom k op sgn b c d → sound s.a r → r.pieces = [p] →
        (∀ x, x < p.addr ∨ p.addr + k ≤ x → mget m' x = mget s.mem x) ∧
        mnum m' p.addr k = atomNew k op sgn (mnum s.mem p.addr k) (tgetD b p.lane 0) (tgetD c p.lane 0) % 2 ^ (8 * k)))

/-- R340, R341, R344, R345: when the last request of a lane of a load, an atomic or a metadata load is performed, the lane's destination
words hold the bytes landed: those that memory holds, for a load sign-extended where it says so, for an atomic those before its write, for
a metadata load the granule's metadata. The flag falls with the operation's last request. -/
def Sys2Proof.Spec.LoadLands : Prop :=
  ∀ (s : State) (n : Nat) (o : MemOp) (r : MemReq) (t : Thread), onlyOp s.a n → tget s.a.ops n = some o → o.id = n →
    o.reqs.find? (fun x => x.id == r.id) = some r → r.half = none → sound s.a r → s.a.thread o.uid = some t → t.uid = o.uid →
    reqReady s.a s.time o r = true → o.errDests = [] → o.errGran = [] → (∀ p ∈ r.pieces, p.line = none ∧ p.lane < 32) →
    let out := exec (.memoryRequestComplete n r.id) s
    (∀ k sext dest, o.what = .load k sext dest → k = 1 ∨ k = 2 ∨ k = 4 ∨ k = 8 ∨ k = 16 →
      (∀ p ∈ r.pieces, o.freePiece p = false ∧ p.off + p.len ≤ k) →
      r.pieces.Pairwise (fun p q => p.lane ≠ q.lane ∨ p.off + p.len ≤ q.off ∨ q.off + q.len ≤ p.off) →
      ∃ a' t', out = .next (withA s a') ∧ requestDone a' o r.id ∧ a'.thread o.uid = some t' ∧ Lands o r t t' k sext dest (fun l i =>
        match r.pieces.find? (fun p => p.lane == l && decide (p.off ≤ i) && decide (i < p.off + p.len)) with
        | some p => mget s.mem (p.addr + (i - p.off))
        | none => tgetD o.buf (16 * l + i) 0)) ∧
    (∀ k op sgn b c dest p, o.what = .atom k op sgn b c dest → r.pieces = [p] → p.off = 0 → p.len = k → k = 4 ∨ k = 8 ∨ k = 16 →
      (let a := orderMarks s.a o r; atomSplits a ((tget a.ops n).getD o) r = false) →
      ∃ a' m' t', out = .next { s with a := a', mem := m' } ∧ requestDone a' o r.id ∧ a'.thread o.uid = some t' ∧
        Lands o r t t' k false dest (fun _ i => mget s.mem (p.addr + i))) ∧
    (∀ dest p, o.what = .ldmeta dest → r.pieces = [p] → 0 < p.len →
      ∃ a' t', out = .next (withA s a') ∧ requestDone a' o r.id ∧ a'.thread o.uid = some t' ∧ Lands o r t t' 8 false dest (fun _ i =>
        (leBytes 8 (metaOf s.a (granule p.addr) (gradeCount (attrGrade p.attr)))).getD i 0))

/-- R98, R107: STALE_REISSUE translates the stale requests of an operation again, and changes nothing when none is stale; LEASE_EXPIRY
drops a translation only after its expiry. -/
def Sys2Proof.Spec.TranslationsAge : Prop :=
  (∀ (s : State) (n : Nat) (o : MemOp), tget s.a.ops n = some o →
    ((∀ r ∈ o.reqs, reqStale s.a s.time o r = false) → exec (.staleReissue n) s = .next s) ∧
    (o.id = n → (∃ r ∈ o.reqs, reqStale s.a s.time o r = true) →
      (∀ r ∈ o.reqs, reqStale s.a s.time o r = true → ∀ p ∈ r.pieces, ∃ x,
        translate s.a s.mem s.time o.ag o.what.right (tgetD o.vas p.lane 0 + p.off) p.len = .ok x) →
      (∃ r ∈ o.reqs, reqStale s.a s.time o r = true ∧ r.pieces ≠ []) →
      ∃ o', exec (.staleReissue n) s = .next (withA s { s.a with ops := tset s.a.ops n o' }) ∧
        { o' with reqs := o.reqs } = o ∧ (∀ r ∈ o.reqs, reqStale s.a s.time o r = false → r ∈ o'.reqs) ∧
        ∀ r ∈ o'.reqs, r ∈ o.reqs ∨ (r.done = false ∧ ∀ q ∈ o.reqs, q.id < r.id))) ∧
  (∀ (s : State) (core n : Nat), n < 256 → exec (.leaseExpiry core n) s = .next (withA s
    (match tget s.a.tlb (tlbKey core n) with
     | some e => if e.expiry < refTimer s.a s.time (core / 192) then { s.a with tlb := tdel s.a.tlb (tlbKey core n) } else s.a
     | none => s.a))) ∧
  (∀ (s : State) (core n : Nat), 256 ≤ n → ∃ ts, exec (.leaseExpiry core n) s = .next (withA s { s.a with threads := ts }) ∧
    ts.map (·.1) = s.a.threads.map (·.1) ∧
    ∀ u t, s.a.thread u = some t → ∃ t', tget ts u = some t' ∧ { t' with lastPage := t.lastPage } = t ∧
      ∀ l e, tget t.lastPage l = some e → tget t'.lastPage l = some e ∨
        (tget t'.lastPage l = none ∧ e.expiry < refTimer s.a s.time (core / 192) ∧ l = n % 32 ∧ t.slot = (n - 256) / 32))

/-- R111, R354, R357, R373, R374: COPY_COMPLETE and MCOPY_COMPLETE perform what is left of their command in order and end it: with its
status in its register, its arrival at its barrier and its flag lowered. One 16-byte unit of a command is also a request by itself, and
but for a copy channel and a stream any unit may be the next (R126, R128). -/
def Sys2Proof.Spec.EngineCommands : Prop :=
  (∀ (s : State) (n : Nat) (x : Cmd), tget s.a.cmds n = some x →
    ((∃ ch, x.kind = .copyIn ch) ∨ x.kind = .copyOut ∨ x.kind = .copySeq ∨ (∃ q b p, x.kind = .spush q b p) →
      CommandRuns s x endCmd (exec (.copyComplete n) s)) ∧
    (x.kind = .queueCopy → CommandRuns s x (endQueueCmd s.time) (exec (.copyComplete n) s)) ∧
    (∀ l up, x.kind = .mcopy l up → CommandRuns s x endMcopy (exec (.mcopyComplete n) s)) ∧
    ((∀ d, x.kind ≠ .queueWrite d) → (∀ va k p b e, x.kind ≠ .claim va k p b e) → ∀ m,
      ∃ a' m', exec (.memoryRequestComplete n m) s = .next { s with a := a', mem := m' } ∧
        (cmdReady s.a x = false ∨ x.unitOf m = none → a' = s.a ∧ m' = s.mem) ∧
        (∀ y, cmdReady s.a x = true → x.unitOf m = some y →
          let r := moveAt s.time y (startMove s.a s.mem x)
          mwrites s.mem r.ws = r.mem ∧ (r.fail ≠ none ∨ r.held = true → a' = s.a ∧ m' = s.mem) ∧
          (r.fault = none → r.fail = none → r.held = false → m' = r.mem ∧
            a' = { r.a with cmds := tset r.a.cmds r.c.id r.c }.remember s.mem r.ws)))) ∧
  (∀ (x : Cmd) (i off : Nat) (l : Leg), x.legs[i]? = some l → off < 2 ^ 32 → (∀ ch, x.kind ≠ .copyIn ch) →
    (∀ q b p, x.kind ≠ .spush q b p) → l.done < off → off < l.size → l.dst.low off % 16 = 0 → off ∉ l.ahead →
    x.unitOf (i * 2 ^ 32 + off) = some (i, l, off)) ∧
  (∀ (a : Arch) (x : Cmd) (u : Nat) (t : Thread) (stat kind : Nat), x.owner = .thread u → a.thread u = some t → x.bar = none →
    x.tm = false → ∃ t', (endCmd a x stat kind).thread u = some t' ∧ tget (endCmd a x stat kind).cmds x.id = none ∧
      (∀ n, x.status = some n → tgetD t'.regs.s n 0 = BitVec.ofNat 32 (stat + kind * 256 + b2n x.noarr * 2048)) ∧
      (∀ j, t'.getF j = if x.flag = some j then t.getF j - 1 else t.getF j))

/-- R356 to R358: SPUSH_ADMIT gives the oldest push of a stream its positions when the ring has room, in two parts where they wrap;
SPOP_RELEASE lets the first SPOP that waits at a stream make its release at CORE and take its bytes once they are there, as a word that
has then issued. Neither acts while the crew is swapped out (DEDUCED, log 44). -/
def Sys2Proof.Spec.StreamSteps : Prop :=
  (∀ (s : State) (n : Nat) (x : Cmd) (q z j : Nat) (l : Leg) (g : Agent) (va : Nat) (k : Crew) (st : Stream),
    tget s.a.cmds n = some x → x.kind = .spush q false z → x.ag.crew = some j → x.legs = [l] → l.src = .va g va →
    s.a.crew j = some k → tget k.streams q = some st → 0 < st.cap →
    let oldest := ∀ y, y ∈ pushesOf s.a j q → (∃ z, y.kind = .spush q false z) → x.id ≤ y.id
    (¬ oldest ∨ k.out = true ∨ st.cap < l.size + (st.rs - st.rp) → exec (.spushAdmit n) s = .next s) ∧
    (oldest → k.out = false → l.size + (st.rs - st.rp) ≤ st.cap → ∃ legs,
      exec (.spushAdmit n) s = .next (withA s { s.a.setCrew { k with streams := tset k.streams q { st with rs := st.rs + l.size } } with
        cmds := tset s.a.cmds n { x with kind := .spush q true st.rs, legs := legs } }) ∧
      (l.size ≤ st.cap - st.rs % st.cap →
        legs = [{ l with dst := .va x.ag (0x7F000000000000 + (st.base + st.rs % st.cap)) }]) ∧
      (st.cap - st.rs % st.cap < l.size → let n1 := st.cap - st.rs % st.cap
        legs = [{ l with dst := .va x.ag (0x7F000000000000 + (st.base + st.rs % st.cap)), size := n1 },
          { l with src := .va g (va + n1), dst := .va x.ag (0x7F000000000000 + st.base), size := l.size - n1 }]))) ∧
  (∀ (s : State) (u q n came : Nat) (t : Thread) (c : Clause) (k : Crew) (st : Stream), s.a.thread u = some t →
    t.wait = some (.spop q n came) → t.clause = some c → s.a.crew t.crew = some k → tget k.streams q = some st →
    let first := ∀ x ∈ popWaiters s.a k.id q, came ≤ x.2
    (st.wp - st.rp < n ∨ ¬ first ∨ k.out = true ∨ unitStill s.a t = true → exec (.spopRelease u) s = .next s) ∧
    (n ≤ st.wp - st.rp → first → k.out = false → unitStill s.a t = false → exec (.spopRelease u) s = .next (withA s (wordDone
      ((popStream (releaseAt s.a t .core) k.id q n).modThread u (fun y => advance y c (c.sizeAt c.pos))) s.mem s.time u))))

/-- R349, R350: a CLAIM waits for earlier requests to its frames and for earlier claims of its range; a committed one ends when its old
mapping is retired; else its frames' bytes are copied and its table words rewritten. -/
def Sys2Proof.Spec.ClaimSteps : Prop :=
  (∀ (s : State) (n : Nat) (x : Cmd) (va k p b e u : Nat), tget s.a.cmds n = some x → x.kind = .claim va k p b e →
    x.owner = .thread u →
    (x.committed = true → refTimer s.a s.time x.pkg < e → exec (.claimComplete n) s = .next s) ∧
    (x.committed = true → e ≤ refTimer s.a s.time x.pkg → exec (.claimComplete n) s =
      .next (withA s ({ s.a with cmds := tdel s.a.cmds x.id }.lowerFlag u x.flag x.tm))) ∧
    (x.committed = false → claimBusy s.a x = true ∨ claimBehind s.a x = true → exec (.claimComplete n) s = .next s) ∧
    (∀ es, x.committed = false → claimBusy s.a x = false → claimBehind s.a x = false →
      claimRange s.a s.mem x.ag (k / 65536 + 1) va (va + k - 1) = .ok es →
      let legs := (claimLegs p b es).filter (fun l => !decide (l.src = l.dst))
      (legs = [] → exec (.claimComplete n) s =
        .next (withA s ({ s.a with cmds := tdel s.a.cmds x.id }.lowerFlag u x.flag x.tm))) ∧
      (legs ≠ [] → legs.any (Leg.stalled s.a x) = true → exec (.claimComplete n) s = .next s) ∧
      (legs ≠ [] → legs.any (Leg.stalled s.a x) = false → claimBadSlot s.a b es = none →
        let copies (l : Leg) : Writes := match l.src, l.dst with | .phys f, .phys d => frameWrites s.mem f d l.size | _, _ => []
        let m' := mwrites s.mem (legs.flatMap copies ++ claimRewrite s.mem b es)
        ∃ a' x', exec (.claimComplete n) s = .next { s with a := a', mem := m' } ∧
        tget a'.cmds x.id = some x' ∧ x'.committed = true ∧ x'.legs = legs ∧
        x'.kind = .claim va k p b (retireTime s.a s.time p x.ctx)))) ∧
  (∀ (m : Memory) (f d n : Nat), Memory.wf m = true → f + n ≤ d ∨ d + n ≤ f →
    (∀ i, i < n → mget (mwrites m (frameWrites m f d n)) (d + i) = mget m (f + i)) ∧
    (∀ x, x < d ∨ d + n ≤ x → mget (mwrites m (frameWrites m f d n)) x = mget m x))

/-- R43, R44, R126, R187, R377, R378: a contribution that may not yet be read changes nothing; one may be read 16-byte unit by unit, before
the step at which it arrives, whose read keeps those units; the last to arrive ends its instance, and every
contributor then has the status in its register and its flag lowered. -/
def Sys2Proof.Spec.ReduceSteps : Prop :=
  (∀ (s : State) (n m : Nat), tget s.a.reds n = none → exec (.reduceContributionArrival n m) s = .next s) ∧
  (∀ (s : State) (n m : Nat) (r : Red), tget s.a.reds n = some r → r.id = n → r.fin = false →
    (∃ k, r.contribs[m]? = some k ∧ k.arrived = false ∧ k.faulted = false ∧ k.acq = true ∧
      pendingBefore s.a k.uid k.id = true) → exec (.reduceContributionArrival n m) s = .next s) ∧
  (∀ (s : State) (n m : Nat) (r : Red) (k f : Contrib) (ps : List (Place1 × Nat)) (e : EF),
    tget s.a.reds n = some r → r.id = n → r.fin = false → r.contribs[m]? = some k → k.arrived = false → k.faulted = false →
    k.acq = false → r.first = some f → k.differs f = false → k.ty = .ef e → r.acc ≠ [] →
    resolveRange s.a s.mem s.time k.id k.ag (.va k.ag k.addr) .rd (redBytes k.ty k.count) none = .ok ps →
    (∃ j y, r.contribs[j]? = some y ∧ j ≠ m ∧ y.arrived = false) → ∃ r',
      exec (.reduceContributionArrival n m) s = .next (withA s { dropEarly s.a k.id with reds := tset s.a.reds n r' }) ∧
      r'.contribs = r.contribs.set m { k with arrived := true } ∧
      r'.acc = (wireOps e f.op r.acc (widenBytes e k.count (withEarly s.a k.id (sourceBytes s.mem ps)))).1 ∧ r'.first = some f) ∧
  (∀ (s : State) (j : Nat) (k : Contrib) (ps : List (Place1 × Nat)), tget s.a.cmds k.id = none →
    (tvals s.a.reds).findSome? (fun r => r.contribs.find? (fun c => c.id == k.id)) = some k → k.arrived = false → k.faulted = false →
    k.acq = false →
    let lo := 16 * j - k.addr % 16
    let hi := min (redBytes k.ty k.count) (16 * (j + 1) - k.addr % 16)
    lo < hi → (∀ e ∈ s.a.early, e.1 ≠ k.id ∨ e.2.1 ≠ lo) →
    resolveRange s.a s.mem s.time k.id k.ag (.va k.ag ((k.addr + lo) % 2 ^ 64)) .rd (hi - lo) none = .ok ps →
    exec (.memoryRequestComplete k.id j) s = .next (withA s { s.a with early := s.a.early ++ [(k.id, lo, sourceBytes s.mem ps)] })) ∧
  (∀ (a : Arch) (r : Red) (st : Nat), (∀ c ∈ r.contribs, c.saved = false) → r.contribs.Pairwise (fun x y => x.uid ≠ y.uid) →
    tget (endRed a r st).reds r.id = none ∧
    ∀ c ∈ r.contribs, c.tm = false → ∀ t, a.thread c.uid = some t → ∃ t', (endRed a r st).thread c.uid = some t' ∧
      tgetD t'.regs.s c.status 0 = BitVec.ofNat 32 st ∧ ∀ j, t'.getF j = if j = c.flag then t.getF j - 1 else t.getF j)

namespace Sys2Proof.Spec

/-- What a thread `t` becomes when a choice gives it a clause of `e`, or the trap or the wait that comes instead: nothing of any other
thread changes. A wait mask makes the acquires of R127, at a scope within the pod (DEDUCED, log 59); an uncorrectable granule that the fetch
meets leaves one ERROR trap pending, in trap mode too (R215). -/
def Begins (s : State) (a : Arch) (t : Thread) (e : FEntry) (out : Out) : Prop :=
  let es := readPrios a s.mem s.time t
  let t0 := { t with front := passEntries es e, eligible := 0, promoted := false }
  (∀ hd ws a1, fetchClause (a.setThread t0) s.mem s.time t0 e.lanes e.pc = .ok (hd, ws, a1) →
    let begun (t : Thread) : Thread := { t with clause := some { pc := e.pc, hdr := hd, words := ws, pos := 0, lanes := e.lanes } }
    out = .next (withA s ((if hd.wait = 0 then a1 else acquireAt a1 t0 .pod).modThread t.uid begun)) ∧
    (∀ u, u ≠ t.uid → (acquireAt a1 t0 .pod).thread u = a1.thread u) ∧
    ∃ t', (acquireAt a1 t0 .pod).thread t.uid = some t' ∧ { t' with acqd := t.acqd } = t0) ∧
  (∀ r a1, fetchClause (a.setThread t0) s.mem s.time t0 e.lanes e.pc = .error (.trap r a1) →
    out = .next (s.commit (takeTrap a1 s.time t0 r e.pc).1 (takeTrap a1 s.time t0 r e.pc).2)) ∧
  (∀ r fa a1, fetchClause (a.setThread t0) s.mem s.time t0 e.lanes e.pc = .error (.error r fa a1) →
    let again := t.tm = true ∧ ∃ p ∈ t.pend, p.trap.fetch = true ∧ p.trap.faddr = r.faddr
    (¬ again → out = .next (withA s ((a1.event s.time (faPkg fa) 7 t.ctx (faPlace fa).mem (fa / 64 * 64) t.eventId).pend t.uid r))) ∧
    (again → out = .next (withA s a1)))

/-- A crew barrier at the start of a crew of `n` waves: all are members, and no engine (R58). -/
def firstBar (n : Nat) : CrewBar := { members := 2 ^ n - 1, arrived := 0, e := 0, count := 0, heldEngine := 0, phase := 0 }

end Sys2Proof.Spec

/-! ## Issue -/

/-- R50, R52, R56, R71 to R73, R245 to R247, R249, R260: an issue slot or sequencer that no clause holds chooses the first thread in
rank among those eligible, resumes its suspended clause, or begins the clause of the entry of highest priority, or of an entry that has
been passed over 1024 times; with none eligible nothing happens. Which stalls leave the slot to other waves is the model's reading
(DEDUCED, log 17). -/
def Obligations.ClauseChoice : Prop :=
  (∀ (s : State) (core slot : Nat), (∀ t ∈ slotWaves s.a core slot, t.yielded = false) →
    let ws := slotWaves s.a core slot
    let els := ws.filter (waveEligible s.a s.mem s.time)
    let out := exec (.clauseBegin core slot) s
    ((∃ t ∈ ws, t.holdsSlot = true) → out = .next s) ∧
    (els = [] → out = .next s) ∧
    ((∀ t ∈ ws, t.holdsSlot = false) → els ≠ [] → ∃ t ∈ els, (∀ u ∈ els, ranksBefore s.a u t = false) ∧
      (∀ k, t.clause = some k → out = .next (withA s (s.a.setThread { t with wait := none, eligible := 0, promoted := false }))) ∧
      (t.clause = none → t.tm = true ∨ t.pend = [] → ∀ e, pickEntry (readPrios s.a s.mem s.time t) = some e → Begins s s.a t e out) ∧
      (∀ p, t.clause = none → t.tm = false → firstPend t.pend = some p → ∃ r e, r.cls = p.trap.cls ∧ r.addr = p.trap.addr ∧
        let t1 := { t with pend := t.pend.erase p, eligible := 0, promoted := false }
        out = .next (s.commit (enterTrap (s.a.setThread t1) t1 r e).1 (enterTrap (s.a.setThread t1) t1 r e).2)))) ∧
  (∀ (s : State) (u : UnitId),
    let fs := seqFrames s.a u
    let els := fs.filter (frameEligible s.a s.mem s.time)
    let out := exec (.sequencerClauseBegin u) s
    ((∃ t ∈ fs, t.phase = .active ∧ t.holdsSlot = true) → out = .next s) ∧
    (els = [] → out = .next s) ∧
    ((∀ t ∈ fs, t.phase = .active → t.holdsSlot = false) → els ≠ [] → ∃ t ∈ els, (∀ u ∈ els, ranksBefore s.a u t = false) ∧
      (∀ k, t.clause = some k → out = .next (withA s (s.a.setThread { t with wait := none, eligible := 0, promoted := false }))) ∧
      (t.clause = none → t.tm = true ∨ t.pend = [] → ∀ e, pickEntry (readPrios s.a s.mem s.time t) = some e → Begins s s.a t e out))) ∧
  (∀ (es : List FEntry) (e : FEntry), pickEntry es = some e → e ∈ es ∧
    ((∃ x ∈ es, 1024 ≤ x.pass) → 1024 ≤ e.pass ∧ ∀ x ∈ es, x.pass ≤ e.pass) ∧
    ((∀ x ∈ es, x.pass < 1024) → ∀ x ∈ es, x.rank < e.rank ∨ (x.rank = e.rank ∧ e.pc ≤ x.pc)))

/-- R52, R71, R73: entering the escape set changes nothing by itself, for the choice that counts the passes does it (the model's reading:
DEDUCED, log 28); a thread eligible for 4,096 cycles on end is promoted, by the step of its own kind (what counts as a cycle is DEDUCED, log
29). -/
def Sys2Proof.Spec.Promotions : Prop :=
  ∀ (s : State) (u : Nat), exec (.passCountEscape u) s = .next s ∧
    (∀ t, s.a.thread u = some t → ∃ t', { t' with promoted := t.promoted } = t ∧
      exec (if t.isWave then .issueAgePromotion u else .sequencerAgePromotion u) s =
        .next (withA s { s.a with threads := tset s.a.threads u t' }) ∧
      t'.promoted = (t.promoted || decide (4096 ≤ t.eligible)))

/-- R19, R23, R29, R31, R438, R442: the first pending frame of a sequencer becomes active while fewer than eight are active or draining
(that a draining one counts is DESIGN CHOICE, log 77), with the acquire of its start; the first held tile of a sequencer goes to its pending
queue while that has room (its order is DEDUCED, log 74). Neither happens on a berth held in reset or without power. -/
def Sys2Proof.Spec.FrameSteps : Prop :=
  (∀ (s : State) (u : UnitId),
    let fs := seqFrames s.a u
    let ps := fs.filter (fun t => decide (t.phase = .pending))
    let busy := fs.filter (fun t => decide (t.phase = .active) || decide (t.phase = .draining))
    let still := ∃ t ∈ fs, threadStill s.a t = true
    (8 ≤ busy.length ∨ ps = [] ∨ still → exec (.frameActivate u) s = .next s) ∧
    (busy.length < 8 → ps ≠ [] → ¬ still → ∃ t ∈ ps, (∀ x ∈ ps, ranksBefore s.a x t = false) ∧
      let a := { s.a.setThread { t with phase := .active, age := s.a.nextId } with nextId := s.a.nextId + 1 }
      exec (.frameActivate u) s = .next (withA s (acquireIn a t (childScope a t))))) ∧
  (∀ (s : State) (n : Nat) (t : Thread), s.a.thread n = some t →
    let first := ∀ x ∈ seqFrames s.a t.unit, x.phase = .held → t.launch < x.launch ∨ (t.launch = x.launch ∧ t.tile ≤ x.tile)
    (t.phase ≠ .held ∨ ¬ first ∨ 64 ≤ pendingOn s.a t.unit ∨ threadStill s.a t = true → exec (.tilePlacement n) s = .next s) ∧
    (t.phase = .held → first → pendingOn s.a t.unit < 64 → threadStill s.a t = false → exec (.tilePlacement n) s = .next (withA s
      { s.a.setThread { t with phase := .pending, age := s.a.nextId } with nextId := s.a.nextId + 1 })))

/-- R30, R54, R62, R151, R205, R297, R298, R368: the next waiting crew of a core starts whole once it fits (a crew whose context a
pre-emption holds on the core does not stand in the order meanwhile: DESIGN CHOICE, log 78), but not on a berth held in reset or without
power: its waves take the lowest free slots
in order of role, each with the crew's argument in s0 and s1, its region in s2 and s3, its role's PC, its allocation and the class cap
of the frame that launched the crew. -/
def Sys2Proof.Spec.CrewStarts : Prop :=
  ∀ (s : State) (core : Nat),
    let cs := (waitingCrews s.a (core / 192) (core % 192)).filter (fun c => !draining s.a c.pkg c.core c.ctx)
    let still := berthStill s.a (core / 192) (core % 192 / 48)
    (nextCrew s.a cs = none ∨ still = true → exec (.crewStart core) s = .next s) ∧
    (∀ k, nextCrew s.a cs = some k → crewFit s.a k = none → exec (.crewStart core) s = .next s) ∧
    (∀ k slots num base, nextCrew s.a cs = some k → crewFit s.a k = some (slots, num, base) → still = false → ∃ a',
      exec (.crewStart core) s = .next (withA s a') ∧
      slots.length = rolesWaves k.roles ∧ slots.Pairwise (· < ·) ∧ (∀ n ∈ slots, n < 48) ∧
      (∃ k', a'.crew k.id = some k' ∧ k'.started = true ∧ k'.base = base ∧ k'.num = num ∧ k'.live = slots.length ∧
        ∀ b, b < k.nbar → tget k'.bars b = some (firstBar slots.length)) ∧
      (∀ u, u < s.a.nextId ∨ s.a.nextId + slots.length ≤ u → a'.thread u = s.a.thread u) ∧
      ∀ i role alloc pc, i < slots.length → (crewPlan k)[i]? = some (role, alloc, pc) → ∃ x, a'.thread (s.a.nextId + i) = some x ∧
        x.level = .lg ∧ x.crew = k.id ∧ x.wnum = i ∧ x.slot = slots.getD i 0 ∧ x.role = role ∧ x.alloc = alloc ∧ x.ctx = k.ctx ∧
        x.tree = k.tree ∧ x.parent = some k.parent ∧ (∀ y, s.a.thread k.parent = some y → k.parent < s.a.nextId → x.sr.prio = y.sr.prio) ∧
        x.front = [{ pc := pc, prio := none, lanes := BitVec.allOnes 32, pass := 0 }] ∧
        x.getS 0 = BitVec.setWidth 32 k.arg ∧ x.getS 1 = BitVec.setWidth 32 (k.arg >>> 32) ∧
        x.getS 2 = BitVec.ofNat 32 base ∧ x.getS 3 = BitVec.ofNat 32 k.size ∧ (∀ n, 4 ≤ n → x.getS n = 0) ∧
        x.waveid = BitVec.ofNat 32 (k.pkg * 2 ^ 14 + k.core * 64 + x.slot) ∧ x.sr.srkey0 = x.waveid ∧ x.sr.srkey1 = x.wavegen)

/-- R23, R31, R46, R49, R60, R83: a wave without lanes retires once its flags are zero and its accesses and matrix work are done, with the
release of its retirement; a started crew without waves, tasks or commands frees its storage; before that nothing happens. What of its
work a retiring crew awaits is the model's reading (DEDUCED, log 70). -/
def Sys2Proof.Spec.Retirement : Prop :=
  (∀ (s : State) (u : Nat) (t : Thread), s.a.thread u = some t → t.uid = u →
    let ready := t.level = .lg ∧ t.front = [] ∧ t.clause = none ∧ t.tm = false ∧ (∀ p ∈ t.regs.f, p.2 = 0) ∧
      ownPending s.a u = false ∧ (∀ o ∈ tvals s.a.slice, o.uid ≠ u) ∧ (∀ l ∈ tvals s.a.landings, l.uid ≠ u) ∧ threadStill s.a t = false
    let marks (a : Arch) := a.ops.map (fun p => (p.1, { p.2 with seen := [] }))
    (¬ ready → exec (.waveRetire u) s = .next s) ∧
    (ready → ∃ a', exec (.waveRetire u) s = .next (withA s a') ∧ a'.thread u = none ∧ a'.slice = s.a.slice ∧ marks a' = marks s.a)) ∧
  (∀ (s : State) (n : Nat) (k : Crew), s.a.crew n = some k →
    let ready := k.started = true ∧ k.live = 0 ∧ crewPunnets s.a k = false ∧ crewCmds s.a k = false ∧
      ∀ o ∈ tvals s.a.ops, o.ag.crew ≠ some n
    (¬ ready → exec (.crewRetire n) s = .next s) ∧
    (ready → exec (.crewRetire n) s = .next (withA s { s.a with crews := tdel s.a.crews n })))

/-- R65, R66, R75: a filling punnet whose timer has run becomes ready; a ready one becomes a wave of its crew in the lowest free slot,
lane `l` holding record `l` in v0 to v15, s0 to s3 those of the crew's first waves (R368), its class cap that of the frame that launched the
crew (R298), when a slot, a wave number and the registers are free, the context is not held on the core (DESIGN CHOICE, log 78) nor its
berth (R438). -/
def Sys2Proof.Spec.PunnetSteps : Prop :=
  ∀ (s : State) (core n : Nat) (k : Crew),
    let pkg := core / 192
    let c := core % 192
    let p := punnetAt s.a pkg c n
    s.a.crew p.crew = some k →
    (exec (.punnetTimeout core n) s = .next (withA s
      (if p.state = .filling ∧ p.deadline ≤ (s.a.berth pkg (c / 48)).cycles ∧ draining s.a pkg c k.ctx = false then
        { s.a with punnets := tset s.a.punnets (punnetKey pkg c n) { p with state := .ready } } else s.a))) ∧
    (p.state ≠ .ready ∨ k.out = true ∨ berthStill s.a pkg (c / 48) = true ∨ draining s.a pkg c k.ctx = true ∨ freeSlots s.a pkg c = [] → exec (.punnetLaunch core n) s = .next s) ∧
    (∀ slot rest w, p.state = .ready → k.out = false → draining s.a pkg c k.ctx = false → freeSlots s.a pkg c = slot :: rest →
      freeWnum s.a k.id = some w → k.live < 32 → slotsUsed s.a pkg c k.ctx < slotCap s.a pkg c k.ctx →
      regsUsed s.a pkg c + p.alloc ≤ 3072 → p.recs.length ≤ 32 → k.id = p.crew → berthStill s.a pkg (c / 48) = false → ∃ a' x,
      exec (.punnetLaunch core n) s = .next (withA s a') ∧ a'.thread s.a.nextId = some x ∧
      x.crew = k.id ∧ x.slot = slot ∧ x.wnum = w ∧ x.role = 3 ∧ x.alloc = p.alloc ∧ x.spawned = true ∧
      x.front = [{ pc := p.pc, prio := none, lanes := Lanes.ofPred (fun l => decide (l < p.recs.length)), pass := 0 }] ∧
      (∀ j l, l < 32 → x.getV j l = if j < 16 then (p.recs.getD l []).getD j 0 else 0) ∧
      x.getS 0 = BitVec.setWidth 32 k.arg ∧ x.getS 1 = BitVec.setWidth 32 (k.arg >>> 32) ∧ x.getS 2 = BitVec.ofNat 32 k.base ∧
      x.getS 3 = BitVec.ofNat 32 k.size ∧ (∀ j, 4 ≤ j → x.getS j = 0) ∧
      (∀ y, s.a.thread k.parent = some y → x.sr.prio = y.sr.prio) ∧
      a'.punnets = tdel s.a.punnets (punnetKey pkg c n) ∧ a'.crew k.id = some { k with live := k.live + 1, count := max k.count (w + 1) } ∧
      ∀ u, u ≠ s.a.nextId → a'.thread u = s.a.thread u)

/-- The words of a fetch-work mailbox that the reply for a request writes over `m`: state 1 with the tile's launch, number, count and
descriptor, or state 2; nothing outside the mailbox changes (R69). -/
def Sys2Proof.Spec.Replied (m m' : Memory) (r : Fetch) (tile : Option Thread) : Prop :=
  (∀ x, x < r.mailbox ∨ r.mailbox + 64 ≤ x → mget m' x = mget m x) ∧
  match tile with
  | none => mnum m' r.mailbox 4 = 2 ∧ (∀ i, 4 ≤ i → i < 64 → mget m' (r.mailbox + i) = 0)
  | some t => mnum m' r.mailbox 4 = 1 ∧ mnum m' (r.mailbox + 8) 8 = t.launch % 2 ^ 64 ∧
    mnum m' (r.mailbox + 16) 4 = t.tile % 2 ^ 32 ∧ mnum m' (r.mailbox + 20) 4 = t.ntiles % 2 ^ 32 ∧
    mnum m' (r.mailbox + 24) 8 = t.desc % 2 ^ 64

/-- R68 to R70: the distributor of a package withdraws for a fetch-work request the lowest tile of the oldest launch of the tree that
still holds frames there; the reply writes its mailbox, state word last, with the identity of that tile, or with state 2, and lowers the
flag. While the crew is swapped out the tile is withdrawn and the reply waits. -/
def Sys2Proof.Spec.FetchWorkReply : Prop :=
  ∀ (s : State) (n : Nat) (r : Fetch) (k : Crew), tget s.a.fetches n = some r → r.id = n → s.a.crew r.crew = some k →
    let taken (t : Thread) : Thread := { t with phase := .onBehalf r.uid r.mailbox, front := [], clause := none, wait := none }
    let gone : Arch := { s.a with fetches := tdel s.a.fetches n }
    let lowered (a : Arch) : Arch := a.lowerFlag r.uid (some r.flag) r.tm
    (∀ t, r.chosen = none → heldTile s.a r = some t → t ∈ tvals s.a.threads ∧ t.tree = r.tree ∧ t.phase = .held ∧ t.unit.pkg = r.pkg ∧
      ∀ x ∈ tvals s.a.threads, x.tree = r.tree → x.phase = .held → x.unit.pkg = r.pkg →
        t.launch < x.launch ∨ (t.launch = x.launch ∧ t.tile ≤ x.tile)) ∧
    (r.chosen = none → k.out = true → exec (.fetchwReply n) s = .next (withA s
      (let a := { s.a with fetches := tset s.a.fetches n { r with chosen := some ((heldTile s.a r).map (·.uid)) } }
       match heldTile s.a r with
       | some t => a.setThread (taken t)
       | none => a))) ∧
    (r.chosen = none → k.out = false → heldTile s.a r = none → ∃ ws,
      exec (.fetchwReply n) s = .next (s.commit (lowered gone) ws) ∧ Spec.Replied s.mem (mwrites s.mem ws) r none) ∧
    (∀ t w, r.chosen = none → k.out = false → heldTile s.a r = some t → s.a.thread r.uid = some w → ∃ ws,
      exec (.fetchwReply n) s = .next (s.commit (lowered (gone.setThread (taken t))) ws) ∧
      Spec.Replied s.mem (mwrites s.mem ws) r (some t)) ∧
    (∀ u t w, r.chosen = some (some u) → k.out = false → s.a.thread u = some t → s.a.thread r.uid = some w → ∃ ws,
      exec (.fetchwReply n) s = .next (s.commit (lowered gone) ws) ∧ Spec.Replied s.mem (mwrites s.mem ws) r (some t)) ∧
    (r.chosen = some none → k.out = false → ∃ ws,
      exec (.fetchwReply n) s = .next (s.commit (lowered gone) ws) ∧ Spec.Replied s.mem (mwrites s.mem ws) r none)

/-- R80, R81, R205, R298, R300, R382, R427, R428: a wave whose MIGRATE names a berth leaves for a slot there once nothing of its own is
outstanding, its locator entry MOVING from the end of its clause on (DEDUCED, log 96); when it lands it keeps its registers, takes that
slot, and loses its sr.prio and its last-page registers, and its timer reads no less than before. A clock crossing and a berth without
power hold it. That leaving and landing are two steps is the model's reading (DEDUCED, log 21), where it goes its choice (log 79). -/
def Sys2Proof.Spec.Migrations : Prop :=
  ∀ (s : State) (u : Nat) (t : Thread) (pkg b : Nat), s.a.thread u = some t → t.uid = u → t.mig = some (pkg, b) →
    let a := startMoves s.a u
    (t.going = none → moveReady a t = false ∨ t.front = [] ∨ moveHeld a t pkg b = true ∨ mooring a t pkg b = none →
      exec (.migrationArrival u) s = .next (withA s a)) ∧
    (∀ x, t.going = none → moveReady a t = true → t.front ≠ [] → moveHeld a t pkg b = false → mooring a t pkg b = some x →
      exec (.migrationArrival u) s = .next (withA s (a.setThread { t with going := some x }))) ∧
    (∀ x, t.going = some x → moveHeld s.a t pkg b = true → exec (.migrationArrival u) s = .next s) ∧
    (∀ core slot, t.going = some (core, slot) → moveHeld s.a t pkg b = false →
      (∀ e, tget s.a.locs (locKey t.waveid) = some e → e.queue = []) → ∃ a' t',
      exec (.migrationArrival u) s = .next (withA s a') ∧ a'.thread u = some t' ∧
      t'.unit = { level := .core, pkg := pkg, idx := core } ∧ t'.slot = slot ∧ t'.mig = none ∧ t'.going = none ∧ t'.regs = t.regs ∧
      t'.front = t.front ∧ t'.waveid = t.waveid ∧ t'.lastPage = [] ∧ { t'.sr with prio := t.sr.prio } = t.sr ∧
      timerOf s.a s.time t ≤ timerOf a' s.time t' ∧ (∀ v, v ≠ u → a'.thread v = s.a.thread v) ∧
      ∀ e, tget s.a.locs (locKey t.waveid) = some e → tget a'.locs (locKey t.waveid) = some { e with state := .resident, queue := [] })

namespace Sys2Proof.Spec

/-- Command `c` of queue `q` of package `p` may act: it has opcode `opc`, has begun and not acted, waits for no RETRY, its context is
not being aborted, and under TF no earlier WRITE of its queue is left (R227 to R229). -/
structure Begun (s : State) (opc p n q : Nat) (k : Queue) (c : QCmd) : Prop where
  find : findCmd s.a p n = some (q, k, c)
  opcode : c.num 0 1 = opc
  begun : c.begun = true
  waiting : c.started = false
  sound : c.faulted = false
  live : aborting s.a p k.ctx = false
  order : c.tf = true → ∀ x ∈ k.cmds, x.seq < c.seq → x.num 0 1 ≠ 4

/-- The command completes with a status in the architecture that `a` is. -/
def Closes (s : State) (p q : Nat) (c : QCmd) (a : Arch) (st : Status) (det : Nat) (out : Out) : Prop :=
  out = .next (withA s (a.complete s.time p q c.id st det))

/-- A command whose first bad field is at a byte offset completes MALFORMED with it; else `good`. -/
def FieldsThen (s : State) (p q : Nat) (c : QCmd) (l : List (Nat × Bool)) (out : Out) (good : Prop) : Prop :=
  (∀ off, firstOff l = some off → Closes s p q c s.a .malformed off out) ∧ (firstOff l = none → good)

/-- The command has acted, and completes later. -/
def acted (a : Arch) (p q : Nat) (c : QCmd) : Arch := a.modCmd p q c.id (fun x => { x with started := true })

/-- What reading `n` bytes at `va` comes to for a command: a missing translation leaves it waiting for RETRY, another failure completes
it, and the bytes go on to `good`. -/
def ReadsThen (s : State) (p q ctx va n : Nat) (c : QCmd) (out : Out) (good : List Byte → Prop) : Prop :=
  let r := resolveRange s.a s.mem s.time c.id (frontAgent p ctx) (.va (frontAgent p ctx) va) .rd n none
  (r = .held → out = .next s) ∧
  (∀ kind x, r = .fault kind x → out = .next (withA s
    (cmdFault (s.a.modCmd p q c.id (fun y => { y with faulted := true })) s.time p ctx q c.seq 0xFFFF kind x))) ∧
  (∀ kind, r = .access kind → Closes s p q c s.a .access kind out) ∧
  (∀ fas, r = .error fas → Closes s p q c (engineUnc s.a s.time ctx fas) .error (faPlace (fas.headD 0)).mem out) ∧
  (∀ ps, r = .ok ps → good (sourceBytes s.mem ps))

end Sys2Proof.Spec

/-! ## Transport and queues -/

/-- R225, R430 to R432, R436: a COMMAND datagram without a session is dropped, one that does not verify is dropped and counted; the next
one in order is acknowledged and its packets enter the front end, a duplicate is acknowledged again and nothing more. A datagram of an SPDM
request that the responder does not support is answered by the error response. An ACK retires the reports
up to its number and lets waiting ones leave; a report not acknowledged for 100 microseconds is sent again. A packet before the
expected SEQ changes nothing but the port of its queue, one beyond the window is refused, a later one is held once, and the expected one
is taken. That a duplicate, and a packet held already, changes the port that the queue's reports go to is the model's choice (log 46), as is
the code of an unsupported request (log 40). -/
def Obligations.Transport : Prop :=
  (∀ (s : State) (p i : Nat) (v : Bool) (b : List Byte),
    let t := (s.a.pkg p).port i
    let n := t.lastTaken
    let out := exec (.commandDatagram p i v b) s
    let acked (m : Nat) : Arch := s.a.setPkg p ((s.a.pkg p).modPort i (fun t =>
      { t with lastTaken := m, sent := t.sent ++ [datagram 2 0 (m % 2 ^ 32) []] }))
    (t.up = false ∨ t.session = none → (t.up = false ∨ unsupported b = false → out = .next s) ∧ exec (.ackDatagram p i v b) s = .next s) ∧
    (t.up = true → unsupported b = true → t.session = none ∨ v = true → (s.a.pkg p).booted = true → out =
      .next (withA s (respond s.a p i (spdmBytes s.a.free) id))) ∧
    (∀ x, t.up = true → t.session = some x →
      (v = false → out = .next (withA s (s.a.setPkg p { s.a.pkg p with badFrames := (s.a.pkg p).badFrames + 1 }))) ∧
      (v = true → datagramOk 1 b = true → numAt b 8 4 = 0 →
        (numAt b 4 4 = (n + 1) % 2 ^ 32 → out = .next (withA s
          ((splitPackets b.length (b.drop 16)).foldl (intake s.time p i x) (acked (n + 1))))) ∧
        (n < 2 ^ 32 → 1 ≤ numAt b 4 4 → numAt b 4 4 ≤ n → out = .next (withA s (acked n)))) ∧
      (v = true → datagramOk 2 b = true → numAt b 4 4 = 0 → ∀ y r, t.unacked.find? (fun u => u.1 % 2 ^ 32 == numAt b 8 4) = some (y, r) →
        i < (s.a.pkg p).ports.length → ∃ t', exec (.ackDatagram p i v b) s =
          .next (withA s (s.a.setPkg p ((s.a.pkg p).modPort i (fun _ => t')))) ∧
        (∀ u ∈ t'.unacked, y < u.1 ∨ t.lastSent < u.1) ∧
        t'.unacked.map (·.2.2) ++ t'.waiting = (t.unacked.filter (fun u => decide (y < u.1))).map (·.2.2) ++ t.waiting ∧
        ((t.unacked.filter (fun u => decide (y < u.1))).length ≤ 256 → t'.unacked.length ≤ 256) ∧
        (t'.waiting ≠ [] → 256 ≤ t'.unacked.length)))) ∧
  (∀ (s : State) (p i : Nat),
    let t := (s.a.pkg p).port i
    let due (u : Nat × Nat × Report) : Bool := decide (u.2.1 + 100000 ≤ s.time)
    (t.session = none ∨ t.up = false → exec (.datagramResend p i) s = .next s) ∧
    (t.session ≠ none → t.up = true → ∃ t', exec (.datagramResend p i) s =
        .next (withA s (s.a.setPkg p ((s.a.pkg p).modPort i (fun _ => t')))) ∧
      t'.sent = t.sent ++ (t.unacked.filter due).map (fun u => datagram 3 (u.1 % 2 ^ 32) 0 u.2.2.bytes) ∧
      t'.unacked = t.unacked.map (fun u => if due u then (u.1, s.time, u.2.2) else u) ∧ t'.waiting = t.waiting)) ∧
  (∀ (a : Arch) (time p i x q : Nat) (k : Queue) (b : List Byte), numAt b 4 2 = q → q < 256 → a.queue p q = some k →
    endpointOk a p q k x = true →
    let seq := numAt b 8 8
    let a1 := a.setQueue p q { k with port := i }
    (seq < k.expect → intake time p i x a b = a1) ∧
    (k.expect + 64 < seq → intake time p i x a b = a1.report time p i (.completion 5 q (k.expect % 2 ^ 32) seq (numAt b 16 8)
      (refTimer a1 time p))) ∧
    (k.expect < seq → seq ≤ k.expect + 64 → (∃ y ∈ k.held, y.seq = seq) → intake time p i x a b = a1) ∧
    (k.expect < seq → seq ≤ k.expect + 64 → (∀ y ∈ k.held, y.seq ≠ seq) → intake time p i x a b =
      a1.setQueue p q { k with port := i, held := k.held ++ [{ seq := seq, bytes := b, port := i, session := x }] }) ∧
    (seq = k.expect → k.held = [] → packetBad b = none → (opInfo (numAt b 0 1)).map (·.1) = some (!(q == 0)) → ∃ k' c,
      (intake time p i x a b).queue p q = some k' ∧ k'.expect = k.expect + 1 ∧ k'.cmds = k.cmds ++ [c] ∧ c.seq = seq ∧ c.bytes = b ∧
      c.begun = false ∧ c.started = false))

/-- R227, R228, R234: the front end begins a command of queue 0 before all others, then of the highest class, each queue in SEQ order; a
command that completes leaves its queue, and is recorded unless its status is OK without CREC. -/
def Sys2Proof.Spec.QueueOrder : Prop :=
  (∀ (s : State) (p : Nat),
    (chooseQueue s.a p = none → exec (.queueCommandBegin p) s = .next s) ∧
    (∀ q k c, chooseQueue s.a p = some (q, k, c) → s.a.queue p q = some k ∧ readyCmd s.a p q k = some c ∧
      (∀ q' k', q' < 256 → s.a.queue p q' = some k' → readyCmd s.a p q' k' ≠ none → q = 0 ∨ (q' ≠ 0 ∧ k'.cls ≤ k.cls) ∨ 3 < k.cls ∨ 3 < k'.cls) ∧
      ∃ a', exec (.queueCommandBegin p) s = .next (withA s a') ∧
        { a' with queues := s.a.queues, pkgs := s.a.pkgs } = s.a ∧
        a'.queue p q = some { k with cmds := k.cmds.map (fun x => if x.id = c.id then { x with begun := true } else x) })) ∧
  (∀ (a : Arch) (p q : Nat) (k : Queue) (c : QCmd), readyCmd a p q k = some c → c ∈ k.cmds ∧ c.begun = false ∧
    aborting a p k.ctx = false ∧ (∀ x ∈ k.cmds, x.seq + 1 = c.seq → (k.cmds.filter (fun y => y.seq + 1 == c.seq)).length = 1 →
      x.begun = true ∧ x.async = true) ∧
    (c.num 0 1 = 6 → (k.cmds.head?.map (·.id)) = some c.id)) ∧
  (∀ (a : Arch) (time p q : Nat) (k : Queue) (c : QCmd) (st : Status) (det : Nat), a.queue p q = some k → k.cmd c.id = some c →
    (a.endCommand time p q c.id st det).queue p q = some { k with cmds := k.cmds.filter (fun x => !(x.id == c.id)) } ∧
    (st.code = 0 → c.crec = false → (a.endCommand time p q c.id st det).pkgs = a.pkgs) ∧
    (st.code ≠ 0 ∨ c.crec = true → ((a.endCommand time p q c.id st det).pkg p).reports = (a.pkg p).reports ++
      [.completion st.code q det c.seq (c.num 16 8) (refTimer a time p)]))

/-- R229 to R231: LAUNCH reads its descriptor and places the root frame of a new tree; WRITE and COPY put their bytes to the engine;
QWAIT completes. Bad fields, levels, worlds and descriptors complete with their status. -/
def Sys2Proof.Spec.QueueWork : Prop :=
  ∀ (s : State) (p n q : Nat) (k : Queue) (c : QCmd),
    let ctx := k.ctx.getD 0
    (Begun s 1 p n q k c →
      let lvl := c.num 32 1
      let unit := c.num 34 2
      let desc := c.num 40 8
      let u := rootUnit p lvl unit
      let out := exec (.kernelLaunchCommand p n) s
      FieldsThen s p q c [(33, dirty c.bytes 33 34), (36, dirty c.bytes 36 40), (40, !(desc % 64 == 0)), (56, dirty c.bytes 56 64)] out
        ((lvl < 1 ∨ 5 < lvl → Closes s p q c s.a .level 0 out) ∧
         (1 ≤ lvl → lvl ≤ 5 → unitOwned s.a (s.a.ctxWorld p ctx) u unit = false → Closes s p q c s.a .world 0 out) ∧
         (1 ≤ lvl → lvl ≤ 5 → unitOwned s.a (s.a.ctxWorld p ctx) u unit = true → ReadsThen s p q ctx desc 64 c out (fun d =>
           (numAt d 0 1 ≠ 1 ∨ numAt d 1 3 ≠ 0 ∨ numAt d 8 8 % 8 ≠ 0 → Closes s p q c s.a .desc 0 out) ∧
           (numAt d 0 1 = 1 → numAt d 1 3 = 0 → numAt d 8 8 % 8 = 0 → ∃ t r,
             let a1 := acted s.a p q c
             out = .next (withA s { a1 with nextId := a1.nextId + 2, trees := tset a1.trees a1.nextId r,
                                            threads := tset a1.threads (a1.nextId + 1) t }) ∧
             r.root = a1.nextId + 1 ∧ r.rootLevel = u.level ∧ r.ctx = ctx ∧ r.cls = k.cls ∧ r.queue = q ∧ r.cmd = c.id ∧
             t.unit = u ∧ t.level = u.level ∧ t.ctx = ctx ∧ t.tile = 0 ∧ t.ntiles = 1 ∧ t.parent = none ∧
             t.front = [{ pc := numAt d 8 8, prio := none, lanes := 1, pass := 0 }] ∧ t.getS 0 = BitVec.ofNat 32 (c.num 48 8) ∧
             t.getS 1 = BitVec.ofNat 32 (c.num 48 8 / 2 ^ 32)))))) ∧
    (Begun s 4 p n q k c → FieldsThen s p q c [(32, !(c.num 32 8 % 16 == 0)), (40, decide (2 ≤ c.num 40 1)), (41, dirty c.bytes 41 48)]
      (exec (.queueWrite p n) s)
      ((c.num 40 1 = 1 → k.driver = false → Closes s p q c s.a .owner 0 (exec (.queueWrite p n) s)) ∧
       (c.num 40 1 = 0 ∨ k.driver = true → ∃ x, exec (.queueWrite p n) s = .next (withA s { acted s.a p q c with
           nextId := s.a.nextId + 1, cmds := tset s.a.cmds s.a.nextId x }) ∧
         x.id = s.a.nextId ∧ x.owner = .queue p q c.id ∧ x.kind = .queueWrite (c.bytes.drop 48) ∧
         x.legs.map (·.dst) = [if c.num 40 1 = 1 then .fabric (s.a.ctxWorld p ctx) (c.num 32 8)
           else .va (frontAgent p ctx) (c.num 32 8)]))) ∧
    (Begun s 5 p n q k c → FieldsThen s p q c [(32, !(c.num 32 8 % 16 == 0)), (40, !(c.num 40 8 % 16 == 0)),
        (48, !(c.num 48 8 % 16 == 0) || decide (c.num 48 8 < 16) || decide (2 ^ 40 < c.num 48 8)), (56, dirty c.bytes 56 64)]
      (exec (.queueCopy p n) s)
      (∃ x, exec (.queueCopy p n) s = .next (withA s { acted s.a p q c with
           nextId := s.a.nextId + 1, cmds := tset s.a.cmds s.a.nextId x }) ∧
         x.id = s.a.nextId ∧ x.owner = .queue p q c.id ∧ x.kind = .queueCopy ∧
         x.legs = [leg (.va (frontAgent p ctx) (c.num 32 8)) (.va (frontAgent p ctx) (c.num 40 8)) (c.num 48 8)])) ∧
    (Begun s 6 p n q k c → Closes s p q c s.a .ok 0 (exec (.qwait p n) s))

namespace Sys2Proof.Spec

/-- The wave of a context that is parked for growth under a wave identity. -/
def parkedWave (s : State) (p ctx id : Nat) : Option Thread :=
  (tvals s.a.threads).find? (fun t => t.isWave && t.ctx == ctx && t.unit.pkg == p && t.waveid.toNat % 2 ^ 24 == id &&
    (match t.wait with | some (.park _) => true | _ => false))

/-- The offset that a wave of a context is parked for, where it is beyond a high-water mark. -/
def parkedBeyond (p ctx hwm : Nat) (t : Thread) : Option Nat :=
  match t.wait with
  | some (.park n) => if t.ctx = ctx ∧ t.unit.pkg = p ∧ hwm < n then some n else none
  | _ => none

/-- The context that a descriptor of 64 bytes describes: each field in its range and the rest zero (R96). -/
def Describes (d : List Byte) (x : Ctx) : Prop :=
  x.root = numAt d 0 8 ∧ x.privBase = numAt d 8 8 ∧ x.pstride = numAt d 16 4 ∧ x.hwm = numAt d 20 4 ∧ x.lease = numAt d 24 1 ∧
  (x.world = true ↔ numAt d 25 1 = 1) ∧ numAt d 25 1 ≤ 1 ∧ x.root % 4096 = 0 ∧ x.root < 2 ^ 52 ∧ x.privBase % 65536 = 0 ∧
  x.privBase < 0x7F * 2 ^ 48 ∧ x.pstride % 65536 = 0 ∧ 65536 ≤ x.pstride ∧ x.pstride ≤ 2 ^ 28 ∧ x.hwm % 65536 = 0 ∧
  x.hwm ≤ x.pstride ∧ x.lease ≤ 64 ∧ dirty d 26 64 = false

end Sys2Proof.Spec

/-! ## Contexts -/

/-- R96, R108, R192, R219, R233: CTX_CREATE, CTX_UPDATE, CTX_ABORT, GROWTH_REFUSE and CTX_DESTROY check their fields, then the context,
then the descriptor; a context takes the pod's tag key or a new one; raising HWM sends a growth request again for a wave parked
beyond it, and a refusal gives the parked wave a growth trap. An abort completes when nothing of the context is left. These clauses are
the model's choice: from where a context takes its key (log 53); that the growth request is sent again and that GROWTH_REFUSE answers OK
where no such wave is parked (log 70); and that a CTX_ABORT of a context that is being aborted waits for that abort to be done (log 53). -/
def Sys2Proof.Spec.ContextCommands : Prop :=
  ∀ (s : State) (p n q : Nat) (k : Queue) (c : QCmd),
    let ctx := c.num 32 2
    let d := c.bytes.drop 48
    (Begun s 0x40 p n q k c → FieldsThen s p q c
      [(34, decide (1 < c.num 34 1)), (35, dirty c.bytes 35 40), (40, !(c.num 40 8 % 8 == 0))] (exec (.ctxCreate p n) s)
      ((∀ x, s.a.ctx p ctx = some x → Closes s p q c s.a .busy 0 (exec (.ctxCreate p n) s)) ∧
       (s.a.ctx p ctx = none → (¬ ∃ x, Describes d x ∧ (x.world = true ↔ c.num 34 1 = 1)) →
         Closes s p q c s.a .desc 0 (exec (.ctxCreate p n) s)) ∧
       (∀ x, s.a.ctx p ctx = none → Describes d x → (x.world = true ↔ c.num 34 1 = 1) → x.handler = c.num 40 8 → x.aborting = none →
         x.tagRefusals = 0 → ∃ a', Closes s p q c a' .ok 0 (exec (.ctxCreate p n) s) ∧
         { a' with ctxs := s.a.ctxs, keys := s.a.keys, free := s.a.free } = s.a ∧ a'.ctx p ctx = some x ∧
         (∀ j, j ≠ ctxKey p ctx → tget a'.ctxs j = tget s.a.ctxs j ∧ tget a'.keys j = tget s.a.keys j) ∧
         ((∀ p', p' ≠ p → s.a.ctx p' ctx = none) → tget a'.keys (ctxKey p ctx) = some (Config.tagKey s.a.free)) ∧
         ((∃ p', p' ≠ p ∧ s.a.ctx p' ctx ≠ none) → ∃ p', p' ≠ p ∧ s.a.ctx p' ctx ≠ none ∧
           tget a'.keys (ctxKey p ctx) = some (tgetD s.a.keys (ctxKey p' ctx) 0))))) ∧
    (Begun s 0x41 p n q k c → FieldsThen s p q c [(34, dirty c.bytes 34 48)] (exec (.ctxUpdate p n) s)
      ((s.a.ctx p ctx = none → Closes s p q c s.a .unknown 0 (exec (.ctxUpdate p n) s)) ∧
       (∀ x, s.a.ctx p ctx = some x →
         let same (y : Ctx) : Prop := Describes d y ∧ y.privBase = x.privBase ∧ y.pstride = x.pstride ∧ y.world = x.world ∧ x.hwm ≤ y.hwm
         ((¬ ∃ y, same y) → Closes s p q c s.a .desc 0 (exec (.ctxUpdate p n) s)) ∧
         (∀ y, same y → ∃ a', Closes s p q c a' .ok 0 (exec (.ctxUpdate p n) s) ∧
           { a' with ctxs := s.a.ctxs, pkgs := s.a.pkgs } = s.a ∧
           a'.ctxs = tset s.a.ctxs (ctxKey p ctx) { x with root := y.root, lease := y.lease, hwm := y.hwm } ∧
           (x.hwm = y.hwm → a'.pkgs = s.a.pkgs) ∧
           (x.hwm < y.hwm → (a'.pkg p).reports = (s.a.pkg p).reports ++ (tvals s.a.threads).filterMap (fun t =>
             (parkedBeyond p ctx y.hwm t).map (fun o => .event 2 ctx 0 t.waveid.toNat o (refTimer s.a s.time p)))))))) ∧
    (Begun s 0x42 p n q k c → FieldsThen s p q c [(34, dirty c.bytes 34 48)] (exec (.ctxAbort p n) s)
      ((s.a.ctx p ctx = none → Closes s p q c s.a .unknown 0 (exec (.ctxAbort p n) s)) ∧
       (∀ x, s.a.ctx p ctx = some x → x.aborting ≠ none → exec (.ctxAbort p n) s = .next s) ∧
       (∀ x, s.a.ctx p ctx = some x → x.aborting = none → ∃ a', exec (.ctxAbort p n) s = .next (withA s a') ∧
         a'.ctxs = tset s.a.ctxs (ctxKey p ctx) { x with aborting := some c.id }))) ∧
    (Begun s 0x4A p n q k c → FieldsThen s p q c [(34, dirty c.bytes 34 36), (39, dirty c.bytes 39 48)] (exec (.growthRefuse p n) s)
      ((s.a.ctx p ctx = none → Closes s p q c s.a .unknown 0 (exec (.growthRefuse p n) s)) ∧
       (s.a.ctx p ctx ≠ none → parkedWave s p ctx (c.num 36 3) = none → Closes s p q c s.a .ok 0 (exec (.growthRefuse p n) s)) ∧
       (∀ t j cl, s.a.ctx p ctx ≠ none → parkedWave s p ctx (c.num 36 3) = some t → t.wait = some (.park j) → t.clause = some cl →
         ∃ r, r.cls = .growth ∧ r.addr = BitVec.ofNat 64 j ∧ r.synd = 1 ∧ r.mask = t.live ∧ r.pc = cl.va cl.pos ∧
           let x := takeTrap s.a s.time t r cl.pc
           exec (.growthRefuse p n) s = .next (s.commit (x.1.complete s.time p q c.id .ok 0) x.2)))) ∧
    (Begun s 0x4F p n q k c → FieldsThen s p q c [(34, dirty c.bytes 34 48)] (exec (.ctxDestroy p n) s)
      (let used := (∃ x ∈ s.a.queues, x.1 / 256 = p ∧ x.2.ctx = some ctx) ∨ (∃ x ∈ s.a.comms, x.1 / 256 = p ∧ x.2.ctx = ctx) ∨
         (∃ x ∈ s.a.pairs, (x.a = ctx ∨ x.b = ctx) ∧ ∃ j ∈ x.cores, j / 192 = p) ∨ ctxQuiet s.a p ctx = false
       (s.a.ctx p ctx = none → Closes s p q c s.a .unknown 0 (exec (.ctxDestroy p n) s)) ∧
       (s.a.ctx p ctx ≠ none → used → Closes s p q c s.a .busy 0 (exec (.ctxDestroy p n) s)) ∧
       (s.a.ctx p ctx ≠ none → ¬ used → ∃ g, (∀ x, x ∈ g ↔ x ∈ s.a.images ∧ ¬ (x.pkg = p ∧ x.ctx = ctx)) ∧
         Closes s p q c { s.a with ctxs := tdel s.a.ctxs (ctxKey p ctx), keys := tdel s.a.keys (ctxKey p ctx), images := g } .ok 0
           (exec (.ctxDestroy p n) s))))

/-- R192, R219: an abort is done once nothing of its context is left on the package: it is reported, and the command completes. A package
takes the tag key of a context from a package of a lower number, or where it has none. -/
def Sys2Proof.Spec.ContextEvents : Prop :=
  (∀ (s : State) (p ctx : Nat) (x : Ctx), s.a.ctx p ctx = some x →
    (x.aborting = none ∨ ctxQuiet s.a p ctx = false → exec (.abortDone p ctx) s = .next s) ∧
    (∀ n, x.aborting = some n → ctxQuiet s.a p ctx = true → exec (.abortDone p ctx) s = .next (withA s
      ((({ s.a with ctxs := tset s.a.ctxs (ctxKey p ctx) { x with aborting := none } }).event s.time p 10 ctx 0 0 0).complete
        s.time p 0 n .ok 0)))) ∧
  (∀ (s : State) (p src ctx : Nat),
    let low := src < p ∨ tget s.a.keys (ctxKey p ctx) = none
    (s.a.ctx p ctx = none ∨ s.a.ctx src ctx = none ∨ ¬ low → exec (.tagKeyMessage p src ctx) s = .next s) ∧
    (∀ key, s.a.ctx p ctx ≠ none → s.a.ctx src ctx ≠ none → tget s.a.keys (ctxKey src ctx) = some key → low →
      exec (.tagKeyMessage p src ctx) s = .next (withA s { s.a with keys := tset s.a.keys (ctxKey p ctx) key })))

namespace Sys2Proof.Spec

/-- The cores that a command names (R232). -/
def namedCores (c : QCmd) : List Nat := (List.range 192).filter (fun k => (c.num 40 24).testBit k)

/-- Whether each of some cores has the location of an image of a context. -/
def imaged (s : State) (p ctx : Nat) (cores : List Nat) : Prop := ∀ k ∈ cores, imageOf s.a p k ctx ≠ none

/-- The pre-emption or resume that a command starts: what it is for, and the cores on which it has nothing to do. -/
def started (s : State) (id p ctx : Nat) (c : QCmd) (cores : List Nat) (resume : Bool) (next : Option Nat) : Pre :=
  { id := id, pkg := p, ctx := ctx, cores := cores, began := s.time, cmd := some c.id, resume := resume,
    switchTo := next, saved := cores.filter (fun k => isOut s.a p k ctx == !resume), reported := [], switch := next.isSome }

/-- The cores on which a resume works: those it names, and those of the package where waves of their crews were saved after a move (R77). -/
def resumedCores (s : State) (p ctx : Nat) (c : QCmd) : List Nat := namedCores c ++ mooredCores s.a p ctx (namedCores c)

/-- A pre-emption begins: punnet timers stand still on cores that were not draining, and each wave counts its words from now. -/
def PreemptBegins (s : State) (p q ctx : Nat) (c : QCmd) (next : Option Nat) (out : Out) : Prop :=
  let a := (namedCores c).foldl (startDrain p ctx) (acted s.a p q c)
  ((∃ k ∈ namedCores c, isOut s.a p k ctx = false) →
    out = .next (withA s { a with
      nextId := s.a.nextId + 1, pres := tset s.a.pres s.a.nextId (started s s.a.nextId p ctx c (namedCores c) false next) })) ∧
  ((∀ k ∈ namedCores c, isOut s.a p k ctx = true) → next = none →
    out = .next (withA s (({ a with nextId := s.a.nextId + 1, pres := tdel s.a.pres s.a.nextId }).complete s.time p 0 c.id .ok 0)))

/-- What of a resume's crews is saved on other packages comes back there too (R77): each such core gets a resume of its own, without a
command; `a` is the state with them. -/
def ResumedAway (s : State) (p q ctx : Nat) (c : QCmd) (a : Arch) : Prop :=
  let far := (mooredOn s.a p ctx (namedCores c)).filter (fun x => !(x.1 == p))
  { a with nextId := s.a.nextId, pres := s.a.pres } = acted s.a p q c ∧ a.nextId = s.a.nextId + far.length ∧
  (∀ i, i < far.length → ∃ r, tget a.pres (s.a.nextId + i) = some r ∧ r.id = s.a.nextId + i ∧ (far.getD i (0, 0)).1 = r.pkg ∧
    r.cores = [(far.getD i (0, 0)).2] ∧ r.ctx = ctx ∧ r.resume = true ∧ r.cmd = none ∧ r.saved = [] ∧ r.switchTo = none) ∧
  ∀ i, (i < s.a.nextId ∨ s.a.nextId + far.length ≤ i) → tget a.pres i = tget s.a.pres i

end Sys2Proof.Spec

/-! ## Queues, pre-emption and resident pairs -/

/-- R226, R232, R233: QUEUE_CREATE makes an empty queue that expects SEQ 1; QUEUE_DESTROY removes an empty queue, or waits for its last
command. That a second QUEUE_DESTROY of a queue answers BUSY is the model's choice (log 47). -/
def Sys2Proof.Spec.QueueManagement : Prop :=
  ∀ (s : State) (p n q : Nat) (k : Queue) (c : QCmd),
    let t := c.num 32 2
    (Begun s 0x43 p n q k c → FieldsThen s p q c [(32, t == 0 || decide (255 < t)), (36, decide (3 < c.num 36 1)),
        (37, decide (2 ≤ c.num 37 1)), (38, dirty c.bytes 38 48)] (exec (.queueCreate p n) s)
      (let ctx := c.num 34 2
       (s.a.ctx p ctx = none → Closes s p q c s.a .unknown 0 (exec (.queueCreate p n) s)) ∧
       (s.a.ctx p ctx ≠ none → s.a.queue p t ≠ none → Closes s p q c s.a .busy 0 (exec (.queueCreate p n) s)) ∧
       (s.a.ctx p ctx ≠ none → s.a.queue p t = none → ∃ x, Closes s p q c (s.a.setQueue p t x) .ok 0 (exec (.queueCreate p n) s) ∧
         x.ctx = some ctx ∧ x.cls = c.num 36 1 ∧ (x.driver = true ↔ c.num 37 1 = 1) ∧ x.expect = 1 ∧ x.held = [] ∧ x.cmds = [] ∧
         x.destroying = none))) ∧
    (Begun s 0x44 p n q k c → FieldsThen s p q c [(32, t == 0 || decide (255 < t)), (34, dirty c.bytes 34 48)] (exec (.queueDestroy p n) s)
      ((s.a.queue p t = none → Closes s p q c s.a .unknown 0 (exec (.queueDestroy p n) s)) ∧
       (∀ x, s.a.queue p t = some x →
         (x.destroying ≠ none → Closes s p q c s.a .busy 0 (exec (.queueDestroy p n) s)) ∧
         (x.destroying = none → x.cmds = [] →
           Closes s p q c { s.a with queues := tdel s.a.queues (qKey p t) } .ok 0 (exec (.queueDestroy p n) s)) ∧
         (x.destroying = none → x.cmds ≠ [] → exec (.queueDestroy p n) s =
           .next (withA s ((acted s.a p q c).setQueue p t { x with destroying := some c.id }))))))

/-- R75, R78, R110, R221, R232, R233: PREEMPT and RESUME start on the cores that they name, a RESUME also where moves took waves of their
crews (R77), PAIR_SWITCH pre-empts one context of a pair to resume the other, and PAIR_DECLARE, AREA_SET and IMAGE_SET lay down pairs and
image locations. That a pair is MALFORMED at offset 34 where it names one context twice, and what a second declaration does to the first,
is the model's choice (log 48). -/
def Sys2Proof.Spec.PreemptCommands : Prop :=
  ∀ (s : State) (p n q : Nat) (k : Queue) (c : QCmd),
    let ctx := c.num 32 2
    let two := c.num 34 2
    let ks := namedCores c
    (Begun s 0x45 p n q k c → FieldsThen s p q c [(34, dirty c.bytes 34 40)] (exec (.preempt p n) s)
      ((s.a.ctx p ctx = none → Closes s p q c s.a .unknown 0 (exec (.preempt p n) s)) ∧
       (s.a.ctx p ctx ≠ none → ¬ imaged s p ctx ks → Closes s p q c s.a .busy 0 (exec (.preempt p n) s)) ∧
       (s.a.ctx p ctx ≠ none → imaged s p ctx ks → PreemptBegins s p q ctx c none (exec (.preempt p n) s)))) ∧
    (Begun s 0x46 p n q k c → FieldsThen s p q c [(34, dirty c.bytes 34 40)] (exec (.resume p n) s)
      ((s.a.ctx p ctx = none → Closes s p q c s.a .unknown 0 (exec (.resume p n) s)) ∧
       (s.a.ctx p ctx ≠ none → ∃ a, ResumedAway s p q ctx c a ∧
         ((∃ j ∈ resumedCores s p ctx c, isOut s.a p j ctx = true) → exec (.resume p n) s = .next (withA s
           { a with nextId := a.nextId + 1,
                    pres := tset a.pres a.nextId (started s a.nextId p ctx c (resumedCores s p ctx c) true none) })) ∧
         ((∀ j ∈ resumedCores s p ctx c, isOut s.a p j ctx = false) → exec (.resume p n) s = .next (withA s
           (({ a with nextId := a.nextId + 1, pres := tdel a.pres a.nextId }).complete s.time p 0 c.id .ok 0)))))) ∧
    (Begun s 0x47 p n q k c → FieldsThen s p q c [(34, ctx == two), (38, dirty c.bytes 38 40)] (exec (.pairDeclare p n) s)
      (let fits := c.num 36 1 + c.num 37 1 ≤ 48 ∧ imaged s p ctx ks ∧ imaged s p two ks
       (s.a.ctx p ctx = none ∨ s.a.ctx p two = none → Closes s p q c s.a .unknown 0 (exec (.pairDeclare p n) s)) ∧
       (s.a.ctx p ctx ≠ none → s.a.ctx p two ≠ none → ¬ fits → Closes s p q c s.a .busy 0 (exec (.pairDeclare p n) s)) ∧
       (s.a.ctx p ctx ≠ none → s.a.ctx p two ≠ none → fits → ∃ ps, Closes s p q c { s.a with pairs := ps } .ok 0 (exec (.pairDeclare p n) s) ∧
         let x : Pair := { a := ctx, b := two, slotsA := c.num 36 1, slotsB := c.num 37 1, cores := ks.map (fun j => 192 * p + j) }
         (ks ≠ [] → x ∈ ps) ∧ ∀ j ∈ ks, ∀ y ∈ ps, 192 * p + j ∈ y.cores → y = x))) ∧
    (Begun s 0x48 p n q k c → FieldsThen s p q c [(36, dirty c.bytes 36 40)] (exec (.pairSwitch p n) s)
      (let known := s.a.ctx p ctx ≠ none ∧ s.a.ctx p two ≠ none ∧ ∀ j ∈ ks, ∃ x ∈ s.a.pairs, 192 * p + j ∈ x.cores ∧
         (x.a = ctx ∧ x.b = two ∨ x.a = two ∧ x.b = ctx)
       (¬ known → Closes s p q c s.a .unknown 0 (exec (.pairSwitch p n) s)) ∧
       (known → ¬ imaged s p ctx ks → Closes s p q c s.a .busy 0 (exec (.pairSwitch p n) s)) ∧
       (known → imaged s p ctx ks → PreemptBegins s p q ctx c (some two) (exec (.pairSwitch p n) s)))) ∧
    (Begun s 0x50 p n q k c →
      let b := c.num 32 1
      FieldsThen s p q c [(32, decide (3 < b)), (33, dirty c.bytes 33 34), (34, decide (256 < c.num 34 2)), (36, dirty c.bytes 36 48)]
      (exec (.areaSet p n) s)
      (let fits := ∀ g ∈ s.a.images, g.pkg = p → g.core / 48 = b → g.out = false ∧ g.offset + g.room ≤ c.num 34 2 * 0x100000
       (¬ fits → Closes s p q c s.a .busy 0 (exec (.areaSet p n) s)) ∧
       (fits → Closes s p q c (s.a.setBerth p b { s.a.berth p b with area := c.num 34 2 }) .ok 0 (exec (.areaSet p n) s)))) ∧
    (Begun s 0x51 p n q k c →
      let core := c.num 34 1
      let off := c.num 36 4
      let room := c.num 40 4
      FieldsThen s p q c [(34, decide (191 < core)), (35, dirty c.bytes 35 36), (36, !(off % 128 == 0)), (40, !(room % 128 == 0)),
        (44, dirty c.bytes 44 48)] (exec (.imageSet p n) s)
      (let bad := (s.a.berth p (core / 48)).area * 0x100000 < off + room ∨ isOut s.a p core ctx = true
       (s.a.ctx p ctx = none → Closes s p q c s.a .unknown 0 (exec (.imageSet p n) s)) ∧
       (s.a.ctx p ctx ≠ none → bad → Closes s p q c s.a .busy 0 (exec (.imageSet p n) s)) ∧
       (s.a.ctx p ctx ≠ none → ¬ bad → ∃ l x, Closes s p q c { s.a with images := l } .ok 0 (exec (.imageSet p n) s) ∧
         (∀ g, g ∈ l ↔ g = x ∨ (g ∈ s.a.images ∧ ¬ (g.pkg = p ∧ g.core = core ∧ g.ctx = ctx))) ∧
         x.ctx = ctx ∧ x.pkg = p ∧ x.core = core ∧ x.offset = off ∧ x.room = room ∧ x.out = false)))

/-- R95, R107, R218, R233, R242, R243, R354, R378: POOL_SET and EVT_CFG store what they carry; RETRY sets what waits at its queue and SEQ
going again, engine commands, REDUCEs, queue commands and collective entries, and reports NOT_FAULTED when nothing does. A chunk that
waits is read again, an arrival delivered again, both point to point from then on, and the engine admits what it can. -/
def Sys2Proof.Spec.PackageCommands : Prop :=
  ∀ (s : State) (p n q : Nat) (k : Queue) (c : QCmd),
    (Begun s 0x49 p n q k c → FieldsThen s p q c [(32, !(c.num 32 8 % 65536 == 0)), (40, !(c.num 40 8 % 65536 == 0))] (exec (.poolSet p n) s)
      (Closes s p q c (s.a.setPkg p { s.a.pkg p with poolBase := c.num 32 8, poolSize := c.num 40 8 }) .ok 0 (exec (.poolSet p n) s))) ∧
    (Begun s 0x4E p n q k c → FieldsThen s p q c [(36, dirty c.bytes 36 48)] (exec (.evtCfg p n) s)
      (Closes s p q c (s.a.setPkg p { s.a.pkg p with corrThreshold := c.num 32 4 }) .ok 0 (exec (.evtCfg p n) s))) ∧
    (Begun s 0x4B p n q k c → FieldsThen s p q c [(34, dirty c.bytes 34 40)] (exec (.retry p n) s)
      (let t := c.num 32 2
       let seq := c.num 40 8
       let idle := faultedCmds s.a p t seq = [] ∧ faultedReds s.a p t seq = [] ∧ faultedChunks s.a p t seq = [] ∧
         faultedArrivals s.a p t seq = []
       (256 ≤ t ∨ s.a.queue p t = none → Closes s p q c s.a .unknown 0 (exec (.retry p n) s)) ∧
       (∀ x, t < 256 → s.a.queue p t = some x →
         (idle → (∀ y ∈ x.cmds, y.faulted = true → y.seq ≠ seq) → Closes s p q c s.a .notFaulted 0 (exec (.retry p n) s)) ∧
         (¬ (idle ∧ ∀ y ∈ x.cmds, y.faulted = true → y.seq ≠ seq) → ∃ b,
           exec (.retry p n) s = .next (s.commit (retryColl s.mem s.time p t seq b).1 (retryColl s.mem s.time p t seq b).2) ∧
           { b with cmds := s.a.cmds, reds := s.a.reds, queues := s.a.queues, pkgs := s.a.pkgs } = s.a ∧
           (∀ d ∈ faultedCmds s.a p t seq, ∃ d' ∈ faultedCmds s.a p t seq, d'.id = d.id ∧
             tget b.cmds d.id = some { d' with faulted := false }) ∧
           (∀ i, (∀ d ∈ faultedCmds s.a p t seq, d.id ≠ i) → tget b.cmds i = tget s.a.cmds i) ∧
           (∀ r ∈ faultedReds s.a p t seq, ∃ r', tget b.reds r.id = some r' ∧ r'.writeFaulted = false ∧ ∀ d ∈ r'.contribs, d.faulted = false) ∧
           (∀ i, (∀ r ∈ faultedReds s.a p t seq, r.id ≠ i) → tget b.reds i = tget s.a.reds i) ∧
           (q = 0 → t ≠ 0 → b.queue p t = some { x with cmds := x.cmds.map (fun z =>
             if (x.cmds.filter (fun y => y.faulted && y.seq == seq)).any (fun y => z.id == y.id) then { z with faulted := false } else z) }) ∧
           (faultedChunks s.a p t seq = [] → faultedArrivals s.a p t seq = [] →
             exec (.retry p n) s = .next (withA s (admitAll b s.mem s.time p))) ∧
           (∀ d, faultedChunks s.a p t seq = [d] → faultedArrivals s.a p t seq = [] →
             let d' : Chunk := { d with faulted := false, direct := true }
             exec (.retry p n) s =
               .next (withA s (admitAll (runChunk { b with chunks := tset s.a.chunks d.id d' } s.mem s.time d') s.mem s.time p))) ∧
           (∀ y, faultedChunks s.a p t seq = [] → faultedArrivals s.a p t seq = [y] →
             (y.desc.push = false ∨ y.direct = true ∨ y.desc.dpkg = 0xFFFF) → y.acked = false →
             let y' : Arrival := { y with faulted := false, direct := true }
             let z := deliverArrival { b with arrivals := tset s.a.arrivals y.id y' } s.mem s.time y'
             exec (.retry p n) s = .next (s.commit (admitAll z.1 (mwrites s.mem z.2) s.time p) z.2))))))

/-! ## The save and the restore -/

/-- R75, R76, R205, R217, R218, R220 to R223, R360: a wave or frame not at a safe point 20 microseconds after the request is reported once.
Once every wave of the context has drained, the save begins: SPUSHes that are not admitted end with ABORTED and the waves' locator entries
are SAVING. Once the waves are ready and the copies of their crews have ended, the core writes the image where its location says, as far
as it fits, and the context is OUT there. A restore begins once there is room; then it reads the image and brings back the waves, the
crews and the scratchpad regions; one that cannot be read is reported and stays. Neither goes on in a berth that relocks. That a wave is
ready for the save in two steps is the model's reading (log 45), what a core writes is laid out as log 44 says, and that the watchdog
reports a frame with WAVEID 0xFFFFFF is log 90. -/
def Sys2Proof.Spec.PreemptSteps : Prop :=
  (∀ (s : State) (n u : Nat) (p : Pre) (t : Thread), tget s.a.pres n = some p → s.a.thread u = some t →
    let overrun := p.resume = false ∧ p.began + 20000 ≤ s.time ∧ (t.level = .lg ∨ t.phase = .active) ∧ t.saved = false ∧ t.ctx = p.ctx ∧
      t.unit.pkg = p.pkg ∧ t.unit.level = .core ∧ t.unit.idx ∈ p.cores ∧ t.unit.idx ∉ p.saved ∧ u ∉ p.reported ∧
      atSafePoint s.a s.mem s.time t = false
    (¬ overrun → exec (.safePointOverrun n u) s = .next s) ∧
    let p' : Pre := { p with reported := p.reported ++ [u] }
    let who := if t.level = .lg then t.waveid.toNat else 0xFFFFFF
    (overrun → exec (.safePointOverrun n u) s =
      .next (withA s (({ s.a with pres := tset s.a.pres n p' }).event s.time p.pkg 3 p.ctx 0 who (nextPc s.a s.mem s.time t))))) ∧
  (∀ (s : State) (n core : Nat) (p : Pre) (g : Image), tget s.a.pres n = some p → imageOf s.a p.pkg core p.ctx = some g →
    let ws := ctxWaves s.a p.pkg core p.ctx
    let cs := ctxCrews s.a p.pkg core p.ctx
    let pair := inPair s.a p.pkg core p.ctx
    let mine := p.resume = false ∧ core ∈ p.cores ∧ core ∉ p.saved
    let todo := mine ∧ (g.out = false ∨ ws ≠ [])
    let still := (s.a.berth p.pkg (core / 48)).relock ≠ none
    let ready := (∀ t ∈ ws, settled s.a s.mem s.time t = true) ∧ (∀ c ∈ crewCopies s.a p.pkg core p.ctx, c.unadmitted = true)
    let out := exec (.preemptSave n core) s
    (¬ mine → out = .next s) ∧
    (mine → g.out = true → ws = [] → out = .next (withA s (coreDone s.a s.time p core))) ∧
    (todo → still → out = .next s) ∧
    (todo → ¬ still → core ∉ p.busy → (∃ t ∈ ws, drained s.a s.mem s.time t = false) → out = .next s) ∧
    (todo → ¬ still → core ∉ p.busy → (∀ t ∈ ws, drained s.a s.mem s.time t = true) →
      let pushes := ws.flatMap (fun t => waitingPushes s.a t.uid) ++ (crewCopies s.a p.pkg core p.ctx).filter (·.unadmitted)
      let a := ((pushes.map (·.id)).eraseDups.filterMap (tget s.a.cmds)).foldl (fun a c => endCmd a c 3 0) s.a
      let a := { a with pres := tset a.pres p.id { p with busy := p.busy ++ [core] } }
      ∃ a', out = .next (withA s a') ∧ { a' with locs := a.locs } = a ∧
        (∀ t ∈ ws, ∀ e, tget a.locs (locKey t.waveid) = some e → ∃ e', tget a'.locs (locKey t.waveid) = some e' ∧ e'.state = .saving)) ∧
    (todo → ¬ still → core ∈ p.busy → ¬ ready → out = .next s) ∧
    (mine → g.out = false → ¬ still → core ∈ p.busy → ready → (∀ t ∈ ws, ∀ e, tget s.a.locs (locKey t.waveid) = some e → e.queue = []) →
      let img := (imageBytes core p.ctx pair (ws.map (waveRecord s.a s.mem s.time)) (cs.map (crewPart s.a s.mem pair))).1
      let r := min img.length g.room
      ∃ s', out = .next s' ∧ s'.time = s.time ∧
        (∀ i, i < r → mget s'.mem (imageAddr s.a g + i) = img.getD i 0) ∧
        (∀ x, x < imageAddr s.a g ∨ imageAddr s.a g + r ≤ x → mget s'.mem x = mget s.mem x) ∧
        isOut s'.a p.pkg core p.ctx = true ∧ (∀ t ∈ ws, ∃ t', s'.a.thread t.uid = some t' ∧ t'.saved = true))) ∧
  (∀ (s : State) (n core : Nat) (p : Pre) (g : Image), tget s.a.pres n = some p → imageOf s.a p.pkg core p.ctx = some g →
    let ws := savedWaves s.a p.pkg core p.ctx
    let mine := p.resume = true ∧ core ∈ p.cores ∧ core ∉ p.saved
    let out := exec (.restoreComplete n core) s
    let bads := imageBad s.a g
    let todo := mine ∧ g.out = true ∧ g.bad = false
    let room := restoreFits s.a p.pkg core p.ctx = true ∧ (s.a.berth p.pkg (core / 48)).relock = none
    let quiet := ∀ t ∈ ws, ∀ e, tget s.a.locs (locKey t.waveid) = some e → e.queue = []
    (¬ mine → out = .next s) ∧
    (mine → g.out = false → out = .next (withA s (coreDone s.a s.time p core))) ∧
    (mine → g.out = true → g.bad = true → out = .next s) ∧
    (todo → bads ≠ [] → quiet →
      let a := bads.foldl (fun a fa => a.event s.time (faPkg fa) 7 p.ctx (faPlace fa).mem fa 0xFFFFFF)
        (setImage { s.a with pres := tset s.a.pres p.id { p with busy := p.busy.filter (fun k => !(k == core)) } } { g with bad := true })
      let a := a.event s.time p.pkg 9 p.ctx core (bads.headD 0) 0
      ∃ a', out = .next (withA s a') ∧ { a' with locs := a.locs } = a) ∧
    (todo → bads = [] → ¬ room → out = .next s) ∧
    (todo → bads = [] → room → core ∉ p.busy → ∃ a', out = .next (withA s a') ∧
      { a' with locs := s.a.locs } = { s.a with pres := tset s.a.pres p.id { p with busy := p.busy ++ [core] } } ∧
      (∀ t ∈ ws, ∀ e, tget s.a.locs (locKey t.waveid) = some e → ∃ e', tget a'.locs (locKey t.waveid) = some e' ∧ e'.state = .restoring)) ∧
    (todo → bads = [] → room → core ∈ p.busy → quiet → (g.crews.map (·.crew)).Nodup →
      (∀ x ∈ g.crews, ∀ c, s.a.crew x.crew = some c → c.id = x.crew) → ∃ s', out = .next s' ∧ s'.time = s.time ∧
      isOut s'.a p.pkg core p.ctx = false ∧
      s'.mem = mwrites s.mem (g.crews.filterMap (fun x => ((s.a.crew x.crew).filter (·.out)).map (fun c =>
        (spadAddr c.pkg c.core + c.base, mbytes s.mem (imageAddr s.a g + x.regionOff) c.size)))) ∧
      ∀ x ∈ g.waves, ∀ t, s.a.thread x.uid = some t → t.uid = x.uid → ∃ t', s'.a.thread x.uid = some t' ∧ t'.saved = false))

/-! ## Communicators, flights and the collective engine -/

/-- R232, R234, R236 to R238: COMM_CREATE reads its member list as the owning queue's context, whose world must be the collective engine's,
and makes the communicator; COMM_DESTROY lets its flights end; FLIGHT_LOAD checks and stores the entries, and FLIGHT_REPLAY starts the
next replay, whose counters are the entries' INIT, after which the engine admits what it can. These clauses are the model's choice: a
second COMM_DESTROY answers BUSY and a COMM_CREATE that names a queue without context answers UNKNOWN (log 47); a replay of an aborted
communicator answers ABORTED, and FLIGHT_LOAD starts the replay numbers and the record of what was applied again (log 51); WORLD where the
engine's world is another (log 32). -/
def Obligations.CollectiveCommands : Prop :=
  ∀ (s : State) (p n q : Nat) (k : Queue) (c : QCmd),
    let m := c.num 32 1
    let f := c.num 33 1
    (Begun s 0x4C p n q k c →
      let t := c.num 34 2
      let len := c.num 36 2
      let bufs := c.num 38 1
      let out := exec (.commCreate p n) s
      FieldsThen s p q c [(32, decide (31 < m)), (33, decide (2 ≤ f)), (36, len == 0 || decide (1024 < len)),
        (38, bufs == 0 || decide (8 < bufs)), (39, dirty c.bytes 39 40)] out
      (let owner := if t < 256 then (s.a.queue p t).bind (·.ctx) else none
       (owner = none → Closes s p q c s.a .unknown 0 out) ∧
       (∀ ctx, owner = some ctx → s.a.ctxWorld p ctx ≠ (s.a.pkg p).collWorld → Closes s p q c s.a .world 0 out) ∧
       (∀ ctx, owner = some ctx → s.a.ctxWorld p ctx = (s.a.pkg p).collWorld →
         (s.a.comm p m ≠ none ∨ 128 < buffersUsed s.a p + 2 * bufs → Closes s p q c s.a .busy 0 out) ∧
         (s.a.comm p m = none → buffersUsed s.a p + 2 * bufs ≤ 128 → ReadsThen s p q ctx (c.num 40 8) (2 * len) c out (fun d =>
           let ms := (List.range len).map (fun i => numAt d (2 * i) 2)
           let good := p ∈ ms ∧ ms.Nodup ∧ ∀ x ∈ ms, x ≤ 1023
           (¬ good → Closes s p q c s.a .malformed 40 out) ∧
           ∀ k', s.a.queue p t = some k' →
           let x : Comm := { queue := t, ctx := ctx, cls := k'.cls, world := s.a.ctxWorld p ctx, push := f == 1, members := ms, bufs := bufs, sendUsed := 0, recvUsed := 0, lastServed := 0,
                             destroying := none, aborted := false }
           (good → Closes s p q c { s.a with comms := tset s.a.comms (commKey p m) x } .ok 0 out)))))) ∧
    (Begun s 0x4D p n q k c → FieldsThen s p q c [(32, decide (31 < m)), (33, dirty c.bytes 33 48)] (exec (.commDestroy p n) s)
      ((s.a.comm p m = none → Closes s p q c s.a .unknown 0 (exec (.commDestroy p n) s)) ∧
       (∀ x, s.a.comm p m = some x →
         (x.destroying ≠ none → Closes s p q c s.a .busy 0 (exec (.commDestroy p n) s)) ∧
         (x.destroying = none → (∃ r ∈ tvals s.a.replays, r.pkg = p ∧ r.comm = m ∧ r.fin = false) → exec (.commDestroy p n) s =
           .next (withA s { acted s.a p q c with comms := tset s.a.comms (commKey p m) { x with destroying := some c.id } })) ∧
         (x.destroying = none → (∀ r ∈ tvals s.a.replays, r.pkg = p → r.comm = m → r.fin = true) → ∃ a',
           exec (.commDestroy p n) s = .next (withA s a') ∧ a'.comm p m = none ∧ ∀ g, g < 16 → a'.flight p m g = none)))) ∧
    (Begun s 2 p n q k c →
      let len := c.num 34 2
      let out := exec (.flightLoad p n) s
      FieldsThen s p q c [(33, decide (15 < f)), (34, len == 0 || decide (4096 < len)), (36, dirty c.bytes 36 40),
        (40, !(c.num 40 8 % 64 == 0)), (48, dirty c.bytes 48 64)] out
      ((s.a.comm p m = none → Closes s p q c s.a .unknown 0 out) ∧
       (∀ x, s.a.comm p m = some x →
         (x.queue ≠ q → Closes s p q c s.a .owner 0 out) ∧
         (x.queue = q → ReadsThen s p q x.ctx (c.num 40 8) (64 * len) c out (fun d =>
           (∀ i off, i < len → entryBad (entryBytes d i) len x.members x.push = some off →
             (∀ j, j < i → entryBad (entryBytes d j) len x.members x.push = none) →
             Closes s p q c s.a .malformed (i * 65536 + off) out) ∧
           ((∀ i, i < len → entryBad (entryBytes d i) len x.members x.push = none) → ∃ a', Closes s p q c a' .ok 0 out ∧
             { a' with flights := s.a.flights, replays := s.a.replays } = s.a ∧
             let y : Flight := { entries := (List.range len).map (fun i => FlightEntry.of (entryBytes d i)), lastReplay := 0, applied := [] }
             a'.flights = tset s.a.flights (flightKey p m f) y)))))) ∧
    (Begun s 3 p n q k c →
      let num := c.num 36 4
      let out := exec (.flightReplay p n) s
      FieldsThen s p q c [(33, decide (15 < f)), (34, dirty c.bytes 34 36), (104, dirty c.bytes 104 112)] out
      ((s.a.comm p m = none → Closes s p q c s.a .unknown 0 out) ∧
       (∀ x, s.a.comm p m = some x →
         (x.queue ≠ q → Closes s p q c s.a .owner 0 out) ∧
         (x.queue = q → s.a.flight p m f = none → Closes s p q c s.a .unknown 0 out) ∧
         (∀ y, x.queue = q → s.a.flight p m f = some y →
           (num ≠ y.lastReplay + 1 → Closes s p q c s.a .busy 0 out) ∧
           (num = y.lastReplay + 1 → x.aborted = true → Closes s p q c s.a .aborted 0 out) ∧
           (num = y.lastReplay + 1 → x.aborted = false → (∀ r ∈ tvals s.a.arrivals, r.dst ≠ p) → (∃ e ∈ y.entries, e.op ≠ 0) → ∃ b r,
             out = .next (withA s (admitAll b s.mem s.time p)) ∧ tget b.replays s.a.nextId = some r ∧ r.pkg = p ∧ r.comm = m ∧
             r.flight = f ∧ r.n = num ∧ r.cmd = c.id ∧ r.entries = y.entries ∧
             r.bases = (List.range 8).map (fun i => c.num (40 + 8 * i) 8) ∧
             ((∀ e ∈ y.entries, e.op = 0 → e.init ≠ 0) → r.cnt = y.entries.map (·.init)) ∧
             r.lastProgress = s.time ∧ r.fin = false ∧ (b.flight p m f).map (·.lastReplay) = some num)))))

/-- What applying an arrival to a replay at its destination does (R239, R241, R242): `data` goes to the destination of the entry by the
operator, once; a destination that cannot be translated goes to the driver, one that cannot be written sets the status bit 4 or 8 of the
replay; then RNEXT's counter falls, what the arrival stands for is acknowledged, and the engine admits what it can. -/
def Sys2Proof.Spec.Applies (s : State) (a : Arch) (x : Arrival) (m : Comm) (r : Replay) (data : Option (List Nat)) (rank extra : Nat)
    (ids : List Nat) (out : Out) : Prop :=
  let g := frontAgent x.dst m.ctx
  let va := (r.bases.getD x.desc.dbase 0 + x.desc.doff) % 2 ^ 64
  let got := storeRange a s.mem s.time x.id g va (destSize x.desc) (decide (2 ≤ x.desc.op))
  let ends (b : Arch) (ws : Writes) : Out := .next (s.commit (admitAll b (mwrites s.mem ws) s.time x.dst) ws)
  let once := x.desc.push = false ∨ x.desc.dpkg = 0xFFFF ∨
    (rank = 0xFFFF ∧ (directs a x).2 = 0 ∧ a.flight x.dst x.comm x.flight ≠ none)
  let applied (st : Nat) (ws : Writes) : Prop := ∃ b, out = ends b ws ∧
    (∀ i ∈ ids, ∀ y, tget a.arrivals i = some y → ∃ z, tget b.arrivals i = some z ∧ z.acked = true) ∧
    (x.desc.dpkg ≠ 0xFFFF → ∀ f, a.flight x.dst x.comm x.flight = some f →
      (b.flight x.dst x.comm x.flight).map (·.applied) = some (f.applied ++ [(x.n, x.entry, rank)])) ∧
    ∃ r', tget b.replays r.id = some r' ∧ r'.status = r.status ||| st ∧ r'.lastProgress = s.time ∧
      let q : Replay := { r with status := r.status ||| st, lastProgress := s.time }
      (once → r'.cnt = if x.desc.rnext = 0xFFFF then r.cnt else (lower q [x.desc.rnext]).cnt)
  (data = none → applied 0 []) ∧
  (∀ d, data = some d →
    (got = .held → out = ends a []) ∧
    (∀ kind v, got = .fault kind v → out = ends (entryFault
      { a with arrivals := tmod a.arrivals x.id (fun y => { y with faulted := true }) } s.time r x.entry kind v) []) ∧
    (∀ kind, got = .access kind → applied 4 []) ∧ (∀ fas, got = .error fas → applied 8 []) ∧
    (∀ ps, got = .ok ps →
      let shut := ∃ y ∈ ps, ∃ fa attr, y.1 = .mem fa attr ∧ writeShut a (frontInside x.dst) fa y.2 = true
      let o := mergedBytes x.desc (sourceBytes s.mem ps) d a.free
      (shut → out = ends a []) ∧ (¬ shut → applied (o.2.1 ||| extra) (writeParts ps o.1))))

/-- R238 to R244, R429: the engine admits entry after entry, each the first whose counter is zero and whose buffers are free, until none is
or its 8 places are full, and reads the source of each; a chunk ends once its arrival is acknowledged, which is a moment of admission; an
arrival takes its place in the order of arrival and is held for its replay or applied to it, the contributions to a pushed entry together
once every member has contributed; a replay without progress for 100 ms is reported. That a source that cannot be read sends an arrival
without data, and what an aborted communicator does with what arrives, is the model's reading (log 51); when CHUNK_ADMIT comes, and that
contributions to a pushed entry share a receive buffer, is log 92. -/
def Obligations.CollectiveSteps : Prop :=
  (∀ (s : State) (p : Nat),
    let mine := (tvals s.a.replays).filter (fun r => r.pkg == p)
    let busy := ((tvals s.a.chunks).filter (fun c => mine.any (fun r => r.id == c.replay))).length
    (8 ≤ busy ∨ (∀ r ∈ mine, ∀ m, s.a.comm p r.comm = some m → admissible s.a m r = none) → exec (.chunkAdmit p) s = .next s) ∧
    (busy < 8 → (∃ r ∈ mine, ∃ m, s.a.comm p r.comm = some m ∧ admissible s.a m r ≠ none) → ∃ a' r m e x c,
      exec (.chunkAdmit p) s = .next (withA s a') ∧ r ∈ mine ∧ s.a.comm p r.comm = some m ∧ admissible s.a m r = some (e, x) ∧
      (∀ r' ∈ mine, ∀ m' y, s.a.comm p r'.comm = some m' → admissible s.a m' r' = some y → admitBefore (m', r', y) (m, r, e, x) = false) ∧
      tget a'.chunks s.a.nextId = some c ∧ c.replay = r.id ∧ c.entry = e) ∧
    ((∀ x ∈ s.a.replays, x.2.id = x.1) → (∀ x ∈ s.a.chunks, x.1 < s.a.nextId) →
      ∃ a', exec (.chunkAdmit p) s = .next (withA s a') ∧ nextEntry a' p = none)) ∧
  (∀ (m : Comm) (a : Arch) (r : Replay) (e : Nat) (x : FlightEntry), admissible a m r = some (e, x) →
    r.fin = false ∧ r.aborted = false ∧ r.entries[e]? = some x ∧ x.op ≠ 0 ∧ r.cnt.getD e 1 = 0 ∧ r.started.getD e true = false ∧
    m.sendUsed < m.bufs) ∧
  (∀ (s : State) (n : Nat) (c : Chunk), tget s.a.chunks n = some c →
    (∀ x, chunkArrival s.a c = some x → exec (.chunkBoundary n) s =
      .next (if x.acked = true then withA s (admitAll (endChunk { s.a with arrivals := tdel s.a.arrivals x.id } s.time c) s.mem s.time x.src)
        else s)) ∧
    (chunkArrival s.a c = none → exec (.chunkBoundary n) s =
      .next (if c.faulted = true then s else withA s (runChunk s.a s.mem s.time c)))) ∧
  (∀ (s : State) (n : Nat) (x : Arrival), tget s.a.arrivals n = some x →
    let out := exec (.collectiveArrival n) s
    let y : Arrival := if x.came = none then { x with came := some s.a.nextId } else x
    let a : Arch := if x.came = none then { s.a with nextId := s.a.nextId + 1, arrivals := tset s.a.arrivals n y } else s.a
    let live := x.acked = false ∧ x.faulted = false ∧ x.id = n
    let pushed := x.desc.push = true ∧ x.direct = false ∧ x.desc.dpkg ≠ 0xFFFF
    let waits := out = .next (withA s (admitAll a s.mem s.time x.dst))
    (x.acked = true ∨ x.faulted = true → out = .next s) ∧
    (live → n < s.a.nextId → s.a.comm x.dst x.comm = none → ∃ a', out = .next (withA s a') ∧
      ∃ z, tget a'.arrivals n = some z ∧ z.acked = true ∧ z.data = x.data) ∧
    (∀ m, live → s.a.comm x.dst x.comm = some m → m.aborted = false →
      (¬ pushed → staleArrival a y x.rank = false →
        (replayFor a y = none → waits) ∧
        (∀ r, replayFor a y = some r → r.pkg = x.dst → r.comm = x.comm → r.aborted = false → m.destroying = none →
          Sys2Proof.Spec.Applies s a y m r x.data x.rank 0 [n] out)) ∧
      (pushed →
        let group := pushGroup a y
        let all := m.members.length ≤ group.length + (directs a y).1 + (directs a y).2 ∧ ∀ z ∈ group, z.faulted = false
        (¬ all → waits) ∧
        (all → staleArrival a y 0xFFFF = false →
          (replayFor a y = none → waits) ∧
          (∀ r, replayFor a y = some r → r.aborted = false → m.destroying = none →
            Sys2Proof.Spec.Applies s a y m r (pushSum group) 0xFFFF
              (((pushSum group).map (pushOvf (dtypeOf x.desc.dtype))).getD 0) (group.map (·.id)) out))))) ∧
  (∀ (s : State) (n : Nat) (r : Replay), tget s.a.replays n = some r →
    (r.fin = true ∨ s.time < r.lastProgress + 100000000 → exec (.collStall n) s = .next s) ∧
    (∀ m, r.fin = false → r.lastProgress + 100000000 ≤ s.time → s.a.comm r.pkg r.comm = some m → exec (.collStall n) s = .next (withA s
      (({ s.a with replays := tset s.a.replays n { r with lastProgress := s.time } }).event s.time r.pkg 11 m.ctx
        (r.comm + r.flight * 256) r.n 0))))

/-! ## The platform -/

/-- R218, R438, R439, R441 to R444: the platform's commands. CAP_READ sends the capability block; CLK_SET starts a relock, which ends after
1.5 microseconds; WORLD_SET and FIREWALL_SET put units and regions into a world; HBM_MAPOUT starts a copy that takes one unit of
capacity when it ends; BERTH_RETRY authenticates a berth again, and one that was held starts anew; POWER_CFG stores the limits. These
clauses are the model's choice: the length 52 and the NEXT fields of the capability block (log 30), what holds a unit so that WORLD_SET is
BUSY (log 32), which granules of a firewall region the limit takes in (log 33), that a second HBM_MAPOUT waits (log 34), that BERTH_RETRY
answers OK where the berth fails again and what stays over the reset of a berth (log 35), and that a second CLK_SET waits (log 42). -/
def Obligations.PlatformCommands : Prop :=
  (∀ (s : State) (p n q : Nat) (k : Queue) (c : QCmd),
    let b := c.num 32 1
    (Begun s 0x60 p n q k c → Closes s p q c
      (({ s.a with free := s.a.free + 13 }).report s.time p k.port (.capability (capBlock s.a.free))) .ok 0 (exec (.capRead p n) s)) ∧
    (Begun s 0x61 p n q k c →
      let f := c.num 34 2
      FieldsThen s p q c [(32, decide (3 < b)), (33, dirty c.bytes 33 34),
        (34, decide (f < 600) || decide (1800 < f) || !(f % 25 == 0)), (36, dirty c.bytes 36 48)] (exec (.clkSet p n) s)
      (((s.a.berth p b).relock ≠ none → exec (.clkSet p n) s = .next s) ∧
       ((s.a.berth p b).relock = none → (s.a.berth p b).mhz = f → Closes s p q c s.a .ok 0 (exec (.clkSet p n) s)) ∧
       ((s.a.berth p b).relock = none → (s.a.berth p b).mhz ≠ f → exec (.clkSet p n) s = .next (withA s
         ((acted s.a p q c).setBerth p b { s.a.berth p b with relock := some (1500, 0, f, c.id) }))))) ∧
    (Begun s 0x62 p n q k c →
      let unit := c.num 34 2
      FieldsThen s p q c [(32, decide (3 < b)), (33, decide (1 < c.num 33 1)), (34, decide (unitCount b ≤ unit)),
        (36, dirty c.bytes 36 48)] (exec (.worldSet p n) s)
      ((unitHeld s.a p b unit = true → Closes s p q c s.a .busy 0 (exec (.worldSet p n) s)) ∧
       (unitHeld s.a p b unit = false → ∃ a', Closes s p q c a' .ok 0 (exec (.worldSet p n) s) ∧
         { a' with pkgs := s.a.pkgs, berths := s.a.berths } = s.a ∧
         (b = 3 → (a'.pkg p).collWorld = (c.num 33 1 == 1)) ∧
         (b < 3 → a'.pkgs = s.a.pkgs ∧ unitWorld a' { level := if b = 0 then .core else if b = 1 then .clu else .die, pkg := p, idx := unit } =
           some (c.num 33 1 == 1)) ∧
         ∀ u x, unitWorld s.a u = some x → u.idx < (if u.level = .core then 192 else if u.level = .clu then 32 else 4) →
           (u.pkg ≠ p ∨ u.idx ≠ unit ∨ b = 3) → unitWorld a' u = some x))) ∧
    (Begun s 0x63 p n q k c →
      let base := c.num 40 8
      let lim := c.num 48 8
      FieldsThen s p q c [(32, decide (7 < b)), (33, decide (15 < c.num 33 1)), (34, decide (1 < c.num 34 1)), (35, dirty c.bytes 35 40),
        (40, !(base % 65536 == 0) || decide (2 ^ 52 ≤ base)), (48, !(lim % 65536 == 0) || decide (2 ^ 52 ≤ lim)),
        (56, dirty c.bytes 56 64)] (exec (.firewallSet p n) s)
      (let x := s.a.pkg p
       let r : FwRegion := { base := base, limit := lim, world := c.num 34 1 == 1 }
       Closes s p q c (s.a.setPkg p { x with firewall := tset x.firewall (16 * b + c.num 33 1) r }) .ok 0 (exec (.firewallSet p n) s))) ∧
    (Begun s 0x64 p n q k c → FieldsThen s p q c [(32, decide (3 < b)), (33, !(c.num 33 1 == 2 * b) && !(c.num 33 1 == 2 * b + 1)),
        (35, dirty c.bytes 35 48)] (exec (.hbmMapout p n) s)
      (((s.a.berth p b).mapout ≠ none → exec (.hbmMapout p n) s = .next s) ∧
       ((s.a.berth p b).mapout = none → exec (.hbmMapout p n) s = .next (withA s
         ((acted s.a p q c).setBerth p b { s.a.berth p b with mapout := some c.id }))))) ∧
    (∀ ok, Begun s 0x65 p n q k c → FieldsThen s p q c [(32, decide (3 < b)), (33, dirty c.bytes 33 48)] (exec (.berthRetry p n ok) s)
      ((ok = false → Closes s p q c ((s.a.setBerth p b { s.a.berth p b with held := true }).event s.time p 0x41 0 b 0 0) .ok 0
         (exec (.berthRetry p n ok) s)) ∧
       (ok = true → (s.a.berth p b).held = false → Closes s p q c s.a .ok 0 (exec (.berthRetry p n ok) s)) ∧
       (ok = true → (s.a.berth p b).held = true → ∃ a', Closes s p q c a' .ok 0 (exec (.berthRetry p n ok) s) ∧
         let x := s.a.berth p b
         let y := a'.berth p b
         y.held = false ∧ y.area = x.area ∧ y.relock = x.relock ∧ y.mapout = x.mapout ∧ y.world = false ∧ y.coreWorld = 0 ∧
         y.clusterWorld = 0 ∧ (∀ u d, u ≠ p ∨ d ≠ b → d < 4 → a'.berth u d = s.a.berth u d) ∧
         (∀ z ∈ a'.icache, z.1 / 48 ≠ 4 * p + b) ∧ (∀ z ∈ a'.tlb, z.1 / 256 / 48 ≠ 4 * p + b) ∧
         (∀ z ∈ a'.slotGen, z.1 / 2304 ≠ 4 * p + b) ∧ a'.images = s.a.images))) ∧
    (Begun s 0x66 p n q k c → FieldsThen s p q c [(35, dirty c.bytes 35 48)] (exec (.powerCfg p n) s)
      (Closes s p q c (s.a.setPkg p { s.a.pkg p with powerLimit := some (c.num 32 2), warnTemp := some (c.num 34 1) }) .ok 0 (exec (.powerCfg p n) s)))) ∧
  (∀ (s : State) (p b : Nat),
    let x := s.a.berth p b
    (x.relock = none → exec (.pllRelockEnd p b) s = .next s) ∧
    (∀ left stall f n, x.relock = some (left, stall, f, n) →
      (0 < left → exec (.pllRelockEnd p b) s = .next s) ∧
      (left = 0 → exec (.pllRelockEnd p b) s = .next (withA s ((s.a.setBerth p b { x with
        relock := none, mhz := f, rcAcc := x.rcAcc + stall * 6 * 2 ^ 32 / 5 }).complete s.time p 0 n .ok 0)))) ∧
    (x.mapout = none → exec (.hotRemove p b) s = .next s) ∧
    (∀ n, x.mapout = some n →
      let k := s.a.pkg p
      let left := k.capacity.getD b 0 - 1
      let a := (s.a.setBerth p b { x with mapout := none }).setPkg p { k with capacity := k.capacity.set b left }
      exec (.hotRemove p b) s = .next (withA s ((a.event s.time p 0x42 0 b (left * 2 ^ 33) 0).complete s.time p 0 n .ok 0)))) ∧
  (∀ f, (capBlock f).length = 52 ∧ numAt (capBlock f) 0 1 = 0x82 ∧ numAt (capBlock f) 2 2 = 52 ∧
    ∀ i, i < 6 → numAt (capBlock f) (4 + 8 * i) 2 = i + 1 ∧ numAt (capBlock f) (6 + 8 * i) 1 = 1 ∧
      numAt (capBlock f) (8 + 8 * i) 2 = if i = 5 then 0 else 8 * (i + 1))

namespace Sys2Proof.Spec

/-- A request of the attestation exchange is answered: the response leaves in a datagram of TYPE 4, and the exchange stands at `next`. -/
def Answers (s : State) (p i : Nat) (next : Nat) (ok : List Byte → Prop) (out : Out) : Prop :=
  ∃ body, ok body ∧ out = .next (withA s ({ s.a with free := s.a.free + 1 }.setPkg p ((s.a.pkg p).modPort i (fun t =>
    { t with sent := t.sent ++ [datagram 4 0 0 body], spdm := next }))))

/-- What a port does with a frame of the exchange (R430): one that is down drops it, and so does one with a session where it does not
verify, which it counts; else `good`. -/
def FrameThen (s : State) (p i : Nat) (frame : Bool) (out : Out) (good : Prop) : Prop :=
  let k := s.a.pkg p
  let t := k.port i
  (t.up = false → out = .next s) ∧
  (t.up = true → t.session ≠ none → frame = false → out = .next (withA s (s.a.setPkg p { k with badFrames := k.badFrames + 1 }))) ∧
  (t.up = true → (t.session = none ∨ frame = true) → good)

/-- A response that ends in both signatures over the transcript (R436). -/
def Signed (s : State) (body : List Byte) : Prop :=
  ∃ pre, body = pre ++ (List.range 3309).map (Config.signature 1 s.a.free) ++ (List.range 64).map (Config.signature 0 s.a.free)

end Sys2Proof.Spec

/-! ## Boot and attestation -/

/-- R434, R435: after a power-on reset a package whose ROM or firmware signature fails has stopped; else its ports are up, its timer is
locked, each berth that fails its authentication is held in reset and reported, the digests of what was read and verified are its nine
measurements, and nothing that the package held is left. Memory is not touched. That memory stays and what the reset wipes is the model's
choice (logs 6 and 36), and so is that a berth has at most 16 units of capacity (log 3). -/
def Sys2Proof.Spec.PowerOnReset : Prop :=
  ∀ (s : State) (p : Nat) (rom fw : Bool) (auth : BitVec 4) (cap : List Nat), ∃ a',
    exec (.powerOnReset p rom fw auth cap) s = .next (withA s a') ∧
    (a'.pkg p).session0 = none ∧ (∀ t ∈ tvals a'.threads, t.unit.pkg ≠ p) ∧ (∀ k ∈ tvals a'.crews, k.pkg ≠ p) ∧
    (∀ c, c < 65536 → a'.ctx p c = none) ∧ (∀ q, q < 256 → a'.queue p q = none) ∧ (∀ m, m < 256 → a'.comm p m = none) ∧
    (∀ u, u ≠ p → a'.pkg u = s.a.pkg u) ∧
    (rom = false ∨ fw = false → (a'.pkg p).boot = .failed ∧ ∀ x ∈ (a'.pkg p).ports, x.up = false) ∧
    (rom = true → fw = true → (a'.pkg p).boot = .up ∧ (a'.pkg p).locked = true ∧
      (∀ j, j < 9 → (a'.pkg p).digest (j + 1) = (List.range 48).map (fun i =>
        if j = 0 ∨ j = 8 then Config.fixedDigest p (j + 1) i else Config.firmwareDigest s.a.free (j + 1) i)) ∧
      (a'.pkg p).capacity = (List.range 4).map (fun b => min 16 (cap.getD b 0)) ∧ (∀ x ∈ (a'.pkg p).ports, x.up = true) ∧
      (∀ b, b < 4 → (a'.berth p b).held = !auth.getLsbD b) ∧
      (a'.pkg p).heldReports = ((List.range 4).filter (fun b => !auth.getLsbD b)).map (fun b => .event 0x41 0 b 0 0 (s.time % 2 ^ 64)))

/-- R430, R434 to R437: the requests of the attestation exchange are answered in datagrams of TYPE 4; GET_VERSION starts it, each request
but the first moves it on only where the one before it has been answered, and FINISH, where it verifies after KEY_EXCHANGE, establishes
the session, in which every other request may follow again. CHALLENGE, GET_MEASUREMENTS and KEY_EXCHANGE answer with both signatures, and
GET_MEASUREMENTS with the digest that it names. In a session a frame that does not verify is dropped and counted. A port that has no
session ends none. The order of the stages is the model's (PRESUMED, log 40), the sizes of the signatures are those of the algorithms
(PRESUMED, log 41), and what a session leaves to the next one is log 37. -/
def Sys2Proof.Spec.Attestation : Prop :=
  ∀ (s : State) (p i : Nat) (fr : Bool),
    let k := s.a.pkg p
    let t := k.port i
    let on := k.boot = .up ∨ k.boot = .ready
    let row (stage next : Nat) (out : Out) (ok : List Byte → Prop) : Prop := FrameThen s p i fr out ((¬ on → out = .next s) ∧
      (on → stage ≤ t.spdm → Answers s p i (max next t.spdm) ok out) ∧ (on → t.spdm < stage → Answers s p i t.spdm (fun _ => True) out))
    (k.boot = .failed → Answers s p i 1 (fun _ => True) (exec (.spdmGetVersion p ⟨i, fr⟩) s)) ∧
    (k.boot ≠ .failed → FrameThen s p i fr (exec (.spdmGetVersion p ⟨i, fr⟩) s)
      ((¬ on → exec (.spdmGetVersion p ⟨i, fr⟩) s = .next s) ∧ (on → Answers s p i 1 (fun _ => True) (exec (.spdmGetVersion p ⟨i, fr⟩) s)))) ∧
    row 1 2 (exec (.spdmGetCapabilities p ⟨i, fr⟩) s) (fun _ => True) ∧ row 2 3 (exec (.spdmNegotiateAlgorithms p ⟨i, fr⟩) s) (fun _ => True) ∧
    row 3 3 (exec (.spdmGetDigests p ⟨i, fr⟩) s) (fun _ => True) ∧ row 3 3 (exec (.spdmGetCertificate p ⟨i, fr⟩) s) (fun _ => True) ∧
    row 3 3 (exec (.spdmChallenge p ⟨i, fr⟩) s) (Signed s) ∧ row 3 4 (exec (.spdmKeyExchange p ⟨i, fr⟩) s) (Signed s) ∧
    (∀ idx, row 3 3 (exec (.spdmGetMeasurements p ⟨i, fr⟩ idx) s) (fun b => Signed s b ∧
      (1 ≤ idx → idx ≤ 9 → ∃ rest, b = k.digest idx ++ rest) ∧
      (idx = 255 → ∃ rest, b = (List.range 9).flatMap (fun j => k.digest (j + 1)) ++ rest))) ∧
    (∀ v, v = false ∨ t.spdm ≠ 4 → row 0 0 (exec (.spdmFinish p ⟨i, fr⟩ v) s) (fun _ => True)) ∧
    (t.spdm = 4 → FrameThen s p i fr (exec (.spdmFinish p ⟨i, fr⟩ true) s) ((¬ on → exec (.spdmFinish p ⟨i, fr⟩ true) s = .next s) ∧
      (on → i < k.ports.length → ∃ a', exec (.spdmFinish p ⟨i, fr⟩ true) s = .next (withA s a') ∧
        let t' := (a'.pkg p).port i
        t'.session = some k.nextSession ∧ t'.lastTaken = 0 ∧ t'.spdm = 3 ∧ (a'.pkg p).nextSession = k.nextSession + 1 ∧
        (k.session0 ≠ none → (a'.pkg p).session0 = k.session0 ∧ a'.queues = s.a.queues) ∧
        (k.session0 = none → (a'.pkg p).session0 = some k.nextSession ∧ (a'.pkg p).boot = .ready ∧ a'.queue p 0 = some (queueZero i) ∧
          (a'.pkg p).heldReports = [])))) ∧
    (t.up = false ∨ t.session = none → exec (.spdmEndSession p ⟨i, fr⟩) s = .next s) ∧
    (t.up = true → t.session ≠ none → fr = false →
      exec (.spdmEndSession p ⟨i, fr⟩) s = .next (withA s (s.a.setPkg p { k with badFrames := k.badFrames + 1 }))) ∧
    (∀ x, t.up = true → t.session = some x → fr = true → i < k.ports.length → ∃ a', exec (.spdmEndSession p ⟨i, fr⟩) s = .next (withA s a') ∧
      ((a'.pkg p).port i).session = none ∧ ((a'.pkg p).port i).spdm ≤ 3 ∧ a'.queues = s.a.queues ∧
      (k.session0 = some x → (a'.pkg p).session0Ended = true ∧ (a'.pkg p).heldReports.length ≤ 256))

/-- R218, R440, R442, R446: what comes from outside a package. The timer keeps counting and never goes back, and losing or regaining the
lock is reported; measured power above the limit, a die at the warning temperature, a link that goes down, and the corrected error
that reaches the threshold are reported; the thermal cut takes the rail without an event. The bound within which the timer is locked and
how a time message comes are the model's choice (logs 4 and 38), and so is that no limit is in force before POWER_CFG (log 39). -/
def Obligations.PlatformEvents : Prop :=
  ∀ (s : State) (p : Nat),
    let k := s.a.pkg p
    (∀ ahead : Int,
      let x := { k with timerOff := max k.timerOff ahead }
      let off := k.timerOff - ahead
      let far := Config.timerBound < off.natAbs
      let on := k.boot ≠ .off ∧ k.boot ≠ .failed
      (far → k.locked = true → exec (.timeMessage p ahead) s = .next (withA s
        ((s.a.setPkg p { x with locked := false }).event s.time p 0x45 0 0 (BitVec.ofInt 64 off).toNat 0))) ∧
      (¬ far → k.locked = false → on → exec (.timeMessage p ahead) s = .next (withA s
        ((s.a.setPkg p { x with locked := true }).event s.time p 0x46 0 0 0 0))) ∧
      (¬ (far ∧ k.locked = true) → ¬ (¬ far ∧ k.locked = false ∧ on) →
        exec (.timeMessage p ahead) s = .next (withA s (s.a.setPkg p x)))) ∧
    (∀ w, (∀ l, k.powerLimit = some l → l < w → exec (.power p w) s = .next (withA s (s.a.event s.time p 0x43 0 w 0 0))) ∧
      ((∀ l, k.powerLimit = some l → w ≤ l) → exec (.power p w) s = .next s)) ∧
    (∀ b d, (∀ l, k.warnTemp = some l → l ≤ d → exec (.thermal p b d) s = .next (withA s (s.a.event s.time p 0x44 0 b d 0))) ∧
      ((∀ l, k.warnTemp = some l → d < l) → exec (.thermal p b d) s = .next s)) ∧
    exec (.thermalCut p) s = .next (withA s (s.a.setPkg p { k with railOff := true })) ∧
    (∀ i, exec (.linkDown p i true) s = .next (withA s (s.a.event s.time p 0x47 0 (i % 256 + 256) 0 0))) ∧
    (∀ i, exec (.linkDown p i false) s = .next (withA s
      ((s.a.setPkg p (k.modPort i (fun t => { t with up := false }))).event s.time p 0x47 0 (i % 256) 0 0))) ∧
    (∀ m x,
      let n := tgetD k.corrCount m 0 + 1
      let a := s.a.setPkg p { k with corrCount := tset k.corrCount m n }
      exec (.corrected p m x) s = .next (withA s (if n = k.corrThreshold then a.event s.time p 6 0 m x n else a)))

namespace Sys2Proof.Spec

/-- The instruction comes back from its own encoding. -/
def RoundTrip (i : Instr) : Prop :=
  ∀ e, i.wf = true → i.encode = some e → decodeWord e.cls e.word (e.lit.getD 0) = .ok i

/-- The class of an instruction word. -/
def classOfWord (i : Instr) : Option Nat := i.encode.map (·.cls)

/-- Words of the classes of which every word executes only in lane groups (R27). -/
def laneClass (i : Instr) : Prop := classOfWord i ∈ [some 1, some 2, some 3, some 5, some 8, some 10]

/-- The header of a clause whose fields are in their ranges (R246). -/
def headerInRange (h : Header) : Prop :=
  h.cls < 12 ∧ h.wcnt < 16 ∧ h.wait < 4096 ∧ (h.seta < 12 ∨ h.seta = 15) ∧ (h.setb < 12 ∨ h.setb = 15) ∧ h.prio < 65536

end Sys2Proof.Spec

/-! ## Encodings -/

/-- Decoding the encoding of a well-formed scalar, control or system word (classes 0 and 11) gives the word back. -/
def Obligations.ScalarEncodings : Prop := ∀ i : Instr, classOfWord i = some 0 ∨ classOfWord i = some 11 → RoundTrip i

/-- Decoding the encoding of a well-formed vector or lane word (classes 1 to 3) gives the word back. -/
def Obligations.VectorEncodings : Prop := ∀ i : Instr, classOfWord i = some 1 ∨ classOfWord i = some 2 ∨ classOfWord i = some 3 → RoundTrip i

/-- Decoding the encoding of a well-formed memory, scratchpad or copy word (classes 4 to 6) gives the word back. -/
def Obligations.MemoryEncodings : Prop := ∀ i : Instr, classOfWord i = some 4 ∨ classOfWord i = some 5 ∨ classOfWord i = some 6 → RoundTrip i

/-- Decoding the encoding of a well-formed hierarchy, matrix, fabric-register or summary word (classes 7 to 10) gives the word back. -/
def Obligations.EngineEncodings : Prop :=
  ∀ i : Instr, classOfWord i = some 7 ∨ classOfWord i = some 8 ∨ classOfWord i = some 9 ∨ classOfWord i = some 10 → RoundTrip i

/-- R245, R248, R250, R281, R282, R338: the cause of a word that does not decode. An unassigned point has cause 1 before all else; a word of
another kind, a literal that is missing, a LIVE word out of its place, and a word that must stand last and does not have cause 3; a
reserved code has cause 4, FSEL = 3 among them in the classes that have the field. At which word a missing literal traps, and that cause 3
goes before 4 there, is the model's reading (DEDUCED, log 64). -/
def Sys2Proof.Spec.DecodeFaults : Prop :=
  (∀ (cls w x c : Nat), decodeWord cls w x = .error c → c = 1 ∨ c = 3 ∨ c = 4) ∧
  (∀ (cls w x : Nat) (i : Instr), 4 ≤ cls → cls ≤ 10 → isLiveWord w = false → isControlOp (unpack w).op = false →
    w / 2 ^ 14 % 4 = 3 → decodeWord cls w x ≠ .ok i) ∧
  ∀ (cls : Nat) (safe : Bool) (words : List Nat) (pos : Nat),
    let w := words.getD pos 0
    let nxt := words.getD (pos + 1) 0
    let got := decodeWord cls w (nxt % 2 ^ 62)
    let kind := w / 2 ^ 62 % 4
    let lost := kind = 1 ∧ (words.length ≤ pos + 1 ∨ nxt / 2 ^ 62 % 4 ≠ 3)
    let first := pos = 0 ∧ safe = true
    let size := if kind = 1 then 2 else 1
    (kind = 2 ∨ kind = 3 → decodeAt cls safe words pos = .error 3) ∧
    (kind < 2 → got = .error 1 → decodeAt cls safe words pos = .error 1) ∧
    (kind < 2 → got ≠ .error 1 → lost → decodeAt cls safe words pos = .error 3) ∧
    (∀ c, kind < 2 → got = .error c → c ≠ 1 → ¬ lost → decodeAt cls safe words pos = .error (if first then 3 else c)) ∧
    (∀ i, kind < 2 → got = .ok i → ¬ lost →
      (i.isLive = true → ¬ first → decodeAt cls safe words pos = .error 3) ∧
      (i.isLive = false → first → decodeAt cls safe words pos = .error 3) ∧
      (i.isLive = false → ¬ first → i.standsLast = true → pos + size ≠ words.length → decodeAt cls safe words pos = .error 3) ∧
      (i.isLive = true → first → decodeAt cls safe words pos = .ok (i, 1)) ∧
      (i.isLive = false → ¬ first → (i.standsLast = false ∨ pos + size = words.length) → decodeAt cls safe words pos = .ok (i, size)))

/-- Whatever decodes is well formed, and its encoding is the word that it was decoded from (R245, R248, R250, R281, R282, R338). A word that
does not decode has the cause 1 for an unassigned point; 3 for a word of another kind, a missing literal, a field that must be zero, a LIVE
word out of its place and a word that must stand last and does not; 4 for a reserved code, FSEL = 3 among them. At which word a missing
literal traps, and that cause 3 goes before 4 there, is the model's reading (DEDUCED, log 64). -/
def Obligations.DecodedIsWellFormed : Prop :=
  (∀ (cls w x : Nat) (i : Instr), w < 2 ^ 63 → x < 2 ^ 62 → decodeWord cls w x = .ok i →
    i.wf = true ∧ ∃ e, i.encode = some e ∧ e.word = w ∧ (e.cls = cls ∨ e.cls = 0)) ∧
  Sys2Proof.Spec.DecodeFaults

/-- R246: a header comes back from its word, and a word that decodes as a header is that header's; a word of another kind, or with a bad
field, does not decode. -/
def Obligations.ClauseHeaders : Prop :=
  (∀ h : Header, headerInRange h → decodeHeader h.encode = .ok h ∧ h.encode < 2 ^ 64) ∧
  (∀ (w : Nat) (h : Header), w < 2 ^ 64 → decodeHeader w = .ok h → headerInRange h ∧ h.encode = w) ∧
  (∀ w, w < 2 ^ 64 → w / 2 ^ 62 ≠ 2 → decodeHeader w = .error 3) ∧
  (∀ w, w < 2 ^ 64 → w / 2 ^ 62 = 2 → 12 ≤ w / 2 ^ 58 % 16 → decodeHeader w = .error 2)

/-- Words written out from the encodings of the spec decode to the instructions that they stand for, one of each class at least; and words
with a defect have its cause: no variant 3 of FADD, the operand code 0xFD, the rounding mode 7, and FSEL = 3. -/
def Obligations.DecodedWords : Prop :=
  let hd (p : Fin 8) : Hd := { gp := p, gn := false, ext := .none }
  let d := hd 7
  let mm (l : LvlCode) (f : FSel) (acq rel : Bool) : MMod := { fsel := f, lvl := l, acq := acq, rel := rel }
  decodeWord 0 0x0F0EC2F000000000 0 = .ok (.smov d false (.s 2) (.k 0)) ∧
  decodeWord 0 0x000EC2C2C3000000 0 = .ok (.sadd d .i32 false (.s 2) (.s 2) (.s 3)) ∧
  decodeWord 0 0x340EFFFFFFFE00C3 0 = .ok (.loop d (-2) 0xC3) ∧
  decodeWord 0 0x350E000000000000 0 = .ok (.exit d) ∧
  decodeWord 1 0x1C0E1810CC000000 0 = .ok (.philox d (.v 24) (.v 16) (.s 12)) ∧
  decodeWord 2 0x020E191814000001 0 = .ok (.fmul d .f32 .rz (.v 25) (.v 24) (.v 20)) ∧
  decodeWord 3 0x002E010100000000 0 = .ok (.vote d (.bal (.v 1) 1)) ∧
  decodeWord 4 0x002E0104F0004000 0 = .ok (.ld d .b32 (mm .lg .a false false) false (.v 1) (.v 4) (.k 0)) ∧
  decodeWord 5 0x00420028F0004000 0 = .ok (.lds (hd 1) .b128 (mm .lg .a false false) 0 (.v 0) (.v 40) (.k 0)) ∧
  decodeWord 6 0x020EC6C2C4004000 0 = .ok (.spush d (mm .lg .a false false) 0 (.s 6) (.s 2) (.s 4)) ∧
  decodeWord 7 0x000E00C400003800 0 = .ok (.launch d .self (.s 4)) ∧
  decodeWord 8 0x0054031030000008 0 = .ok (.mma (hd 2) .t8 .lg false .reg .reg false true .rn none 3 (.v 16) (.v 48)) ∧
  decodeWord 8 0x030E050000000000 0 = .ok (.accz d 5) ∧
  decodeWord 9 0x030E00CCD4004200 0 = .ok (.rsend d .a true 0 (.s 12) (.s 20)) ∧
  decodeWord 10 0x011E00C402F14000 0 = .ok (.skins d .a .hhl false (.s 4) (.v 2) (.k 1)) ∧
  decodeWord 11 0x000EC60000000010 0 = .ok (.srr d 0x010 false (.s 6)) ∧
  decodeWord 11 0x0204000000000002 0 = .ok (.trap (hd 2) 2) ∧
  decodeWord 2 0x003E000000000000 0 = .error 1 ∧
  decodeWord 0 0x0F0EC2FD00000000 0 = .error 3 ∧
  decodeWord 2 0x020E191814000007 0 = .error 4 ∧
  decodeWord 5 0x00420028F000C000 0 = .error 4

/-! ## The step -/

namespace Sys2Proof.Spec

/-- A step whose agenda begins with a word of a thread that may issue it. -/
structure IssueStep (s : State) (u : Nat) (r : List Happening) (t : Thread) (c : Clause) : Prop where
  head : s.agenda = .issue u :: r
  thread : s.a.thread u = some t
  clause : t.clause = some c
  may : mayIssue s.a s.mem s.time t = true

end Sys2Proof.Spec

/-- R72, R245, R248, R260: a step takes the head of the agenda. A thread that issues reads its registers (`RegisterErrors` says what
that comes to) and runs the instruction that the word at its position decodes to, or takes the DECODE trap with its cause; a clause that a
save or a move left open is fetched again first, with SETA and SETB as they were bound; an uncorrectable granule that this meets is an ERROR
trap, taken at once (the model's choice, log 20) but pending in trap mode; a thread that does not issue does nothing; an event happens;
time passes. With nothing to do the machine takes in a round. The agenda is the model's (DESIGN CHOICE, log 7). -/
def Obligations.StepRuns : Prop :=
  ∀ (s : State),
    (∀ u r t c i n, IssueStep s u r t c → c.refetch = false → decodeAt c.hdr.cls c.hdr.safe c.words c.pos = .ok (i, n) →
      Machine.step s = settle t.uid (exec i
        ((State.readRegs { s with agenda := r, cur := none, a := s.a.setThread t } t c i).issuing t))) ∧
    (∀ u r t c e, IssueStep s u r t c → c.refetch = false → decodeAt c.hdr.cls c.hdr.safe c.words c.pos = .error e →
      Machine.step s = settle t.uid (.next (trapWord { s with agenda := r, cur := none, a := s.a.setThread t } t c (decodeBad e)))) ∧
    (∀ u r t c hd ws a, IssueStep s u r t c → c.refetch = true → fetchClause s.a s.mem s.time t c.lanes c.pc = .ok (hd, ws, a) →
      let c' : Clause := { c with hdr := { hd with seta := c.hdr.seta, setb := c.hdr.setb }, words := ws, refetch := false }
      let t' : Thread := { t with clause := some c' }
      let s' : State := { s with agenda := r, cur := none, a := a.setThread t' }
      (∀ i n, decodeAt hd.cls hd.safe ws c.pos = .ok (i, n) →
        Machine.step s = settle t.uid (exec i ((State.readRegs s' t' c' i).issuing t'))) ∧
      (∀ e, decodeAt hd.cls hd.safe ws c.pos = .error e →
        Machine.step s = settle t.uid (.next (trapWord s' t' c' (decodeBad e))))) ∧
    (∀ u r t c q a, IssueStep s u r t c → c.refetch = true → fetchClause s.a s.mem s.time t c.lanes c.pc = .error (.trap q a) →
      let x := takeTrap a s.time t q c.pc
      Machine.step s = .next ({ s with agenda := r, cur := none }.commit x.1 x.2)) ∧
    (∀ u r t c q fa a, IssueStep s u r t c → c.refetch = true → fetchClause s.a s.mem s.time t c.lanes c.pc = .error (.error q fa a) →
      let told := a.event s.time (faPkg fa) 7 t.ctx (faPlace fa).mem (fa / 64 * 64) t.eventId
      let x := takeTrap told s.time t q c.pc
      let again := ∃ p ∈ t.pend, p.trap.fetch = true ∧ p.trap.faddr = q.faddr
      let s' : State := { s with agenda := r, cur := none }
      (t.tm = false → Machine.step s = .next (s'.commit x.1 x.2)) ∧
      (t.tm = true → ¬ again → Machine.step s = .next (withA s' (told.pend t.uid q))) ∧
      (t.tm = true → again → Machine.step s = .next (withA s' a))) ∧
    (∀ u r t, s.agenda = .issue u :: r → s.a.thread u = some t → mayIssue s.a s.mem s.time t = false →
      Machine.step s = .next { s with agenda := r, cur := none }) ∧
    (∀ i r, s.agenda = .event i :: r → Machine.step s = exec i { s with agenda := r, cur := none }) ∧
    (∀ n r, s.agenda = .elapse n :: r → Machine.step s = .next (elapse n { s with agenda := r, cur := none })) ∧
    (s.agenda = [] → Machine.step s = .next { s with agenda := round s.a }) ∧
    (∀ n i c j hdr, decodeHeader (n % 2 ^ 64) = .ok hdr → tableClause n = (hdr.cls, hdr.safe, c) →
      decodeAt hdr.cls hdr.safe c 0 = .ok (i, j) → ∃ t, (State.reset.withFetchWord 128 n).a.thread State.reset.a.nextId = some t ∧
        Machine.step (State.reset.withFetchWord 128 n) =
          settle t.uid (exec i (State.issuing { State.reset.withFetchWord 128 n with
            agenda := [], cur := none, a := (State.reset.withFetchWord 128 n).a.setThread t } t)))

/-- No step stops: only an agenda that names a bare instruction word, which no thread issues, comes to a fault. The agenda (DESIGN CHOICE,
log 7) and the fault noIssuer (DESIGN CHOICE, log 11) are the model's: the spec's chapters say what threads do, not that there is such a
list. -/
def Obligations.StepGoesOn : Prop :=
  (∀ s : State, (∀ i r, s.agenda = .event i :: r → Machine.Instr.isWord i = false) → ∃ s', Machine.step s = .next s') ∧
  (∀ (s : State) (i : Instr) (r : List Happening), s.agenda = .event i :: r → Machine.Instr.isWord i = true →
    Machine.step s = .fault .noIssuer) ∧
  (∀ i : Instr, Machine.Instr.isWord i = i.encode.isSome)

/-- Every step keeps memory in its canonical form: addresses rise strictly, and no entry holds what an unlisted address reads as. -/
def Obligations.MemoryStaysCanonical : Prop :=
  ∀ s s' : State, s.Inv → Machine.step s = .next s' → s'.Inv

/-- R434: after reset nothing runs: every package waits for its boot, no port has a session, and there is no context, queue, thread or crew;
memory is in its canonical form. That memory is empty (DESIGN CHOICE, log 6) and that time counts from 0 (DESIGN CHOICE, log 2) are the
model's choice. -/
def Obligations.ResetState : Prop :=
  State.reset.Inv ∧ State.reset.time = 0 ∧ State.reset.cur = none ∧ State.reset.agenda = [] ∧ State.reset.mem = [] ∧
  (∀ p, (State.reset.a.pkg p).boot = .off ∧ (State.reset.a.pkg p).session0 = none ∧ (State.reset.a.pkg p).locked = false ∧
    ∀ x ∈ (State.reset.a.pkg p).ports, x.up = false ∧ x.session = none) ∧
  (∀ p c, State.reset.a.ctx p c = none) ∧ (∀ p q, State.reset.a.queue p q = none) ∧ (∀ u, State.reset.a.thread u = none) ∧
  (∀ k, State.reset.a.crew k = none)

/-! ## Words everywhere -/

/-- R26, R27, R206, R276: a word of the lane-group classes, and each other word that only a lane group executes, traps with LEVEL on a
sequencer; LAUNCH and JOIN trap with LEVEL in a lane group. SYND holds the class and the level. The words over a crew's streams are legal
at every level, but name a stream or channel of no crew on a sequencer: OPERAND, cause 3. -/
def Obligations.LevelTraps : Prop :=
  ∀ (s : State) (t : Thread) (c : Clause) (i : Instr) (e : Enc), Issues s t c → i.encode = some e →
    let trap : Out := .next (trapWord s t c
      { cls := .level, addr := 0, synd := e.cls + t.level.code * 256, mask := none, kind := 0, kinds := 0 })
    (t.level ≠ .lg → laneClass i → exec i s = trap) ∧
    (t.level ≠ .lg → (match i with
      | .ld .. | .st .. | .atom .. | .ldmeta .. | .stmeta .. | .frame .. | .claim .. | .migrate .. | .spawn .. | .fetchw .. | .grant .. | .revoke .. | .expect .. | .rsendv .. | .rfence .. | .rget ..
      | .rgetTk .. => True
      | _ => False) → exec i s = trap) ∧
    (t.level = .lg → (match i with | .launch .. | .launchGang .. | .join .. => True | _ => False) → exec i s = trap) ∧
    (t.level ≠ .lg → s.a.crew t.crew = none →
      let stop (q : Fin 4) : Out := .next (trapWord s t c
        { cls := .operand, addr := BitVec.ofNat 64 q.val, synd := 4 + 3 * 256, mask := none, kind := 0, kinds := 0 })
      (∀ h q a b, i = .qcfg h q a b → exec i s = stop q) ∧
      (∀ h m q d a b, i = .spush h m q d a b →
        firstBad [dstS 1 d, srcU64 1 a, srcU 2 b, (s.view t c h).selBad m.fsel, rightsOf s.a t] = none → exec i s = stop q) ∧
      (∀ h q a, i = .spop h q a → srcU 1 a = none → exec i s = stop q) ∧
      (∀ h m str q d, i = .wprd h m str q d → dstS 2 d = none → exec i s = stop q))

/-- R207, R208, R307: a vector or lane word (classes 1 to 3) changes its own thread only: it leaves every other thread, every table of the
machine, the time, the flags and the arrival and open bits, and, outside the record block of a trap, every byte of memory. Only a
trap in trap mode reports anything. -/
def Obligations.VectorWordFrame : Prop :=
  ∀ (s s' : State) (t : Thread) (c : Clause) (i : Instr), Issues s t c →
    (classOfWord i = some 1 ∨ classOfWord i = some 2 ∨ classOfWord i = some 3) → exec i s = .next s' →
    s'.time = s.time ∧ s'.agenda = s.agenda ∧ s'.cur = s.cur ∧
    { s'.a with threads := s.a.threads, pkgs := s.a.pkgs } = s.a ∧ (t.tm = false → s'.a.pkgs = s.a.pkgs) ∧
    (∀ u, u ≠ t.uid → s'.a.thread u = s.a.thread u) ∧
    (∃ t', s'.a.thread t.uid = some t' ∧ t'.regs.f = t.regs.f ∧ t'.regs.clear = t.regs.clear ∧ t'.regs.openBits = t.regs.openBits ∧
      t'.unit = t.unit ∧ t'.level = t.level ∧ t'.ctx = t.ctx ∧ t'.crew = t.crew ∧ t'.alloc = t.alloc) ∧
    ∀ x, (∀ b, blockAddr s.a t = some b → x < b ∨ b + 64 ≤ x) → mget s'.mem x = mget s.mem x

/-- R211, R259: p7 reads true in every lane and a write to it is ignored; another predicate takes the written lanes and keeps the others.
In trap mode s40 to s47 name the bank, and the registers below are unchanged. -/
def Obligations.HardWiredRegisters : Prop :=
  (∀ (t : Thread) (m v : Lanes), t.getP 7 = BitVec.allOnes 32 ∧ t.setP 7 m v = t) ∧
  (∀ (t : Thread) (k : Nat) (m v : Lanes) (l : Nat), k ≠ 7 → l < 32 → ((t.setP k m v).getP k).getLsbD l =
    if m.getLsbD l = true then v.getLsbD l else (t.getP k).getLsbD l) ∧
  (∀ (t : Thread) (k j : Nat) (m v : Lanes), j ≠ k → (t.setP k m v).getP j = t.getP j) ∧
  (∀ (t : Thread) (n : Nat) (v : W32), (t.setS n v).getS n = v ∧ ∀ j, j ≠ n → (t.setS n v).getS j = t.getS j) ∧
  (∀ (t : Thread) (n : Nat) (v : W32), t.tm = true → 40 ≤ n → (t.setS n v).regs = t.regs)

/-- R8: a value of several bytes lies in memory with its least significant byte at the lowest address, a read after a write gives what was
written, and every other byte is as it was. -/
def Obligations.MemoryBytes : Prop :=
  (∀ (m : Memory) (a n v : Nat), mnum (mputs m a (leBytes n v)) a n = v % 2 ^ (8 * n)) ∧
  (∀ (m : Memory) (a n v i : Nat), i < n → mget (mputs m a (leBytes n v)) (a + i) = BitVec.ofNat 8 (v / 2 ^ (8 * i))) ∧
  (∀ (m : Memory) (a n v x : Nat), x < a ∨ a + n ≤ x → mget (mputs m a (leBytes n v)) x = mget m x) ∧
  (∀ (m m' : Memory), Memory.wf m = true → Memory.wf m' = true → (∀ x, mget m x = mget m' x) → m = m')

/-- R432: a port keeps at most 256 REPORT datagrams unacknowledged; a report that finds the window full waits behind those that wait
already, and no report is lost. -/
def Obligations.ReportWindow : Prop :=
  ∀ (time : Nat) (p : Port) (r : Report), p.unacked.length ≤ 256 →
    let q := p.queue time r
    q.unacked.length ≤ 256 ∧ q.unacked.map (·.2.2) ++ q.waiting = p.unacked.map (·.2.2) ++ p.waiting ++ [r] ∧
    (q.waiting ≠ [] → q.session = none ∨ q.up = false ∨ q.unacked.length = 256) ∧
    q.lastSent = p.lastSent + (q.unacked.length - p.unacked.length) ∧ q.session = p.session ∧ q.up = p.up ∧ q.lastTaken = p.lastTaken

/-! ## Two rules stated whole -/

/-- R422: REVOKE clears the open bits of v[A] to v[A + CNT], EXPECT clears the arrival bits of v[A] to v[A + CNT] in the lanes that take
part; neither writes register contents, and both have taken effect when the wave stands at its next word. -/
def Obligations.RevokeAndExpect : Prop :=
  ∀ (s : State) (t : Thread) (c : Clause) (h : Hd) (cnt : Fin 8) (a : Opnd), Issues s t c → t.level = .lg →
    runBad (s.view t c h) 1 a (cnt.val + 1) 1 = none →
    let lo := (s.view t c h).vreg 1 a 0
    (taking s t c h = 0 → exec (.revoke h cnt a) s = .next (moved s t c h) ∧ exec (.expect h cnt a) s = .next (moved s t c h)) ∧
    (taking s t c h ≠ 0 → ∃ t', exec (.revoke h cnt a) s = .next (moved s t' c h) ∧
      { t' with regs := { t'.regs with openBits := t.regs.openBits } } = t ∧ t'.regs.v = t.regs.v ∧
      ∀ r, t'.isOpen r = (t.isOpen r && !decide (lo ≤ r ∧ r ≤ lo + cnt.val))) ∧
    (taking s t c h ≠ 0 → ∃ t', exec (.expect h cnt a) s = .next (moved s t' c h) ∧
      { t' with regs := { t'.regs with clear := t.regs.clear } } = t ∧ t'.regs.v = t.regs.v ∧
      ∀ r l, l < 32 → (t'.arrived r).getLsbD l =
        ((t.arrived r).getLsbD l && !(decide (lo ≤ r ∧ r ≤ lo + cnt.val) && (taking s t c h).getLsbD l)))

/-- R314: IAND, IOR, IXOR, INOT, ISHL, ISHR and ISRA of either variant write in each lane that takes part what the scalar operation of
R287 gives, with B of a shift read per lane as an unsigned 32-bit count; INOT uses D and A only, and C is zero in every form. -/
def Obligations.LaneLogic : Prop :=
  ∀ (s : State) (t : Thread) (c : Clause) (h : Hd) (w : Bool) (d a b : Opnd), Issues s t c → t.level = .lg →
    let n := wbits w
    let two (i : Instr) (wb : Bool) (op : Nat → Nat → Nat) : Prop :=
      VectorRule s t c h [fld 0 d w, fld 1 a w, fld 2 b wb] d w (fun l => op (src s t c h w 1 a l) (src s t c h wb 2 b l)) (exec i s) ∧
      ∃ e, i.encode = some e ∧ (unpack e.word).c = 0 ∧ (unpack e.word).b = b.code
    two (.iand h w d a b) w (fun x y => x &&& y) ∧ two (.ior h w d a b) w (fun x y => x ||| y) ∧
    two (.ixor h w d a b) w (fun x y => x ^^^ y) ∧
    two (.ishl h w d a b) false (fun x k => if k < n then x * 2 ^ k % 2 ^ n else 0) ∧
    two (.ishr h w d a b) false (fun x k => if k < n then x / 2 ^ k else 0) ∧
    two (.isra h w d a b) false (fun x k => if k < n then wrapTo n (signedOf n x / 2 ^ k) else if x < 2 ^ (n - 1) then 0 else 2 ^ n - 1) ∧
    VectorRule s t c h [fld 0 d w, fld 1 a w] d w (fun l => 2 ^ n - 1 - src s t c h w 1 a l) (exec (.inot h w d a) s) ∧
    ∃ e, (Instr.inot h w d a).encode = some e ∧ (unpack e.word).b = 0 ∧ (unpack e.word).c = 0

/-- R206, R209, R213, R218: where none of the registers that a word reads holds an error, reading them changes nothing. Each that does
is reported by UNCORRECTED and makes an ERROR trap pending, with the register number in ADDR, memory code 4 or 5 in SYND and the lanes
concerned in MASK, and then holds a free value and no error (DESIGN CHOICE, log 26). IMOV and SMOV read A in the lanes that take part
and have arrived. -/
def Sys2Proof.Spec.RegisterErrors : Prop :=
  ∀ (s : State) (t : Thread) (c : Clause) (i : Instr),
    let w := s.view t c (headOf (c.words.getD c.pos 0))
    (t.regs.badV = [] → t.regs.badS = [] → s.readRegs t c i = s) ∧ (w.regErrors i = [] → s.readRegs t c i = s) ∧
    (∀ x, w.regErrors i = [x] → s.a.thread t.uid = some t → ∃ t', s.readRegs t c i = withA s
        (({ s.a.event s.time t.unit.pkg 7 t.ctx (if x.vec = true then 4 else 5) 0 t.eventId with free := s.a.free + 128 } : Arch).setThread t') ∧
      { t' with regs := t.regs, bank := t.bank, pend := t.pend } = t ∧
      { t'.regs with v := t.regs.v, s := t.regs.s, badV := t.regs.badV, badS := t.regs.badS } = t.regs ∧
      (∀ r l, l < 32 → (x.vec = true ∧ r = x.reg ∧ x.lanes.getLsbD l = true) ∨ t'.getV r l = t.getV r l) ∧
      (∀ n, (x.vec = false ∧ n = x.reg) ∨ t'.getS n = t.getS n) ∧
      (x.vec = true → MarksLeft t t'.regs.badV (fun r l => r = x.reg ∧ x.lanes.getLsbD l = true)) ∧
      (x.vec = true → t'.regs.badS = t.regs.badS) ∧ (x.vec = false → t'.regs.badV = t.regs.badV) ∧
      (x.vec = false → ¬ (t.tm = true ∧ 40 ≤ x.reg) → ∀ n, n ∈ t'.regs.badS ↔ n ∈ t.regs.badS ∧ n ≠ x.reg) ∧
      ∃ q, t'.pend = t.pend ++ [{ trap := q }] ∧ q.cls = .error ∧ q.mask = x.lanes ∧ q.addr = BitVec.ofNat 64 x.reg ∧
        q.synd = (if x.vec = true then 4 else 5) ∧ q.pc = c.va c.pos ∧ q.opidx = c.pos) ∧
    (∀ h d (r : Fin 192), let m := Lanes.ofPred (fun l => t.regs.badV.contains (vkey r.val l)) &&& w.part &&& t.arrived r.val
      w.regErrors (.imov h false d (.v r)) = if m = 0 then [] else [{ vec := true, reg := r.val, lanes := m }]) ∧
    (∀ h d (r : Fin 48), w.regErrors (.smov h false d (.s r)) =
      if r.val ∈ t.regs.badS ∧ ¬ (t.tm = true ∧ 40 ≤ r.val) ∧ w.part ≠ 0 then [{ vec := false, reg := r.val, lanes := w.part }] else [])

namespace Sys2Proof.Spec

/-- The word completes: its thread goes on, having changed nothing but the vector registers that destination D of `n` registers names in
the lanes that take part, and the flags and counters of the float words. -/
def FloatCompletes (s : State) (t : Thread) (c : Clause) (h : Hd) (d : Opnd) (n : Nat) (out : Out) : Prop :=
  ∃ t', out = .next (moved s t' c h) ∧ { t' with regs := t.regs, sr := t.sr } = t ∧
    { t'.regs with v := t.regs.v, badV := t.regs.badV } = t.regs ∧ (∀ k ∈ t'.regs.badV, k ∈ t.regs.badV) ∧
    { t'.sr with fpstat := t.sr.fpstat, srctr0 := t.sr.srctr0, srctr1 := t.sr.srctr1 } = t.sr ∧
    ∀ r l, l < 32 → ((taking s t c h).getLsbD l = false ∨ r < (s.view t c h).vreg 0 d l ∨ (s.view t c h).vreg 0 d l + n ≤ r) →
      t'.getV r l = t.getV r l

end Sys2Proof.Spec

/-! ## Completion -/

/-- R307, R309, R326, R329 to R331: FRCP, FRSQ, FEXP2, FLOG2, FSIN, FCOS, FTANH, FCVT, NENC and NDEC complete in a lane group whenever
their operand checks pass and their sources have arrived. -/
def Sys2Proof.Spec.ConversionsComplete : Prop :=
  ∀ (s : State) (t : Thread) (c : Clause) (h : Hd) (rm : RM) (d a b : Opnd), Issues s t c → t.level = .lg →
    let w := s.view t c h
    (vecBad w [fld 0 d false, fld 1 a false] = none → w.arrived [fld 1 a false] = true →
      FloatCompletes s t c h d 1 (exec (.frcp h rm d a) s) ∧ FloatCompletes s t c h d 1 (exec (.frsq h rm d a) s) ∧
      FloatCompletes s t c h d 1 (exec (.fexp2 h rm d a) s) ∧ FloatCompletes s t c h d 1 (exec (.flog2 h rm d a) s) ∧
      FloatCompletes s t c h d 1 (exec (.fsin h rm d a) s) ∧ FloatCompletes s t c h d 1 (exec (.fcos h rm d a) s) ∧
      FloatCompletes s t c h d 1 (exec (.ftanh h rm d a) s)) ∧
    (∀ dst sr pos sat, let old : VF := { fld 0 d (EF.isPair dst) with dst := false }
      vecBad w [fld 0 d (EF.isPair dst), old, fld 1 a (EF.isPair sr)] = none → w.arrived [old, fld 1 a (EF.isPair sr)] = true →
      FloatCompletes s t c h d (if EF.isPair dst = true then 2 else 1) (exec (.fcvt h dst sr pos sat rm d a) s)) ∧
    (∀ e, (fld 0 d (EF.isPair e)).bad w = none → runBad w 1 a e.count 1 = none → vecBad w [fld 0 d (EF.isPair e), fld 2 b false] = none →
      formatBad w e b = none → w.runArrived (regNo a) e.count (taking s t c h) = true → w.arrived [fld 2 b false] = true →
      FloatCompletes s t c h d (if EF.isPair e = true then 2 else 1) (exec (.nenc h e rm d a b) s)) ∧
    (∀ e, runBad w 0 d e.count 1 = none → vecBad w [fld 1 a (EF.isPair e), fld 2 b false] = none → formatBad w e b = none →
      w.arrived [fld 1 a (EF.isPair e), fld 2 b false] = true → FloatCompletes s t c h d e.count (exec (.ndec h e rm d a b) s))

/-- R42, R65, R69, R375, R380, R381: REDUCE, SPAWN and FETCHW complete: the wave or frame goes on and the contribution, the records and
the request stand. -/
def Sys2Proof.Spec.WorkWordsComplete : Prop :=
  ∀ (s : State) (t : Thread) (c : Clause) (h : Hd), Issues s t c → taking s t c h ≠ 0 →
    let w := s.view t c h
    (∀ m ty op d a b e, firstBad [w.selBad m.fsel, dstS 1 d, srcU64 1 a, srcU64 2 b, srcU 3 e] = none →
      let l := s.a.resolve t m.lvl
      let n := redBytes ty (w.rs e).toNat
      t.level.code ≤ l.code → l.code ≤ (s.a.rootLevel t).code → (w.rs64 a).toNat % redAlign ty = 0 →
      redDstBad w ty l (w.rs64 b).toNat n = none → n % 16 = 0 → 16 ≤ n → n ≤ 2 ^ 28 → w.flagFull m.fsel = false →
      fenceWaitPath s.a t false = false → ∃ a' k, exec (.reduce h m ty op d a b e) s = .next (past s a' t c h) ∧
        { a' with threads := s.a.threads, reds := s.a.reds, nextId := s.a.nextId } = s.a ∧
        (∃ r ∈ tvals a'.reds, k ∈ r.contribs) ∧ k.uid = t.uid ∧ k.addr = (w.rs64 a).toNat ∧ k.dst = (w.rs64 b).toNat ∧ k.arrived = false) ∧
    (∀ a b k, t.level = .lg → srcU64 1 a = none → runBad w 2 b 16 1 = none → (w.rs64 a).toNat % 8 = 0 → s.a.crew t.crew = some k →
      ownPending s.a t.uid = false → t.wait = none → w.runArrived (w.vreg 2 b 0) 16 (taking s t c h) = true →
      let r := placeLanes w k (w.rs64 a).toNat (w.vreg 2 b 0) (Lanes.toList (taking s t c h)) (releaseAt s.a t .core)
      r.2 = [] → exec (.spawn h a b) s = .next (past s r.1 t c h)) ∧
    (∀ f o k j, t.level = .lg → srcU 1 o = none → w.selBad f = none → w.sel f = some j → s.a.crew t.crew = some k →
      let off := (w.rs o).toNat
      let fa := spadAddr k.pkg k.core + off
      off % 64 = 0 → k.base ≤ off → off + 64 ≤ k.base + k.size → (∀ r ∈ tvals s.a.fetches, r.mailbox ≠ fa) → w.flagFull f = false →
      fenceWait s.a t true = false → behalfWaits s.a fa = false → ∃ (a' : Arch) (r : Fetch),
      exec (.fetchw h f o) s = .next (s.commit (a'.modThread t.uid (fun x => advance x c h.size)) [(fa, [0, 0, 0, 0])]) ∧
        r ∈ tvals a'.fetches ∧ r.uid = t.uid ∧ r.mailbox = fa ∧ r.flag = j ∧ r.core = k.core)

/-- R23, R30, R31, R43, R49, R60, R65, R66, R69, R76, R80, R110, R221, R233: the events about waves, crews, punnets, work and saves, and
the commands about contexts on cores, take their effect. That a crew of a context that a pre-emption holds on the core does not stand in
the order of R30 meanwhile (DESIGN CHOICE, log 78), and how the watchdog reports a frame (DEDUCED, log 90), are the model's. -/
def Sys2Proof.Spec.WorkEventsComplete : Prop :=
  (∀ (s : State) (n m : Nat) (r : Red) (k f : Contrib) (ps : List (Place1 × Nat)) (e : EF), tget s.a.reds n = some r → r.id = n →
    r.fin = false → r.contribs[m]? = some k → k.arrived = false → k.faulted = false → k.acq = false → r.first = some f →
    k.differs f = false → k.ty = .ef e → r.acc ≠ [] →
    resolveRange s.a s.mem s.time k.id k.ag (.va k.ag k.addr) .rd (redBytes k.ty k.count) none = .ok ps →
    (∃ j y, r.contribs[j]? = some y ∧ j ≠ m ∧ y.arrived = false) → ∃ r',
    exec (.reduceContributionArrival n m) s = .next (withA s { dropEarly s.a k.id with reds := tset s.a.reds n r' }) ∧
      r'.contribs = r.contribs.set m { k with arrived := true }) ∧
  (∀ (s : State) (n : Nat) (r : Fetch) (k : Crew), tget s.a.fetches n = some r → r.id = n → s.a.crew r.crew = some k → k.out = false →
    r.chosen = none → heldTile s.a r = none → ∃ ws, exec (.fetchwReply n) s =
      .next (s.commit ({ s.a with fetches := tdel s.a.fetches n }.lowerFlag r.uid (some r.flag) r.tm) ws) ∧
      mnum (mwrites s.mem ws) r.mailbox 4 = 2) ∧
  (∀ (s : State) (u : Nat) (t : Thread) (pkg b core slot : Nat), s.a.thread u = some t → t.uid = u → t.mig = some (pkg, b) →
    t.going = some (core, slot) → moveHeld s.a t pkg b = false →
    (∀ e, tget s.a.locs (locKey t.waveid) = some e → e.queue = []) → ∃ a' t',
    exec (.migrationArrival u) s = .next (withA s a') ∧ a'.thread u = some t' ∧
      t'.unit = { level := .core, pkg := pkg, idx := core } ∧ t'.slot = slot ∧ t'.regs = t.regs) ∧
  (∀ (s : State) (core : Nat) (k : Crew) (slots : List Nat) (num base : Nat),
    nextCrew s.a ((waitingCrews s.a (core / 192) (core % 192)).filter (fun c => !draining s.a c.pkg c.core c.ctx)) = some k →
    crewFit s.a k = some (slots, num, base) → berthStill s.a (core / 192) (core % 192 / 48) = false → ∃ a' k', exec (.crewStart core) s = .next (withA s a') ∧ a'.crew k.id = some k' ∧
      k'.started = true ∧ k'.base = base ∧ k'.num = num ∧ k'.live = slots.length) ∧
  (∀ (s : State) (u : Nat) (t : Thread), s.a.thread u = some t → t.uid = u → t.level = .lg → t.front = [] → t.clause = none →
    t.tm = false → t.regs.f = [] → ownPending s.a u = false → threadStill s.a t = false → (∀ o ∈ tvals s.a.slice, o.uid ≠ u) →
    (∀ l ∈ tvals s.a.landings, l.uid ≠ u) → ∃ a', exec (.waveRetire u) s = .next (withA s a') ∧ a'.thread u = none) ∧
  (∀ (s : State) (n : Nat) (k : Crew), s.a.crew n = some k → k.started = true → k.live = 0 → crewPunnets s.a k = false →
    crewCmds s.a k = false → (∀ o ∈ tvals s.a.ops, o.ag.crew ≠ some n) →
    exec (.crewRetire n) s = .next (withA s { s.a with crews := tdel s.a.crews n })) ∧
  (∀ (s : State) (core n : Nat) (k : Crew), let p := punnetAt s.a (core / 192) (core % 192) n
    s.a.crew p.crew = some k → draining s.a (core / 192) (core % 192) k.ctx = false →
    (p.state = .filling → p.deadline ≤ (s.a.berth (core / 192) (core % 192 / 48)).cycles → exec (.punnetTimeout core n) s =
      .next (withA s { s.a with punnets := tset s.a.punnets (punnetKey (core / 192) (core % 192) n) { p with state := .ready } })) ∧
    (∀ slot rest w, p.state = .ready → k.out = false → freeSlots s.a (core / 192) (core % 192) = slot :: rest →
      freeWnum s.a k.id = some w → k.live < 32 → slotsUsed s.a (core / 192) (core % 192) k.ctx < slotCap s.a (core / 192) (core % 192) k.ctx →
      regsUsed s.a (core / 192) (core % 192) + p.alloc ≤ 3072 → k.id = p.crew →
      berthStill s.a (core / 192) (core % 192 / 48) = false → ∃ a' x, exec (.punnetLaunch core n) s = .next (withA s a') ∧
        a'.thread s.a.nextId = some x ∧ x.slot = slot ∧ x.role = 3 ∧ x.alloc = p.alloc ∧
        a'.punnets = tdel s.a.punnets (punnetKey (core / 192) (core % 192) n))) ∧
  (∀ (s : State) (n u : Nat) (p : Pre) (t : Thread), tget s.a.pres n = some p → s.a.thread u = some t → p.watches t = true →
    p.began + 20000 ≤ s.time → u ∉ p.reported → atSafePoint s.a s.mem s.time t = false →
    exec (.safePointOverrun n u) s = .next (withA s (({ s.a with pres := tset s.a.pres n { p with reported := p.reported ++ [u] } }).event
      s.time p.pkg 3 p.ctx 0 t.eventId (nextPc s.a s.mem s.time t)))) ∧
  (∀ (s : State) (n core : Nat) (p : Pre) (g : Image), tget s.a.pres n = some p → imageOf s.a p.pkg core p.ctx = some g →
    core ∈ p.cores → core ∉ p.saved → ctxWaves s.a p.pkg core p.ctx = [] → ctxCrews s.a p.pkg core p.ctx = [] →
    (s.a.berth p.pkg (core / 48)).relock = none → crewBusy s.a p.pkg core p.ctx = false →
    (p.resume = false → g.out = false → core ∈ p.busy → ∃ s', exec (.preemptSave n core) s = .next s' ∧
      isOut s'.a p.pkg core p.ctx = true ∧ (2 ≤ g.room → mnum s'.mem (imageAddr s.a g) 2 = 1)) ∧
    (p.resume = true → g.out = true → g.bad = false → g.waves = [] → g.crews = [] → imageBad s.a g = [] →
      restoreFits s.a p.pkg core p.ctx = true → core ∈ p.busy → ∃ s',
      exec (.restoreComplete n core) s = .next s' ∧ isOut s'.a p.pkg core p.ctx = false)) ∧
  (∀ (s : State) (p n q : Nat) (k : Queue) (c : QCmd),
    let ctx := c.num 32 2
    let ks := namedCores c
    (Begun s 0x45 p n q k c → dirty c.bytes 34 40 = false → s.a.ctx p ctx ≠ none → imaged s p ctx ks →
      (∃ j ∈ ks, isOut s.a p j ctx = false) → ∃ a' x, exec (.preempt p n) s = .next (withA s a') ∧ tget a'.pres s.a.nextId = some x ∧
        x.resume = false ∧ x.cores = ks ∧ x.ctx = ctx) ∧
    (Begun s 0x46 p n q k c → dirty c.bytes 34 40 = false → s.a.ctx p ctx ≠ none → (∃ j ∈ ks, isOut s.a p j ctx = true) →
      ∃ a' x, exec (.resume p n) s = .next (withA s a') ∧ tget a'.pres s.a.nextId = some x ∧ x.resume = true ∧ x.ctx = ctx) ∧
    (Begun s 0x47 p n q k c → ctx ≠ c.num 34 2 → dirty c.bytes 38 40 = false → s.a.ctx p ctx ≠ none → s.a.ctx p (c.num 34 2) ≠ none →
      c.num 36 1 + c.num 37 1 ≤ 48 → imaged s p ctx ks → imaged s p (c.num 34 2) ks → ∃ ps,
        Closes s p q c { s.a with pairs := ps } .ok 0 (exec (.pairDeclare p n) s)) ∧
    (Begun s 0x50 p n q k c → c.num 32 1 ≤ 3 → dirty c.bytes 33 34 = false → c.num 34 2 ≤ 256 → dirty c.bytes 36 48 = false →
      (∀ g ∈ s.a.images, g.pkg = p → g.core / 48 = c.num 32 1 → g.out = false ∧ g.offset + g.room ≤ c.num 34 2 * 0x100000) →
      Closes s p q c (s.a.setBerth p (c.num 32 1) { s.a.berth p (c.num 32 1) with area := c.num 34 2 }) .ok 0 (exec (.areaSet p n) s)))

/-! ## Statements made of the parts above -/

/-- R53, R332 to R337: VOTE, SHFL, the scans and reductions over lanes, and PARTSET and PARTGET. -/
def Obligations.LaneExchangeWords : Prop := Sys2Proof.Spec.VoteWords ∧ Sys2Proof.Spec.ShuffleWord ∧ Sys2Proof.Spec.ScanReduceWords ∧ Sys2Proof.Spec.PartWords

/-- R248, R291 to R296: the words that end a clause: BR, BRX, CALL, RET, LOOP, YIELD and EXIT; and NOP and LIVE. -/
def Obligations.ControlWords : Prop := Sys2Proof.Spec.BranchWords ∧ Sys2Proof.Spec.ExitWord

/-- R297 to R304: SRR reads and SRW writes each special register; PRIOSET sets the priority of an entry, and IFLUSH drops cached words. -/
def Obligations.SpecialRegisterWords : Prop := Sys2Proof.Spec.SpecialRegisterReads ∧ Sys2Proof.Spec.SpecialRegisterWrites ∧ Sys2Proof.Spec.PriorityAndFlushWords

/-- R211 to R215, R206: TRAP raises its trap; what taking a trap saves and where it goes; a trap in trap mode halts the thread; and a
register file error that a word meets becomes a pending trap. -/
def Obligations.TrapEntry : Prop :=
  Sys2Proof.Spec.TrapWord ∧ Sys2Proof.Spec.TrapIsTaken ∧ Sys2Proof.Spec.DoubleTrap ∧ Sys2Proof.Spec.RegisterErrors

/-- FRAME, FENCE, FLUSH, CLAIM and MIGRATE: what orders, places and moves. -/
def Obligations.MemoryPlaceWords : Prop := Sys2Proof.Spec.FrameWord ∧ Sys2Proof.Spec.ScopeAndPlaceWords

/-- COPY, SPUSH, SPOP, QCFG, WPRD and ACOPY: what each gives to the copy engine or takes from a stream. -/
def Obligations.CopyWords : Prop := Sys2Proof.Spec.CopyStreamWords ∧ Sys2Proof.Spec.AcopyWord ∧ Sys2Proof.Spec.MulticastCopyWords

/-- JOIN and BAR: who waits, and who goes on. -/
def Obligations.HierarchyWaitWords : Prop := Sys2Proof.Spec.JoinWord ∧ Sys2Proof.Spec.BarWord

/-- SPAWN and FETCHW: records for punnets, and requests for work. -/
def Obligations.SpawnFetchWords : Prop := Sys2Proof.Spec.PlacesRecord ∧ Sys2Proof.Spec.SpawnWord ∧ Sys2Proof.Spec.FetchWorkWord

/-- LAUNCH of frames and of crews. -/
def Obligations.LaunchWords : Prop := Sys2Proof.Spec.LaunchFrames ∧ Sys2Proof.Spec.LaunchCrew

/-- The matrix slice performs its queued words, first to last, and accumulator registers move. -/
def Obligations.SlicePerforms : Prop := Sys2Proof.Spec.SliceSteps ∧ Sys2Proof.Spec.AccumulatorMoves

/-- SPEC, TREEMASK and KVCOMMIT. -/
def Obligations.SpeculationCommitWords : Prop := Sys2Proof.Spec.SpeculationWords ∧ Sys2Proof.Spec.KvCommit

/-- GRANT, REVOKE, EXPECT, RGET, RSEND, RSENDV and RFENCE. -/
def Obligations.FabricRegisterWords : Prop := Sys2Proof.Spec.GrantWords ∧ Sys2Proof.Spec.SendWords ∧ Sys2Proof.Spec.RegisterSends

/-- Requests of an access are performed; a load that has all its bytes lands; and cached translations age. -/
def Obligations.MemoryRequests : Prop := Sys2Proof.Spec.RequestsPerform ∧ Sys2Proof.Spec.LoadLands ∧ Sys2Proof.Spec.TranslationsAge

/-- The engines finish their commands, and streams admit and release. -/
def Obligations.EngineSteps : Prop := Sys2Proof.Spec.EngineCommands ∧ Sys2Proof.Spec.StreamSteps ∧ Sys2Proof.Spec.ClaimSteps

/-- Frames become active, tiles are placed, and threads that wait too long are promoted. -/
def Obligations.SequencerSteps : Prop := Sys2Proof.Spec.FrameSteps ∧ Sys2Proof.Spec.Promotions

/-- Crews start whole, and punnets time out and launch. -/
def Obligations.CrewSteps : Prop := Sys2Proof.Spec.CrewStarts ∧ Sys2Proof.Spec.PunnetSteps ∧ Sys2Proof.Spec.Retirement

/-- A fetch-work reply and a migrating wave arrive. -/
def Obligations.WorkArrivals : Prop := Sys2Proof.Spec.FetchWorkReply ∧ Sys2Proof.Spec.Migrations

/-- REDUCE issues a contribution, and the unit gathers them. -/
def Obligations.Reductions : Prop := Sys2Proof.Spec.ReduceWord ∧ Sys2Proof.Spec.ReduceSteps

/-- The commands about contexts, the end of an abort, and the tag keys. -/
def Obligations.Contexts : Prop := Sys2Proof.Spec.ContextCommands ∧ Sys2Proof.Spec.ContextEvents

/-- QUEUE_CREATE, QUEUE_DESTROY, POOL_SET, EVT_CFG and RETRY. -/
def Obligations.ManagementCommands : Prop := Sys2Proof.Spec.QueueManagement ∧ Sys2Proof.Spec.PackageCommands

/-- The summary words issue, and the summary unit completes them. -/
def Obligations.Summaries : Prop := Sys2Proof.Spec.SummaryWords ∧ Sys2Proof.Spec.SummaryCompletes

/-- PREEMPT, RESUME, the resident pairs, the context areas, the save and the restore. -/
def Obligations.Preemption : Prop := Sys2Proof.Spec.PreemptCommands ∧ Sys2Proof.Spec.PreemptSteps

/-- The power-on reset and the attestation exchange. -/
def Obligations.BootAndAttestation : Prop := Sys2Proof.Spec.PowerOnReset ∧ Sys2Proof.Spec.Attestation

/-- The order of the queues, completions, and LAUNCH, WRITE, COPY and QWAIT. -/
def Obligations.QueueCommands : Prop := Sys2Proof.Spec.QueueOrder ∧ Sys2Proof.Spec.QueueWork

/-- The special functions and the conversions between formats. -/
def Obligations.SpecialFunctionWords : Prop := Sys2Proof.Spec.TranscendentalWords ∧ Sys2Proof.Spec.ConversionWords

/-- The lanewise logic and shift words, the index and predicate words, and PHILOX. -/
def Obligations.LogicPredicateWords : Prop := Sys2Proof.Spec.VectorLogicWords ∧ Sys2Proof.Spec.IndexPredicatePhiloxWords

/-- Words and events whose completion stands by itself: the conversions, REDUCE, SPAWN and FETCHW, and the events and commands about work
and saves. -/
def Obligations.EffectsComplete : Prop := Sys2Proof.Spec.ConversionsComplete ∧ Sys2Proof.Spec.WorkWordsComplete ∧ Sys2Proof.Spec.WorkEventsComplete
end

