-- ==== Sys2Proof/Laws/Tab.lean ====
section
/-! SUPPORT. Tables and memory: what a read gives after a write, what a write leaves alone, and that every memory operation keeps
the canonical form. -/

namespace Sys2Proof.Machine

/-! ## Tables -/

section
variable {α : Type}

@[simp] theorem tget_nil (k : Nat) : tget ([] : Tab α) k = none := rfl

@[simp] theorem tget_cons (k' : Nat) (v : α) (r : Tab α) (k : Nat) : tget ((k', v) :: r) k = if k' = k then some v else tget r k := rfl

@[simp] theorem tget_tset_same (t : Tab α) (k : Nat) (v : α) : tget (tset t k v) k = some v := by
  induction t with
  | nil => simp [tset]
  | cons p r ih =>
    obtain ⟨k', v'⟩ := p
    unfold tset
    split
    · simp
    · split
      · simp
      · have : ¬ k' = k := by omega
        simp [this, ih]

theorem tget_tset_ne (t : Tab α) {k j : Nat} (v : α) (h : j ≠ k) : tget (tset t k v) j = tget t j := by
  induction t with
  | nil => simp [tset, h.symm]
  | cons p r ih =>
    obtain ⟨k', v'⟩ := p
    unfold tset
    split
    · simp [h.symm]
    · split
      · next e => subst e; simp [h.symm]
      · simp [ih]

theorem tget_tset (t : Tab α) (k j : Nat) (v : α) : tget (tset t k v) j = if j = k then some v else tget t j := by
  by_cases h : j = k
  · subst h; simp
  · simp [h, tget_tset_ne t v h]

@[simp] theorem tget_tdel_same (t : Tab α) (k : Nat) : tget (tdel t k) k = none := by
  induction t with
  | nil => rfl
  | cons p r ih =>
    obtain ⟨k', v'⟩ := p
    unfold tdel
    split
    · exact ih
    · next h => simp [h, ih]

theorem tget_tdel_ne (t : Tab α) {k j : Nat} (h : j ≠ k) : tget (tdel t k) j = tget t j := by
  induction t with
  | nil => rfl
  | cons p r ih =>
    obtain ⟨k', v'⟩ := p
    unfold tdel
    split
    · next e => subst e; simp [h.symm, ih]
    · simp [ih]

@[simp] theorem tget_tmod_same (t : Tab α) (k : Nat) (f : α → α) : tget (tmod t k f) k = (tget t k).map f := by
  unfold tmod
  cases h : tget t k <;> simp [h]

theorem tget_tmod_ne (t : Tab α) {k j : Nat} (f : α → α) (h : j ≠ k) : tget (tmod t k f) j = tget t j := by
  unfold tmod
  cases tget t k with
  | none => rfl
  | some v => exact tget_tset_ne t (f v) h

@[simp] theorem tgetD_tset_same (t : Tab α) (k : Nat) (v d : α) : tgetD (tset t k v) k d = v := by simp [tgetD]

theorem tgetD_tset_ne (t : Tab α) {k j : Nat} (v d : α) (h : j ≠ k) : tgetD (tset t k v) j d = tgetD t j d := by
  simp [tgetD, tget_tset_ne t v h]

/-- Writing a key twice leaves the second value. -/
theorem tset_tset (t : Tab α) (k : Nat) (v w : α) : tset (tset t k v) k w = tset t k w := by
  induction t with
  | nil => simp [tset]
  | cons p r ih =>
    obtain ⟨k', v'⟩ := p
    by_cases h1 : k < k'
    · simp [tset, h1]
    · by_cases h2 : k = k'
      · subst h2; simp [tset]
      · simp [tset, h1, h2, ih]

end

/-! ## Memory -/

/-- Every address of a memory is above a bound, and the memory is in its canonical form. -/
def memAbove (b : Nat) : Memory → Prop
  | [] => True
  | c :: r => b ≤ c.1 ∧ c.2 ≠ 0 ∧ memAbove (c.1 + 1) r

theorem memAbove_mono {b c : Nat} (h : b ≤ c) : ∀ m : Memory, memAbove c m → memAbove b m
  | [], _ => trivial
  | _ :: _, ⟨h1, h2⟩ => ⟨Nat.le_trans h h1, h2⟩

theorem wf_iff_memAbove (m : Memory) : Memory.wf m = true ↔ memAbove 0 m := by
  have key : ∀ (m : Memory) (c : Host.Cell), Memory.wf (c :: m) = true ↔ c.2 ≠ 0 ∧ memAbove (c.1 + 1) m := by
    intro m
    induction m with
    | nil => intro c; simp [Memory.wf, memAbove]
    | cons d r ih =>
      intro c
      have h := ih d
      simp only [Memory.wf, Bool.and_eq_true, Bool.not_eq_true', decide_eq_false_iff_not, decide_eq_true_eq, memAbove] at h ⊢
      rw [h]
      constructor
      · rintro ⟨⟨h1, h2⟩, h3, h4⟩; exact ⟨h1, h2, h3, h4⟩
      · rintro ⟨h1, h2, h3, h4⟩; exact ⟨⟨h1, h2⟩, h3, h4⟩
  cases m with
  | nil => simp [Memory.wf, memAbove]
  | cons c r => simp [key, memAbove]

theorem memAbove_tset {b k : Nat} {v : Byte} (hk : b ≤ k) (hv : v ≠ 0) : ∀ m : Memory, memAbove b m → memAbove b (tset m k v) := by
  intro m
  induction m generalizing b with
  | nil => intro _; exact ⟨hk, hv, trivial⟩
  | cons c r ih =>
    rintro ⟨h1, h2, h3⟩
    obtain ⟨a, x⟩ := c
    unfold tset
    split
    · next h => exact ⟨hk, hv, h, h2, h3⟩
    · split
      · next h => subst h; exact ⟨h1, hv, h3⟩
      · next h h' => exact ⟨h1, h2, ih (Nat.lt_of_le_of_ne (Nat.le_of_not_lt h) (Ne.symm h')) h3⟩

theorem memAbove_tdel {b k : Nat} : ∀ m : Memory, memAbove b m → memAbove b (tdel m k) := by
  intro m
  induction m generalizing b with
  | nil => intro h; exact h
  | cons c r ih =>
    rintro ⟨h1, h2, h3⟩
    obtain ⟨a, x⟩ := c
    unfold tdel
    split
    · exact ih (memAbove_mono (Nat.le_succ_of_le h1) _ h3)
    · exact ⟨h1, h2, ih h3⟩

/-- Writing one byte keeps the canonical form. -/
theorem mput_wf (m : Memory) (a : Nat) (b : Byte) (h : Memory.wf m = true) : Memory.wf (mput m a b) = true := by
  rw [wf_iff_memAbove] at h ⊢
  unfold mput
  split
  · exact memAbove_tdel m h
  · next hb => exact memAbove_tset (Nat.zero_le a) hb m h

/-- Writing a run of bytes keeps the canonical form. -/
theorem mputs_wf (bs : List Byte) : ∀ (m : Memory) (a : Nat), Memory.wf m = true → Memory.wf (mputs m a bs) = true := by
  induction bs with
  | nil => intro m a h; exact h
  | cons b r ih => intro m a h; exact ih _ _ (mput_wf m a b h)

/-- Writing every run keeps the canonical form. -/
theorem mwrites_wf (ws : Writes) : ∀ m : Memory, Memory.wf m = true → Memory.wf (mwrites m ws) = true := by
  induction ws with
  | nil => intro m h; exact h
  | cons w r ih => intro m h; exact ih _ (mputs_wf w.2 m w.1 h)

/-- A byte reads as written. -/
@[simp] theorem mget_mput_same (m : Memory) (a : Nat) (b : Byte) : mget (mput m a b) a = b := by
  unfold mget mput tgetD
  split
  · next h => simp [h]
  · simp

/-- Other bytes read as before. -/
theorem mget_mput_ne (m : Memory) {a c : Nat} (b : Byte) (h : c ≠ a) : mget (mput m a b) c = mget m c := by
  unfold mget mput tgetD
  split
  · rw [tget_tdel_ne m h]
  · rw [tget_tset_ne m b h]

/-- A run leaves every byte outside it. -/
theorem mget_mputs_out (bs : List Byte) : ∀ (m : Memory) (a c : Nat), (c < a ∨ a + bs.length ≤ c) → mget (mputs m a bs) c = mget m c := by
  induction bs with
  | nil => intro m a c _; rfl
  | cons b r ih =>
    intro m a c h
    simp only [List.length_cons] at h
    have h1 : c ≠ a := by omega
    have h2 : c < a + 1 ∨ a + 1 + r.length ≤ c := by omega
    exact (ih (mput m a b) (a + 1) c h2).trans (mget_mput_ne m b h1)

/-- A run reads as written. -/
theorem mget_mputs_in (bs : List Byte) : ∀ (m : Memory) (a i : Nat), (h : i < bs.length) → mget (mputs m a bs) (a + i) = bs[i] := by
  induction bs with
  | nil => intro m a i h; exact absurd h (Nat.not_lt_zero i)
  | cons b r ih =>
    intro m a i h
    cases i with
    | zero => exact (mget_mputs_out r (mput m a b) (a + 1) a (Or.inl (Nat.lt_succ_self a))).trans (mget_mput_same m a b)
    | succ j =>
      have hj : j < r.length := Nat.lt_of_succ_lt_succ h
      rw [show a + (j + 1) = a + 1 + j by omega]
      exact ih (mput m a b) (a + 1) j hj

/-- Whether a byte lies in one of the runs written. -/
def inWrites (ws : Writes) (c : Nat) : Bool := ws.any (fun w => decide (w.1 ≤ c) && decide (c < w.1 + w.2.length))

/-- Runs leave every byte outside them. -/
theorem mget_mwrites_out (ws : Writes) : ∀ (m : Memory) (c : Nat), inWrites ws c = false → mget (mwrites m ws) c = mget m c := by
  induction ws with
  | nil => intro m c _; rfl
  | cons w r ih =>
    intro m c h
    simp only [inWrites, List.any_cons, Bool.or_eq_false_iff] at h
    have h1 : c < w.1 ∨ w.1 + w.2.length ≤ c := by
      have := h.1
      simp only [Bool.and_eq_false_iff, decide_eq_false_iff_not] at this
      omega
    exact (ih (mputs m w.1 w.2) c h.2).trans (mget_mputs_out w.2 m w.1 c h1)

@[simp] theorem mwrites_nil (m : Memory) : mwrites m [] = m := rfl

end Sys2Proof.Machine
end

