-- ==== Sys2Proof/Laws/Word.lean ====
section
/-! SUPPORT. What running an instruction word can do, said once: each answer of a meaning and the next state it gives, the LEVEL
check, and the inversion of a run that goes on. -/

namespace Sys2Proof.Machine

section
variable {cls : Nat} {lv : LvRule} {h : Hd} {s s' : State} {body : W → WRes} {t : Thread} {c : Clause}

/-- The thread that issues. -/
theorem issuer_some (hc : s.cur = some t.uid) (ht : s.a.thread t.uid = some t) (hk : t.clause = some c) :
    issuer s = some (t, c) := by
  simp [issuer, hc, ht, hk]

/-- With a thread that issues at a level that allows the word, the meaning decides. -/
theorem runWord_view (hi : issuer s = some (t, c)) (hl : lv.ok t.level = true) :
    runWord cls lv h s body =
      match body (s.view t c h) with
      | .done a ws => .next (s.commit (a.modThread t.uid (fun t' => advance t' c h.size)) ws)
      | .stay a w => .next (s.commit (a.modThread t.uid (fun t' => { t' with wait := some w })) [])
      | .ctl a exit moves => .next (s.commit (a.modThread t.uid (fun t' => endClause t' c exit moves)) [])
      | .raw a ws => .next (s.commit a ws)
      | .bad b => .next (trapWord s t c b) := by
  cases hb : body (s.view t c h) <;> simp [runWord, hi, hl, hb]

theorem runWord_done {a : Arch} {ws : Writes} (hi : issuer s = some (t, c)) (hl : lv.ok t.level = true)
    (hb : body (s.view t c h) = .done a ws) :
    runWord cls lv h s body = .next (s.commit (a.modThread t.uid (fun t' => advance t' c h.size)) ws) := by
  rw [runWord_view hi hl, hb]

theorem runWord_stay {a : Arch} {w : Wait} (hi : issuer s = some (t, c)) (hl : lv.ok t.level = true)
    (hb : body (s.view t c h) = .stay a w) :
    runWord cls lv h s body = .next (s.commit (a.modThread t.uid (fun t' => { t' with wait := some w })) []) := by
  rw [runWord_view hi hl, hb]

theorem runWord_ctl {a : Arch} {exit : Lanes} {moves : List (Nat × Nat)} (hi : issuer s = some (t, c)) (hl : lv.ok t.level = true)
    (hb : body (s.view t c h) = .ctl a exit moves) :
    runWord cls lv h s body = .next (s.commit (a.modThread t.uid (fun t' => endClause t' c exit moves)) []) := by
  rw [runWord_view hi hl, hb]

theorem runWord_raw {a : Arch} {ws : Writes} (hi : issuer s = some (t, c)) (hl : lv.ok t.level = true)
    (hb : body (s.view t c h) = .raw a ws) : runWord cls lv h s body = .next (s.commit a ws) := by
  rw [runWord_view hi hl, hb]

theorem runWord_bad {b : Bad} (hi : issuer s = some (t, c)) (hl : lv.ok t.level = true)
    (hb : body (s.view t c h) = .bad b) : runWord cls lv h s body = .next (trapWord s t c b) := by
  rw [runWord_view hi hl, hb]

/-- A word that is illegal at the level of its thread takes the LEVEL trap. -/
theorem runWord_level (hi : issuer s = some (t, c)) (hl : lv.ok t.level = false) :
    runWord cls lv h s body =
      .next (trapWord s t c { cls := .level, addr := 0, synd := cls + t.level.code * 256, mask := none, kind := 0, kinds := 0 }) := by
  simp [runWord, hi, hl]

/-- A word that a thread issues never stops the machine. -/
theorem runWord_total (hi : issuer s = some (t, c)) : ∃ s', runWord cls lv h s body = .next s' := by
  cases hl : lv.ok t.level with
  | false => exact ⟨_, runWord_level hi hl⟩
  | true =>
    rw [runWord_view hi hl]
    split <;> exact ⟨_, rfl⟩

/-- Everything that a word that goes on may have done. -/
theorem runWord_cases (hr : runWord cls lv h s body = .next s') :
    ∃ t c, issuer s = some (t, c) ∧
      ((∃ b, s' = trapWord s t c b) ∨
        lv.ok t.level = true ∧
          ((∃ a ws, body (s.view t c h) = .done a ws ∧ s' = s.commit (a.modThread t.uid (fun t' => advance t' c h.size)) ws) ∨
           (∃ a w, body (s.view t c h) = .stay a w ∧ s' = s.commit (a.modThread t.uid (fun t' => { t' with wait := some w })) []) ∨
           (∃ a e m, body (s.view t c h) = .ctl a e m ∧ s' = s.commit (a.modThread t.uid (fun t' => endClause t' c e m)) []) ∨
           (∃ a ws, body (s.view t c h) = .raw a ws ∧ s' = s.commit a ws))) := by
  cases hi : issuer s with
  | none => simp [runWord, hi] at hr
  | some p =>
    obtain ⟨t, c⟩ := p
    refine ⟨t, c, rfl, ?_⟩
    cases hl : lv.ok t.level with
    | false => rw [runWord_level hi hl] at hr; cases hr; exact .inl ⟨_, rfl⟩
    | true =>
      rw [runWord_view hi hl] at hr
      split at hr <;> cases hr
      · next hb => exact .inr ⟨rfl, .inl ⟨_, _, hb, rfl⟩⟩
      · next hb => exact .inr ⟨rfl, .inr (.inl ⟨_, _, hb, rfl⟩)⟩
      · next hb => exact .inr ⟨rfl, .inr (.inr (.inl ⟨_, _, _, hb, rfl⟩))⟩
      · next hb => exact .inr ⟨rfl, .inr (.inr (.inr ⟨_, _, hb, rfl⟩))⟩
      · exact .inl ⟨_, rfl⟩

/-- A word whose check fails waits, where a message of it waits, or takes its trap; either way it is a commit. -/
theorem trapWord_commit (s : State) (t : Thread) (c : Clause) (b : Bad) : ∃ a ws, trapWord s t c b = s.commit a ws := by
  unfold trapWord; split <;> exact ⟨_, _, rfl⟩

/-- The memory after a word is the memory before it with some bytes written. -/
theorem runWord_mem (hr : runWord cls lv h s body = .next s') : ∃ ws, s'.mem = mwrites s.mem ws := by
  obtain ⟨t, c, -, ⟨b, rfl⟩ | ⟨-, ⟨a, ws, -, rfl⟩ | ⟨a, w, -, rfl⟩ | ⟨a, e, m, -, rfl⟩ | ⟨a, ws, -, rfl⟩⟩⟩ := runWord_cases hr
  · obtain ⟨a, ws, e⟩ := trapWord_commit s t c b; rw [e]; exact ⟨ws, rfl⟩
  · exact ⟨ws, rfl⟩
  · exact ⟨[], rfl⟩
  · exact ⟨[], rfl⟩
  · exact ⟨ws, rfl⟩

/-- A word changes neither the time, nor the agenda, nor which thread issues. -/
theorem runWord_frame (hr : runWord cls lv h s body = .next s') : s'.time = s.time ∧ s'.agenda = s.agenda ∧ s'.cur = s.cur := by
  obtain ⟨t, c, -, ⟨b, rfl⟩ | ⟨-, ⟨a, ws, -, rfl⟩ | ⟨a, w, -, rfl⟩ | ⟨a, e, m, -, rfl⟩ | ⟨a, ws, -, rfl⟩⟩⟩ := runWord_cases hr
  · obtain ⟨a, ws, e⟩ := trapWord_commit s t c b; rw [e]; exact ⟨rfl, rfl, rfl⟩
  all_goals exact ⟨rfl, rfl, rfl⟩

end

/-! ## Steps that are not words -/

theorem runEvent_eq (s : State) (f : Arch → Memory → Nat → Arch × Writes) :
    runEvent s f = .next (s.commit (f s.a s.mem s.time).1 (f s.a s.mem s.time).2) := rfl

theorem runEvent_mem {s s' : State} {f : Arch → Memory → Nat → Arch × Writes} (hr : runEvent s f = .next s') :
    ∃ ws, s'.mem = mwrites s.mem ws := by
  rw [runEvent_eq] at hr; cases hr; exact ⟨_, rfl⟩

theorem runEvent_frame {s s' : State} {f : Arch → Memory → Nat → Arch × Writes} (hr : runEvent s f = .next s') :
    s'.time = s.time ∧ s'.agenda = s.agenda ∧ s'.cur = s.cur := by
  rw [runEvent_eq] at hr; cases hr; exact ⟨rfl, rfl, rfl⟩

/-! ## Committing -/

/-- Remembering what writes replace changes nothing but what invariant loads may still read. -/
theorem remember_held (a : Arch) (m : Memory) (ws : Writes) : ∃ h, a.remember m ws = { a with held := h } := by
  unfold Arch.remember
  split
  · exact ⟨a.held, rfl⟩
  · split <;> exact ⟨_, rfl⟩

@[simp] theorem remember_nil (a : Arch) (m : Memory) : a.remember m [] = a := rfl

@[simp] theorem remember_threads (a : Arch) (m : Memory) (ws : Writes) : (a.remember m ws).threads = a.threads := by
  obtain ⟨h, e⟩ := remember_held a m ws; rw [e]

@[simp] theorem remember_thread (a : Arch) (m : Memory) (ws : Writes) (u : Nat) : (a.remember m ws).thread u = a.thread u := by
  obtain ⟨h, e⟩ := remember_held a m ws; rw [e]; rfl

@[simp] theorem commit_a (s : State) (a : Arch) (ws : Writes) : (s.commit a ws).a = a.remember s.mem ws := rfl
@[simp] theorem commit_nil (s : State) (a : Arch) : s.commit a [] = { s with a := a, mem := mwrites s.mem [] } := rfl
@[simp] theorem commit_mem (s : State) (a : Arch) (ws : Writes) : (s.commit a ws).mem = mwrites s.mem ws := rfl
@[simp] theorem commit_time (s : State) (a : Arch) (ws : Writes) : (s.commit a ws).time = s.time := rfl
@[simp] theorem commit_agenda (s : State) (a : Arch) (ws : Writes) : (s.commit a ws).agenda = s.agenda := rfl
@[simp] theorem commit_cur (s : State) (a : Arch) (ws : Writes) : (s.commit a ws).cur = s.cur := rfl

end Sys2Proof.Machine
end

