-- ==== Sys2Proof/Laws/Exec.lean ====
section
/-! SUPPORT. The shape of every meaning, said once: a word runs under the checks of its class, and a step that is not a word is an
event. -/

namespace Sys2Proof.Machine

/-- A meaning that is a word of class `cls`. -/
def IsWordRun (cls : Nat) (s : State) (o : Out) : Prop := ∃ lv h body, o = runWord cls lv h s body

/-- A meaning that is an event. -/
def IsEvent (s : State) (o : Out) : Prop := ∃ f, o = runEvent s f

/-- Every instruction word runs under the checks of its class. -/
theorem exec_word {i : Instr} {e : Enc} (s : State) (he : i.encode = some e) : IsWordRun e.cls s (exec i s) := by
  cases i with
  | sadd => cases he; dsimp only [exec]; delta execSadd; exact ⟨_, _, _, rfl⟩
  | ssub => cases he; dsimp only [exec]; delta execSsub; exact ⟨_, _, _, rfl⟩
  | smul => cases he; dsimp only [exec]; delta execSmul; exact ⟨_, _, _, rfl⟩
  | smulh => cases he; dsimp only [exec]; delta execSmulh; exact ⟨_, _, _, rfl⟩
  | smin => cases he; dsimp only [exec]; delta execSmin; exact ⟨_, _, _, rfl⟩
  | smax => cases he; dsimp only [exec]; delta execSmax; exact ⟨_, _, _, rfl⟩
  | sand => cases he; dsimp only [exec]; delta execSand; exact ⟨_, _, _, rfl⟩
  | sor => cases he; dsimp only [exec]; delta execSor; exact ⟨_, _, _, rfl⟩
  | sxor => cases he; dsimp only [exec]; delta execSxor; exact ⟨_, _, _, rfl⟩
  | snot => cases he; dsimp only [exec]; delta execSnot; exact ⟨_, _, _, rfl⟩
  | sshl => cases he; dsimp only [exec]; delta execSshl; exact ⟨_, _, _, rfl⟩
  | sshr => cases he; dsimp only [exec]; delta execSshr; exact ⟨_, _, _, rfl⟩
  | ssra => cases he; dsimp only [exec]; delta execSsra; exact ⟨_, _, _, rfl⟩
  | scmp => cases he; dsimp only [exec]; delta execScmp; exact ⟨_, _, _, rfl⟩
  | ssel => cases he; dsimp only [exec]; delta execSsel; exact ⟨_, _, _, rfl⟩
  | smov => cases he; dsimp only [exec]; delta execSmov; exact ⟨_, _, _, rfl⟩
  | spopc => cases he; dsimp only [exec]; delta execSpopc; exact ⟨_, _, _, rfl⟩
  | sclz => cases he; dsimp only [exec]; delta execSclz; exact ⟨_, _, _, rfl⟩
  | nop => cases he; dsimp only [exec]; delta execNop; exact ⟨_, _, _, rfl⟩
  | br => cases he; dsimp only [exec]; delta execBr; exact ⟨_, _, _, rfl⟩
  | brx => cases he; dsimp only [exec]; delta execBrx; exact ⟨_, _, _, rfl⟩
  | call => cases he; dsimp only [exec]; delta execCall; exact ⟨_, _, _, rfl⟩
  | ret => cases he; dsimp only [exec]; delta execRet; exact ⟨_, _, _, rfl⟩
  | loop => cases he; dsimp only [exec]; delta execLoop; exact ⟨_, _, _, rfl⟩
  | exit => cases he; dsimp only [exec]; delta execExit; exact ⟨_, _, _, rfl⟩
  | yield => cases he; dsimp only [exec]; delta execYield; exact ⟨_, _, _, rfl⟩
  | liveWord => cases he; dsimp only [exec]; delta execLiveWord; exact ⟨_, _, _, rfl⟩
  | srr => cases he; dsimp only [exec]; delta execSrr; exact ⟨_, _, _, rfl⟩
  | srrRfault => cases he; dsimp only [exec]; delta execSrrRfault; exact ⟨_, _, _, rfl⟩
  | srw => cases he; dsimp only [exec]; delta execSrw; exact ⟨_, _, _, rfl⟩
  | srwFpstat => cases he; dsimp only [exec]; delta execSrwFpstat; exact ⟨_, _, _, rfl⟩
  | srwFpctl => cases he; dsimp only [exec]; delta execSrwFpctl; exact ⟨_, _, _, rfl⟩
  | srwPntimer => cases he; dsimp only [exec]; delta execSrwPntimer; exact ⟨_, _, _, rfl⟩
  | trap => cases he; dsimp only [exec]; delta execTrap; exact ⟨_, _, _, rfl⟩
  | trapretResume => cases he; dsimp only [exec]; delta execTrapretResume; exact ⟨_, _, _, rfl⟩
  | trapretSkip => cases he; dsimp only [exec]; delta execTrapretSkip; exact ⟨_, _, _, rfl⟩
  | trapretReplace => cases he; dsimp only [exec]; delta execTrapretReplace; exact ⟨_, _, _, rfl⟩
  | trapretAbort => cases he; dsimp only [exec]; delta execTrapretAbort; exact ⟨_, _, _, rfl⟩
  | iflush => cases he; dsimp only [exec]; delta execIflush; exact ⟨_, _, _, rfl⟩
  | prioset => cases he; dsimp only [exec]; delta execPrioset; exact ⟨_, _, _, rfl⟩
  | iadd => cases he; dsimp only [exec]; delta execIadd; exact ⟨_, _, _, rfl⟩
  | isub => cases he; dsimp only [exec]; delta execIsub; exact ⟨_, _, _, rfl⟩
  | imul => cases he; dsimp only [exec]; delta execImul; exact ⟨_, _, _, rfl⟩
  | imulh => cases he; dsimp only [exec]; delta execImulh; exact ⟨_, _, _, rfl⟩
  | imad => cases he; dsimp only [exec]; delta execImad; exact ⟨_, _, _, rfl⟩
  | imin => cases he; dsimp only [exec]; delta execImin; exact ⟨_, _, _, rfl⟩
  | imax => cases he; dsimp only [exec]; delta execImax; exact ⟨_, _, _, rfl⟩
  | iabs => cases he; dsimp only [exec]; delta execIabs; exact ⟨_, _, _, rfl⟩
  | icmp => cases he; dsimp only [exec]; delta execIcmp; exact ⟨_, _, _, rfl⟩
  | iand => cases he; dsimp only [exec]; delta execIand; exact ⟨_, _, _, rfl⟩
  | ior => cases he; dsimp only [exec]; delta execIor; exact ⟨_, _, _, rfl⟩
  | ixor => cases he; dsimp only [exec]; delta execIxor; exact ⟨_, _, _, rfl⟩
  | inot => cases he; dsimp only [exec]; delta execInot; exact ⟨_, _, _, rfl⟩
  | ishl => cases he; dsimp only [exec]; delta execIshl; exact ⟨_, _, _, rfl⟩
  | ishr => cases he; dsimp only [exec]; delta execIshr; exact ⟨_, _, _, rfl⟩
  | isra => cases he; dsimp only [exec]; delta execIsra; exact ⟨_, _, _, rfl⟩
  | ipopc => cases he; dsimp only [exec]; delta execIpopc; exact ⟨_, _, _, rfl⟩
  | iclz => cases he; dsimp only [exec]; delta execIclz; exact ⟨_, _, _, rfl⟩
  | ibfe => cases he; dsimp only [exec]; delta execIbfe; exact ⟨_, _, _, rfl⟩
  | ibfi => cases he; dsimp only [exec]; delta execIbfi; exact ⟨_, _, _, rfl⟩
  | isel => cases he; dsimp only [exec]; delta execIsel; exact ⟨_, _, _, rfl⟩
  | imov => cases he; dsimp only [exec]; delta execImov; exact ⟨_, _, _, rfl⟩
  | pack => cases he; dsimp only [exec]; delta execPack; exact ⟨_, _, _, rfl⟩
  | unpk => cases he; dsimp only [exec]; delta execUnpk; exact ⟨_, _, _, rfl⟩
  | iaddsh => cases he; dsimp only [exec]; delta execIaddsh; exact ⟨_, _, _, rfl⟩
  | xset => cases he; dsimp only [exec]; delta execXset; exact ⟨_, _, _, rfl⟩
  | xsetRd => cases he; dsimp only [exec]; delta execXsetRd; exact ⟨_, _, _, rfl⟩
  | xadd => cases he; dsimp only [exec]; delta execXadd; exact ⟨_, _, _, rfl⟩
  | plog => cases he; dsimp only [exec]; delta execPlog; exact ⟨_, _, _, rfl⟩
  | philox => cases he; dsimp only [exec]; delta execPhilox; exact ⟨_, _, _, rfl⟩
  | fadd => cases he; dsimp only [exec]; delta execFadd; exact ⟨_, _, _, rfl⟩
  | fsub => cases he; dsimp only [exec]; delta execFsub; exact ⟨_, _, _, rfl⟩
  | fmul => cases he; dsimp only [exec]; delta execFmul; exact ⟨_, _, _, rfl⟩
  | ffma => cases he; dsimp only [exec]; delta execFfma; exact ⟨_, _, _, rfl⟩
  | fmin => cases he; dsimp only [exec]; delta execFmin; exact ⟨_, _, _, rfl⟩
  | fmax => cases he; dsimp only [exec]; delta execFmax; exact ⟨_, _, _, rfl⟩
  | fabs => cases he; dsimp only [exec]; delta execFabs; exact ⟨_, _, _, rfl⟩
  | fneg => cases he; dsimp only [exec]; delta execFneg; exact ⟨_, _, _, rfl⟩
  | fcmp => cases he; dsimp only [exec]; delta execFcmp; exact ⟨_, _, _, rfl⟩
  | fdiv => cases he; dsimp only [exec]; delta execFdiv; exact ⟨_, _, _, rfl⟩
  | fsqrt => cases he; dsimp only [exec]; delta execFsqrt; exact ⟨_, _, _, rfl⟩
  | frcp => cases he; dsimp only [exec]; delta execFrcp; exact ⟨_, _, _, rfl⟩
  | frsq => cases he; dsimp only [exec]; delta execFrsq; exact ⟨_, _, _, rfl⟩
  | fexp2 => cases he; dsimp only [exec]; delta execFexp2; exact ⟨_, _, _, rfl⟩
  | flog2 => cases he; dsimp only [exec]; delta execFlog2; exact ⟨_, _, _, rfl⟩
  | fsin => cases he; dsimp only [exec]; delta execFsin; exact ⟨_, _, _, rfl⟩
  | fcos => cases he; dsimp only [exec]; delta execFcos; exact ⟨_, _, _, rfl⟩
  | ftanh => cases he; dsimp only [exec]; delta execFtanh; exact ⟨_, _, _, rfl⟩
  | fclass => cases he; dsimp only [exec]; delta execFclass; exact ⟨_, _, _, rfl⟩
  | frnd => cases he; dsimp only [exec]; delta execFrnd; exact ⟨_, _, _, rfl⟩
  | fcvt => cases he; dsimp only [exec]; delta execFcvt; exact ⟨_, _, _, rfl⟩
  | nenc => cases he; dsimp only [exec]; delta execNenc; exact ⟨_, _, _, rfl⟩
  | ndec => cases he; dsimp only [exec]; delta execNdec; exact ⟨_, _, _, rfl⟩
  | vote _ o => cases o <;> (cases he; dsimp only [exec]; delta execVote; dsimp only; exact ⟨_, _, _, rfl⟩)
  | shfl => cases he; dsimp only [exec]; delta execShfl; exact ⟨_, _, _, rfl⟩
  | scani => cases he; dsimp only [exec]; delta execScani; exact ⟨_, _, _, rfl⟩
  | scanx => cases he; dsimp only [exec]; delta execScanx; exact ⟨_, _, _, rfl⟩
  | lred => cases he; dsimp only [exec]; delta execLred; exact ⟨_, _, _, rfl⟩
  | partset => cases he; dsimp only [exec]; delta execPartset; exact ⟨_, _, _, rfl⟩
  | partget => cases he; dsimp only [exec]; delta execPartget; exact ⟨_, _, _, rfl⟩
  | ld => cases he; dsimp only [exec]; delta execLd; exact ⟨_, _, _, rfl⟩
  | st => cases he; dsimp only [exec]; delta execSt; exact ⟨_, _, _, rfl⟩
  | atom => cases he; dsimp only [exec]; delta execAtom; exact ⟨_, _, _, rfl⟩
  | ldmeta => cases he; dsimp only [exec]; delta execLdmeta; exact ⟨_, _, _, rfl⟩
  | stmeta => cases he; dsimp only [exec]; delta execStmeta; exact ⟨_, _, _, rfl⟩
  | flush => cases he; dsimp only [exec]; delta execFlush; exact ⟨_, _, _, rfl⟩
  | frame => cases he; dsimp only [exec]; delta execFrame; exact ⟨_, _, _, rfl⟩
  | claim => cases he; dsimp only [exec]; delta execClaim; exact ⟨_, _, _, rfl⟩
  | migrate => cases he; dsimp only [exec]; delta execMigrate; exact ⟨_, _, _, rfl⟩
  | sld => cases he; dsimp only [exec]; delta execSld; exact ⟨_, _, _, rfl⟩
  | sst => cases he; dsimp only [exec]; delta execSst; exact ⟨_, _, _, rfl⟩
  | satom => cases he; dsimp only [exec]; delta execSatom; exact ⟨_, _, _, rfl⟩
  | lds => cases he; dsimp only [exec]; delta execLds; exact ⟨_, _, _, rfl⟩
  | sts => cases he; dsimp only [exec]; delta execSts; exact ⟨_, _, _, rfl⟩
  | atoms => cases he; dsimp only [exec]; delta execAtoms; exact ⟨_, _, _, rfl⟩
  | bararr => cases he; dsimp only [exec]; delta execBararr; exact ⟨_, _, _, rfl⟩
  | barwait => cases he; dsimp only [exec]; delta execBarwait; exact ⟨_, _, _, rfl⟩
  | barsync => cases he; dsimp only [exec]; delta execBarsync; exact ⟨_, _, _, rfl⟩
  | barcfg => cases he; dsimp only [exec]; delta execBarcfg; exact ⟨_, _, _, rfl⟩
  | copyIn => cases he; dsimp only [exec]; delta execCopyIn; exact ⟨_, _, _, rfl⟩
  | copyOut => cases he; dsimp only [exec]; delta execCopyOut; exact ⟨_, _, _, rfl⟩
  | acopy => cases he; dsimp only [exec]; delta execAcopy; exact ⟨_, _, _, rfl⟩
  | spush => cases he; dsimp only [exec]; delta execSpush; exact ⟨_, _, _, rfl⟩
  | spop => cases he; dsimp only [exec]; delta execSpop; exact ⟨_, _, _, rfl⟩
  | qcfg => cases he; dsimp only [exec]; delta execQcfg; exact ⟨_, _, _, rfl⟩
  | wprd => cases he; dsimp only [exec]; delta execWprd; exact ⟨_, _, _, rfl⟩
  | launch => cases he; dsimp only [exec]; delta execLaunch; exact ⟨_, _, _, rfl⟩
  | launchGang => cases he; dsimp only [exec]; delta execLaunchGang; exact ⟨_, _, _, rfl⟩
  | join => cases he; dsimp only [exec]; delta execJoin; exact ⟨_, _, _, rfl⟩
  | bar => cases he; dsimp only [exec]; delta execBar; exact ⟨_, _, _, rfl⟩
  | mcopyDown => cases he; dsimp only [exec]; delta execMcopyDown; exact ⟨_, _, _, rfl⟩
  | mcopyUp => cases he; dsimp only [exec]; delta execMcopyUp; exact ⟨_, _, _, rfl⟩
  | reduce => cases he; dsimp only [exec]; delta execReduce; exact ⟨_, _, _, rfl⟩
  | fence => cases he; dsimp only [exec]; delta execFence; exact ⟨_, _, _, rfl⟩
  | spawn => cases he; dsimp only [exec]; delta execSpawn; exact ⟨_, _, _, rfl⟩
  | fetchw => cases he; dsimp only [exec]; delta execFetchw; exact ⟨_, _, _, rfl⟩
  | mma => cases he; dsimp only [exec]; delta execMma; exact ⟨_, _, _, rfl⟩
  | latch => cases he; dsimp only [exec]; delta execLatch; exact ⟨_, _, _, rfl⟩
  | unlatch => cases he; dsimp only [exec]; delta execUnlatch; exact ⟨_, _, _, rfl⟩
  | accz => cases he; dsimp only [exec]; delta execAccz; exact ⟨_, _, _, rfl⟩
  | accrd => cases he; dsimp only [exec]; delta execAccrd; exact ⟨_, _, _, rfl⟩
  | accwr => cases he; dsimp only [exec]; delta execAccwr; exact ⟨_, _, _, rfl⟩
  | accst => cases he; dsimp only [exec]; delta execAccst; exact ⟨_, _, _, rfl⟩
  | accld => cases he; dsimp only [exec]; delta execAccld; exact ⟨_, _, _, rfl⟩
  | accmov => cases he; dsimp only [exec]; delta execAccmov; exact ⟨_, _, _, rfl⟩
  | specBegin => cases he; dsimp only [exec]; delta execSpecBegin; exact ⟨_, _, _, rfl⟩
  | specResolve => cases he; dsimp only [exec]; delta execSpecResolve; exact ⟨_, _, _, rfl⟩
  | treemask => cases he; dsimp only [exec]; delta execTreemask; exact ⟨_, _, _, rfl⟩
  | kvcommit => cases he; dsimp only [exec]; delta execKvcommit; exact ⟨_, _, _, rfl⟩
  | grant => cases he; dsimp only [exec]; delta execGrant; exact ⟨_, _, _, rfl⟩
  | revoke => cases he; dsimp only [exec]; delta execRevoke; exact ⟨_, _, _, rfl⟩
  | expect => cases he; dsimp only [exec]; delta execExpect; exact ⟨_, _, _, rfl⟩
  | rsend => cases he; dsimp only [exec]; delta execRsend; exact ⟨_, _, _, rfl⟩
  | rsendv => cases he; dsimp only [exec]; delta execRsendv; exact ⟨_, _, _, rfl⟩
  | rfence => cases he; dsimp only [exec]; delta execRfence; exact ⟨_, _, _, rfl⟩
  | rget => cases he; dsimp only [exec]; delta execRget; exact ⟨_, _, _, rfl⟩
  | rgetTk => cases he; dsimp only [exec]; delta execRgetTk; exact ⟨_, _, _, rfl⟩
  | skinit => cases he; dsimp only [exec]; delta execSkinit; exact ⟨_, _, _, rfl⟩
  | skins => cases he; dsimp only [exec]; delta execSkins; exact ⟨_, _, _, rfl⟩
  | skmrg => cases he; dsimp only [exec]; delta execSkmrg; exact ⟨_, _, _, rfl⟩
  | skquant => cases he; dsimp only [exec]; delta execSkquant; exact ⟨_, _, _, rfl⟩
  | skrank => cases he; dsimp only [exec]; delta execSkrank; exact ⟨_, _, _, rfl⟩
  | sktop => cases he; dsimp only [exec]; delta execSktop; exact ⟨_, _, _, rfl⟩
  | skpoint => cases he; dsimp only [exec]; delta execSkpoint; exact ⟨_, _, _, rfl⟩
  | skest => cases he; dsimp only [exec]; delta execSkest; exact ⟨_, _, _, rfl⟩
  | _ => cases he

/-- Every step that is not a word is an event. -/
theorem exec_event {i : Instr} (s : State) (he : i.encode = none) : IsEvent s (exec i s) := by
  cases i with
  | clauseBegin => dsimp only [exec]; delta execClauseBegin; exact ⟨_, rfl⟩
  | sequencerClauseBegin => dsimp only [exec]; delta execSequencerClauseBegin; exact ⟨_, rfl⟩
  | passCountEscape => dsimp only [exec]; delta execPassCountEscape; exact ⟨_, rfl⟩
  | issueAgePromotion => dsimp only [exec]; delta execIssueAgePromotion; exact ⟨_, rfl⟩
  | sequencerAgePromotion => dsimp only [exec]; delta execSequencerAgePromotion; exact ⟨_, rfl⟩
  | frameActivate => dsimp only [exec]; delta execFrameActivate; exact ⟨_, rfl⟩
  | tilePlacement => dsimp only [exec]; delta execTilePlacement; exact ⟨_, rfl⟩
  | crewStart => dsimp only [exec]; delta execCrewStart; exact ⟨_, rfl⟩
  | waveRetire => dsimp only [exec]; delta execWaveRetire; exact ⟨_, rfl⟩
  | crewRetire => dsimp only [exec]; delta execCrewRetire; exact ⟨_, rfl⟩
  | punnetTimeout => dsimp only [exec]; delta execPunnetTimeout; exact ⟨_, rfl⟩
  | punnetLaunch => dsimp only [exec]; delta execPunnetLaunch; exact ⟨_, rfl⟩
  | fetchwReply => dsimp only [exec]; delta execFetchwReply; exact ⟨_, rfl⟩
  | memoryRequestComplete => dsimp only [exec]; delta execMemoryRequestComplete; exact ⟨_, rfl⟩
  | staleReissue => dsimp only [exec]; delta execStaleReissue; exact ⟨_, rfl⟩
  | leaseExpiry => dsimp only [exec]; delta execLeaseExpiry; exact ⟨_, rfl⟩
  | copyComplete => dsimp only [exec]; delta execCopyComplete; exact ⟨_, rfl⟩
  | spushAdmit => dsimp only [exec]; delta execSpushAdmit; exact ⟨_, rfl⟩
  | spopRelease => dsimp only [exec]; delta execSpopRelease; exact ⟨_, rfl⟩
  | mcopyComplete => dsimp only [exec]; delta execMcopyComplete; exact ⟨_, rfl⟩
  | reduceContributionArrival => dsimp only [exec]; delta execReduceContributionArrival; exact ⟨_, rfl⟩
  | matrixOperationComplete => dsimp only [exec]; delta execMatrixOperationComplete; exact ⟨_, rfl⟩
  | accrdLanding => dsimp only [exec]; delta execAccrdLanding; exact ⟨_, rfl⟩
  | accstComplete => dsimp only [exec]; delta execAccstComplete; exact ⟨_, rfl⟩
  | kvcommitComplete => dsimp only [exec]; delta execKvcommitComplete; exact ⟨_, rfl⟩
  | summaryInstructionComplete => dsimp only [exec]; delta execSummaryInstructionComplete; exact ⟨_, rfl⟩
  | claimComplete => dsimp only [exec]; delta execClaimComplete; exact ⟨_, rfl⟩
  | migrationArrival => dsimp only [exec]; delta execMigrationArrival; exact ⟨_, rfl⟩
  | registerSendArrival => dsimp only [exec]; delta execRegisterSendArrival; exact ⟨_, rfl⟩
  | sendAcknowledgement => dsimp only [exec]; delta execSendAcknowledgement; exact ⟨_, rfl⟩
  | safePointOverrun => dsimp only [exec]; delta execSafePointOverrun; exact ⟨_, rfl⟩
  | preemptSave => dsimp only [exec]; delta execPreemptSave; exact ⟨_, rfl⟩
  | restoreComplete => dsimp only [exec]; delta execRestoreComplete; exact ⟨_, rfl⟩
  | chunkAdmit => dsimp only [exec]; delta execChunkAdmit; exact ⟨_, rfl⟩
  | chunkBoundary => dsimp only [exec]; delta execChunkBoundary; exact ⟨_, rfl⟩
  | collectiveArrival => dsimp only [exec]; delta execCollectiveArrival; exact ⟨_, rfl⟩
  | collStall => dsimp only [exec]; delta execCollStall; exact ⟨_, rfl⟩
  | commandDatagram => dsimp only [exec]; delta execCommandDatagram; exact ⟨_, rfl⟩
  | ackDatagram => dsimp only [exec]; delta execAckDatagram; exact ⟨_, rfl⟩
  | datagramResend => dsimp only [exec]; delta execDatagramResend; exact ⟨_, rfl⟩
  | queueCommandBegin => dsimp only [exec]; delta execQueueCommandBegin; exact ⟨_, rfl⟩
  | kernelLaunchCommand => dsimp only [exec]; delta execKernelLaunchCommand; exact ⟨_, rfl⟩
  | flightLoad => dsimp only [exec]; delta execFlightLoad; exact ⟨_, rfl⟩
  | flightReplay => dsimp only [exec]; delta execFlightReplay; exact ⟨_, rfl⟩
  | queueWrite => dsimp only [exec]; delta execQueueWrite; exact ⟨_, rfl⟩
  | queueCopy => dsimp only [exec]; delta execQueueCopy; exact ⟨_, rfl⟩
  | qwait => dsimp only [exec]; delta execQwait; exact ⟨_, rfl⟩
  | ctxCreate => dsimp only [exec]; delta execCtxCreate; exact ⟨_, rfl⟩
  | ctxUpdate => dsimp only [exec]; delta execCtxUpdate; exact ⟨_, rfl⟩
  | ctxAbort => dsimp only [exec]; delta execCtxAbort; exact ⟨_, rfl⟩
  | abortDone => dsimp only [exec]; delta execAbortDone; exact ⟨_, rfl⟩
  | queueCreate => dsimp only [exec]; delta execQueueCreate; exact ⟨_, rfl⟩
  | queueDestroy => dsimp only [exec]; delta execQueueDestroy; exact ⟨_, rfl⟩
  | preempt => dsimp only [exec]; delta execPreempt; exact ⟨_, rfl⟩
  | resume => dsimp only [exec]; delta execResume; exact ⟨_, rfl⟩
  | pairDeclare => dsimp only [exec]; delta execPairDeclare; exact ⟨_, rfl⟩
  | pairSwitch => dsimp only [exec]; delta execPairSwitch; exact ⟨_, rfl⟩
  | poolSet => dsimp only [exec]; delta execPoolSet; exact ⟨_, rfl⟩
  | growthRefuse => dsimp only [exec]; delta execGrowthRefuse; exact ⟨_, rfl⟩
  | retry => dsimp only [exec]; delta execRetry; exact ⟨_, rfl⟩
  | commCreate => dsimp only [exec]; delta execCommCreate; exact ⟨_, rfl⟩
  | commDestroy => dsimp only [exec]; delta execCommDestroy; exact ⟨_, rfl⟩
  | evtCfg => dsimp only [exec]; delta execEvtCfg; exact ⟨_, rfl⟩
  | ctxDestroy => dsimp only [exec]; delta execCtxDestroy; exact ⟨_, rfl⟩
  | areaSet => dsimp only [exec]; delta execAreaSet; exact ⟨_, rfl⟩
  | imageSet => dsimp only [exec]; delta execImageSet; exact ⟨_, rfl⟩
  | capRead => dsimp only [exec]; delta execCapRead; exact ⟨_, rfl⟩
  | clkSet => dsimp only [exec]; delta execClkSet; exact ⟨_, rfl⟩
  | pllRelockEnd => dsimp only [exec]; delta execPllRelockEnd; exact ⟨_, rfl⟩
  | worldSet => dsimp only [exec]; delta execWorldSet; exact ⟨_, rfl⟩
  | firewallSet => dsimp only [exec]; delta execFirewallSet; exact ⟨_, rfl⟩
  | hbmMapout => dsimp only [exec]; delta execHbmMapout; exact ⟨_, rfl⟩
  | hotRemove => dsimp only [exec]; delta execHotRemove; exact ⟨_, rfl⟩
  | berthRetry => dsimp only [exec]; delta execBerthRetry; exact ⟨_, rfl⟩
  | powerCfg => dsimp only [exec]; delta execPowerCfg; exact ⟨_, rfl⟩
  | powerOnReset => dsimp only [exec]; delta execPowerOnReset; exact ⟨_, rfl⟩
  | spdmGetVersion => dsimp only [exec]; delta execSpdmGetVersion; exact ⟨_, rfl⟩
  | spdmGetCapabilities => dsimp only [exec]; delta execSpdmGetCapabilities; exact ⟨_, rfl⟩
  | spdmNegotiateAlgorithms => dsimp only [exec]; delta execSpdmNegotiateAlgorithms; exact ⟨_, rfl⟩
  | spdmGetDigests => dsimp only [exec]; delta execSpdmGetDigests; exact ⟨_, rfl⟩
  | spdmGetCertificate => dsimp only [exec]; delta execSpdmGetCertificate; exact ⟨_, rfl⟩
  | spdmChallenge => dsimp only [exec]; delta execSpdmChallenge; exact ⟨_, rfl⟩
  | spdmGetMeasurements => dsimp only [exec]; delta execSpdmGetMeasurements; exact ⟨_, rfl⟩
  | spdmKeyExchange => dsimp only [exec]; delta execSpdmKeyExchange; exact ⟨_, rfl⟩
  | spdmFinish => dsimp only [exec]; delta execSpdmFinish; exact ⟨_, rfl⟩
  | spdmEndSession => dsimp only [exec]; delta execSpdmEndSession; exact ⟨_, rfl⟩
  | timeMessage => dsimp only [exec]; delta execTimeMessage; exact ⟨_, rfl⟩
  | power => dsimp only [exec]; delta execPower; exact ⟨_, rfl⟩
  | thermal => dsimp only [exec]; delta execThermal; exact ⟨_, rfl⟩
  | thermalCut => dsimp only [exec]; delta execThermalCut; exact ⟨_, rfl⟩
  | linkDown => dsimp only [exec]; delta execLinkDown; exact ⟨_, rfl⟩
  | corrected => dsimp only [exec]; delta execCorrected; exact ⟨_, rfl⟩
  | tagKeyMessage => dsimp only [exec]; delta execTagKeyMessage; exact ⟨_, rfl⟩
  | vote _ o => cases o <;> cases he
  | _ => cases he

/-- With a thread that issues, a word never stops the machine. -/
theorem exec_word_total {i : Instr} {e : Enc} {s : State} {t : Thread} {c : Clause} (he : i.encode = some e)
    (hi : issuer s = some (t, c)) : ∃ s', exec i s = .next s' := by
  obtain ⟨lv, h, body, hr⟩ := exec_word s he
  rw [hr]; exact runWord_total hi

/-- A step that is not a word never stops the machine. -/
theorem exec_event_total {i : Instr} (s : State) (he : i.encode = none) : ∃ s', exec i s = .next s' := by
  obtain ⟨f, hr⟩ := exec_event s he
  exact ⟨_, hr⟩

/-- Whatever executes, memory is what it was with some bytes written. -/
theorem exec_mem {i : Instr} {s s' : State} (hr : exec i s = .next s') : ∃ ws, s'.mem = mwrites s.mem ws := by
  cases he : i.encode with
  | none => obtain ⟨f, hf⟩ := exec_event s he; exact runEvent_mem (hf ▸ hr)
  | some e => obtain ⟨lv, h, body, hf⟩ := exec_word s he; exact runWord_mem (hf ▸ hr)

/-- Whatever executes, neither the time, nor the agenda, nor which thread issues changes. -/
theorem exec_frame {i : Instr} {s s' : State} (hr : exec i s = .next s') :
    s'.time = s.time ∧ s'.agenda = s.agenda ∧ s'.cur = s.cur := by
  cases he : i.encode with
  | none => obtain ⟨f, hf⟩ := exec_event s he; exact runEvent_frame (hf ▸ hr)
  | some e => obtain ⟨lv, h, body, hf⟩ := exec_word s he; exact runWord_frame (hf ▸ hr)

/-- Where no register of the thread holds an error, reading registers changes nothing. -/
theorem readRegs_sound (s : State) {t : Thread} (c : Clause) (i : Instr) (hv : t.regs.badV = []) (hs : t.regs.badS = []) :
    s.readRegs t c i = s := by
  simp [State.readRegs, hv, hs]

/-- Reading registers changes neither memory nor the time, nor the agenda, nor which thread issues. -/
theorem readRegs_frame (s : State) (t : Thread) (c : Clause) (i : Instr) :
    (s.readRegs t c i).mem = s.mem ∧ (s.readRegs t c i).time = s.time ∧ (s.readRegs t c i).agenda = s.agenda ∧
      (s.readRegs t c i).cur = s.cur := by
  unfold State.readRegs
  split <;> exact ⟨rfl, rfl, rfl, rfl⟩

end Sys2Proof.Machine
end

