-- ==== Sys2Proof/Laws/State.lean ====
section
/-! SUPPORT. One lemma per field and named update of the state: what each named operation leaves as it was, and what it writes. -/

namespace Sys2Proof.Machine

/-! ## Everything but memory -/

@[simp] theorem setThread_pkgs (a : Arch) (t : Thread) : (a.setThread t).pkgs = a.pkgs := rfl
@[simp] theorem setThread_berths (a : Arch) (t : Thread) : (a.setThread t).berths = a.berths := rfl
@[simp] theorem setThread_pntimer (a : Arch) (t : Thread) : (a.setThread t).pntimer = a.pntimer := rfl
@[simp] theorem setThread_slotGen (a : Arch) (t : Thread) : (a.setThread t).slotGen = a.slotGen := rfl
@[simp] theorem setThread_locs (a : Arch) (t : Thread) : (a.setThread t).locs = a.locs := rfl
@[simp] theorem setThread_punnets (a : Arch) (t : Thread) : (a.setThread t).punnets = a.punnets := rfl
@[simp] theorem setThread_gmeta (a : Arch) (t : Thread) : (a.setThread t).gmeta = a.gmeta := rfl
@[simp] theorem setThread_bad (a : Arch) (t : Thread) : (a.setThread t).bad = a.bad := rfl
@[simp] theorem setThread_lines (a : Arch) (t : Thread) : (a.setThread t).lines = a.lines := rfl
@[simp] theorem setThread_tlb (a : Arch) (t : Thread) : (a.setThread t).tlb = a.tlb := rfl
@[simp] theorem setThread_icache (a : Arch) (t : Thread) : (a.setThread t).icache = a.icache := rfl
@[simp] theorem setThread_ctxs (a : Arch) (t : Thread) : (a.setThread t).ctxs = a.ctxs := rfl
@[simp] theorem setThread_keys (a : Arch) (t : Thread) : (a.setThread t).keys = a.keys := rfl
@[simp] theorem setThread_images (a : Arch) (t : Thread) : (a.setThread t).images = a.images := rfl
@[simp] theorem setThread_pairs (a : Arch) (t : Thread) : (a.setThread t).pairs = a.pairs := rfl
@[simp] theorem setThread_queues (a : Arch) (t : Thread) : (a.setThread t).queues = a.queues := rfl
@[simp] theorem setThread_comms (a : Arch) (t : Thread) : (a.setThread t).comms = a.comms := rfl
@[simp] theorem setThread_flights (a : Arch) (t : Thread) : (a.setThread t).flights = a.flights := rfl
@[simp] theorem setThread_replays (a : Arch) (t : Thread) : (a.setThread t).replays = a.replays := rfl
@[simp] theorem setThread_chunks (a : Arch) (t : Thread) : (a.setThread t).chunks = a.chunks := rfl
@[simp] theorem setThread_arrivals (a : Arch) (t : Thread) : (a.setThread t).arrivals = a.arrivals := rfl
@[simp] theorem setThread_trees (a : Arch) (t : Thread) : (a.setThread t).trees = a.trees := rfl
@[simp] theorem setThread_crews (a : Arch) (t : Thread) : (a.setThread t).crews = a.crews := rfl
@[simp] theorem setThread_ops (a : Arch) (t : Thread) : (a.setThread t).ops = a.ops := rfl
@[simp] theorem setThread_cmds (a : Arch) (t : Thread) : (a.setThread t).cmds = a.cmds := rfl
@[simp] theorem setThread_reds (a : Arch) (t : Thread) : (a.setThread t).reds = a.reds := rfl
@[simp] theorem setThread_slice (a : Arch) (t : Thread) : (a.setThread t).slice = a.slice := rfl
@[simp] theorem setThread_landings (a : Arch) (t : Thread) : (a.setThread t).landings = a.landings := rfl
@[simp] theorem setThread_sends (a : Arch) (t : Thread) : (a.setThread t).sends = a.sends := rfl
@[simp] theorem setThread_sums (a : Arch) (t : Thread) : (a.setThread t).sums = a.sums := rfl
@[simp] theorem setThread_fetches (a : Arch) (t : Thread) : (a.setThread t).fetches = a.fetches := rfl
@[simp] theorem setThread_pres (a : Arch) (t : Thread) : (a.setThread t).pres = a.pres := rfl
@[simp] theorem setThread_nextId (a : Arch) (t : Thread) : (a.setThread t).nextId = a.nextId := rfl
@[simp] theorem setThread_free (a : Arch) (t : Thread) : (a.setThread t).free = a.free := rfl
@[simp] theorem setThread_missing (a : Arch) (t : Thread) : (a.setThread t).missing = a.missing := rfl
@[simp] theorem setThread_held (a : Arch) (t : Thread) : (a.setThread t).held = a.held := rfl
@[simp] theorem setThread_rels (a : Arch) (t : Thread) : (a.setThread t).rels = a.rels := rfl
@[simp] theorem setThread_early (a : Arch) (t : Thread) : (a.setThread t).early = a.early := rfl

@[simp] theorem modThread_pkgs (a : Arch) (u : Nat) (f : Thread → Thread) : (a.modThread u f).pkgs = a.pkgs := rfl
@[simp] theorem modThread_berths (a : Arch) (u : Nat) (f : Thread → Thread) : (a.modThread u f).berths = a.berths := rfl
@[simp] theorem modThread_pntimer (a : Arch) (u : Nat) (f : Thread → Thread) : (a.modThread u f).pntimer = a.pntimer := rfl
@[simp] theorem modThread_slotGen (a : Arch) (u : Nat) (f : Thread → Thread) : (a.modThread u f).slotGen = a.slotGen := rfl
@[simp] theorem modThread_locs (a : Arch) (u : Nat) (f : Thread → Thread) : (a.modThread u f).locs = a.locs := rfl
@[simp] theorem modThread_punnets (a : Arch) (u : Nat) (f : Thread → Thread) : (a.modThread u f).punnets = a.punnets := rfl
@[simp] theorem modThread_gmeta (a : Arch) (u : Nat) (f : Thread → Thread) : (a.modThread u f).gmeta = a.gmeta := rfl
@[simp] theorem modThread_bad (a : Arch) (u : Nat) (f : Thread → Thread) : (a.modThread u f).bad = a.bad := rfl
@[simp] theorem modThread_lines (a : Arch) (u : Nat) (f : Thread → Thread) : (a.modThread u f).lines = a.lines := rfl
@[simp] theorem modThread_tlb (a : Arch) (u : Nat) (f : Thread → Thread) : (a.modThread u f).tlb = a.tlb := rfl
@[simp] theorem modThread_icache (a : Arch) (u : Nat) (f : Thread → Thread) : (a.modThread u f).icache = a.icache := rfl
@[simp] theorem modThread_ctxs (a : Arch) (u : Nat) (f : Thread → Thread) : (a.modThread u f).ctxs = a.ctxs := rfl
@[simp] theorem modThread_keys (a : Arch) (u : Nat) (f : Thread → Thread) : (a.modThread u f).keys = a.keys := rfl
@[simp] theorem modThread_images (a : Arch) (u : Nat) (f : Thread → Thread) : (a.modThread u f).images = a.images := rfl
@[simp] theorem modThread_pairs (a : Arch) (u : Nat) (f : Thread → Thread) : (a.modThread u f).pairs = a.pairs := rfl
@[simp] theorem modThread_queues (a : Arch) (u : Nat) (f : Thread → Thread) : (a.modThread u f).queues = a.queues := rfl
@[simp] theorem modThread_comms (a : Arch) (u : Nat) (f : Thread → Thread) : (a.modThread u f).comms = a.comms := rfl
@[simp] theorem modThread_flights (a : Arch) (u : Nat) (f : Thread → Thread) : (a.modThread u f).flights = a.flights := rfl
@[simp] theorem modThread_replays (a : Arch) (u : Nat) (f : Thread → Thread) : (a.modThread u f).replays = a.replays := rfl
@[simp] theorem modThread_chunks (a : Arch) (u : Nat) (f : Thread → Thread) : (a.modThread u f).chunks = a.chunks := rfl
@[simp] theorem modThread_arrivals (a : Arch) (u : Nat) (f : Thread → Thread) : (a.modThread u f).arrivals = a.arrivals := rfl
@[simp] theorem modThread_trees (a : Arch) (u : Nat) (f : Thread → Thread) : (a.modThread u f).trees = a.trees := rfl
@[simp] theorem modThread_crews (a : Arch) (u : Nat) (f : Thread → Thread) : (a.modThread u f).crews = a.crews := rfl
@[simp] theorem modThread_ops (a : Arch) (u : Nat) (f : Thread → Thread) : (a.modThread u f).ops = a.ops := rfl
@[simp] theorem modThread_cmds (a : Arch) (u : Nat) (f : Thread → Thread) : (a.modThread u f).cmds = a.cmds := rfl
@[simp] theorem modThread_reds (a : Arch) (u : Nat) (f : Thread → Thread) : (a.modThread u f).reds = a.reds := rfl
@[simp] theorem modThread_slice (a : Arch) (u : Nat) (f : Thread → Thread) : (a.modThread u f).slice = a.slice := rfl
@[simp] theorem modThread_landings (a : Arch) (u : Nat) (f : Thread → Thread) : (a.modThread u f).landings = a.landings := rfl
@[simp] theorem modThread_sends (a : Arch) (u : Nat) (f : Thread → Thread) : (a.modThread u f).sends = a.sends := rfl
@[simp] theorem modThread_sums (a : Arch) (u : Nat) (f : Thread → Thread) : (a.modThread u f).sums = a.sums := rfl
@[simp] theorem modThread_fetches (a : Arch) (u : Nat) (f : Thread → Thread) : (a.modThread u f).fetches = a.fetches := rfl
@[simp] theorem modThread_pres (a : Arch) (u : Nat) (f : Thread → Thread) : (a.modThread u f).pres = a.pres := rfl
@[simp] theorem modThread_nextId (a : Arch) (u : Nat) (f : Thread → Thread) : (a.modThread u f).nextId = a.nextId := rfl
@[simp] theorem modThread_free (a : Arch) (u : Nat) (f : Thread → Thread) : (a.modThread u f).free = a.free := rfl
@[simp] theorem modThread_missing (a : Arch) (u : Nat) (f : Thread → Thread) : (a.modThread u f).missing = a.missing := rfl
@[simp] theorem modThread_held (a : Arch) (u : Nat) (f : Thread → Thread) : (a.modThread u f).held = a.held := rfl
@[simp] theorem modThread_rels (a : Arch) (u : Nat) (f : Thread → Thread) : (a.modThread u f).rels = a.rels := rfl
@[simp] theorem modThread_early (a : Arch) (u : Nat) (f : Thread → Thread) : (a.modThread u f).early = a.early := rfl

@[simp] theorem setPkg_berths (a : Arch) (p : Nat) (k : Pkg) : (a.setPkg p k).berths = a.berths := rfl
@[simp] theorem setPkg_pntimer (a : Arch) (p : Nat) (k : Pkg) : (a.setPkg p k).pntimer = a.pntimer := rfl
@[simp] theorem setPkg_slotGen (a : Arch) (p : Nat) (k : Pkg) : (a.setPkg p k).slotGen = a.slotGen := rfl
@[simp] theorem setPkg_locs (a : Arch) (p : Nat) (k : Pkg) : (a.setPkg p k).locs = a.locs := rfl
@[simp] theorem setPkg_punnets (a : Arch) (p : Nat) (k : Pkg) : (a.setPkg p k).punnets = a.punnets := rfl
@[simp] theorem setPkg_gmeta (a : Arch) (p : Nat) (k : Pkg) : (a.setPkg p k).gmeta = a.gmeta := rfl
@[simp] theorem setPkg_bad (a : Arch) (p : Nat) (k : Pkg) : (a.setPkg p k).bad = a.bad := rfl
@[simp] theorem setPkg_lines (a : Arch) (p : Nat) (k : Pkg) : (a.setPkg p k).lines = a.lines := rfl
@[simp] theorem setPkg_tlb (a : Arch) (p : Nat) (k : Pkg) : (a.setPkg p k).tlb = a.tlb := rfl
@[simp] theorem setPkg_icache (a : Arch) (p : Nat) (k : Pkg) : (a.setPkg p k).icache = a.icache := rfl
@[simp] theorem setPkg_ctxs (a : Arch) (p : Nat) (k : Pkg) : (a.setPkg p k).ctxs = a.ctxs := rfl
@[simp] theorem setPkg_keys (a : Arch) (p : Nat) (k : Pkg) : (a.setPkg p k).keys = a.keys := rfl
@[simp] theorem setPkg_images (a : Arch) (p : Nat) (k : Pkg) : (a.setPkg p k).images = a.images := rfl
@[simp] theorem setPkg_pairs (a : Arch) (p : Nat) (k : Pkg) : (a.setPkg p k).pairs = a.pairs := rfl
@[simp] theorem setPkg_queues (a : Arch) (p : Nat) (k : Pkg) : (a.setPkg p k).queues = a.queues := rfl
@[simp] theorem setPkg_comms (a : Arch) (p : Nat) (k : Pkg) : (a.setPkg p k).comms = a.comms := rfl
@[simp] theorem setPkg_flights (a : Arch) (p : Nat) (k : Pkg) : (a.setPkg p k).flights = a.flights := rfl
@[simp] theorem setPkg_replays (a : Arch) (p : Nat) (k : Pkg) : (a.setPkg p k).replays = a.replays := rfl
@[simp] theorem setPkg_chunks (a : Arch) (p : Nat) (k : Pkg) : (a.setPkg p k).chunks = a.chunks := rfl
@[simp] theorem setPkg_arrivals (a : Arch) (p : Nat) (k : Pkg) : (a.setPkg p k).arrivals = a.arrivals := rfl
@[simp] theorem setPkg_trees (a : Arch) (p : Nat) (k : Pkg) : (a.setPkg p k).trees = a.trees := rfl
@[simp] theorem setPkg_crews (a : Arch) (p : Nat) (k : Pkg) : (a.setPkg p k).crews = a.crews := rfl
@[simp] theorem setPkg_threads (a : Arch) (p : Nat) (k : Pkg) : (a.setPkg p k).threads = a.threads := rfl
@[simp] theorem setPkg_ops (a : Arch) (p : Nat) (k : Pkg) : (a.setPkg p k).ops = a.ops := rfl
@[simp] theorem setPkg_cmds (a : Arch) (p : Nat) (k : Pkg) : (a.setPkg p k).cmds = a.cmds := rfl
@[simp] theorem setPkg_reds (a : Arch) (p : Nat) (k : Pkg) : (a.setPkg p k).reds = a.reds := rfl
@[simp] theorem setPkg_slice (a : Arch) (p : Nat) (k : Pkg) : (a.setPkg p k).slice = a.slice := rfl
@[simp] theorem setPkg_landings (a : Arch) (p : Nat) (k : Pkg) : (a.setPkg p k).landings = a.landings := rfl
@[simp] theorem setPkg_sends (a : Arch) (p : Nat) (k : Pkg) : (a.setPkg p k).sends = a.sends := rfl
@[simp] theorem setPkg_sums (a : Arch) (p : Nat) (k : Pkg) : (a.setPkg p k).sums = a.sums := rfl
@[simp] theorem setPkg_fetches (a : Arch) (p : Nat) (k : Pkg) : (a.setPkg p k).fetches = a.fetches := rfl
@[simp] theorem setPkg_pres (a : Arch) (p : Nat) (k : Pkg) : (a.setPkg p k).pres = a.pres := rfl
@[simp] theorem setPkg_nextId (a : Arch) (p : Nat) (k : Pkg) : (a.setPkg p k).nextId = a.nextId := rfl
@[simp] theorem setPkg_free (a : Arch) (p : Nat) (k : Pkg) : (a.setPkg p k).free = a.free := rfl
@[simp] theorem setPkg_missing (a : Arch) (p : Nat) (k : Pkg) : (a.setPkg p k).missing = a.missing := rfl
@[simp] theorem setPkg_held (a : Arch) (p : Nat) (k : Pkg) : (a.setPkg p k).held = a.held := rfl
@[simp] theorem setPkg_rels (a : Arch) (p : Nat) (k : Pkg) : (a.setPkg p k).rels = a.rels := rfl
@[simp] theorem setPkg_early (a : Arch) (p : Nat) (k : Pkg) : (a.setPkg p k).early = a.early := rfl

@[simp] theorem setBerth_pkgs (a : Arch) (p b : Nat) (k : Berth) : (a.setBerth p b k).pkgs = a.pkgs := rfl
@[simp] theorem setBerth_pntimer (a : Arch) (p b : Nat) (k : Berth) : (a.setBerth p b k).pntimer = a.pntimer := rfl
@[simp] theorem setBerth_slotGen (a : Arch) (p b : Nat) (k : Berth) : (a.setBerth p b k).slotGen = a.slotGen := rfl
@[simp] theorem setBerth_locs (a : Arch) (p b : Nat) (k : Berth) : (a.setBerth p b k).locs = a.locs := rfl
@[simp] theorem setBerth_punnets (a : Arch) (p b : Nat) (k : Berth) : (a.setBerth p b k).punnets = a.punnets := rfl
@[simp] theorem setBerth_gmeta (a : Arch) (p b : Nat) (k : Berth) : (a.setBerth p b k).gmeta = a.gmeta := rfl
@[simp] theorem setBerth_bad (a : Arch) (p b : Nat) (k : Berth) : (a.setBerth p b k).bad = a.bad := rfl
@[simp] theorem setBerth_lines (a : Arch) (p b : Nat) (k : Berth) : (a.setBerth p b k).lines = a.lines := rfl
@[simp] theorem setBerth_tlb (a : Arch) (p b : Nat) (k : Berth) : (a.setBerth p b k).tlb = a.tlb := rfl
@[simp] theorem setBerth_icache (a : Arch) (p b : Nat) (k : Berth) : (a.setBerth p b k).icache = a.icache := rfl
@[simp] theorem setBerth_ctxs (a : Arch) (p b : Nat) (k : Berth) : (a.setBerth p b k).ctxs = a.ctxs := rfl
@[simp] theorem setBerth_keys (a : Arch) (p b : Nat) (k : Berth) : (a.setBerth p b k).keys = a.keys := rfl
@[simp] theorem setBerth_images (a : Arch) (p b : Nat) (k : Berth) : (a.setBerth p b k).images = a.images := rfl
@[simp] theorem setBerth_pairs (a : Arch) (p b : Nat) (k : Berth) : (a.setBerth p b k).pairs = a.pairs := rfl
@[simp] theorem setBerth_queues (a : Arch) (p b : Nat) (k : Berth) : (a.setBerth p b k).queues = a.queues := rfl
@[simp] theorem setBerth_comms (a : Arch) (p b : Nat) (k : Berth) : (a.setBerth p b k).comms = a.comms := rfl
@[simp] theorem setBerth_flights (a : Arch) (p b : Nat) (k : Berth) : (a.setBerth p b k).flights = a.flights := rfl
@[simp] theorem setBerth_replays (a : Arch) (p b : Nat) (k : Berth) : (a.setBerth p b k).replays = a.replays := rfl
@[simp] theorem setBerth_chunks (a : Arch) (p b : Nat) (k : Berth) : (a.setBerth p b k).chunks = a.chunks := rfl
@[simp] theorem setBerth_arrivals (a : Arch) (p b : Nat) (k : Berth) : (a.setBerth p b k).arrivals = a.arrivals := rfl
@[simp] theorem setBerth_trees (a : Arch) (p b : Nat) (k : Berth) : (a.setBerth p b k).trees = a.trees := rfl
@[simp] theorem setBerth_crews (a : Arch) (p b : Nat) (k : Berth) : (a.setBerth p b k).crews = a.crews := rfl
@[simp] theorem setBerth_threads (a : Arch) (p b : Nat) (k : Berth) : (a.setBerth p b k).threads = a.threads := rfl
@[simp] theorem setBerth_ops (a : Arch) (p b : Nat) (k : Berth) : (a.setBerth p b k).ops = a.ops := rfl
@[simp] theorem setBerth_cmds (a : Arch) (p b : Nat) (k : Berth) : (a.setBerth p b k).cmds = a.cmds := rfl
@[simp] theorem setBerth_reds (a : Arch) (p b : Nat) (k : Berth) : (a.setBerth p b k).reds = a.reds := rfl
@[simp] theorem setBerth_slice (a : Arch) (p b : Nat) (k : Berth) : (a.setBerth p b k).slice = a.slice := rfl
@[simp] theorem setBerth_landings (a : Arch) (p b : Nat) (k : Berth) : (a.setBerth p b k).landings = a.landings := rfl
@[simp] theorem setBerth_sends (a : Arch) (p b : Nat) (k : Berth) : (a.setBerth p b k).sends = a.sends := rfl
@[simp] theorem setBerth_sums (a : Arch) (p b : Nat) (k : Berth) : (a.setBerth p b k).sums = a.sums := rfl
@[simp] theorem setBerth_fetches (a : Arch) (p b : Nat) (k : Berth) : (a.setBerth p b k).fetches = a.fetches := rfl
@[simp] theorem setBerth_pres (a : Arch) (p b : Nat) (k : Berth) : (a.setBerth p b k).pres = a.pres := rfl
@[simp] theorem setBerth_nextId (a : Arch) (p b : Nat) (k : Berth) : (a.setBerth p b k).nextId = a.nextId := rfl
@[simp] theorem setBerth_free (a : Arch) (p b : Nat) (k : Berth) : (a.setBerth p b k).free = a.free := rfl
@[simp] theorem setBerth_missing (a : Arch) (p b : Nat) (k : Berth) : (a.setBerth p b k).missing = a.missing := rfl
@[simp] theorem setBerth_held (a : Arch) (p b : Nat) (k : Berth) : (a.setBerth p b k).held = a.held := rfl
@[simp] theorem setBerth_rels (a : Arch) (p b : Nat) (k : Berth) : (a.setBerth p b k).rels = a.rels := rfl
@[simp] theorem setBerth_early (a : Arch) (p b : Nat) (k : Berth) : (a.setBerth p b k).early = a.early := rfl

@[simp] theorem setCrew_pkgs (a : Arch) (k : Crew) : (a.setCrew k).pkgs = a.pkgs := rfl
@[simp] theorem setCrew_berths (a : Arch) (k : Crew) : (a.setCrew k).berths = a.berths := rfl
@[simp] theorem setCrew_pntimer (a : Arch) (k : Crew) : (a.setCrew k).pntimer = a.pntimer := rfl
@[simp] theorem setCrew_slotGen (a : Arch) (k : Crew) : (a.setCrew k).slotGen = a.slotGen := rfl
@[simp] theorem setCrew_locs (a : Arch) (k : Crew) : (a.setCrew k).locs = a.locs := rfl
@[simp] theorem setCrew_punnets (a : Arch) (k : Crew) : (a.setCrew k).punnets = a.punnets := rfl
@[simp] theorem setCrew_gmeta (a : Arch) (k : Crew) : (a.setCrew k).gmeta = a.gmeta := rfl
@[simp] theorem setCrew_bad (a : Arch) (k : Crew) : (a.setCrew k).bad = a.bad := rfl
@[simp] theorem setCrew_lines (a : Arch) (k : Crew) : (a.setCrew k).lines = a.lines := rfl
@[simp] theorem setCrew_tlb (a : Arch) (k : Crew) : (a.setCrew k).tlb = a.tlb := rfl
@[simp] theorem setCrew_icache (a : Arch) (k : Crew) : (a.setCrew k).icache = a.icache := rfl
@[simp] theorem setCrew_ctxs (a : Arch) (k : Crew) : (a.setCrew k).ctxs = a.ctxs := rfl
@[simp] theorem setCrew_keys (a : Arch) (k : Crew) : (a.setCrew k).keys = a.keys := rfl
@[simp] theorem setCrew_images (a : Arch) (k : Crew) : (a.setCrew k).images = a.images := rfl
@[simp] theorem setCrew_pairs (a : Arch) (k : Crew) : (a.setCrew k).pairs = a.pairs := rfl
@[simp] theorem setCrew_queues (a : Arch) (k : Crew) : (a.setCrew k).queues = a.queues := rfl
@[simp] theorem setCrew_comms (a : Arch) (k : Crew) : (a.setCrew k).comms = a.comms := rfl
@[simp] theorem setCrew_flights (a : Arch) (k : Crew) : (a.setCrew k).flights = a.flights := rfl
@[simp] theorem setCrew_replays (a : Arch) (k : Crew) : (a.setCrew k).replays = a.replays := rfl
@[simp] theorem setCrew_chunks (a : Arch) (k : Crew) : (a.setCrew k).chunks = a.chunks := rfl
@[simp] theorem setCrew_arrivals (a : Arch) (k : Crew) : (a.setCrew k).arrivals = a.arrivals := rfl
@[simp] theorem setCrew_trees (a : Arch) (k : Crew) : (a.setCrew k).trees = a.trees := rfl
@[simp] theorem setCrew_threads (a : Arch) (k : Crew) : (a.setCrew k).threads = a.threads := rfl
@[simp] theorem setCrew_ops (a : Arch) (k : Crew) : (a.setCrew k).ops = a.ops := rfl
@[simp] theorem setCrew_cmds (a : Arch) (k : Crew) : (a.setCrew k).cmds = a.cmds := rfl
@[simp] theorem setCrew_reds (a : Arch) (k : Crew) : (a.setCrew k).reds = a.reds := rfl
@[simp] theorem setCrew_slice (a : Arch) (k : Crew) : (a.setCrew k).slice = a.slice := rfl
@[simp] theorem setCrew_landings (a : Arch) (k : Crew) : (a.setCrew k).landings = a.landings := rfl
@[simp] theorem setCrew_sends (a : Arch) (k : Crew) : (a.setCrew k).sends = a.sends := rfl
@[simp] theorem setCrew_sums (a : Arch) (k : Crew) : (a.setCrew k).sums = a.sums := rfl
@[simp] theorem setCrew_fetches (a : Arch) (k : Crew) : (a.setCrew k).fetches = a.fetches := rfl
@[simp] theorem setCrew_pres (a : Arch) (k : Crew) : (a.setCrew k).pres = a.pres := rfl
@[simp] theorem setCrew_nextId (a : Arch) (k : Crew) : (a.setCrew k).nextId = a.nextId := rfl
@[simp] theorem setCrew_free (a : Arch) (k : Crew) : (a.setCrew k).free = a.free := rfl
@[simp] theorem setCrew_missing (a : Arch) (k : Crew) : (a.setCrew k).missing = a.missing := rfl
@[simp] theorem setCrew_held (a : Arch) (k : Crew) : (a.setCrew k).held = a.held := rfl
@[simp] theorem setCrew_rels (a : Arch) (k : Crew) : (a.setCrew k).rels = a.rels := rfl
@[simp] theorem setCrew_early (a : Arch) (k : Crew) : (a.setCrew k).early = a.early := rfl

/-! ## Threads -/

@[simp] theorem setV_uid (t : Thread) (r l : Nat) (x : W32) : (t.setV r l x).uid = t.uid := rfl
@[simp] theorem setV_ctx (t : Thread) (r l : Nat) (x : W32) : (t.setV r l x).ctx = t.ctx := rfl
@[simp] theorem setV_level (t : Thread) (r l : Nat) (x : W32) : (t.setV r l x).level = t.level := rfl
@[simp] theorem setV_tree (t : Thread) (r l : Nat) (x : W32) : (t.setV r l x).tree = t.tree := rfl
@[simp] theorem setV_parent (t : Thread) (r l : Nat) (x : W32) : (t.setV r l x).parent = t.parent := rfl
@[simp] theorem setV_launch (t : Thread) (r l : Nat) (x : W32) : (t.setV r l x).launch = t.launch := rfl
@[simp] theorem setV_tile (t : Thread) (r l : Nat) (x : W32) : (t.setV r l x).tile = t.tile := rfl
@[simp] theorem setV_ntiles (t : Thread) (r l : Nat) (x : W32) : (t.setV r l x).ntiles = t.ntiles := rfl
@[simp] theorem setV_desc (t : Thread) (r l : Nat) (x : W32) : (t.setV r l x).desc = t.desc := rfl
@[simp] theorem setV_unit (t : Thread) (r l : Nat) (x : W32) : (t.setV r l x).unit = t.unit := rfl
@[simp] theorem setV_slot (t : Thread) (r l : Nat) (x : W32) : (t.setV r l x).slot = t.slot := rfl
@[simp] theorem setV_waveid (t : Thread) (r l : Nat) (x : W32) : (t.setV r l x).waveid = t.waveid := rfl
@[simp] theorem setV_wavegen (t : Thread) (r l : Nat) (x : W32) : (t.setV r l x).wavegen = t.wavegen := rfl
@[simp] theorem setV_crew (t : Thread) (r l : Nat) (x : W32) : (t.setV r l x).crew = t.crew := rfl
@[simp] theorem setV_wnum (t : Thread) (r l : Nat) (x : W32) : (t.setV r l x).wnum = t.wnum := rfl
@[simp] theorem setV_role (t : Thread) (r l : Nat) (x : W32) : (t.setV r l x).role = t.role := rfl
@[simp] theorem setV_spawned (t : Thread) (r l : Nat) (x : W32) : (t.setV r l x).spawned = t.spawned := rfl
@[simp] theorem setV_alloc (t : Thread) (r l : Nat) (x : W32) : (t.setV r l x).alloc = t.alloc := rfl
@[simp] theorem setV_age (t : Thread) (r l : Nat) (x : W32) : (t.setV r l x).age = t.age := rfl
@[simp] theorem setV_phase (t : Thread) (r l : Nat) (x : W32) : (t.setV r l x).phase = t.phase := rfl
@[simp] theorem setV_sr (t : Thread) (r l : Nat) (x : W32) : (t.setV r l x).sr = t.sr := rfl
@[simp] theorem setV_front (t : Thread) (r l : Nat) (x : W32) : (t.setV r l x).front = t.front := rfl
@[simp] theorem setV_clause (t : Thread) (r l : Nat) (x : W32) : (t.setV r l x).clause = t.clause := rfl
@[simp] theorem setV_wait (t : Thread) (r l : Nat) (x : W32) : (t.setV r l x).wait = t.wait := rfl
@[simp] theorem setV_tm (t : Thread) (r l : Nat) (x : W32) : (t.setV r l x).tm = t.tm := rfl
@[simp] theorem setV_halted (t : Thread) (r l : Nat) (x : W32) : (t.setV r l x).halted = t.halted := rfl
@[simp] theorem setV_haltPc (t : Thread) (r l : Nat) (x : W32) : (t.setV r l x).haltPc = t.haltPc := rfl
@[simp] theorem setV_bank (t : Thread) (r l : Nat) (x : W32) : (t.setV r l x).bank = t.bank := rfl
@[simp] theorem setV_record (t : Thread) (r l : Nat) (x : W32) : (t.setV r l x).record = t.record := rfl
@[simp] theorem setV_frozen (t : Thread) (r l : Nat) (x : W32) : (t.setV r l x).frozen = t.frozen := rfl
@[simp] theorem setV_tmCounts (t : Thread) (r l : Nat) (x : W32) : (t.setV r l x).tmCounts = t.tmCounts := rfl
@[simp] theorem setV_pend (t : Thread) (r l : Nat) (x : W32) : (t.setV r l x).pend = t.pend := rfl
@[simp] theorem setV_repl (t : Thread) (r l : Nat) (x : W32) : (t.setV r l x).repl = t.repl := rfl
@[simp] theorem setV_barGen (t : Thread) (r l : Nat) (x : W32) : (t.setV r l x).barGen = t.barGen := rfl
@[simp] theorem setV_redSeq (t : Thread) (r l : Nat) (x : W32) : (t.setV r l x).redSeq = t.redSeq := rfl
@[simp] theorem setV_pbar (t : Thread) (r l : Nat) (x : W32) : (t.setV r l x).pbar = t.pbar := rfl
@[simp] theorem setV_spec (t : Thread) (r l : Nat) (x : W32) : (t.setV r l x).spec = t.spec := rfl
@[simp] theorem setV_lastPage (t : Thread) (r l : Nat) (x : W32) : (t.setV r l x).lastPage = t.lastPage := rfl
@[simp] theorem setV_promoted (t : Thread) (r l : Nat) (x : W32) : (t.setV r l x).promoted = t.promoted := rfl
@[simp] theorem setV_yielded (t : Thread) (r l : Nat) (x : W32) : (t.setV r l x).yielded = t.yielded := rfl
@[simp] theorem setV_fences (t : Thread) (r l : Nat) (x : W32) : (t.setV r l x).fences = t.fences := rfl
@[simp] theorem setV_saved (t : Thread) (r l : Nat) (x : W32) : (t.setV r l x).saved = t.saved := rfl
@[simp] theorem setV_aborted (t : Thread) (r l : Nat) (x : W32) : (t.setV r l x).aborted = t.aborted := rfl
@[simp] theorem setV_eligible (t : Thread) (r l : Nat) (x : W32) : (t.setV r l x).eligible = t.eligible := rfl
@[simp] theorem setV_mig (t : Thread) (r l : Nat) (x : W32) : (t.setV r l x).mig = t.mig := rfl
@[simp] theorem setV_drained (t : Thread) (r l : Nat) (x : W32) : (t.setV r l x).drained = t.drained := rfl
@[simp] theorem setV_going (t : Thread) (r l : Nat) (x : W32) : (t.setV r l x).going = t.going := rfl
@[simp] theorem setV_acqMx (t : Thread) (r l : Nat) (x : W32) : (t.setV r l x).acqMx = t.acqMx := rfl
@[simp] theorem setV_acqCp (t : Thread) (r l : Nat) (x : W32) : (t.setV r l x).acqCp = t.acqCp := rfl
@[simp] theorem setV_rtFloor (t : Thread) (r l : Nat) (x : W32) : (t.setV r l x).rtFloor = t.rtFloor := rfl
@[simp] theorem setV_acqd (t : Thread) (r l : Nat) (x : W32) : (t.setV r l x).acqd = t.acqd := rfl
@[simp] theorem setV_readRels (t : Thread) (r l : Nat) (x : W32) : (t.setV r l x).readRels = t.readRels := rfl
@[simp] theorem setV_relArr (t : Thread) (r l : Nat) (x : W32) : (t.setV r l x).relArr = t.relArr := rfl

@[simp] theorem setVs_uid (t : Thread) (l : List (Nat × Nat × W32)) : (t.setVs l).uid = t.uid := rfl
@[simp] theorem setVs_ctx (t : Thread) (l : List (Nat × Nat × W32)) : (t.setVs l).ctx = t.ctx := rfl
@[simp] theorem setVs_level (t : Thread) (l : List (Nat × Nat × W32)) : (t.setVs l).level = t.level := rfl
@[simp] theorem setVs_tree (t : Thread) (l : List (Nat × Nat × W32)) : (t.setVs l).tree = t.tree := rfl
@[simp] theorem setVs_parent (t : Thread) (l : List (Nat × Nat × W32)) : (t.setVs l).parent = t.parent := rfl
@[simp] theorem setVs_launch (t : Thread) (l : List (Nat × Nat × W32)) : (t.setVs l).launch = t.launch := rfl
@[simp] theorem setVs_tile (t : Thread) (l : List (Nat × Nat × W32)) : (t.setVs l).tile = t.tile := rfl
@[simp] theorem setVs_ntiles (t : Thread) (l : List (Nat × Nat × W32)) : (t.setVs l).ntiles = t.ntiles := rfl
@[simp] theorem setVs_desc (t : Thread) (l : List (Nat × Nat × W32)) : (t.setVs l).desc = t.desc := rfl
@[simp] theorem setVs_unit (t : Thread) (l : List (Nat × Nat × W32)) : (t.setVs l).unit = t.unit := rfl
@[simp] theorem setVs_slot (t : Thread) (l : List (Nat × Nat × W32)) : (t.setVs l).slot = t.slot := rfl
@[simp] theorem setVs_waveid (t : Thread) (l : List (Nat × Nat × W32)) : (t.setVs l).waveid = t.waveid := rfl
@[simp] theorem setVs_wavegen (t : Thread) (l : List (Nat × Nat × W32)) : (t.setVs l).wavegen = t.wavegen := rfl
@[simp] theorem setVs_crew (t : Thread) (l : List (Nat × Nat × W32)) : (t.setVs l).crew = t.crew := rfl
@[simp] theorem setVs_wnum (t : Thread) (l : List (Nat × Nat × W32)) : (t.setVs l).wnum = t.wnum := rfl
@[simp] theorem setVs_role (t : Thread) (l : List (Nat × Nat × W32)) : (t.setVs l).role = t.role := rfl
@[simp] theorem setVs_spawned (t : Thread) (l : List (Nat × Nat × W32)) : (t.setVs l).spawned = t.spawned := rfl
@[simp] theorem setVs_alloc (t : Thread) (l : List (Nat × Nat × W32)) : (t.setVs l).alloc = t.alloc := rfl
@[simp] theorem setVs_age (t : Thread) (l : List (Nat × Nat × W32)) : (t.setVs l).age = t.age := rfl
@[simp] theorem setVs_phase (t : Thread) (l : List (Nat × Nat × W32)) : (t.setVs l).phase = t.phase := rfl
@[simp] theorem setVs_sr (t : Thread) (l : List (Nat × Nat × W32)) : (t.setVs l).sr = t.sr := rfl
@[simp] theorem setVs_front (t : Thread) (l : List (Nat × Nat × W32)) : (t.setVs l).front = t.front := rfl
@[simp] theorem setVs_clause (t : Thread) (l : List (Nat × Nat × W32)) : (t.setVs l).clause = t.clause := rfl
@[simp] theorem setVs_wait (t : Thread) (l : List (Nat × Nat × W32)) : (t.setVs l).wait = t.wait := rfl
@[simp] theorem setVs_tm (t : Thread) (l : List (Nat × Nat × W32)) : (t.setVs l).tm = t.tm := rfl
@[simp] theorem setVs_halted (t : Thread) (l : List (Nat × Nat × W32)) : (t.setVs l).halted = t.halted := rfl
@[simp] theorem setVs_haltPc (t : Thread) (l : List (Nat × Nat × W32)) : (t.setVs l).haltPc = t.haltPc := rfl
@[simp] theorem setVs_bank (t : Thread) (l : List (Nat × Nat × W32)) : (t.setVs l).bank = t.bank := rfl
@[simp] theorem setVs_record (t : Thread) (l : List (Nat × Nat × W32)) : (t.setVs l).record = t.record := rfl
@[simp] theorem setVs_frozen (t : Thread) (l : List (Nat × Nat × W32)) : (t.setVs l).frozen = t.frozen := rfl
@[simp] theorem setVs_tmCounts (t : Thread) (l : List (Nat × Nat × W32)) : (t.setVs l).tmCounts = t.tmCounts := rfl
@[simp] theorem setVs_pend (t : Thread) (l : List (Nat × Nat × W32)) : (t.setVs l).pend = t.pend := rfl
@[simp] theorem setVs_repl (t : Thread) (l : List (Nat × Nat × W32)) : (t.setVs l).repl = t.repl := rfl
@[simp] theorem setVs_barGen (t : Thread) (l : List (Nat × Nat × W32)) : (t.setVs l).barGen = t.barGen := rfl
@[simp] theorem setVs_redSeq (t : Thread) (l : List (Nat × Nat × W32)) : (t.setVs l).redSeq = t.redSeq := rfl
@[simp] theorem setVs_pbar (t : Thread) (l : List (Nat × Nat × W32)) : (t.setVs l).pbar = t.pbar := rfl
@[simp] theorem setVs_spec (t : Thread) (l : List (Nat × Nat × W32)) : (t.setVs l).spec = t.spec := rfl
@[simp] theorem setVs_lastPage (t : Thread) (l : List (Nat × Nat × W32)) : (t.setVs l).lastPage = t.lastPage := rfl
@[simp] theorem setVs_promoted (t : Thread) (l : List (Nat × Nat × W32)) : (t.setVs l).promoted = t.promoted := rfl
@[simp] theorem setVs_yielded (t : Thread) (l : List (Nat × Nat × W32)) : (t.setVs l).yielded = t.yielded := rfl
@[simp] theorem setVs_fences (t : Thread) (l : List (Nat × Nat × W32)) : (t.setVs l).fences = t.fences := rfl
@[simp] theorem setVs_saved (t : Thread) (l : List (Nat × Nat × W32)) : (t.setVs l).saved = t.saved := rfl
@[simp] theorem setVs_aborted (t : Thread) (l : List (Nat × Nat × W32)) : (t.setVs l).aborted = t.aborted := rfl
@[simp] theorem setVs_eligible (t : Thread) (l : List (Nat × Nat × W32)) : (t.setVs l).eligible = t.eligible := rfl
@[simp] theorem setVs_mig (t : Thread) (l : List (Nat × Nat × W32)) : (t.setVs l).mig = t.mig := rfl
@[simp] theorem setVs_drained (t : Thread) (l : List (Nat × Nat × W32)) : (t.setVs l).drained = t.drained := rfl
@[simp] theorem setVs_going (t : Thread) (l : List (Nat × Nat × W32)) : (t.setVs l).going = t.going := rfl
@[simp] theorem setVs_acqMx (t : Thread) (l : List (Nat × Nat × W32)) : (t.setVs l).acqMx = t.acqMx := rfl
@[simp] theorem setVs_acqCp (t : Thread) (l : List (Nat × Nat × W32)) : (t.setVs l).acqCp = t.acqCp := rfl
@[simp] theorem setVs_rtFloor (t : Thread) (l : List (Nat × Nat × W32)) : (t.setVs l).rtFloor = t.rtFloor := rfl
@[simp] theorem setVs_acqd (t : Thread) (l : List (Nat × Nat × W32)) : (t.setVs l).acqd = t.acqd := rfl
@[simp] theorem setVs_readRels (t : Thread) (l : List (Nat × Nat × W32)) : (t.setVs l).readRels = t.readRels := rfl
@[simp] theorem setVs_relArr (t : Thread) (l : List (Nat × Nat × W32)) : (t.setVs l).relArr = t.relArr := rfl

@[simp] theorem setXs_uid (t : Thread) (l : List (Nat × Nat × BitVec 16)) : (t.setXs l).uid = t.uid := rfl
@[simp] theorem setXs_ctx (t : Thread) (l : List (Nat × Nat × BitVec 16)) : (t.setXs l).ctx = t.ctx := rfl
@[simp] theorem setXs_level (t : Thread) (l : List (Nat × Nat × BitVec 16)) : (t.setXs l).level = t.level := rfl
@[simp] theorem setXs_tree (t : Thread) (l : List (Nat × Nat × BitVec 16)) : (t.setXs l).tree = t.tree := rfl
@[simp] theorem setXs_parent (t : Thread) (l : List (Nat × Nat × BitVec 16)) : (t.setXs l).parent = t.parent := rfl
@[simp] theorem setXs_launch (t : Thread) (l : List (Nat × Nat × BitVec 16)) : (t.setXs l).launch = t.launch := rfl
@[simp] theorem setXs_tile (t : Thread) (l : List (Nat × Nat × BitVec 16)) : (t.setXs l).tile = t.tile := rfl
@[simp] theorem setXs_ntiles (t : Thread) (l : List (Nat × Nat × BitVec 16)) : (t.setXs l).ntiles = t.ntiles := rfl
@[simp] theorem setXs_desc (t : Thread) (l : List (Nat × Nat × BitVec 16)) : (t.setXs l).desc = t.desc := rfl
@[simp] theorem setXs_unit (t : Thread) (l : List (Nat × Nat × BitVec 16)) : (t.setXs l).unit = t.unit := rfl
@[simp] theorem setXs_slot (t : Thread) (l : List (Nat × Nat × BitVec 16)) : (t.setXs l).slot = t.slot := rfl
@[simp] theorem setXs_waveid (t : Thread) (l : List (Nat × Nat × BitVec 16)) : (t.setXs l).waveid = t.waveid := rfl
@[simp] theorem setXs_wavegen (t : Thread) (l : List (Nat × Nat × BitVec 16)) : (t.setXs l).wavegen = t.wavegen := rfl
@[simp] theorem setXs_crew (t : Thread) (l : List (Nat × Nat × BitVec 16)) : (t.setXs l).crew = t.crew := rfl
@[simp] theorem setXs_wnum (t : Thread) (l : List (Nat × Nat × BitVec 16)) : (t.setXs l).wnum = t.wnum := rfl
@[simp] theorem setXs_role (t : Thread) (l : List (Nat × Nat × BitVec 16)) : (t.setXs l).role = t.role := rfl
@[simp] theorem setXs_spawned (t : Thread) (l : List (Nat × Nat × BitVec 16)) : (t.setXs l).spawned = t.spawned := rfl
@[simp] theorem setXs_alloc (t : Thread) (l : List (Nat × Nat × BitVec 16)) : (t.setXs l).alloc = t.alloc := rfl
@[simp] theorem setXs_age (t : Thread) (l : List (Nat × Nat × BitVec 16)) : (t.setXs l).age = t.age := rfl
@[simp] theorem setXs_phase (t : Thread) (l : List (Nat × Nat × BitVec 16)) : (t.setXs l).phase = t.phase := rfl
@[simp] theorem setXs_sr (t : Thread) (l : List (Nat × Nat × BitVec 16)) : (t.setXs l).sr = t.sr := rfl
@[simp] theorem setXs_front (t : Thread) (l : List (Nat × Nat × BitVec 16)) : (t.setXs l).front = t.front := rfl
@[simp] theorem setXs_clause (t : Thread) (l : List (Nat × Nat × BitVec 16)) : (t.setXs l).clause = t.clause := rfl
@[simp] theorem setXs_wait (t : Thread) (l : List (Nat × Nat × BitVec 16)) : (t.setXs l).wait = t.wait := rfl
@[simp] theorem setXs_tm (t : Thread) (l : List (Nat × Nat × BitVec 16)) : (t.setXs l).tm = t.tm := rfl
@[simp] theorem setXs_halted (t : Thread) (l : List (Nat × Nat × BitVec 16)) : (t.setXs l).halted = t.halted := rfl
@[simp] theorem setXs_haltPc (t : Thread) (l : List (Nat × Nat × BitVec 16)) : (t.setXs l).haltPc = t.haltPc := rfl
@[simp] theorem setXs_bank (t : Thread) (l : List (Nat × Nat × BitVec 16)) : (t.setXs l).bank = t.bank := rfl
@[simp] theorem setXs_record (t : Thread) (l : List (Nat × Nat × BitVec 16)) : (t.setXs l).record = t.record := rfl
@[simp] theorem setXs_frozen (t : Thread) (l : List (Nat × Nat × BitVec 16)) : (t.setXs l).frozen = t.frozen := rfl
@[simp] theorem setXs_tmCounts (t : Thread) (l : List (Nat × Nat × BitVec 16)) : (t.setXs l).tmCounts = t.tmCounts := rfl
@[simp] theorem setXs_pend (t : Thread) (l : List (Nat × Nat × BitVec 16)) : (t.setXs l).pend = t.pend := rfl
@[simp] theorem setXs_repl (t : Thread) (l : List (Nat × Nat × BitVec 16)) : (t.setXs l).repl = t.repl := rfl
@[simp] theorem setXs_barGen (t : Thread) (l : List (Nat × Nat × BitVec 16)) : (t.setXs l).barGen = t.barGen := rfl
@[simp] theorem setXs_redSeq (t : Thread) (l : List (Nat × Nat × BitVec 16)) : (t.setXs l).redSeq = t.redSeq := rfl
@[simp] theorem setXs_pbar (t : Thread) (l : List (Nat × Nat × BitVec 16)) : (t.setXs l).pbar = t.pbar := rfl
@[simp] theorem setXs_spec (t : Thread) (l : List (Nat × Nat × BitVec 16)) : (t.setXs l).spec = t.spec := rfl
@[simp] theorem setXs_lastPage (t : Thread) (l : List (Nat × Nat × BitVec 16)) : (t.setXs l).lastPage = t.lastPage := rfl
@[simp] theorem setXs_promoted (t : Thread) (l : List (Nat × Nat × BitVec 16)) : (t.setXs l).promoted = t.promoted := rfl
@[simp] theorem setXs_yielded (t : Thread) (l : List (Nat × Nat × BitVec 16)) : (t.setXs l).yielded = t.yielded := rfl
@[simp] theorem setXs_fences (t : Thread) (l : List (Nat × Nat × BitVec 16)) : (t.setXs l).fences = t.fences := rfl
@[simp] theorem setXs_saved (t : Thread) (l : List (Nat × Nat × BitVec 16)) : (t.setXs l).saved = t.saved := rfl
@[simp] theorem setXs_aborted (t : Thread) (l : List (Nat × Nat × BitVec 16)) : (t.setXs l).aborted = t.aborted := rfl
@[simp] theorem setXs_eligible (t : Thread) (l : List (Nat × Nat × BitVec 16)) : (t.setXs l).eligible = t.eligible := rfl
@[simp] theorem setXs_mig (t : Thread) (l : List (Nat × Nat × BitVec 16)) : (t.setXs l).mig = t.mig := rfl
@[simp] theorem setXs_drained (t : Thread) (l : List (Nat × Nat × BitVec 16)) : (t.setXs l).drained = t.drained := rfl
@[simp] theorem setXs_going (t : Thread) (l : List (Nat × Nat × BitVec 16)) : (t.setXs l).going = t.going := rfl
@[simp] theorem setXs_acqMx (t : Thread) (l : List (Nat × Nat × BitVec 16)) : (t.setXs l).acqMx = t.acqMx := rfl
@[simp] theorem setXs_acqCp (t : Thread) (l : List (Nat × Nat × BitVec 16)) : (t.setXs l).acqCp = t.acqCp := rfl
@[simp] theorem setXs_rtFloor (t : Thread) (l : List (Nat × Nat × BitVec 16)) : (t.setXs l).rtFloor = t.rtFloor := rfl
@[simp] theorem setXs_acqd (t : Thread) (l : List (Nat × Nat × BitVec 16)) : (t.setXs l).acqd = t.acqd := rfl
@[simp] theorem setXs_readRels (t : Thread) (l : List (Nat × Nat × BitVec 16)) : (t.setXs l).readRels = t.readRels := rfl
@[simp] theorem setXs_relArr (t : Thread) (l : List (Nat × Nat × BitVec 16)) : (t.setXs l).relArr = t.relArr := rfl

@[simp] theorem setF_uid (t : Thread) (k n : Nat) : (t.setF k n).uid = t.uid := rfl
@[simp] theorem setF_ctx (t : Thread) (k n : Nat) : (t.setF k n).ctx = t.ctx := rfl
@[simp] theorem setF_level (t : Thread) (k n : Nat) : (t.setF k n).level = t.level := rfl
@[simp] theorem setF_tree (t : Thread) (k n : Nat) : (t.setF k n).tree = t.tree := rfl
@[simp] theorem setF_parent (t : Thread) (k n : Nat) : (t.setF k n).parent = t.parent := rfl
@[simp] theorem setF_launch (t : Thread) (k n : Nat) : (t.setF k n).launch = t.launch := rfl
@[simp] theorem setF_tile (t : Thread) (k n : Nat) : (t.setF k n).tile = t.tile := rfl
@[simp] theorem setF_ntiles (t : Thread) (k n : Nat) : (t.setF k n).ntiles = t.ntiles := rfl
@[simp] theorem setF_desc (t : Thread) (k n : Nat) : (t.setF k n).desc = t.desc := rfl
@[simp] theorem setF_unit (t : Thread) (k n : Nat) : (t.setF k n).unit = t.unit := rfl
@[simp] theorem setF_slot (t : Thread) (k n : Nat) : (t.setF k n).slot = t.slot := rfl
@[simp] theorem setF_waveid (t : Thread) (k n : Nat) : (t.setF k n).waveid = t.waveid := rfl
@[simp] theorem setF_wavegen (t : Thread) (k n : Nat) : (t.setF k n).wavegen = t.wavegen := rfl
@[simp] theorem setF_crew (t : Thread) (k n : Nat) : (t.setF k n).crew = t.crew := rfl
@[simp] theorem setF_wnum (t : Thread) (k n : Nat) : (t.setF k n).wnum = t.wnum := rfl
@[simp] theorem setF_role (t : Thread) (k n : Nat) : (t.setF k n).role = t.role := rfl
@[simp] theorem setF_spawned (t : Thread) (k n : Nat) : (t.setF k n).spawned = t.spawned := rfl
@[simp] theorem setF_alloc (t : Thread) (k n : Nat) : (t.setF k n).alloc = t.alloc := rfl
@[simp] theorem setF_age (t : Thread) (k n : Nat) : (t.setF k n).age = t.age := rfl
@[simp] theorem setF_phase (t : Thread) (k n : Nat) : (t.setF k n).phase = t.phase := rfl
@[simp] theorem setF_sr (t : Thread) (k n : Nat) : (t.setF k n).sr = t.sr := rfl
@[simp] theorem setF_front (t : Thread) (k n : Nat) : (t.setF k n).front = t.front := rfl
@[simp] theorem setF_clause (t : Thread) (k n : Nat) : (t.setF k n).clause = t.clause := rfl
@[simp] theorem setF_wait (t : Thread) (k n : Nat) : (t.setF k n).wait = t.wait := rfl
@[simp] theorem setF_tm (t : Thread) (k n : Nat) : (t.setF k n).tm = t.tm := rfl
@[simp] theorem setF_halted (t : Thread) (k n : Nat) : (t.setF k n).halted = t.halted := rfl
@[simp] theorem setF_haltPc (t : Thread) (k n : Nat) : (t.setF k n).haltPc = t.haltPc := rfl
@[simp] theorem setF_bank (t : Thread) (k n : Nat) : (t.setF k n).bank = t.bank := rfl
@[simp] theorem setF_record (t : Thread) (k n : Nat) : (t.setF k n).record = t.record := rfl
@[simp] theorem setF_frozen (t : Thread) (k n : Nat) : (t.setF k n).frozen = t.frozen := rfl
@[simp] theorem setF_tmCounts (t : Thread) (k n : Nat) : (t.setF k n).tmCounts = t.tmCounts := rfl
@[simp] theorem setF_pend (t : Thread) (k n : Nat) : (t.setF k n).pend = t.pend := rfl
@[simp] theorem setF_repl (t : Thread) (k n : Nat) : (t.setF k n).repl = t.repl := rfl
@[simp] theorem setF_barGen (t : Thread) (k n : Nat) : (t.setF k n).barGen = t.barGen := rfl
@[simp] theorem setF_redSeq (t : Thread) (k n : Nat) : (t.setF k n).redSeq = t.redSeq := rfl
@[simp] theorem setF_pbar (t : Thread) (k n : Nat) : (t.setF k n).pbar = t.pbar := rfl
@[simp] theorem setF_spec (t : Thread) (k n : Nat) : (t.setF k n).spec = t.spec := rfl
@[simp] theorem setF_lastPage (t : Thread) (k n : Nat) : (t.setF k n).lastPage = t.lastPage := rfl
@[simp] theorem setF_promoted (t : Thread) (k n : Nat) : (t.setF k n).promoted = t.promoted := rfl
@[simp] theorem setF_yielded (t : Thread) (k n : Nat) : (t.setF k n).yielded = t.yielded := rfl
@[simp] theorem setF_fences (t : Thread) (k n : Nat) : (t.setF k n).fences = t.fences := rfl
@[simp] theorem setF_saved (t : Thread) (k n : Nat) : (t.setF k n).saved = t.saved := rfl
@[simp] theorem setF_aborted (t : Thread) (k n : Nat) : (t.setF k n).aborted = t.aborted := rfl
@[simp] theorem setF_eligible (t : Thread) (k n : Nat) : (t.setF k n).eligible = t.eligible := rfl
@[simp] theorem setF_mig (t : Thread) (k n : Nat) : (t.setF k n).mig = t.mig := rfl
@[simp] theorem setF_drained (t : Thread) (k n : Nat) : (t.setF k n).drained = t.drained := rfl
@[simp] theorem setF_going (t : Thread) (k n : Nat) : (t.setF k n).going = t.going := rfl
@[simp] theorem setF_acqMx (t : Thread) (k n : Nat) : (t.setF k n).acqMx = t.acqMx := rfl
@[simp] theorem setF_acqCp (t : Thread) (k n : Nat) : (t.setF k n).acqCp = t.acqCp := rfl
@[simp] theorem setF_rtFloor (t : Thread) (k n : Nat) : (t.setF k n).rtFloor = t.rtFloor := rfl
@[simp] theorem setF_acqd (t : Thread) (k n : Nat) : (t.setF k n).acqd = t.acqd := rfl
@[simp] theorem setF_readRels (t : Thread) (k n : Nat) : (t.setF k n).readRels = t.readRels := rfl
@[simp] theorem setF_relArr (t : Thread) (k n : Nat) : (t.setF k n).relArr = t.relArr := rfl

@[simp] theorem clearArr_uid (t : Thread) (r : Nat) (m : Lanes) : (t.clearArr r m).uid = t.uid := rfl
@[simp] theorem clearArr_ctx (t : Thread) (r : Nat) (m : Lanes) : (t.clearArr r m).ctx = t.ctx := rfl
@[simp] theorem clearArr_level (t : Thread) (r : Nat) (m : Lanes) : (t.clearArr r m).level = t.level := rfl
@[simp] theorem clearArr_tree (t : Thread) (r : Nat) (m : Lanes) : (t.clearArr r m).tree = t.tree := rfl
@[simp] theorem clearArr_parent (t : Thread) (r : Nat) (m : Lanes) : (t.clearArr r m).parent = t.parent := rfl
@[simp] theorem clearArr_launch (t : Thread) (r : Nat) (m : Lanes) : (t.clearArr r m).launch = t.launch := rfl
@[simp] theorem clearArr_tile (t : Thread) (r : Nat) (m : Lanes) : (t.clearArr r m).tile = t.tile := rfl
@[simp] theorem clearArr_ntiles (t : Thread) (r : Nat) (m : Lanes) : (t.clearArr r m).ntiles = t.ntiles := rfl
@[simp] theorem clearArr_desc (t : Thread) (r : Nat) (m : Lanes) : (t.clearArr r m).desc = t.desc := rfl
@[simp] theorem clearArr_unit (t : Thread) (r : Nat) (m : Lanes) : (t.clearArr r m).unit = t.unit := rfl
@[simp] theorem clearArr_slot (t : Thread) (r : Nat) (m : Lanes) : (t.clearArr r m).slot = t.slot := rfl
@[simp] theorem clearArr_waveid (t : Thread) (r : Nat) (m : Lanes) : (t.clearArr r m).waveid = t.waveid := rfl
@[simp] theorem clearArr_wavegen (t : Thread) (r : Nat) (m : Lanes) : (t.clearArr r m).wavegen = t.wavegen := rfl
@[simp] theorem clearArr_crew (t : Thread) (r : Nat) (m : Lanes) : (t.clearArr r m).crew = t.crew := rfl
@[simp] theorem clearArr_wnum (t : Thread) (r : Nat) (m : Lanes) : (t.clearArr r m).wnum = t.wnum := rfl
@[simp] theorem clearArr_role (t : Thread) (r : Nat) (m : Lanes) : (t.clearArr r m).role = t.role := rfl
@[simp] theorem clearArr_spawned (t : Thread) (r : Nat) (m : Lanes) : (t.clearArr r m).spawned = t.spawned := rfl
@[simp] theorem clearArr_alloc (t : Thread) (r : Nat) (m : Lanes) : (t.clearArr r m).alloc = t.alloc := rfl
@[simp] theorem clearArr_age (t : Thread) (r : Nat) (m : Lanes) : (t.clearArr r m).age = t.age := rfl
@[simp] theorem clearArr_phase (t : Thread) (r : Nat) (m : Lanes) : (t.clearArr r m).phase = t.phase := rfl
@[simp] theorem clearArr_sr (t : Thread) (r : Nat) (m : Lanes) : (t.clearArr r m).sr = t.sr := rfl
@[simp] theorem clearArr_front (t : Thread) (r : Nat) (m : Lanes) : (t.clearArr r m).front = t.front := rfl
@[simp] theorem clearArr_clause (t : Thread) (r : Nat) (m : Lanes) : (t.clearArr r m).clause = t.clause := rfl
@[simp] theorem clearArr_wait (t : Thread) (r : Nat) (m : Lanes) : (t.clearArr r m).wait = t.wait := rfl
@[simp] theorem clearArr_tm (t : Thread) (r : Nat) (m : Lanes) : (t.clearArr r m).tm = t.tm := rfl
@[simp] theorem clearArr_halted (t : Thread) (r : Nat) (m : Lanes) : (t.clearArr r m).halted = t.halted := rfl
@[simp] theorem clearArr_haltPc (t : Thread) (r : Nat) (m : Lanes) : (t.clearArr r m).haltPc = t.haltPc := rfl
@[simp] theorem clearArr_bank (t : Thread) (r : Nat) (m : Lanes) : (t.clearArr r m).bank = t.bank := rfl
@[simp] theorem clearArr_record (t : Thread) (r : Nat) (m : Lanes) : (t.clearArr r m).record = t.record := rfl
@[simp] theorem clearArr_frozen (t : Thread) (r : Nat) (m : Lanes) : (t.clearArr r m).frozen = t.frozen := rfl
@[simp] theorem clearArr_tmCounts (t : Thread) (r : Nat) (m : Lanes) : (t.clearArr r m).tmCounts = t.tmCounts := rfl
@[simp] theorem clearArr_pend (t : Thread) (r : Nat) (m : Lanes) : (t.clearArr r m).pend = t.pend := rfl
@[simp] theorem clearArr_repl (t : Thread) (r : Nat) (m : Lanes) : (t.clearArr r m).repl = t.repl := rfl
@[simp] theorem clearArr_barGen (t : Thread) (r : Nat) (m : Lanes) : (t.clearArr r m).barGen = t.barGen := rfl
@[simp] theorem clearArr_redSeq (t : Thread) (r : Nat) (m : Lanes) : (t.clearArr r m).redSeq = t.redSeq := rfl
@[simp] theorem clearArr_pbar (t : Thread) (r : Nat) (m : Lanes) : (t.clearArr r m).pbar = t.pbar := rfl
@[simp] theorem clearArr_spec (t : Thread) (r : Nat) (m : Lanes) : (t.clearArr r m).spec = t.spec := rfl
@[simp] theorem clearArr_lastPage (t : Thread) (r : Nat) (m : Lanes) : (t.clearArr r m).lastPage = t.lastPage := rfl
@[simp] theorem clearArr_promoted (t : Thread) (r : Nat) (m : Lanes) : (t.clearArr r m).promoted = t.promoted := rfl
@[simp] theorem clearArr_yielded (t : Thread) (r : Nat) (m : Lanes) : (t.clearArr r m).yielded = t.yielded := rfl
@[simp] theorem clearArr_fences (t : Thread) (r : Nat) (m : Lanes) : (t.clearArr r m).fences = t.fences := rfl
@[simp] theorem clearArr_saved (t : Thread) (r : Nat) (m : Lanes) : (t.clearArr r m).saved = t.saved := rfl
@[simp] theorem clearArr_aborted (t : Thread) (r : Nat) (m : Lanes) : (t.clearArr r m).aborted = t.aborted := rfl
@[simp] theorem clearArr_eligible (t : Thread) (r : Nat) (m : Lanes) : (t.clearArr r m).eligible = t.eligible := rfl
@[simp] theorem clearArr_mig (t : Thread) (r : Nat) (m : Lanes) : (t.clearArr r m).mig = t.mig := rfl
@[simp] theorem clearArr_drained (t : Thread) (r : Nat) (m : Lanes) : (t.clearArr r m).drained = t.drained := rfl
@[simp] theorem clearArr_going (t : Thread) (r : Nat) (m : Lanes) : (t.clearArr r m).going = t.going := rfl
@[simp] theorem clearArr_acqMx (t : Thread) (r : Nat) (m : Lanes) : (t.clearArr r m).acqMx = t.acqMx := rfl
@[simp] theorem clearArr_acqCp (t : Thread) (r : Nat) (m : Lanes) : (t.clearArr r m).acqCp = t.acqCp := rfl
@[simp] theorem clearArr_rtFloor (t : Thread) (r : Nat) (m : Lanes) : (t.clearArr r m).rtFloor = t.rtFloor := rfl
@[simp] theorem clearArr_acqd (t : Thread) (r : Nat) (m : Lanes) : (t.clearArr r m).acqd = t.acqd := rfl
@[simp] theorem clearArr_readRels (t : Thread) (r : Nat) (m : Lanes) : (t.clearArr r m).readRels = t.readRels := rfl
@[simp] theorem clearArr_relArr (t : Thread) (r : Nat) (m : Lanes) : (t.clearArr r m).relArr = t.relArr := rfl

@[simp] theorem setArr_uid (t : Thread) (r : Nat) (m : Lanes) : (t.setArr r m).uid = t.uid := rfl
@[simp] theorem setArr_ctx (t : Thread) (r : Nat) (m : Lanes) : (t.setArr r m).ctx = t.ctx := rfl
@[simp] theorem setArr_level (t : Thread) (r : Nat) (m : Lanes) : (t.setArr r m).level = t.level := rfl
@[simp] theorem setArr_tree (t : Thread) (r : Nat) (m : Lanes) : (t.setArr r m).tree = t.tree := rfl
@[simp] theorem setArr_parent (t : Thread) (r : Nat) (m : Lanes) : (t.setArr r m).parent = t.parent := rfl
@[simp] theorem setArr_launch (t : Thread) (r : Nat) (m : Lanes) : (t.setArr r m).launch = t.launch := rfl
@[simp] theorem setArr_tile (t : Thread) (r : Nat) (m : Lanes) : (t.setArr r m).tile = t.tile := rfl
@[simp] theorem setArr_ntiles (t : Thread) (r : Nat) (m : Lanes) : (t.setArr r m).ntiles = t.ntiles := rfl
@[simp] theorem setArr_desc (t : Thread) (r : Nat) (m : Lanes) : (t.setArr r m).desc = t.desc := rfl
@[simp] theorem setArr_unit (t : Thread) (r : Nat) (m : Lanes) : (t.setArr r m).unit = t.unit := rfl
@[simp] theorem setArr_slot (t : Thread) (r : Nat) (m : Lanes) : (t.setArr r m).slot = t.slot := rfl
@[simp] theorem setArr_waveid (t : Thread) (r : Nat) (m : Lanes) : (t.setArr r m).waveid = t.waveid := rfl
@[simp] theorem setArr_wavegen (t : Thread) (r : Nat) (m : Lanes) : (t.setArr r m).wavegen = t.wavegen := rfl
@[simp] theorem setArr_crew (t : Thread) (r : Nat) (m : Lanes) : (t.setArr r m).crew = t.crew := rfl
@[simp] theorem setArr_wnum (t : Thread) (r : Nat) (m : Lanes) : (t.setArr r m).wnum = t.wnum := rfl
@[simp] theorem setArr_role (t : Thread) (r : Nat) (m : Lanes) : (t.setArr r m).role = t.role := rfl
@[simp] theorem setArr_spawned (t : Thread) (r : Nat) (m : Lanes) : (t.setArr r m).spawned = t.spawned := rfl
@[simp] theorem setArr_alloc (t : Thread) (r : Nat) (m : Lanes) : (t.setArr r m).alloc = t.alloc := rfl
@[simp] theorem setArr_age (t : Thread) (r : Nat) (m : Lanes) : (t.setArr r m).age = t.age := rfl
@[simp] theorem setArr_phase (t : Thread) (r : Nat) (m : Lanes) : (t.setArr r m).phase = t.phase := rfl
@[simp] theorem setArr_sr (t : Thread) (r : Nat) (m : Lanes) : (t.setArr r m).sr = t.sr := rfl
@[simp] theorem setArr_front (t : Thread) (r : Nat) (m : Lanes) : (t.setArr r m).front = t.front := rfl
@[simp] theorem setArr_clause (t : Thread) (r : Nat) (m : Lanes) : (t.setArr r m).clause = t.clause := rfl
@[simp] theorem setArr_tm (t : Thread) (r : Nat) (m : Lanes) : (t.setArr r m).tm = t.tm := rfl
@[simp] theorem setArr_halted (t : Thread) (r : Nat) (m : Lanes) : (t.setArr r m).halted = t.halted := rfl
@[simp] theorem setArr_haltPc (t : Thread) (r : Nat) (m : Lanes) : (t.setArr r m).haltPc = t.haltPc := rfl
@[simp] theorem setArr_bank (t : Thread) (r : Nat) (m : Lanes) : (t.setArr r m).bank = t.bank := rfl
@[simp] theorem setArr_record (t : Thread) (r : Nat) (m : Lanes) : (t.setArr r m).record = t.record := rfl
@[simp] theorem setArr_frozen (t : Thread) (r : Nat) (m : Lanes) : (t.setArr r m).frozen = t.frozen := rfl
@[simp] theorem setArr_tmCounts (t : Thread) (r : Nat) (m : Lanes) : (t.setArr r m).tmCounts = t.tmCounts := rfl
@[simp] theorem setArr_pend (t : Thread) (r : Nat) (m : Lanes) : (t.setArr r m).pend = t.pend := rfl
@[simp] theorem setArr_repl (t : Thread) (r : Nat) (m : Lanes) : (t.setArr r m).repl = t.repl := rfl
@[simp] theorem setArr_barGen (t : Thread) (r : Nat) (m : Lanes) : (t.setArr r m).barGen = t.barGen := rfl
@[simp] theorem setArr_redSeq (t : Thread) (r : Nat) (m : Lanes) : (t.setArr r m).redSeq = t.redSeq := rfl
@[simp] theorem setArr_pbar (t : Thread) (r : Nat) (m : Lanes) : (t.setArr r m).pbar = t.pbar := rfl
@[simp] theorem setArr_spec (t : Thread) (r : Nat) (m : Lanes) : (t.setArr r m).spec = t.spec := rfl
@[simp] theorem setArr_lastPage (t : Thread) (r : Nat) (m : Lanes) : (t.setArr r m).lastPage = t.lastPage := rfl
@[simp] theorem setArr_promoted (t : Thread) (r : Nat) (m : Lanes) : (t.setArr r m).promoted = t.promoted := rfl
@[simp] theorem setArr_yielded (t : Thread) (r : Nat) (m : Lanes) : (t.setArr r m).yielded = t.yielded := rfl
@[simp] theorem setArr_fences (t : Thread) (r : Nat) (m : Lanes) : (t.setArr r m).fences = t.fences := rfl
@[simp] theorem setArr_saved (t : Thread) (r : Nat) (m : Lanes) : (t.setArr r m).saved = t.saved := rfl
@[simp] theorem setArr_aborted (t : Thread) (r : Nat) (m : Lanes) : (t.setArr r m).aborted = t.aborted := rfl
@[simp] theorem setArr_eligible (t : Thread) (r : Nat) (m : Lanes) : (t.setArr r m).eligible = t.eligible := rfl
@[simp] theorem setArr_mig (t : Thread) (r : Nat) (m : Lanes) : (t.setArr r m).mig = t.mig := rfl
@[simp] theorem setArr_drained (t : Thread) (r : Nat) (m : Lanes) : (t.setArr r m).drained = t.drained := rfl
@[simp] theorem setArr_going (t : Thread) (r : Nat) (m : Lanes) : (t.setArr r m).going = t.going := rfl
@[simp] theorem setArr_acqMx (t : Thread) (r : Nat) (m : Lanes) : (t.setArr r m).acqMx = t.acqMx := rfl
@[simp] theorem setArr_acqCp (t : Thread) (r : Nat) (m : Lanes) : (t.setArr r m).acqCp = t.acqCp := rfl
@[simp] theorem setArr_rtFloor (t : Thread) (r : Nat) (m : Lanes) : (t.setArr r m).rtFloor = t.rtFloor := rfl
@[simp] theorem setArr_acqd (t : Thread) (r : Nat) (m : Lanes) : (t.setArr r m).acqd = t.acqd := rfl
@[simp] theorem setArr_readRels (t : Thread) (r : Nat) (m : Lanes) : (t.setArr r m).readRels = t.readRels := rfl
@[simp] theorem setArr_relArr (t : Thread) (r : Nat) (m : Lanes) : (t.setArr r m).relArr = t.relArr := rfl

@[simp] theorem setOpen_uid (t : Thread) (r : Nat) (b : Bool) : (t.setOpen r b).uid = t.uid := rfl
@[simp] theorem setOpen_ctx (t : Thread) (r : Nat) (b : Bool) : (t.setOpen r b).ctx = t.ctx := rfl
@[simp] theorem setOpen_level (t : Thread) (r : Nat) (b : Bool) : (t.setOpen r b).level = t.level := rfl
@[simp] theorem setOpen_tree (t : Thread) (r : Nat) (b : Bool) : (t.setOpen r b).tree = t.tree := rfl
@[simp] theorem setOpen_parent (t : Thread) (r : Nat) (b : Bool) : (t.setOpen r b).parent = t.parent := rfl
@[simp] theorem setOpen_launch (t : Thread) (r : Nat) (b : Bool) : (t.setOpen r b).launch = t.launch := rfl
@[simp] theorem setOpen_tile (t : Thread) (r : Nat) (b : Bool) : (t.setOpen r b).tile = t.tile := rfl
@[simp] theorem setOpen_ntiles (t : Thread) (r : Nat) (b : Bool) : (t.setOpen r b).ntiles = t.ntiles := rfl
@[simp] theorem setOpen_desc (t : Thread) (r : Nat) (b : Bool) : (t.setOpen r b).desc = t.desc := rfl
@[simp] theorem setOpen_unit (t : Thread) (r : Nat) (b : Bool) : (t.setOpen r b).unit = t.unit := rfl
@[simp] theorem setOpen_slot (t : Thread) (r : Nat) (b : Bool) : (t.setOpen r b).slot = t.slot := rfl
@[simp] theorem setOpen_waveid (t : Thread) (r : Nat) (b : Bool) : (t.setOpen r b).waveid = t.waveid := rfl
@[simp] theorem setOpen_wavegen (t : Thread) (r : Nat) (b : Bool) : (t.setOpen r b).wavegen = t.wavegen := rfl
@[simp] theorem setOpen_crew (t : Thread) (r : Nat) (b : Bool) : (t.setOpen r b).crew = t.crew := rfl
@[simp] theorem setOpen_wnum (t : Thread) (r : Nat) (b : Bool) : (t.setOpen r b).wnum = t.wnum := rfl
@[simp] theorem setOpen_role (t : Thread) (r : Nat) (b : Bool) : (t.setOpen r b).role = t.role := rfl
@[simp] theorem setOpen_spawned (t : Thread) (r : Nat) (b : Bool) : (t.setOpen r b).spawned = t.spawned := rfl
@[simp] theorem setOpen_alloc (t : Thread) (r : Nat) (b : Bool) : (t.setOpen r b).alloc = t.alloc := rfl
@[simp] theorem setOpen_age (t : Thread) (r : Nat) (b : Bool) : (t.setOpen r b).age = t.age := rfl
@[simp] theorem setOpen_phase (t : Thread) (r : Nat) (b : Bool) : (t.setOpen r b).phase = t.phase := rfl
@[simp] theorem setOpen_sr (t : Thread) (r : Nat) (b : Bool) : (t.setOpen r b).sr = t.sr := rfl
@[simp] theorem setOpen_front (t : Thread) (r : Nat) (b : Bool) : (t.setOpen r b).front = t.front := rfl
@[simp] theorem setOpen_clause (t : Thread) (r : Nat) (b : Bool) : (t.setOpen r b).clause = t.clause := rfl
@[simp] theorem setOpen_wait (t : Thread) (r : Nat) (b : Bool) : (t.setOpen r b).wait = t.wait := rfl
@[simp] theorem setOpen_tm (t : Thread) (r : Nat) (b : Bool) : (t.setOpen r b).tm = t.tm := rfl
@[simp] theorem setOpen_halted (t : Thread) (r : Nat) (b : Bool) : (t.setOpen r b).halted = t.halted := rfl
@[simp] theorem setOpen_haltPc (t : Thread) (r : Nat) (b : Bool) : (t.setOpen r b).haltPc = t.haltPc := rfl
@[simp] theorem setOpen_bank (t : Thread) (r : Nat) (b : Bool) : (t.setOpen r b).bank = t.bank := rfl
@[simp] theorem setOpen_record (t : Thread) (r : Nat) (b : Bool) : (t.setOpen r b).record = t.record := rfl
@[simp] theorem setOpen_frozen (t : Thread) (r : Nat) (b : Bool) : (t.setOpen r b).frozen = t.frozen := rfl
@[simp] theorem setOpen_tmCounts (t : Thread) (r : Nat) (b : Bool) : (t.setOpen r b).tmCounts = t.tmCounts := rfl
@[simp] theorem setOpen_pend (t : Thread) (r : Nat) (b : Bool) : (t.setOpen r b).pend = t.pend := rfl
@[simp] theorem setOpen_repl (t : Thread) (r : Nat) (b : Bool) : (t.setOpen r b).repl = t.repl := rfl
@[simp] theorem setOpen_barGen (t : Thread) (r : Nat) (b : Bool) : (t.setOpen r b).barGen = t.barGen := rfl
@[simp] theorem setOpen_redSeq (t : Thread) (r : Nat) (b : Bool) : (t.setOpen r b).redSeq = t.redSeq := rfl
@[simp] theorem setOpen_pbar (t : Thread) (r : Nat) (b : Bool) : (t.setOpen r b).pbar = t.pbar := rfl
@[simp] theorem setOpen_spec (t : Thread) (r : Nat) (b : Bool) : (t.setOpen r b).spec = t.spec := rfl
@[simp] theorem setOpen_lastPage (t : Thread) (r : Nat) (b : Bool) : (t.setOpen r b).lastPage = t.lastPage := rfl
@[simp] theorem setOpen_promoted (t : Thread) (r : Nat) (b : Bool) : (t.setOpen r b).promoted = t.promoted := rfl
@[simp] theorem setOpen_yielded (t : Thread) (r : Nat) (b : Bool) : (t.setOpen r b).yielded = t.yielded := rfl
@[simp] theorem setOpen_fences (t : Thread) (r : Nat) (b : Bool) : (t.setOpen r b).fences = t.fences := rfl
@[simp] theorem setOpen_saved (t : Thread) (r : Nat) (b : Bool) : (t.setOpen r b).saved = t.saved := rfl
@[simp] theorem setOpen_aborted (t : Thread) (r : Nat) (b : Bool) : (t.setOpen r b).aborted = t.aborted := rfl
@[simp] theorem setOpen_eligible (t : Thread) (r : Nat) (b : Bool) : (t.setOpen r b).eligible = t.eligible := rfl
@[simp] theorem setOpen_mig (t : Thread) (r : Nat) (b : Bool) : (t.setOpen r b).mig = t.mig := rfl
@[simp] theorem setOpen_drained (t : Thread) (r : Nat) (b : Bool) : (t.setOpen r b).drained = t.drained := rfl
@[simp] theorem setOpen_going (t : Thread) (r : Nat) (b : Bool) : (t.setOpen r b).going = t.going := rfl
@[simp] theorem setOpen_acqMx (t : Thread) (r : Nat) (b : Bool) : (t.setOpen r b).acqMx = t.acqMx := rfl
@[simp] theorem setOpen_acqCp (t : Thread) (r : Nat) (b : Bool) : (t.setOpen r b).acqCp = t.acqCp := rfl
@[simp] theorem setOpen_rtFloor (t : Thread) (r : Nat) (b : Bool) : (t.setOpen r b).rtFloor = t.rtFloor := rfl
@[simp] theorem setOpen_acqd (t : Thread) (r : Nat) (b : Bool) : (t.setOpen r b).acqd = t.acqd := rfl
@[simp] theorem setOpen_readRels (t : Thread) (r : Nat) (b : Bool) : (t.setOpen r b).readRels = t.readRels := rfl
@[simp] theorem setOpen_relArr (t : Thread) (r : Nat) (b : Bool) : (t.setOpen r b).relArr = t.relArr := rfl

/-! ## Register files -/

@[simp] theorem setV_regs_s (t : Thread) (r l : Nat) (x : W32) : (t.setV r l x).regs.s = t.regs.s := rfl
@[simp] theorem setV_regs_p (t : Thread) (r l : Nat) (x : W32) : (t.setV r l x).regs.p = t.regs.p := rfl
@[simp] theorem setV_regs_x (t : Thread) (r l : Nat) (x : W32) : (t.setV r l x).regs.x = t.regs.x := rfl
@[simp] theorem setV_regs_f (t : Thread) (r l : Nat) (x : W32) : (t.setV r l x).regs.f = t.regs.f := rfl
@[simp] theorem setV_regs_part (t : Thread) (r l : Nat) (x : W32) : (t.setV r l x).regs.part = t.regs.part := rfl
@[simp] theorem setV_regs_clear (t : Thread) (r l : Nat) (x : W32) : (t.setV r l x).regs.clear = t.regs.clear := rfl
@[simp] theorem setV_regs_openBits (t : Thread) (r l : Nat) (x : W32) : (t.setV r l x).regs.openBits = t.regs.openBits := rfl
@[simp] theorem setV_regs_badS (t : Thread) (r l : Nat) (x : W32) : (t.setV r l x).regs.badS = t.regs.badS := rfl

@[simp] theorem setF_regs_s (t : Thread) (k n : Nat) : (t.setF k n).regs.s = t.regs.s := rfl
@[simp] theorem setF_regs_v (t : Thread) (k n : Nat) : (t.setF k n).regs.v = t.regs.v := rfl
@[simp] theorem setF_regs_p (t : Thread) (k n : Nat) : (t.setF k n).regs.p = t.regs.p := rfl
@[simp] theorem setF_regs_x (t : Thread) (k n : Nat) : (t.setF k n).regs.x = t.regs.x := rfl
@[simp] theorem setF_regs_part (t : Thread) (k n : Nat) : (t.setF k n).regs.part = t.regs.part := rfl
@[simp] theorem setF_regs_clear (t : Thread) (k n : Nat) : (t.setF k n).regs.clear = t.regs.clear := rfl
@[simp] theorem setF_regs_openBits (t : Thread) (k n : Nat) : (t.setF k n).regs.openBits = t.regs.openBits := rfl
@[simp] theorem setF_regs_badV (t : Thread) (k n : Nat) : (t.setF k n).regs.badV = t.regs.badV := rfl
@[simp] theorem setF_regs_badS (t : Thread) (k n : Nat) : (t.setF k n).regs.badS = t.regs.badS := rfl

@[simp] theorem clearArr_regs_s (t : Thread) (r : Nat) (m : Lanes) : (t.clearArr r m).regs.s = t.regs.s := rfl
@[simp] theorem clearArr_regs_v (t : Thread) (r : Nat) (m : Lanes) : (t.clearArr r m).regs.v = t.regs.v := rfl
@[simp] theorem clearArr_regs_p (t : Thread) (r : Nat) (m : Lanes) : (t.clearArr r m).regs.p = t.regs.p := rfl
@[simp] theorem clearArr_regs_x (t : Thread) (r : Nat) (m : Lanes) : (t.clearArr r m).regs.x = t.regs.x := rfl
@[simp] theorem clearArr_regs_f (t : Thread) (r : Nat) (m : Lanes) : (t.clearArr r m).regs.f = t.regs.f := rfl
@[simp] theorem clearArr_regs_part (t : Thread) (r : Nat) (m : Lanes) : (t.clearArr r m).regs.part = t.regs.part := rfl
@[simp] theorem clearArr_regs_openBits (t : Thread) (r : Nat) (m : Lanes) : (t.clearArr r m).regs.openBits = t.regs.openBits := rfl
@[simp] theorem clearArr_regs_badV (t : Thread) (r : Nat) (m : Lanes) : (t.clearArr r m).regs.badV = t.regs.badV := rfl
@[simp] theorem clearArr_regs_badS (t : Thread) (r : Nat) (m : Lanes) : (t.clearArr r m).regs.badS = t.regs.badS := rfl

@[simp] theorem setXs_regs_s (t : Thread) (l : List (Nat × Nat × BitVec 16)) : (t.setXs l).regs.s = t.regs.s := rfl
@[simp] theorem setXs_regs_v (t : Thread) (l : List (Nat × Nat × BitVec 16)) : (t.setXs l).regs.v = t.regs.v := rfl
@[simp] theorem setXs_regs_p (t : Thread) (l : List (Nat × Nat × BitVec 16)) : (t.setXs l).regs.p = t.regs.p := rfl
@[simp] theorem setXs_regs_f (t : Thread) (l : List (Nat × Nat × BitVec 16)) : (t.setXs l).regs.f = t.regs.f := rfl
@[simp] theorem setXs_regs_part (t : Thread) (l : List (Nat × Nat × BitVec 16)) : (t.setXs l).regs.part = t.regs.part := rfl
@[simp] theorem setXs_regs_clear (t : Thread) (l : List (Nat × Nat × BitVec 16)) : (t.setXs l).regs.clear = t.regs.clear := rfl
@[simp] theorem setXs_regs_openBits (t : Thread) (l : List (Nat × Nat × BitVec 16)) : (t.setXs l).regs.openBits = t.regs.openBits := rfl
@[simp] theorem setXs_regs_badV (t : Thread) (l : List (Nat × Nat × BitVec 16)) : (t.setXs l).regs.badV = t.regs.badV := rfl
@[simp] theorem setXs_regs_badS (t : Thread) (l : List (Nat × Nat × BitVec 16)) : (t.setXs l).regs.badS = t.regs.badS := rfl

@[simp] theorem putS_v (r : Regs) (n : Nat) (v : W32) : (r.putS n v).v = r.v := rfl
@[simp] theorem putS_p (r : Regs) (n : Nat) (v : W32) : (r.putS n v).p = r.p := rfl
@[simp] theorem putS_x (r : Regs) (n : Nat) (v : W32) : (r.putS n v).x = r.x := rfl
@[simp] theorem putS_f (r : Regs) (n : Nat) (v : W32) : (r.putS n v).f = r.f := rfl
@[simp] theorem putS_part (r : Regs) (n : Nat) (v : W32) : (r.putS n v).part = r.part := rfl
@[simp] theorem putS_clear (r : Regs) (n : Nat) (v : W32) : (r.putS n v).clear = r.clear := rfl
@[simp] theorem putS_openBits (r : Regs) (n : Nat) (v : W32) : (r.putS n v).openBits = r.openBits := rfl
@[simp] theorem putS_badV (r : Regs) (n : Nat) (v : W32) : (r.putS n v).badV = r.badV := rfl

@[simp] theorem putV_s (r : Regs) (l : Tab W32) : (r.putV l).s = r.s := rfl
@[simp] theorem putV_p (r : Regs) (l : Tab W32) : (r.putV l).p = r.p := rfl
@[simp] theorem putV_x (r : Regs) (l : Tab W32) : (r.putV l).x = r.x := rfl
@[simp] theorem putV_f (r : Regs) (l : Tab W32) : (r.putV l).f = r.f := rfl
@[simp] theorem putV_part (r : Regs) (l : Tab W32) : (r.putV l).part = r.part := rfl
@[simp] theorem putV_clear (r : Regs) (l : Tab W32) : (r.putV l).clear = r.clear := rfl
@[simp] theorem putV_openBits (r : Regs) (l : Tab W32) : (r.putV l).openBits = r.openBits := rfl
@[simp] theorem putV_badS (r : Regs) (l : Tab W32) : (r.putV l).badS = r.badS := rfl

@[simp] theorem setVs_regs_s (t : Thread) (l : List (Nat × Nat × W32)) : (t.setVs l).regs.s = t.regs.s := rfl
@[simp] theorem setVs_regs_p (t : Thread) (l : List (Nat × Nat × W32)) : (t.setVs l).regs.p = t.regs.p := rfl
@[simp] theorem setVs_regs_x (t : Thread) (l : List (Nat × Nat × W32)) : (t.setVs l).regs.x = t.regs.x := rfl
@[simp] theorem setVs_regs_f (t : Thread) (l : List (Nat × Nat × W32)) : (t.setVs l).regs.f = t.regs.f := rfl
@[simp] theorem setVs_regs_part (t : Thread) (l : List (Nat × Nat × W32)) : (t.setVs l).regs.part = t.regs.part := rfl
@[simp] theorem setVs_regs_clear (t : Thread) (l : List (Nat × Nat × W32)) : (t.setVs l).regs.clear = t.regs.clear := rfl
@[simp] theorem setVs_regs_openBits (t : Thread) (l : List (Nat × Nat × W32)) : (t.setVs l).regs.openBits = t.regs.openBits := rfl

@[simp] theorem setOpen_regs_s (t : Thread) (r : Nat) (b : Bool) : (t.setOpen r b).regs.s = t.regs.s := rfl
@[simp] theorem setOpen_regs_v (t : Thread) (r : Nat) (b : Bool) : (t.setOpen r b).regs.v = t.regs.v := rfl
@[simp] theorem setOpen_regs_p (t : Thread) (r : Nat) (b : Bool) : (t.setOpen r b).regs.p = t.regs.p := rfl
@[simp] theorem setOpen_regs_x (t : Thread) (r : Nat) (b : Bool) : (t.setOpen r b).regs.x = t.regs.x := rfl
@[simp] theorem setOpen_regs_f (t : Thread) (r : Nat) (b : Bool) : (t.setOpen r b).regs.f = t.regs.f := rfl
@[simp] theorem setOpen_regs_part (t : Thread) (r : Nat) (b : Bool) : (t.setOpen r b).regs.part = t.regs.part := rfl
@[simp] theorem setOpen_regs_clear (t : Thread) (r : Nat) (b : Bool) : (t.setOpen r b).regs.clear = t.regs.clear := rfl

end Sys2Proof.Machine
end

