-- ==== Sys2Proof/Laws/Order.lean ====
section
/-! SUPPORT. What the operations of the memory order can do, said once each: a release marks pending writes, an acquire drops line buffers
and lets its thread meet marks, and nothing else changes. -/

namespace Sys2Proof.Machine

/-- A release touches the pending operations, the releases and the next number alone (R116, R123). -/
theorem markSeen_frame (a : Arch) (uid lim : Nat) (u : UnitId) (all : Bool) (via : RelTo) :
    { markSeen a uid lim u all via with ops := a.ops, rels := a.rels, nextId := a.nextId } = a := by
  unfold markSeen; split <;> rfl

/-- A release adds marks to operations and changes nothing else in them. -/
theorem markSeen_ops (a : Arch) (uid lim : Nat) (u : UnitId) (all : Bool) (via : RelTo) :
    (markSeen a uid lim u all via).ops.map (fun p => (p.1, { p.2 with seen := [] })) = a.ops.map (fun p => (p.1, { p.2 with seen := [] })) := by
  unfold markSeen; split
  · simp only [List.map_map]
    refine List.map_congr_left fun p _ => ?_
    simp only [Function.comp]
    split <;> rfl
  · rfl

/-- A release that passes no write changes nothing. -/
theorem markSeen_idle {a : Arch} {uid lim : Nat} (u : UnitId) (all : Bool) (via : RelTo) (h : (tvals a.ops).any (passes a uid lim) = false) :
    markSeen a uid lim u all via = a := by
  simp [markSeen, h]

theorem releaseAt_frame (a : Arch) (t : Thread) (l : Level) :
    { releaseAt a t l with ops := a.ops, rels := a.rels, nextId := a.nextId } = a := markSeen_frame ..

/-- Dropping line buffers changes them alone (R106, R131). -/
theorem dropLines_frame (a : Arch) (g : Agent) (u : UnitId) : { dropLines a g u with lines := a.lines } = a := rfl

theorem dropLines_sub (a : Arch) (g : Agent) (u : UnitId) : ∀ p ∈ (dropLines a g u).lines, p ∈ a.lines :=
  fun _ h => (List.mem_filter.mp h).1

/-- An acquire leaves no outdated line that its agent reads through within the scope (R106, R131). -/
theorem dropLines_old (a : Arch) (g : Agent) (u : UnitId) : ∀ p ∈ (dropLines a g u).lines, p.2.old = true → lineCtx p.1 = g.ctx →
    g.served (lineNode p.1) = true → nodeIn u (lineNode p.1) = false := by
  intro p h ho hc hs
  simpa [ho, hc, hs] using (List.mem_filter.mp h).2

/-- Meeting releases touches threads alone, of them one, and of it the releases that it has met (R122). -/
theorem gain_frame (a : Arch) (uid since : Nat) (u : UnitId) (p : Release → Bool) : { gain a uid since u p with threads := a.threads } = a := by
  unfold gain; dsimp only; split <;> rfl

/-- An acquire touches the line buffers and its own thread (R116). -/
theorem acquireIn_frame (a : Arch) (t : Thread) (u : UnitId) : { acquireIn a t u with lines := a.lines, threads := a.threads } = a := by
  have := congrArg (fun x : Arch => { x with lines := a.lines }) (gain_frame (dropLines a (agentOf a t) u) t.uid (a.nextId - 1) u
    (fun r => decide (r.via = .direct)))
  exact this

theorem acquireAt_frame (a : Arch) (t : Thread) (l : Level) : { acquireAt a t l with lines := a.lines, threads := a.threads } = a :=
  acquireIn_frame ..

/-- Forgetting released bytes touches the releases alone. -/
theorem forgetRels_frame (a : Arch) (bs : List (Nat × Nat)) : { forgetRels a bs with rels := a.rels } = a := by
  unfold forgetRels; split <;> rfl

/-- The start of a move touches the locator alone (R205). -/
theorem startMoves_frame (a : Arch) (u : Nat) : { startMoves a u with locs := a.locs } = a := by
  unfold startMoves; split
  · rfl
  · split <;> rfl

end Sys2Proof.Machine
end

