-- ==== Sys2Proof/Tests/Slice0.lean ====
section
/-! SUPPORT. Our own tests: what WellFormed refuses, words written out from the encodings of the spec, single steps with results from the
spec's tables and worked examples or from hand calculation on its rules, and for each statement with hypotheses a state that meets them. -/

namespace Sys2Proof.Tests

open Sys2Proof Sys2Proof.Machine Sys2Proof.Spec

set_option Elab.async false
set_option synthInstance.maxSize 1000
set_option synthInstance.maxHeartbeats 200000

/-! ## WellFormed refuses -/

/-- An unguarded head, one with a literal, and the MOD of an access that counts on selector A. -/
def hd : Hd := { gp := 7, gn := false, ext := .none }
def hl (x : BitVec 62) : Hd := { gp := 7, gn := false, ext := .lit x }
def mm : MMod := { fsel := .a, lvl := .lg, acq := false, rel := false }

/-- R283: a constant is no destination. -/
theorem test_wf_constant_destination : Instr.wf (.sadd hd .i32 false (.k 3) (.s 1) (.s 2)) = false := by decide
/-- R257: an index-relative operand has no place in a scalar word, nor in a run. -/
theorem test_wf_index_in_scalar : Instr.wf (.smov hd false (.s 1) .ix) = false := by decide
theorem test_wf_index_in_run : Instr.wf (.philox { hd with ext := .ix none (some ⟨0, 0⟩) none none } (.v 0) .ix (.s 2)) = false := by decide
/-- R256: an operand that names the literal needs one, and a literal needs an operand that names it. -/
theorem test_wf_literal_absent : Instr.wf (.imov hd false (.v 1) .lit) = false := by decide
theorem test_wf_literal_unused : Instr.wf (.imov (hl 5) false (.v 1) (.v 2)) = false := by decide
/-- R257: the index word uses exactly the fields that are index-relative. -/
theorem test_wf_index_entries : Instr.wf (.imov { hd with ext := .ix none none none none } false (.v 1) .ix) = false := by decide
/-- R270, R271: variants that the opcode map leaves out. -/
theorem test_wf_scalar_variant : Instr.wf (.sadd hd .i16 false (.s 0) (.s 1) (.s 2)) = false := by decide
theorem test_wf_abs_unsigned : Instr.wf (.iabs hd .u32 false (.v 0) (.v 1)) = false := by decide
theorem test_wf_pack_wide : Instr.wf (.pack hd .i32 false (.v 0) (.v 1) (.v 2)) = false := by decide
theorem test_wf_icmp_element : Instr.wf (.icmp hd .i32 .eq 1 0 (.v 1) (.v 2)) = false := by decide
theorem test_wf_fadd_format : Instr.wf (.fadd hd .t8 .rn (.v 0) (.v 1) (.v 2)) = false := by decide
theorem test_wf_fcmp_element : Instr.wf (.fcmp hd .f32 .lt true 0 (.v 1) (.v 2)) = false := by decide
/-- R272: FCVT.F32.F32 and FCVT.B1.I32 do not decode; a position has a limit. -/
theorem test_wf_fcvt_same : Instr.wf (.fcvt hd .f32 .f32 0 false .rn (.v 0) (.v 1)) = false := by decide
theorem test_wf_fcvt_integer_binary : Instr.wf (.fcvt hd .b1 .i32 0 false .rn (.v 0) (.v 1)) = false := by decide
theorem test_wf_fcvt_position : Instr.wf (.fcvt hd .f32 .bf16 2 false .rn (.v 0) (.v 1)) = false := by decide
theorem test_wf_nenc_format : Instr.wf (.nenc hd .f32 .rn (.v 0) (.v 4) (.v 1)) = false := by decide
theorem test_wf_plog_unary : Instr.wf (.plog hd .not 0 1 2) = false := by decide
/-- R297: sr.rfault and the registers with rows of their own are not named by the plain rows. -/
theorem test_wf_srr_rfault : Instr.wf (.srr hd 0x30 false (.s 1)) = false := by decide
theorem test_wf_srw_fpctl : Instr.wf (.srw hd 0x20 false (.s 1)) = false := by decide
/-- R336: RM belongs to a float sum, SAT to an integer sum. -/
theorem test_wf_lred_mode : Instr.wf (.lred hd .i32 .add .rz false (.v 0) (.v 1)) = false := by decide
/-- R338, R344: the MOD rules of loads, stores, atomics and copies. -/
theorem test_wf_load_no_flag : Instr.wf (.ld hd .b32 { mm with fsel := .none } false (.v 0) (.v 2) (.v 4)) = false := by decide
theorem test_wf_load_release : Instr.wf (.ld hd .b32 { mm with rel := true } false (.v 0) (.v 2) (.v 4)) = false := by decide
theorem test_wf_load_level : Instr.wf (.ld hd .b32 { mm with lvl := .pkg } false (.v 0) (.v 2) (.v 4)) = false := by decide
theorem test_wf_store_signed : Instr.wf (.st hd .s8 mm (.v 0) (.v 2) (.v 4)) = false := by decide
theorem test_wf_store_acquire : Instr.wf (.st hd .b32 { mm with acq := true } (.v 0) (.v 2) (.v 4)) = false := by decide
theorem test_wf_atomic_signed_add : Instr.wf (.atom hd .add mm false true .b4 (.v 0) (.v 2) (.v 4) (.v 0)) = false := by decide
theorem test_wf_atomic_quad_add : Instr.wf (.atom hd .add mm false false .b16 (.v 0) (.v 2) (.v 4) (.v 0)) = false := by decide
theorem test_wf_copy_no_flag : Instr.wf (.spush hd { mm with fsel := .none } 0 (.s 6) (.s 2) (.s 4)) = false := by decide
theorem test_wf_flush_release : Instr.wf (.flush hd { mm with rel := true } (.s 2) (.s 4)) = false := by decide
theorem test_wf_fence_empty : Instr.wf (.fence hd .core false false false false) = false := by decide
theorem test_wf_reduce_bits : Instr.wf (.reduce hd mm (.ef .f32) .and (.s 2) (.s 4) (.s 6) (.s 8)) = false := by decide
/-- R392, R397, R399: a latch source names no register, keeps nothing, and no LATCH reads one; FP32 ACCRD does not round. -/
theorem test_wf_mma_latch : Instr.wf (.mma hd .bf16 .lg false .latch .reg true false .rn none 0 (.v 0) (.v 16)) = false := by decide
theorem test_wf_latch_latch : Instr.wf (.latch hd false .lg false .latch (.v 0)) = false := by decide
theorem test_wf_mma_integer_mode : Instr.wf (.mma hd .i8 .lg false .reg .reg false false .rz none 0 (.v 0) (.v 16)) = false := by decide
theorem test_wf_accrd_mode : Instr.wf (.accrd hd .f32 .rz (.v 0) 0) = false := by decide
/-- R409: fields that a kind does not use are zero, and every summary word counts on a flag. -/
theorem test_wf_skinit_coin : Instr.wf (.skinit hd .a .hhl .hw (.s 4) (.v 0)) = false := by decide
theorem test_wf_skins_wide : Instr.wf (.skins hd .a .qsk true (.s 4) (.v 2) (.v 0)) = false := by decide
theorem test_wf_skest_no_flag : Instr.wf (.skest hd .none (.v 2) (.s 4)) = false := by decide
/-- And it accepts what the spec writes. -/
theorem test_wf_accepts : Instr.wf (.fmul (hl 0x3E800000) .f32 .rn (.v 4) (.v 2) .lit) = true ∧
    Instr.wf (.fadd { hd with ext := .ix (some ⟨16, 1⟩) (some ⟨8, 1⟩) none none } .f32 .rn .ix .ix (.v 4)) = true ∧
    Instr.wf (.rsend hd .a true 0 (.s 12) (.s 20)) = true := by decide

/-! ## Words written out from the spec's encodings

The worked encodings of spec/16 to spec/25, and what the opcode map says of words near assigned ones. -/

/-- The cause of a DECODE trap. -/
def causeOf {α : Type} (r : Except Nat α) : Option Nat := match r with | .error c => some c | .ok _ => none

theorem test_decode_live : (decodeWord 2 0x3F00000700000007 0).toOption =
    some (.liveWord 7 7) := by decide +kernel
theorem test_decode_fmul_literal : (decodeWord 2 0x420E0402FF000000 0x3E800000).toOption =
    some (.fmul (hl 0x3E800000) .f32 .rn (.v 4) (.v 2) .lit) := by decide +kernel
theorem test_decode_fadd_index : (decodeWord 2 0x400EFEFE04000000 0x0000000000284510).toOption =
    some (.fadd { hd with ext := .ix (some ⟨16, 1⟩) (some ⟨8, 1⟩) none none } .f32 .rn .ix .ix (.v 4)) := by decide +kernel
theorem test_decode_ndec : (decodeWord 2 0x625E1408FF000000 0x7C03).toOption =
    some (.ndec (hl 0x7C03) .t8 .rn (.v 20) (.v 8) .lit) := by decide +kernel
theorem test_decode_mcopy_down : (decodeWord 7 0x430EC8CCC6FF7A00 3).toOption =
    some (.mcopyDown (hl 3) { fsel := .a, lvl := .self, acq := false, rel := true } 0 false 0 (.s 8) (.s 12) (.s 6) .lit) := by decide +kernel
theorem test_decode_mcopy_up : (decodeWord 7 0x431ED0C8DCFF7E00 15).toOption =
    some (.mcopyUp (hl 15) { fsel := .a, lvl := .self, acq := true, rel := true } 0 false 0 (.s 16) (.s 8) (.s 28) .lit) := by decide +kernel
theorem test_decode_join : (decodeWord 7 0x010E000000003800 0).toOption =
    some (.join hd .self) := by decide +kernel
theorem test_decode_mma_keep : (decodeWord 8 0x0054031030000008 0).toOption =
    some (.mma { hd with gp := 2 } .t8 .lg false .reg .reg false true .rn none 3 (.v 16) (.v 48)) := by decide +kernel
theorem test_decode_mma_cv : (decodeWord 8 0x401E000010090001 20).toOption =
    some (.mma (hl 20) .bf16 .lg false .reg .reg false false .rz (some 1) 0 (.v 0) (.v 16)) := by decide +kernel
theorem test_decode_kvcommit : (decodeWord 8 0x0B0EC9C4C6006200 0).toOption =
    some (.kvcommit hd { fsel := .a, lvl := .pkg, acq := false, rel := true } (.s 9) (.s 4) (.s 6)) := by decide +kernel
theorem test_decode_accst : (decodeWord 8 0x060200E000004A00 0).toOption =
    some (.accst { hd with gp := 1 } { fsel := .a, lvl := .core, acq := false, rel := true } (.s 32) 0) := by decide +kernel
theorem test_decode_grant : (decodeWord 9 0x000EC828F2002020 0).toOption =
    some (.grant hd .pkg false 1 (.s 8) (.v 40) (.k 2)) := by decide +kernel
theorem test_decode_expect : (decodeWord 9 0x020E002800000020 0).toOption =
    some (.expect hd 1 (.v 40)) := by decide +kernel
theorem test_decode_rget_take : (decodeWord 9 0x061E3C2800000000 0).toOption =
    some (.rgetTk hd 0 (.v 60) (.v 40)) := by decide +kernel
theorem test_decode_sktop : (decodeWord 10 0x051E0AC4F0004000 0).toOption =
    some (.sktop hd .a (.v 10) (.s 4) (.k 0)) := by decide +kernel
theorem test_decode_skquant : (decodeWord 10 0x030E22CE29004000 0).toOption =
    some (.skquant hd .a (.v 34) (.s 14) (.v 41)) := by decide +kernel
theorem test_decode_sts : (decodeWord 5 0x41260007FF044000 0x180).toOption =
    some (.sts { hl 0x180 with gp := 3 } .b32 mm 0 (.v 7) .lit (.v 4)) := by decide +kernel
theorem test_decode_trap : (decodeWord 11 0x0204000000000002 0).toOption =
    some (.trap { hd with gp := 2 } 2) := by decide +kernel
/-- FADD has no variant 3, FCVT.F32.F32 and FCVT.B1.I32 are refused, MMA has no INT16 variant, and 0xFD names no operand. -/
theorem test_decode_refuses : causeOf (decodeWord 2 0x003E000000000000 0) = some 1 ∧ causeOf (decodeWord 2 0x200E000000000000 0) = some 4 ∧
    causeOf (decodeWord 2 0x20CE000000000090 0) = some 4 ∧ causeOf (decodeWord 8 0x008E000000000000 0) = some 1 ∧
    causeOf (decodeWord 7 0x050E000000000000 0) = some 4 ∧ causeOf (decodeWord 0 0x0F0EC2FD00000000 0) = some 3 := by
  decide +kernel
/-- The headers of the loop of spec/18 and of the clause of spec/16. -/
theorem test_decode_header : (decodeHeader 0x804003FC00000000).toOption =
    some { cls := 0, wcnt := 1, wait := 0, seta := 15, setb := 15, prio := 0, yield := false, safe := false } ∧
    (decodeHeader 0x890023FC08010000).toOption =
    some { cls := 2, wcnt := 4, wait := 8, seta := 15, setb := 15, prio := 0x200, yield := false, safe := true } := by decide +kernel

/-! ## Small states -/

/-- A header that binds selector A to f1 and B to f2. -/
def hdr0 : Header := { cls := 0, wcnt := 2, wait := 0, seta := 1, setb := 2, prio := 0, yield := false, safe := false }

/-- A wave of context 7 with wave number 0 of crew 5, on core 0, at the first word of a clause with the active lanes `m`. -/
def wv (m : Lanes) (s v : Tab W32) : Thread :=
  let t := Thread.blank 1 7 .lg { level := .core, pkg := 0, idx := 0 } 9 (some 2) 0 0x1000 (BitVec.allOnes 32) 3
  { t with
    crew := 5, alloc := 64, waveid := 0, regs := { Regs.zero with s := s, v := v },
    clause := some { pc := 0x1000, hdr := hdr0, words := [0, 0, 0, 0, 0, 0], pos := 0, lanes := m } }

/-- Crew 5: two waves, 64 KiB of scratchpad from offset 0x4000, two tiles, two barriers, two convergence registers and one stream. -/
def crew0 : Crew :=
  { id := 5, core := 0, pkg := 0, num := 0, ctx := 7, tree := 9, parent := 2, launch := 0, order := 0, started := true, arg := 0,
    roles := [{ waves := 2, vregs := 64, pc := 0x1000 }], gang := false, spadReq := 0x4000, base := 0x4000, size := 0x10000, acc := 2,
    nbar := 2, ncv := 2, nq := 1, count := 2, live := 2, bars := [(0, firstBar 2), (1, firstBar 2)], cvs := [],
    streams := [(0, { base := 0x8000, cap := 2048, wp := 0, rp := 0, rs := 0 })], chans := [], tiles := [], shadows := [], badRows := [],
    latchA := Frag.empty, latchB := Frag.empty, shadowOwner := [], out := false }

/-- Context 7, with its private stacks at 1 GiB. -/
def ctx0 : Ctx :=
  { root := 0x100000, privBase := 0x40000000, pstride := 0x10000, hwm := 0x10000, lease := 1, world := false, handler := 0x9000,
    aborting := none, tagRefusals := 0 }

/-- The tree of the wave, rooted in a core frame; a frame is its own root. -/
def tree0 : Tree :=
  { id := 9, rootLevel := .core, unit := { level := .core, pkg := 0, idx := 0 }, ctx := 7, cls := 0, failed := false, aborted := false,
    queue := 1, cmd := 0, root := 2, gone := [] }

/-- The machine in which thread `t` issues beside crew 5. -/
def at' (t : Thread) : State :=
  { State.reset with
    cur := some t.uid
    a := { Arch.reset with
      threads := [(t.uid, t)], crews := [(5, crew0)], ctxs := [(7, ctx0)], trees := [(9, { tree0 with rootLevel := if t.isWave then .core else t.level })], keys := [(7, 0x1234)], nextId := 100 } }

/-- The machine in which the wave issues, with scalar and vector registers. -/
def lane (m : Lanes) (s v : Tab W32) : State := at' (wv m s v)

/-- A frame at the first word of its clause, on the sequencer of a unit. -/
def fr (l : Level) (s : Tab W32) : Thread :=
  let t := Thread.blank 1 7 l { level := l, pkg := 0, idx := 0 } 9 none 0 0x1000 1 3
  { t with
    phase := .active, ntiles := 1, regs := { Regs.zero with s := s }
    clause := some { pc := 0x1000, hdr := hdr0, words := [0, 0, 0, 0, 0, 0], pos := 0, lanes := 1 } }
def frame (l : Level) (s : Tab W32) : State := at' (fr l s)

/-- What comes after an instruction, or the state itself where it does not go on. -/
def after (i : Instr) (s : State) : State := match exec i s with | .next t => t | _ => s

/-- The issuing thread, and what it holds. -/
def me (s : State) : Thread := (s.a.thread 1).getD (wv 0 [] [])
def sOf (s : State) (n : Nat) : W32 := (me s).getS n
def vOf (s : State) (r l : Nat) : W32 := (me s).getV r l
/-- The class, SYND and ADDR of the trap that the thread has taken. -/
def trapOf (s : State) : Option (TrapClass × W64 × W64) := (me s).record.map (fun r => (r.cls, r.synd, r.addr))
/-- The lane values of a vector register, from lane 0. -/
def vec (r : Nat) (l : List W32) : Tab W32 := (List.range l.length).map (fun i => (32 * r + i, l.getD i 0))

/-! ## Class 0 -/

/-- R286: the sum wraps at 32 bits, and with .SAT clamps; lane masks do not matter but for an empty one. -/
theorem test_sadd : sOf (after (.sadd hd .i32 false (.s 2) (.s 0) (.s 1)) (lane 1 [(0, 0x7FFFFFFF), (1, 1)] [])) 2 = 0x80000000 ∧
    sOf (after (.sadd hd .i32 true (.s 2) (.s 0) (.s 1)) (lane 1 [(0, 0x7FFFFFFF), (1, 1)] [])) 2 = 0x7FFFFFFF ∧
    sOf (after (.sadd hd .i32 false (.s 2) (.s 0) (.s 1)) (lane 0 [(0, 4), (1, 1)] [])) 2 = 0 := by decide +kernel
theorem test_ssub : sOf (after (.ssub hd .u32 true (.s 2) (.s 0) (.s 1)) (lane 1 [(0, 3), (1, 5)] [])) 2 = 0 := by decide +kernel
theorem test_smul_wide : let s := after (.smul hd .u64 false (.s 4) (.s 0) (.s 2)) (lane 1 [(0, 0xFFFFFFFF), (2, 0x10)] [])
    sOf s 4 = 0xFFFFFFF0 ∧ sOf s 5 = 0xF := by decide +kernel
theorem test_smulh : sOf (after (.smulh hd .i32 (.s 2) (.s 0) (.s 1)) (lane 1 [(0, 0xFFFFFFFF), (1, 2)] [])) 2 = 0xFFFFFFFF := by decide +kernel
theorem test_smin_smax : sOf (after (.smin hd .i32 (.s 2) (.s 0) (.s 1)) (lane 1 [(0, 0xFFFFFFFF), (1, 2)] [])) 2 = 0xFFFFFFFF ∧
    sOf (after (.smax hd .u32 (.s 2) (.s 0) (.s 1)) (lane 1 [(0, 0xFFFFFFFF), (1, 2)] [])) 2 = 0xFFFFFFFF := by decide +kernel
/-- R287: bitwise words, and shifts by the width or more. -/
theorem test_slogic : let s := lane 1 [(0, 0xC), (1, 0xA)] []
    sOf (after (.sand hd false (.s 2) (.s 0) (.s 1)) s) 2 = 8 ∧ sOf (after (.sor hd false (.s 2) (.s 0) (.s 1)) s) 2 = 14 ∧
    sOf (after (.sxor hd false (.s 2) (.s 0) (.s 1)) s) 2 = 6 ∧ sOf (after (.snot hd false (.s 2) (.s 0)) s) 2 = 0xFFFFFFF3 := by decide +kernel
theorem test_sshifts : let s := lane 1 [(0, 0x80000001), (1, 32)] []
    sOf (after (.sshl hd false (.s 2) (.s 0) (.s 1)) s) 2 = 0 ∧ sOf (after (.sshr hd false (.s 2) (.s 0) (.s 1)) s) 2 = 0 ∧
    sOf (after (.ssra hd false (.s 2) (.s 0) (.s 1)) s) 2 = 0xFFFFFFFF := by decide +kernel
theorem test_scount : let s := lane 1 [(0, 0x00F00000)] []
    sOf (after (.spopc hd false (.s 2) (.s 0)) s) 2 = 4 ∧ sOf (after (.sclz hd false (.s 2) (.s 0)) s) 2 = 8 ∧
    sOf (after (.sclz hd true (.s 2) (.s 4)) s) 2 = 64 := by decide +kernel
theorem test_ssel_smov : let s := lane 1 [(0, 5), (1, 6), (3, 1)] []
    sOf (after (.ssel hd false (.s 2) (.s 0) (.s 1) (.s 3)) s) 2 = 5 ∧ sOf (after (.ssel hd false (.s 2) (.s 0) (.s 1) (.s 4)) s) 2 = 6 ∧
    sOf (after (.smov hd false (.s 2) (.s 1)) s) 2 = 6 := by decide +kernel
/-- R288: SCMP writes its predicate in the lanes that take part, and leaves the others. -/
theorem test_scmp : (me (after (.scmp hd .i32 .lt 3 (.s 0) (.s 1)) (lane 6 [(0, 0xFFFFFFFF), (1, 2)] []))).getP 3 = 6 := by decide +kernel
/-- R254: a 64-bit operand names the even register of a pair. -/
theorem test_odd_pair_traps : trapOf (after (.smov hd true (.s 2) (.s 1)) (lane 1 [] [])) = some (.operand, 0x601, 0xC1) := by decide +kernel
/-- The clause of spec/18: LOOP at position 1, DISP -2, goes to the header while s3 is not zero, and falls through at zero. -/
theorem test_loop :
    let s := lane 1 [(3, 4)] []
    let t := { wv 1 [(3, 4)] [] with clause := some { pc := 0x1000, hdr := hdr0, words := [0, 0], pos := 1, lanes := 1 } }
    let s1 := after (.loop hd (-2) 0xC3) (at' { t with front := [{ pc := 0x1000, prio := some 0, lanes := 1, pass := 0 }] })
    sOf s1 3 = 3 ∧ (me s1).front.map (·.pc) = [0x1000] ∧ (me s1).clause = none ∧ (me s).clause ≠ none ∧
    (me (after (.loop hd (-2) 0xC3) (at' { t with
      regs := { Regs.zero with s := [(3, 1)] }, front := [{ pc := 0x1000, prio := some 0, lanes := 1, pass := 0 }] }))).front.map (·.pc) = [0x1018] := by
  decide +kernel
/-- R291: lanes whose guard is true go to the target, the others to the word after the clause. -/
theorem test_br_splits : let t := { wv 0xF [] [] with
      regs := { Regs.zero with p := [(2, 5)] }, front := [{ pc := 0x1000, prio := some 0, lanes := 0xF, pass := 0 }] }
    (me (after (.br { hd with gp := 2 } 0x10) (at' t))).front.map (fun e => (e.pc, e.lanes)) = [(0x1088, 5), (0x1038, 10)] := by decide +kernel
theorem test_call : let s := after (.call hd 0x10 (.s 2)) (lane 0xFFFFFFFF [] [])
    sOf s 2 = 0x1010 ∧ (me s).front.map (·.pc) = [0x1088] := by decide +kernel
theorem test_ret : (me (after (.ret hd (.s 2)) (lane 0xFFFFFFFF [(2, 0x2000)] []))).front.map (·.pc) = [0x2000] := by decide +kernel
theorem test_brx : (me (after (.brx hd (.s 2)) (lane 0xFFFFFFFF [(2, 0x2000)] []))).front.map (·.pc) = [0x2000] ∧
    trapOf (after (.brx hd (.s 2)) (lane 0xFFFFFFFF [(2, 0x2004)] [])) ≠ none := by decide +kernel
theorem test_exit_yield : (me (after (.exit hd) (lane 0xFFFFFFFF [] []))).front = [] ∧ (me (after (.yield hd) (lane 1 [] []))).yielded = true := by
  decide +kernel
theorem test_nop_live : (me (after (.nop hd) (lane 1 [] []))).clause.map (·.pos) = some 1 ∧
    trapOf (after (.liveWord 0 0x100) (lane 1 [] [])) = some (.decode, 3, 0) := by decide +kernel

/-! ## Class 11 and traps -/

theorem test_srr_tile : sOf (after (.srr hd 0x08 false (.s 2)) (at' { fr .core [] with tile := 6, ntiles := 9 })) 2 = 6 ∧
    trapOf (after (.srr hd 0x08 false (.s 2)) (lane 1 [] [])) = some (.operand, 0xB04, 8) := by decide +kernel
theorem test_srw_fpstat : (me (after (.srwFpstat hd false (.s 2)) (at' { wv 1 [(2, 5)] [] with
    sr := { SRegs.zero with fpstat := 7 } }))).sr.fpstat = 2 := by decide +kernel
theorem test_srw_fpctl : (me (after (.srwFpctl hd false (.s 2)) (lane 1 [(2, 3)] []))).sr.fpctl = 3 ∧
    (trapOf (after (.srwFpctl hd false (.s 2)) (lane 1 [(2, 5)] []))).map (·.1) = some .operand := by decide +kernel
theorem test_prioset : (me (after (.prioset hd (.s 2)) (lane 1 [(2, 1)] []))).sr.prio = 1 ∧
    (trapOf (after (.prioset hd (.s 2)) (lane 1 [(2, 4)] []))).map (·.1) = some .operand := by decide +kernel
/-- R302, R211, R213: TRAP 2 saves its immediate in SYND, and the handler runs from the context's handler PC with the live lanes. -/
theorem test_trap : let s := after (.trap hd 2) (lane 0xF [] [])
    trapOf s = some (.software, 2, 0) ∧ (me s).tm = true ∧ (me s).front.map (fun e => (e.pc, e.lanes)) = [(0x9000, 0xFFFFFFFF)] ∧
    (me s).clause = none ∧ sOf s 42 = 0x1008 := by decide +kernel
/-- R303, R214: after a TRAP, RESUME goes on at the word after it, in the clause that was frozen. -/
theorem test_trapret :
    let s := after (.trap hd 2) (lane 0xF [] [])
    let t := { me s with clause := some { pc := 0x9000, hdr := hdr0, words := [0], pos := 0, lanes := 1 } }
    let s2 := after (.trapretResume hd) (at' t)
    (me s2).tm = false ∧ (me s2).clause.map (fun c => (c.pc, c.pos)) = some (0x1000, 1) := by decide +kernel
/-- The trap of spec/16: lane 3's index -1 is the first that fails, in field A, with cause 2; INFO holds OPIDX 3 and class 3, and
NOBLK, because sr.tblk names no block here. -/
theorem test_index_trap :
    let t := { wv 0x28 [] [] with
      alloc := 24, regs := { Regs.zero with x := [(35, 0xFFF7), (37, 8)] },
      clause := some { pc := 0x1000, hdr := hdr0, words := [0, 0, 0, 0, 0], pos := 3, lanes := 0x28 } }
    let s := after (.fadd { hd with ext := .ix (some ⟨16, 1⟩) (some ⟨8, 1⟩) none none } .f32 .rn .ix .ix (.v 4)) (at' t)
    trapOf s = some (.operand, 0x00030201, 0xFFFFFFFFFFFFFFFF) ∧ sOf s 40 = 0x00030083 ∧ sOf s 42 = 0x1020 := by decide +kernel
/-- R27: a lane word is not for a sequencer; SYND holds class 1 and level 2. -/
theorem test_level_trap : trapOf (after (.iadd hd .i32 false (.v 0) (.v 1) (.v 2)) (frame .clu [])) = some (.level, 0x201, 0) := by decide +kernel

/-! ## Classes 1 to 3 -/

/-- R312: packed elements do not carry into each other; with .SAT each clamps. -/
theorem test_iadd_packed : let s := lane 1 [] [(32, 0x7FFF0001), (64, 0x00010001)]
    vOf (after (.iadd hd .i16 false (.v 3) (.v 1) (.v 2)) s) 3 0 = 0x80000002 ∧
    vOf (after (.iadd hd .i16 true (.v 3) (.v 1) (.v 2)) s) 3 0 = 0x7FFF0002 := by decide +kernel
/-- R307, R312: only the lanes that take part are written, with the source also the destination. -/
theorem test_isub_lanes : let s := after (.isub hd .i32 false (.v 1) (.v 1) (.k 1)) (lane 5 [] (vec 1 [7, 8, 9]))
    (vOf s 1 0, vOf s 1 1, vOf s 1 2) = (6, 8, 8) := by decide +kernel
theorem test_imul_imad : let s := lane 1 [] [(32, 3), (64, 0xFFFFFFFF), (96, 10)]
    vOf (after (.imul hd .i32 false (.v 4) (.v 1) (.v 2)) s) 4 0 = 0xFFFFFFFD ∧
    vOf (after (.imad hd .i32 false (.v 4) (.v 1) (.v 2) (.v 3)) s) 4 0 = 7 := by decide +kernel
theorem test_imulh : vOf (after (.imulh hd .u32 (.v 4) (.v 1) (.v 2)) (lane 1 [] [(32, 0xFFFFFFFF), (64, 2)])) 4 0 = 1 := by decide +kernel
theorem test_imin_imax : let s := lane 1 [] [(32, 0x80FF), (64, 0x0001)]
    vOf (after (.imin hd .i8 (.v 4) (.v 1) (.v 2)) s) 4 0 = 0x80FF ∧ vOf (after (.imax hd .u8 (.v 4) (.v 1) (.v 2)) s) 4 0 = 0x80FF := by decide +kernel
/-- R312: the absolute value of the most negative number is that number, and with .SAT the largest. -/
theorem test_iabs : let s := lane 1 [] [(32, 0x80000000)]
    vOf (after (.iabs hd .i32 false (.v 4) (.v 1)) s) 4 0 = 0x80000000 ∧ vOf (after (.iabs hd .i32 true (.v 4) (.v 1)) s) 4 0 = 0x7FFFFFFF := by
  decide +kernel
theorem test_icmp : (me (after (.icmp hd .i16 .lt 1 2 (.v 1) (.v 2)) (lane 3 [] [(32, 0xFFFF0000), (33, 0x00010000)]))).getP 2 = 1 := by decide +kernel
theorem test_ilogic : let s := lane 1 [] [(32, 0xC), (64, 0xA)]
    vOf (after (.iand hd false (.v 4) (.v 1) (.v 2)) s) 4 0 = 8 ∧ vOf (after (.ior hd false (.v 4) (.v 1) (.v 2)) s) 4 0 = 14 ∧
    vOf (after (.ixor hd false (.v 4) (.v 1) (.v 2)) s) 4 0 = 6 ∧ vOf (after (.inot hd false (.v 4) (.v 1)) s) 4 0 = 0xFFFFFFF3 := by decide +kernel
theorem test_ishifts : let s := lane 1 [] [(32, 0x80000000), (64, 31), (96, 33)]
    vOf (after (.isra hd false (.v 4) (.v 1) (.v 2)) s) 4 0 = 0xFFFFFFFF ∧ vOf (after (.ishr hd false (.v 4) (.v 1) (.v 2)) s) 4 0 = 1 ∧
    vOf (after (.ishl hd false (.v 4) (.v 1) (.v 3)) s) 4 0 = 0 := by decide +kernel
theorem test_icount : let s := lane 1 [] [(32, 0x00F00000)]
    vOf (after (.ipopc hd false (.v 4) (.v 1)) s) 4 0 = 4 ∧ vOf (after (.iclz hd false (.v 4) (.v 1)) s) 4 0 = 8 := by decide +kernel
/-- R315: fields of 4 bits at 8, with and without sign. -/
theorem test_ibfe_ibfi : let s := lane 1 [] [(32, 0x00000F00), (64, 8), (96, 4), (128, 0)]
    vOf (after (.ibfe hd true (.v 5) (.v 1) (.v 2) (.v 3)) s) 5 0 = 0xF ∧ vOf (after (.ibfe hd false (.v 5) (.v 1) (.v 2) (.v 3)) s) 5 0 = 0xFFFFFFFF ∧
    vOf (after (.ibfi hd (.v 4) (.v 1) (.v 2) (.v 3)) s) 4 0 = 0 := by decide +kernel
theorem test_isel : vOf (after (.isel hd false 7 (.v 4) (.v 1) (.v 2)) (lane 1 [] [(32, 5), (64, 6)])) 4 0 = 5 := by decide +kernel
theorem test_pack_unpk : let s := lane 1 [] [(32, 0x00020001), (64, 0x7FFF0003)]
    vOf (after (.pack hd .i8 true (.v 4) (.v 1) (.v 2)) s) 4 0 = 0x7F030201 ∧
    vOf (after (.unpk hd .i16 true (.v 4) (.v 1)) s) 4 0 = 2 := by decide +kernel
theorem test_iaddsh : vOf (after (.iaddsh hd false 4 (.v 4) (.v 1) (.v 2)) (lane 1 [] [(32, 1), (64, 3)])) 4 0 = 49 := by decide +kernel
theorem test_index_words : let s := lane 1 [] [(32, 0xFFFF8001)]
    (me (after (.xset hd 1 (.v 1)) s)).getX 1 0 = 0x8001 ∧ (me (after (.xadd hd 2 1 (.v 1)) s)).getX 2 0 = 0x8001 ∧
    vOf (after (.xsetRd hd (.v 4) 1) (after (.xset hd 1 (.v 1)) s)) 4 0 = 0xFFFF8001 := by decide +kernel
theorem test_plog : (me (after (.plog hd .andn 1 7 2) (at' { wv 0xF [] [] with regs := { Regs.zero with p := [(2, 5)] } }))).getP 1 = 10 := by
  decide +kernel
/-- Philox 4x32-10 of counter 0 and key 0 (the published answer, which R150 names by its algorithm). -/
theorem test_philox : let s := after (.philox hd (.v 8) (.v 4) (.k 0)) (lane 1 [] [])
    (vOf s 8 0, vOf s 9 0, vOf s 10 0, vOf s 11 0) = (0x6627E8D5, 0xE169C58D, 0xBC57AC4C, 0x9B00DBD8) := by decide +kernel
/-- FP32 by hand: 1.5 + 2.25 = 3.75, 1.5 × 2.25 = 3.375, 1.5 × 2.25 + 0.625 = 4, 1 / 4, the root of 2.25, inexact flags of 1 / 3. -/
theorem test_fadd_fmul : let s := lane 1 [] [(32, 0x3FC00000), (64, 0x40100000), (96, 0x3F200000)]
    vOf (after (.fadd hd .f32 .rn (.v 4) (.v 1) (.v 2)) s) 4 0 = 0x40700000 ∧ vOf (after (.fsub hd .f32 .rn (.v 4) (.v 1) (.v 2)) s) 4 0 = 0xBF400000 ∧
    vOf (after (.fmul hd .f32 .rn (.v 4) (.v 1) (.v 2)) s) 4 0 = 0x40580000 ∧
    vOf (after (.ffma hd .f32 .rn (.v 4) (.v 1) (.v 2) (.v 3)) s) 4 0 = 0x40800000 := by decide +kernel
theorem test_fdiv_fsqrt : let s := lane 1 [] [(32, 0x3F800000), (64, 0x40400000), (96, 0x40100000)]
    vOf (after (.fdiv hd .rn (.v 4) (.v 1) (.v 2)) s) 4 0 = 0x3EAAAAAB ∧ vOf (after (.fdiv hd .rz (.v 4) (.v 1) (.v 2)) s) 4 0 = 0x3EAAAAAA ∧
    vOf (after (.fsqrt hd .rn (.v 4) (.v 3)) s) 4 0 = 0x3FC00000 := by decide +kernel
theorem test_fmin_fcmp : let s := lane 1 [] [(32, 0x80000000), (64, 0), (96, 0x7FC00000)]
    vOf (after (.fmin hd .f32 (.v 4) (.v 2) (.v 1)) s) 4 0 = 0x80000000 ∧ vOf (after (.fmax hd .f32 (.v 4) (.v 2) (.v 1)) s) 4 0 = 0 ∧
    (me (after (.fcmp hd .f32 .un false 1 (.v 1) (.v 3)) s)).getP 1 = 1 ∧ (me (after (.fcmp hd .f32 .eq false 1 (.v 1) (.v 2)) s)).getP 1 = 1 := by
  decide +kernel
theorem test_fsign : let s := lane 1 [] [(32, 0xBF803F80)]
    vOf (after (.fabs hd .bf16 (.v 4) (.v 1)) s) 4 0 = 0x3F803F80 ∧ vOf (after (.fneg hd .bf16 (.v 4) (.v 1)) s) 4 0 = 0x3F80BF80 := by decide +kernel
theorem test_frnd : vOf (after (.frnd hd .f32 .rn (.v 4) (.v 1)) (lane 1 [] [(32, 0x40200000)])) 4 0 = 0x40000000 := by decide +kernel
theorem test_fcvt : let s := lane 1 [] [(32, 0x40490FDB), (128, 0x12345678)]
    vOf (after (.fcvt hd .bf16 .f32 1 false .rn (.v 4) (.v 1)) s) 4 0 = 0x40495678 ∧
    vOf (after (.fcvt hd .i32 .f32 0 false .rn (.v 4) (.v 1)) s) 4 0 = 3 := by decide +kernel
/-- The granule of spec/19: codes 40 5B C0 7F under SCALE 0x7C, decoded and encoded again. -/
theorem test_ndec : let s := after (.ndec (hl 0x7C03) .t8 .rn (.v 20) (.v 8) .lit) (lane 1 [] [(256, 0x7FC05B40)])
    (vOf s 20 0, vOf s 21 0, vOf s 22 0, vOf s 23 0) = (0x3E000000, 0x3ED80000, 0xBE000000, 0x44000000) ∧ (me s).sr.fpstat = 0 := by decide +kernel
theorem test_nenc : vOf (after (.nenc (hl 0x7C03) .t8 .rn (.v 9) (.v 20) .lit)
    (lane 1 [] [(640, 0x3E000000), (672, 0x3ED80000), (704, 0xBE000000), (736, 0x44000000)])) 9 0 = 0x7FC05B40 := by decide +kernel

/-- The scans and the reduction of spec/19, over tiles of four lanes, lane 6 not taking part. -/
def scanState : State := at' { wv 0xBF [] (vec 2 [0x3F800000, 0x40000000, 0x40800000, 0x41000000, 0x3F000000, 0x3E800000, 0x40400000, 0x40A00000]) with
  regs := { Regs.zero with
    part := 1, v := vec 2 [0x3F800000, 0x40000000, 0x40800000, 0x41000000, 0x3F000000, 0x3E800000, 0x40400000, 0x40A00000] } }
theorem test_scani : (List.range 8).map (vOf (after (.scani hd .f32 .add .rn false (.v 3) (.v 2)) scanState) 3) =
    [0x3F800000, 0x40400000, 0x40E00000, 0x41700000, 0x3F000000, 0x3F400000, 0, 0x40B80000] := by decide +kernel
theorem test_scanx : (List.range 8).map (vOf (after (.scanx hd .f32 .add .rn false (.v 3) (.v 2)) scanState) 3) =
    [0x80000000, 0x3F800000, 0x40400000, 0x40E00000, 0x80000000, 0x3F000000, 0, 0x3F400000] := by decide +kernel
theorem test_lred : (List.range 8).map (vOf (after (.lred hd .f32 .add .rn false (.v 3) (.v 2)) scanState) 3) =
    [0x41700000, 0x41700000, 0x41700000, 0x41700000, 0x40B80000, 0x40B80000, 0, 0x40B80000] := by decide +kernel
theorem test_vote : let s := at' { wv 0xBF [] [] with regs := { Regs.zero with part := 1, p := [(1, 0x31)] } }
    vOf (after (.vote hd (.bal (.v 1) 1)) s) 1 0 = 1 ∧ vOf (after (.vote hd (.bal (.v 1) 1)) s) 1 7 = 0x30 ∧
    (me (after (.vote hd (.any 2 1)) s)).getP 2 = 0xBF ∧ (me (after (.vote hd (.all 2 1)) s)).getP 2 = 0 := by decide +kernel
theorem test_shfl : let s := at' { wv 0xF [] (vec 1 [10, 11, 12, 13]) with regs := { Regs.zero with part := 1, v := vec 1 [10, 11, 12, 13] } }
    (List.range 4).map (vOf (after (.shfl hd .bfly (.v 3) (.v 1) (.k 1)) s) 3) = [11, 10, 13, 12] := by decide +kernel
theorem test_part : sOf (after (.partget hd (.s 2)) (lane 1 [] [])) 2 = 4 ∧ (me (after (.partset hd (.s 2)) (lane 1 [(2, 0xFFFFFFF9)] []))).regs.part = 1 ∧
    (trapOf (after (.partset hd (.s 2)) (lane 1 [(2, 5)] []))).map (·.1) = some .operand := by decide +kernel

/-! ## Classes 4 to 7: accesses, copies and the hierarchy

Core 0 of package 0 has its scratchpad at fabric address 0x300000000000, and the own-core window lies at VA 0x7F000000000000. -/

/-- The same machine over some memory bytes, given as numbers of bytes at scratchpad offsets. -/
def over' (s : State) (l : List (Nat × Nat × Nat)) : State :=
  { s with mem := l.foldl (fun m x => mputs m (0x300000000000 + x.1) (leBytes x.2.1 x.2.2)) s.mem }
/-- What the machine holds at a scratchpad offset. -/
def spadNum (s : State) (off n : Nat) : Nat := mnum s.mem (0x300000000000 + off) n
/-- The wave with the VA of a scratchpad offset in s4 and s5, and other registers. -/
def reach (off : Nat) (s v : Tab W32) : State := lane 1 (tsets [(4, BitVec.ofNat 32 off), (5, 0x7F0000)] s) v

/-- R105, R341: a load counts on its flag and lands when its request is performed. -/
theorem test_lds :
    let s := after (.lds hd .s16 mm 0 (.v 4) (.v 1) (.k 0)) (over' (lane 3 [] (vec 1 [0x4000, 0x4002])) [(0x4000, 4, 0x80017FFF)])
    let t := after (.memoryRequestComplete 100 0) s
    (me s).getF 1 = 1 ∧ vOf s 4 1 = 0 ∧ (me t).getF 1 = 0 ∧ (vOf t 4 0, vOf t 4 1) = (0x7FFF, 0xFFFF8001) := by decide +kernel
/-- R8: a store lies with its least significant byte at the lowest address. -/
theorem test_sts :
    let s := after (.sts hd .b64 mm 0 (.v 1) (.k 0) (.v 2)) (lane 1 [] (vec 1 [0x4008] ++ [(64, 0x11223344), (96, 0x55667788)]))
    let t := after (.memoryRequestComplete 100 0) s
    spadNum s 0x4008 8 = 0 ∧ spadNum t 0x4008 8 = 0x5566778811223344 ∧ spadNum t 0x4008 1 = 0x44 := by decide +kernel
theorem test_atoms :
    let s := after (.atoms hd .add mm 0 false false .b4 (.v 4) (.v 1) (.v 2) (.v 0)) (over' (lane 1 [] (vec 1 [0x4008] ++ [(64, 5)])) [(0x4008, 4, 0xFFFFFFFE)])
    let t := after (.memoryRequestComplete 100 0) s
    spadNum t 0x4008 4 = 3 ∧ vOf t 4 0 = 0xFFFFFFFE := by decide +kernel
/-- R344: an atomic at a misaligned address is an ACCESS trap. -/
theorem test_atom_align : (trapOf (after (.atom hd .add mm false false .b4 (.v 8) (.v 4) (.v 2) (.v 0))
    (lane 1 [] [(128, 0x4002), (160, 0x7F0000)]))).map (·.1) = some .access := by decide +kernel
theorem test_ld_st : let s := over' (lane 1 [] [(128, 0x4000), (160, 0x7F0000), (64, 77)]) [(0x4000, 4, 1234)]
    vOf (after (.memoryRequestComplete 100 0) (after (.ld hd .b32 mm false (.v 8) (.v 4) (.k 0)) s)) 8 0 = 1234 ∧
    spadNum (after (.memoryRequestComplete 100 0) (after (.st hd .b32 mm (.v 4) (.k 0) (.v 2)) s)) 0x4000 4 = 77 := by decide +kernel
theorem test_sld_sst : let s := over' (reach 0x4000 [(8, 99)] []) [(0x4000, 4, 1234)]
    sOf (after (.memoryRequestComplete 100 0) (after (.sld hd .b32 mm false (.s 9) (.s 4) (.k 0)) s)) 9 = 1234 ∧
    spadNum (after (.memoryRequestComplete 100 0) (after (.sst hd .b32 mm (.s 4) (.k 0) (.s 8)) s)) 0x4000 4 = 99 := by decide +kernel
theorem test_satom : spadNum (after (.memoryRequestComplete 100 0)
    (after (.satom hd .cas mm false false .b4 (.s 9) (.s 4) (.s 8) (.s 10)) (over' (reach 0x4000 [(8, 6), (10, 5)] []) [(0x4000, 4, 5)]))) 0x4000 4 = 6 := by
  decide +kernel
/-- R107: the window ends with the crew's region, and an access outside it traps. -/
theorem test_window : (trapOf (after (.lds hd .b32 mm 0 (.v 4) (.v 1) (.k 0)) (lane 1 [] (vec 1 [0x3FFC])))).map (·.1) = some .access := by
  decide +kernel
theorem test_ldmeta :
    let s0 := lane 1 [] [(128, 0x4000), (160, 0x7F0000), (192, 0x7C03)]
    let s1 := after (.memoryRequestComplete 100 0) (after (.stmeta hd mm (.v 4) (.v 6)) s0)
    (me s1).getF 1 = 0 ∧ s1.a.ops = [] := by decide +kernel
/-- R347, R108: FRAME moves sr.sp and answers the VA of the new top; an offset that is no multiple of 16 traps. -/
theorem test_frame : let s := after (.frame hd (.s 8) (.s 2)) (lane 1 [(2, 32)] [])
    (me s).sr.sp = 32 ∧ sOf s 8 = 0x40000020 ∧ (trapOf (after (.frame hd (.s 8) (.s 2)) (lane 1 [(2, 8)] []))).map (·.1) = some .operand := by
  decide +kernel
theorem test_fence : (me (after (.fence hd .core false true false false) (lane 1 [] []))).fences.map (fun f => (f.id, f.form)) = [(100, 1)] := by decide +kernel
theorem test_flush : (me (after (.flush hd { mm with fsel := .none } (.s 4) (.s 6)) (reach 0x4000 [(6, 128)] []))).clause.map (·.pos) = some 1 := by
  decide +kernel
theorem test_claim_window : (trapOf (after (.claim hd mm (.s 4) (.s 6)) (reach 0x4000 [(6, 128)] []))).isSome = true := by decide +kernel
/-- R351: MIGRATE to the wave's own berth names no move. -/
theorem test_migrate : (me (after (.migrate hd (.s 4)) (reach 0x4000 [] []))).mig = none ∧
    (me (after (.migrate hd (.s 4)) (reach 0x4000 [] []))).clause.map (·.pos) = some 1 := by decide +kernel
/-- R58, R352: the barrier of two waves keeps the first arrival; BARWAIT waits for the phase; BARCFG sets the members. -/
theorem test_bararr : let s := after (.bararr hd 1) (lane 1 [] [])
    ((s.a.crew 5).bind (fun k => tget k.bars 1)).map (·.arrived) = some 1 ∧ (me s).pbar = [(1, 0)] := by decide +kernel
theorem test_barwait : (me (after (.barwait hd 1) (at' { wv 1 [] [] with pbar := [(1, 0)] }))).wait = some (.crewBar 1 0) ∧
    (me (after (.barwait hd 1) (lane 1 [] []))).wait = none := by decide +kernel
theorem test_barsync : (me (after (.barsync hd 1) (lane 1 [] []))).wait = some (.crewBar 1 0) := by decide +kernel
theorem test_barcfg : (((after (.barcfg hd 1 2 (.s 2)) (lane 1 [(2, 1)] [])).a.crew 5).bind (fun k => tget k.bars 1)).map (fun b => (b.members, b.e)) =
    some (1, 2) := by decide +kernel

/-- R353, R354: a COPY inside the window moves its bytes in one command; its status register reads 0 at the end. -/
def copyState : State := over' (lane 1 [(4, 0x4000), (5, 0x7F0000), (6, 0x5000), (7, 0x7F0000), (8, 32), (9, 77)] []) [(0x4000, 8, 0x1122334455667788)]
theorem test_copy : let s := after (.copyIn hd mm 0 false 0 (.s 9) (.s 4) (.s 6) (.s 8)) copyState
    let t := after (.copyComplete 100) s
    (me s).getF 1 = 1 ∧ spadNum t 0x5000 8 = 0x1122334455667788 ∧ sOf t 9 = 0 ∧ (me t).getF 1 = 0 ∧ t.a.cmds = [] := by decide +kernel
theorem test_copy_out : let t := after (.copyComplete 100) (after (.copyOut hd mm 0 false 0 (.s 9) (.s 4) (.s 6) (.s 8)) copyState)
    spadNum t 0x5000 8 = 0x1122334455667788 ∧ sOf t 9 = 0 := by decide +kernel
/-- R353: a size that is no multiple of 16 is refused. -/
theorem test_copy_size : (trapOf (after (.copyIn hd mm 0 false 0 (.s 9) (.s 4) (.s 6) (.s 8)) (lane 1 [(4, 0x4000), (5, 0x7F0000), (6, 0x5000), (7, 0x7F0000), (8, 24)] []))).map
    (·.1) = some .operand := by decide +kernel
theorem test_acopy : spadNum (after (.memoryRequestComplete 100 0) (after (.acopy hd mm (.v 4) (.v 6))
    (over' (lane 1 [] [(128, 0x4000), (160, 0x7F0000), (192, 0x5000)]) [(0x4000, 8, 77)]))) 0x5000 8 = 77 := by decide +kernel
/-- The ring of spec/20: pushes of 1,024 bytes take positions 0 and 1,024 of a stream of 2,048 bytes; a third waits for room. -/
def pushState : State := lane 1 [(2, 0x4000), (3, 0x7F0000), (4, 1024)] []
theorem test_spush :
    let s1 := after (.spushAdmit 100) (after (.spush hd mm 0 (.s 6) (.s 2) (.s 4)) pushState)
    let rs (s : State) := ((s.a.crew 5).bind (fun k => tget k.streams 0)).map (fun q => (q.rs, q.wp, q.rp))
    let full := { pushState with a := pushState.a.setCrew { crew0 with streams := [(0, { base := 0x8000, cap := 2048, wp := 512, rp := 0, rs := 2048 })] } }
    let s3 := after (.spushAdmit 100) (after (.spush hd mm 0 (.s 6) (.s 2) (.s 4)) full)
    rs s1 = some (1024, 0, 0) ∧ rs s3 = some (2048, 512, 0) := by decide +kernel
theorem test_spop :
    let q := { pushState with a := pushState.a.setCrew { crew0 with streams := [(0, { base := 0x8000, cap := 2048, wp := 1024, rp := 0, rs := 2048 })] } }
    (((after (.spop hd 0 (.s 4)) q).a.crew 5).bind (fun k => tget k.streams 0)).map (·.rp) = some 1024 ∧
    (me (after (.spop hd 0 (.s 4)) pushState)).wait = some (.spop 0 1024 100) := by decide +kernel
theorem test_qcfg : (((after (.qcfg hd 0 (.s 2) (.s 4)) (lane 1 [(2, 0x6000), (4, 512)] [])).a.crew 5).bind (fun k => tget k.streams 0)).map
    (fun q => (q.base, q.cap)) = some (0x6000, 512) := by decide +kernel
/-- WPRD returned 512 in the run of spec/20, with RS 2,048. -/
theorem test_wprd : sOf (after (.wprd hd { mm with fsel := .none } true 0 (.s 8)) { pushState with a := pushState.a.setCrew { crew0 with
    streams := [(0, { base := 0x8000, cap := 2048, wp := 512, rp := 0, rs := 2048 })] } }) 8 = 512 := by decide +kernel

/-- R364 to R368: a core frame launches a crew of two waves of 16 registers with 4 KiB; CREW_START gives them slots 0 and 1 and the
argument 0x55 in s0. The descriptor lies in the frame's own window. -/
def coreFrame : State := over' { frame .core [(4, 0x8000), (5, 0x7F0000)] with
    a := { (frame .core [(4, 0x8000), (5, 0x7F0000)]).a with crews := [(5, { crew0 with parent := 1 })] } }
  [(0x8000, 4, 1), (0x8004, 4, 2), (0x8008, 8, 0x3000), (0x8010, 8, 0x55), (0x8020, 4, 0x1000), (0x8024, 4, 0xFFFFFFFF), (0x8028, 1, 16)]
theorem test_launch_crew :
    let s := after (.launch hd .self (.s 4)) coreFrame
    let t := after (.crewStart 0) s
    (tvals s.a.crews).map (fun k => (k.started, k.count, k.size)) = [(true, 2, 0x10000), (false, 2, 0x1000)] ∧
    ((tvals t.a.threads).filter (·.isWave)).map (fun x => (x.slot, x.wnum, x.alloc, x.getS 0, x.front.map (·.pc))) =
      [(0, 0, 16, 0x55, [0x3000]), (1, 1, 16, 0x55, [0x3000])] := by decide +kernel
/-- R61, R62: a gang block of one loader, two computers and no storer; the descriptor's PC and VREGS are zero. The byte address of a
role's fields: PC at 0, VREGS at 10, WAVES at 12 of its entry. -/
def gangFrame : State := over' { frame .core [(4, 0x8000), (5, 0x7F0000)] with
    a := { (frame .core [(4, 0x8000), (5, 0x7F0000)]).a with crews := [(5, { crew0 with parent := 1 })] } }
  [(0x8000, 4, 1), (0x8004, 4, 3), (0x8010, 8, 0x55), (0x8024, 4, 0xFFFFFFFF), (0x8040, 4, 1), (0x8050, 8, 0x3000), (0x805A, 1, 8),
    (0x805C, 1, 1), (0x8060, 8, 0x3100), (0x806A, 1, 16), (0x806C, 1, 2)]
theorem test_launch_gang :
    let t := after (.crewStart 0) (after (.launchGang hd .self (.s 4)) gangFrame)
    ((tvals t.a.threads).filter (·.isWave)).map (fun x => (x.wnum, x.role, x.alloc, x.front.map (·.pc))) =
      [(0, 0, 8, [0x3000]), (1, 1, 16, [0x3100]), (2, 1, 16, [0x3100])] := by decide +kernel
/-- R29, R367: a die frame launches three frames over two clusters in turn; its descriptor lies in die SRAM. -/
theorem test_launch_frames :
    let s := after (.launch hd .self (.s 4)) { frame .die [(4, 0x10000000), (5, 0x7F0000)] with
      mem := mputs [] 0x100000000000 (leBytes 4 1 ++ leBytes 4 3 ++ leBytes 8 0x3000 ++ leBytes 8 0x55 ++ leBytes 8 5) }
    ((tvals s.a.threads).filter (fun t => t.uid != 1)).map (fun t => (t.level, t.unit.idx, t.tile, t.ntiles, t.getS 0, t.phase)) =
      [(.clu, 0, 0, 3, 0x55, .pending), (.clu, 2, 1, 3, 0x55, .pending), (.clu, 0, 2, 3, 0x55, .pending)] := by decide +kernel
theorem test_join : (me (after (.join hd .core) (frame .core []))).clause.map (·.pos) = some 1 ∧
    (me (after (.join hd .core) { frame .core [] with a := { (frame .core []).a with crews := [(5, { crew0 with parent := 1, started := false })] } })).wait = some .join := by
  decide +kernel
theorem test_bar : (me (after (.bar hd .core) (lane 1 [] []))).clause.map (·.pos) = some 1 ∧ (me (after (.bar hd .core) (lane 1 [] []))).barGen = [(1, 1)] := by
  decide +kernel
theorem test_bar_level : (trapOf (after (.bar hd .pkg) (lane 1 [] []))).map (·.1) = some .operand := by decide +kernel
/-- R371, R373: MCOPY.DOWN at CORE puts 128 bytes into one register of each wave of the crew that the mask names. -/
theorem test_mcopy :
    let s0 := over' (lane 1 [(4, 0x4000), (6, 20), (8, 128)] []) [(0x4000, 4, 7), (0x4004, 4, 9)]
    let s := after (.mcopyDown (hl 1) { mm with lvl := .core } 0 false 0 (.s 9) (.s 4) (.s 8) .lit) s0
    let t := after (.mcopyComplete 100) s
    (vOf t 20 0, vOf t 20 1) = (7, 9) ∧ sOf t 9 = 0 ∧ (me t).getF 1 = 0 := by decide +kernel
/-- R375 to R378: the one unit below the ancestor gives the whole sum; the destination takes the source. -/
theorem test_reduce :
    let s := after (.reduce hd { mm with lvl := .core } (.ef .i32) .add (.s 9) (.s 4) (.s 6) (.s 8)) (over' (lane 1 [(4, 0x4000), (5, 0x7F0000), (6, 0x5000), (8, 4)] []) [(0x4000, 4, 7)])
    (me s).getF 1 = 1 ∧ s.a.reds.length = 1 ∧ (me s).redSeq = [(1, 1)] := by decide +kernel
/-- R380, R64: SPAWN puts v16 to v31 of each lane as one record into a punnet. -/
theorem test_spawn :
    let s := after (.spawn hd (.s 4) (.v 16)) (lane 3 [(4, 0x2000)] (vec 16 [5, 6]))
    (tvals s.a.punnets).map (fun p => (p.crew, p.pc, p.recs.map (fun r => r.getD 0 0))) = [(5, 0x2000, [5, 6])] := by decide +kernel
theorem test_fetchw :
    let s := after (.fetchw hd .a (.s 2)) (over' (lane 1 [(2, 0x4000)] []) [(0x4000, 4, 9)])
    let t := after (.fetchwReply 100) s
    spadNum s 0x4000 4 = 0 ∧ (me s).getF 1 = 1 ∧ spadNum t 0x4000 4 = 2 ∧ (me t).getF 1 = 0 := by decide +kernel

/-! ## Classes 8 to 10 -/

/-- The machine with other contents of crew 5. -/
def withCrew (s : State) (k : Crew) : State := { s with a := s.a.setCrew k }
/-- An element of a tile of crew 5. -/
def tileOf (s : State) (m e : Nat) : W32 := (((s.a.crew 5).map (fun k => tgetD k.tiles (1024 * m + e) 0))).getD 0

/-- R384, R388, R394: one row and one column of FP32 in F19: 2.0 × 3.0 is added to the element. -/
theorem test_mma :
    let s := after (.mma hd .f32 .lg false .reg .reg false false .rn none 0 (.v 0) (.v 16))
      (withCrew (lane 1 [] [(0, 0x40000000), (512, 0x40400000)]) { crew0 with tiles := [(0, 0x3F800000), (1, 0x40A00000)] })
    let t := after (.matrixOperationComplete 0) s
    tileOf s 0 0 = 0x3F800000 ∧ tileOf t 0 0 = 0x40E00000 ∧ tileOf t 0 1 = 0x40A00000 ∧ t.a.slice = [] := by decide +kernel
theorem test_accz : let s := after (.accz hd 1) (withCrew (lane 1 [] []) { crew0 with tiles := [(5, 9), (1029, 7)] })
    tileOf (after (.matrixOperationComplete 0) s) 1 5 = 0 ∧
    (trapOf (after (.accz hd 2) (lane 1 [] []))).map (·.1) = some .operand := by decide +kernel
theorem test_accmov : (tvals (after (.accmov hd true 1 0) (lane 1 [] [])).a.slice).map (·.what) = [.accmov 1 0 true] := by decide +kernel
theorem test_accwr : let t := after (.matrixOperationComplete 0) (after (.accwr hd 0 (.v 8)) (withCrew (lane 2 [] [(257, 11), (1249, 12)]) { crew0 with tiles := [(0, 5)] }))
    (tileOf t 0 32, tileOf t 0 63, tileOf t 0 0) = (11, 12, 5) := by decide +kernel
theorem test_accrd :
    let s := after (.accrd hd .f32 .rn (.v 8) 0) (withCrew (lane 2 [] []) { crew0 with tiles := [(32, 11)] })
    let t := after (.accrdLanding 101) (after (.matrixOperationComplete 0) s)
    (me s).arrived 8 = 0xFFFFFFFD ∧ vOf t 8 1 = 11 ∧ (me t).arrived 8 = 0xFFFFFFFF := by decide +kernel
/-- R389, R400: the descriptor 0x8000_4000 has stride 128, window 0 and offset 0x4000; ACCST queues its read and puts one command. -/
theorem test_accst :
    let s := after (.accst hd mm (.s 8) 0) (lane 1 [(8, 0x80004000)] [])
    (me s).getF 1 = 1 ∧ (tvals s.a.slice).map (·.what) = [.accst 0 100] ∧ (tvals s.a.cmds).map (·.kind) =
      [.accst { addr := 0x300000004000, va := 0x7F000000004000, stride := 128 } none] := by decide +kernel
theorem test_latch :
    let s := after (.latch hd true .lg false .reg (.v 0)) (lane 1 [] [(0, 0x40000000)])
    let t := after (.matrixOperationComplete 0) s
    ((t.a.crew 5).map (fun k => (k.latchB.present, tgetD k.latchB.data 0 0))) = some (1, 0x40000000) ∧
    ((after (.matrixOperationComplete 0) (after (.unlatch hd true) (withCrew (lane 1 [] []) ((t.a.crew 5).getD crew0)))).a.crew 5).map
      (fun k => k.latchB.present) = some 0 := by decide +kernel
theorem test_spec : let s := after (.specBegin hd true (.s 20)) (lane 1 [] [])
    (me s).spec = { isOpen := true, pred := true, reg := 20 } ∧
    (me (after (.specResolve hd 1) (at' { wv 3 [(20, 1)] [] with spec := { isOpen := true, pred := true, reg := 20 } }))).getP 1 = 3 ∧
    (me (after (.specResolve hd 1) (at' { wv 3 [] [] with spec := { isOpen := true, pred := true, reg := 20 } }))).getP 1 = 0 := by decide +kernel
/-- The tree of spec/22: parents -1, 0, 0, 1 and 2; row 3 keeps columns 0, 1 and 3 at +0.0 and takes -∞ elsewhere; row 5 is kept. -/
theorem test_treemask :
    let t := after (.matrixOperationComplete 0) (after (.treemask (hl 0xFF800000) false 1 (.v 12) .lit)
      (withCrew (lane 0x1F [] (vec 12 [0xFFFFFFFF, 0, 0, 1, 2])) { crew0 with tiles := [(1024 + 160, 9)] }))
    (t.a.crew 5).map (fun k => k.tiles.filter (fun x => (decide (1120 ≤ x.1) && decide (x.1 < 1126) || x.1 == 1184) && x.2 != 0)) =
      some [(1122, 0xFF800000), (1124, 0xFF800000), (1125, 0xFF800000), (1184, 9)] := by decide +kernel
/-- Lane 3 holding the parent 3 traps with SYND 0x0003_0501 and ADDR 3. -/
theorem test_treemask_trap : trapOf (after (.treemask (hl 0xFF800000) false 1 (.v 12) .lit) (lane 0x1F [] (vec 12 [0xFFFFFFFF, 0, 0, 3, 2]))) =
    some (.operand, 0x00030501, 3) := by decide +kernel

/-- The capability of spec/11 for wave 0x00_CE49 of generation 0x2A in context 0x0105: its words apart from the tag, and its open bits. -/
theorem test_grant :
    let t := { wv 0xFFFFFFFF [] [] with waveid := 0xCE49, wavegen := 0x2A, ctx := 0x105 }
    let s := after (.grant (hl 0xFFFFFFFF) .pkg false 1 (.s 8) (.v 40) .lit) (at' t)
    (sOf s 8, sOf s 9, sOf s 10, sOf s 11 % 16) = (0xFFFFFFFF, 0x92A82820, 0x10500CE4, 0) ∧
    (me s).isOpen 40 = true ∧ (me s).isOpen 41 = true ∧ (me s).isOpen 42 = false := by decide +kernel
theorem test_revoke_expect : let t := { wv 5 [] [] with regs := { Regs.zero with openBits := 2 ^ 40 + 2 ^ 41 } }
    (me (after (.revoke hd 0 (.v 40)) (at' t))).regs.openBits = 2 ^ 41 ∧ (me (after (.expect hd 0 (.v 40)) (at' t))).arrived 40 = 0xFFFFFFFA := by
  decide +kernel
theorem test_rget : let s := after (.rgetTk hd 0 (.v 8) (.v 4)) (lane 3 [] (vec 4 [7, 8]))
    (vOf s 8 0, vOf s 8 1) = (7, 8) ∧ (me s).arrived 4 = 0xFFFFFFFC ∧
    (me (after (.rget hd 0 (.v 8) (.v 4)) (lane 3 [] (vec 4 [7, 8])))).arrived 4 = 0xFFFFFFFF := by decide +kernel
/-- R197 to R204: the wave grants itself v20 and sends 7; the send is answered with OK, sets the arrival bits and the acknowledgement
lowers the flag and writes sr.rsstat. A send of a wrong capability is refused with TAG, code 3. -/
def granted : State :=
  let s := after (.expect hd 0 (.v 20)) (after (.grant (hl 3) .pkg false 0 (.s 8) (.v 20) .lit) (lane 3 [(20, 7)] []))
  { s with a := { s.a with locs := [(locKey 0, { ctx := 7, gen := 0, state := .resident, uid := 1, queue := [] })] } }
theorem test_rsend :
    let s := after (.rsend hd .a false 0 (.s 8) (.s 20)) granted
    let t := after (.registerSendArrival 100) s
    let u := after (.sendAcknowledgement 100) t
    (me s).getF 1 = 1 ∧ (vOf t 20 0, vOf t 20 1, vOf t 20 2) = (7, 7, 0) ∧ (me t).arrived 20 = 0xFFFFFFFF ∧ (me u).getF 1 = 0 ∧ u.a.sends = [] ∧
    (me u).sr.rsstat = 0 := by decide +kernel
theorem test_rsend_tag :
    let g := { granted with a := { granted.a with keys := [(7, 0x4321)] } }
    let u := after (.sendAcknowledgement 100) (after (.registerSendArrival 100) (after (.rsend hd .a false 0 (.s 8) (.s 20)) g))
    (me u).sr.rsstat = 0x30008 ∧ vOf u 20 0 = 0 := by decide +kernel
theorem test_rsendv : let s := after (.rsendv hd .a false 0 (.s 8) (.v 3)) { granted with a := granted.a.setThread ((me granted).setV 3 1 99) }
    (tvals s.a.sends).map (fun x => x.vals) = [[(0, 0), (1, 99)]] := by decide +kernel
theorem test_rfence : (me (after (.rfence hd) granted)).wait = none ∧
    (me (after (.rfence hd) (after (.rsend hd .a false 0 (.s 8) (.s 20)) granted))).wait = some .rfence := by decide +kernel

/-- The heavy-hitter list of spec/23 at offset 0x4000 before the insert: TOTW 20 and the slots (5, 7), (9, 7), (12, 4) and (30, 2). -/
def hhlState (m : Lanes) : State := over' (lane m [(4, 0x4000), (5, 0x7F0000)] (vec 2 [9, 9, 41, 5, 41, 9] ++ [])) [(0x4000, 8, 20), (0x4010, 4, 5), (0x4014, 4, 7),
  (0x4018, 4, 9), (0x401C, 4, 7), (0x4020, 4, 12), (0x4024, 4, 4), (0x4028, 4, 30), (0x402C, 4, 2)]
theorem test_skins :
    let t := after (.summaryInstructionComplete 0) (after (.skins hd .a .hhl false (.s 4) (.v 2) (.k 1)) (hhlState 0x3F))
    spadNum t 0x4000 64 = leVal (leBytes 16 26 ++ [5, 8, 9, 10, 12, 4, 30, 2, 41, 2, 0, 0].flatMap (leBytes 4)) := by decide +kernel
theorem test_sktop :
    let t := after (.summaryInstructionComplete 0) (after (.sktop hd .a (.v 10) (.s 4) (.k 0)) (hhlState 0x1F))
    ((me t).regs.v).filter (fun x => decide (320 ≤ x.1) && x.2 != 0) = vec 10 [5, 9, 12, 30] ++ vec 11 [7, 7, 4, 2] := by decide +kernel
theorem test_skinit : let t := after (.summaryInstructionComplete 0) (after (.skinit hd .a .hhl .det (.s 4) (.v 0)) (hhlState 1))
    spadNum t 0x4000 8 = 0 ∧ t.mem = [] := by decide +kernel

/-! ## States that meet the hypotheses of the statements

One theorem for each statement with hypotheses: a state and operands that meet them together, and for a statement of several clauses
one for each. -/

/-- The clause of the wave and of the frame of these tests. -/
def cl (m : Lanes) : Clause := { pc := 0x1000, hdr := hdr0, words := [0, 0, 0, 0, 0, 0], pos := 0, lanes := m }

theorem issues_at (t : Thread) (c : Clause) (h : t.clause = some c) : Issues (at' t) t c :=
  ⟨rfl, if_pos rfl, h⟩

/-- For the words of classes 1 to 3: a word that goes on, one that waits for an arrival bit, one whose register lies beyond the
allocation. (VectorIntegerWords, VectorFloatWords, LaneLogic, LogicPredicateWords, LaneExchangeWords, SpecialFunctionWords.) -/
theorem meets_VectorEnds : let t := { wv 5 [] [] with regs := { Regs.zero with clear := [(3, 1)] } }
    Issues (at' t) t (cl 5) ∧ t.level = .lg ∧ (let w := (at' t).view t (cl 5) hd
      vecBad w [fld 0 (.v 1) false, fld 1 (.v 2) false] = none ∧ w.arrived [fld 1 (.v 2) false] = true ∧
      vecBad w [fld 0 (.v 1) false, fld 1 (.v 3) false] = none ∧ w.arrived [fld 1 (.v 3) false] = false ∧
      (vecBad w [fld 0 (.v 64) false, fld 1 (.v 2) false]).isSome = true ∧ w.part = 5) :=
  ⟨issues_at _ _ rfl, rfl, by decide +kernel⟩
/-- LaneExchangeWords: PART holds a code of at most 4; PARTSET of 4 and of 5; PARTGET of a vector register. -/
theorem meets_LaneExchangeWords : let t := wv 1 [(2, 4), (3, 5)] []
    let w := (at' t).view t (cl 1) hd
    Issues (at' t) t (cl 1) ∧ t.level = .lg ∧ t.regs.part.toNat % 8 ≤ 4 ∧ srcS 1 (.s 2) = none ∧ (w.rs (.s 2)).toNat % 8 ≤ 4 ∧
      4 < (w.rs (.s 3)).toNat % 8 ∧ dstS 1 (.v 3) = opBad 0 1 (.v 3) := ⟨issues_at _ _ rfl, by decide +kernel⟩
/-- SpecialFunctionWords: NENC and NDEC under a header of their format, and under another. -/
theorem meets_SpecialFunctionWords : let t := wv 1 [(2, 0x7C03), (3, 0x7C04)] []
    let w := (at' t).view t (cl 1) hd
    Issues (at' t) t (cl 1) ∧ t.level = .lg ∧ formatBad w .t8 (.s 2) = none ∧ (formatBad w .t8 (.s 3)).isSome = true ∧
      runBad w 1 (.v 20) 4 1 = none ∧ w.runArrived 20 4 1 = true := ⟨issues_at _ _ rfl, by decide +kernel⟩
/-- ScalarWords: a word for some lane, one for none, and one that traps. -/
theorem meets_ScalarWords : let t := wv 1 [] []
    Issues (at' t) t (cl 1) ∧ firstBad [dstW true (.s 2), srcW 1 true (.s 4)] = none ∧ (firstBad [dstW true (.s 3)]).isSome = true ∧
      taking (at' t) t (cl 1) hd ≠ 0 ∧ taking (at' t) t (cl 1) { hd with gn := true } = 0 := ⟨issues_at _ _ rfl, by decide +kernel⟩
/-- ControlWords: LIVE of registers inside and beyond the allocation, targets aligned and not, links good and bad, EXIT of a wave, of a
frame's only lane and under a false guard. -/
theorem meets_ControlWords : let t := wv 1 [(2, 0x2000), (4, 0x2004)] []
    let w := (at' t).view t (cl 1) hd
    Issues (at' t) t (cl 1) ∧ t.isWave = true ∧ (0xFF : BitVec 24).toNat / 2 ^ (t.alloc / 8) = 0 ∧ (0x1FF : BitVec 24).toNat / 2 ^ (t.alloc / 8) ≠ 0 ∧
      targetBad 0 (w.rs64 (.s 2)) = none ∧ (targetBad 0 (w.rs64 (.s 4))).isSome = true ∧ linkBad w 1 (.v 62) = none ∧ (linkBad w 4 (.v 63)).isSome = true ∧
      w.arrived [{ j := 1, o := .s 2, n := 2, dst := false }] = true ∧ (∀ l ∈ Lanes.toList w.part, (w.rd64 1 (.s 2) l).toNat % 8 = 0) ∧ t.tm = false :=
  ⟨issues_at _ _ rfl, by decide +kernel⟩
theorem meets_ControlWords_frame : let t := fr .core []
    Issues (at' t) t (cl 1) ∧ t.isWave = false ∧
      ((((at' t).a.modThread 1 (fun x => endClause x (cl 1) 1 [])).thread 1).map (fun x => (x.isWave, x.front.isEmpty))) = some (false, true) :=
  ⟨issues_at _ _ rfl, by decide +kernel⟩
/-- SpecialRegisterWords: registers held and not, sr.fpctl and PRIOSET at 4 and 3 and beyond, sr.pntimer, a wide pair. -/
theorem meets_SpecialRegisterWords : let t := wv 1 [(2, 4), (4, 5), (6, 3)] []
    let w := (at' t).view t (cl 1) hd
    Issues (at' t) t (cl 1) ∧ t.isWave = true ∧ srcS 1 (.s 2) = none ∧ srcS64 1 (.s 2) = none ∧ (w.rs (.s 2)).toNat % 8 ≤ 4 ∧ 4 < (w.rs (.s 4)).toNat % 8 ∧
      (w.rs (.s 6)).toNat ≤ 3 ∧ 3 < (w.rs (.s 4)).toNat ∧ srHeld t 0x10 = true ∧ srHeld t 0x22 = true ∧ srWideOk 0x22 = true ∧ srHeld t 0x3FF = false ∧
      firstBad [dstS 1 (.s 2), srBad w 0x30 false] = none := ⟨issues_at _ _ rfl, by decide +kernel⟩
/-- TrapEntry and TrapReturns: a thread outside trap mode; one in it with an ACCESS record and a frozen clause, busy and not. -/
def trapped (cls : TrapClass) (n : Tab Nat) : Thread :=
  { wv 1 [] [] with
    tm := true
    tmCounts := n
    record := some { cls := cls, opidx := 0, kinds := 1, kind := 0, mask := 2, pc := 0x1008, addr := 0, synd := 0x400, word := 0, faddr := 0, time := 0, dests := [] }
    frozen := some { front := [{ pc := 0x1000, prio := some 0, lanes := 1, pass := 0 }], clause := some (cl 1), entryPc := 0x1000 } }
theorem meets_TrapEntry : Issues (at' (wv 1 [] [])) (wv 1 [] []) (cl 1) ∧ (wv 1 [] []).tm = false ∧
    Issues (at' (trapped .access [])) (trapped .access []) (cl 1) ∧ (trapped .access []).tm = true :=
  ⟨issues_at _ _ rfl, rfl, issues_at _ _ rfl, rfl⟩
/-- RegisterErrors: v8 of lane 1 and s3 hold errors, and IMOV and SMOV of them take part in lanes 0 to 3. -/
theorem meets_RegisterErrors : let t := { wv 0xF [] [] with regs := { Regs.zero with badV := [vkey 8 1], badS := [3] } }
    let c := { cl 0xF with words := [0x000E000000000000] }
    let w := (at' t).view t c (headOf (c.words.getD c.pos 0))
    w.part = 0xF ∧ (at' t).a.thread t.uid = some t ∧
      w.regErrors (.imov hd false (.v 2) (.v 8)) = [{ vec := true, reg := 8, lanes := 2 }] ∧
      w.regErrors (.smov hd false (.s 2) (.s 3)) = [{ vec := false, reg := 3, lanes := 0xF }] ∧
      w.regErrors (.smov hd false (.s 2) (.s 4)) = [] := by decide +kernel
/-- R213: the register number in ADDR and memory code 4; the mark is gone (R206). -/
theorem test_register_error : let t := { wv 0xF [] [] with regs := { Regs.zero with badV := [vkey 8 1] } }
    let c := { cl 0xF with words := [0x000E000000000000] }
    (((at' t).readRegs t c (.imov hd false (.v 2) (.v 8))).a.thread 1).map
      (fun x => (x.pend.map (fun p => (p.trap.cls, p.trap.addr, p.trap.synd, p.trap.mask)), x.regs.badV)) =
      some ([(.error, 8, 4, 2)], []) := by decide +kernel
theorem meets_TrapReturns : let t := trapped .access []
    Issues (at' t) t (cl 1) ∧ taking (at' t) t (cl 1) hd ≠ 0 ∧ t.tm = true ∧ t.tmBusy = false ∧ (trapped .access [(1, 1)]).tmBusy = true ∧
      (t.record.map (·.cls)) = some .access ∧ ((t.frozen.bind (·.clause)).isSome) = true ∧ replBad ((at' t).view t (cl 1) hd) (.v 8) = none ∧
      ((trapped .software []).record.map (·.cls)) = some .software := ⟨issues_at _ _ rfl, by decide +kernel⟩

/-- VectorAccessWords and ScalarAccessWords: an access that may be issued, one whose flag is full, one behind a fence, one that may not
be made. -/
theorem meets_VectorAccessWords : let t := wv 1 [] [(128, 0x4000), (160, 0x7F0000), (192, 0), (224, 0x7F0000)]
    let s := at' t
    let w := s.view t (cl 1) hd
    Issues s t (cl 1) ∧ t.level = .lg ∧ t.repl = none ∧ firstBad [vecBad w ({ j := 0, o := .v 8, n := 1, dst := true } :: fields4 (.v 4) (.k 0)), w.selBad .a] = none ∧
      w.arrived (fields4 (.v 4) (.k 0)) = true ∧ byLane s t (cl 1) hd (sum64 s t (cl 1) hd (.v 4) (.k 0)) = [(0, 0x7F000000004000)] ∧ w.flagFull .a = false ∧
      fenceWait s.a t false = false ∧ (gather s.a s.mem s.time t .rd 4 (fun _ _ => none) [(0, 0x7F000000004000)]).2.1 = [] ∧
      (gather s.a s.mem s.time t .rd 4 (fun _ _ => none) [(0, 0x7F000000000000)]).2.1 ≠ [] :=
  ⟨issues_at _ _ rfl, by decide +kernel⟩
theorem meets_ScalarAccessWords : let t := { wv 1 [(4, 0x4000), (5, 0x7F0000)] [] with regs := { (wv 1 [(4, 0x4000), (5, 0x7F0000)] []).regs with f := [(1, 63)] } }
    let s := at' t
    let w := s.view t (cl 1) hd
    Issues s t (cl 1) ∧ t.repl = none ∧ firstBad [dstS 1 (.s 9), srcU64 1 (.s 4), srcU 2 (.k 0), w.selBad .a] = none ∧
      byFirst s t (cl 1) hd (sum64 s t (cl 1) hd (.s 4) (.k 0) 0) ≠ [] ∧ w.flagFull .a = true ∧ w.flagFull .b = false := ⟨issues_at _ _ rfl, by decide +kernel⟩
/-- MemoryPlaceWords: FRAME by 32, by 8, beyond the high-water mark and beyond the stride; FLUSH, MIGRATE and FENCE. -/
theorem meets_MemoryPlaceWords : let t := wv 1 [(2, 32), (4, 0x4000), (5, 0x7F0000), (6, 128)] []
    let s := at' t
    let w := s.view t (cl 1) hd
    Issues s t (cl 1) ∧ t.level = .lg ∧ dstS 2 (.s 8) = none ∧ srcU 1 (.s 2) = none ∧ taking s t (cl 1) hd ≠ 0 ∧
      (s.a.ctx t.unit.pkg t.ctx) = some ctx0 ∧ ((t.sr.sp : Int) + (w.rs (.s 2)).toInt) % 16 = 0 ∧ (t.sr.sp : Int) + (w.rs (.s 2)).toInt ≤ ctx0.hwm ∧
      firstBad [srcU64 1 (.s 4), srcU 2 (.s 6), w.selBad .a] = none ∧ w.flagFull .a = false ∧ t.spec.isOpen = false ∧ holdsCv s.a t = false ∧ t.tm = false ∧
      (let got := gather s.a s.mem s.time t .rd 1 (fun _ _ => none) (byFirst s t (cl 1) hd (w.rs64 (.s 4)).toNat)
       got.2.1 = [] ∧ got.1.length = 1) := ⟨issues_at _ _ rfl, by decide +kernel⟩
theorem meets_MemoryPlaceWords_park : let t := wv 1 [(2, 0x8000), (4, 0x10010), (6, 8)] []
    let s := { at' t with a := { (at' t).a with ctxs := [(7, { ctx0 with hwm := 0x4000 })] } }
    let w := s.view t (cl 1) hd
    let n (o : Opnd) : Int := (t.sr.sp : Int) + (w.rs o).toInt
    Issues s t (cl 1) ∧ s.a.ctx t.unit.pkg t.ctx = some { ctx0 with hwm := 0x4000 } ∧ n (.s 2) % 16 = 0 ∧ (0x4000 : Int) < n (.s 2) ∧ n (.s 2) ≤ 0x10000 ∧
      n (.s 4) % 16 = 0 ∧ (0x10000 : Int) < n (.s 4) ∧ n (.s 6) % 16 ≠ 0 ∧ t.wait ≠ some (.park (n (.s 2)).toNat) :=
  ⟨⟨rfl, rfl, rfl⟩, by decide +kernel⟩
/-- A context with one range of 64 KiB at VA 0x2000_0000, direct at PA 0x20_0000_0000, home berth 1, readable and writable (R90, R93). -/
def paged (s : State) : State :=
  { s with
    mem := mputs (mputs s.mem 0x100000 [2, 0, 1]) 0x100020 (leBytes 8 0x20000001 ++ leBytes 8 0x20000000 ++ leBytes 8 0x2000000000 ++ leBytes 8 0x610)
    a := s.a.setPkg 0 { s.a.pkg 0 with poolBase := 0x100000, poolSize := 0x10000 } }
/-- R92: a load through the range reads its frame; R107: a VA outside every range is UNMAPPED, kind 0. -/
theorem test_ld_mapped : let s := paged { lane 1 [] [(128, 0x20000010)] with mem := mputs [] 0x2000000010 [7] }
    vOf (after (.memoryRequestComplete 100 0) (after (.ld hd .b32 mm false (.v 8) (.v 4) (.k 0)) s)) 8 0 = 7 ∧
    trapOf (after (.ld hd .b32 mm false (.v 8) (.v 4) (.k 0)) (paged (lane 1 [] [(128, 0x30000010)]))) = some (.access, 0x400, 0x30000010) := by
  decide +kernel
theorem meets_MemoryPlaceWords_claim : let t := wv 1 [(2, 0x20000000), (4, 0x10000)] []
    let s := paged (at' t)
    let w := s.view t (cl 1) hd
    Issues s t (cl 1) ∧ firstBad [srcU64 1 (.s 2), srcU64 2 (.s 4), w.selBad .a] = none ∧ (w.rs64 (.s 4)).toNat = 0x10000 ∧
      (claimRange s.a s.mem (agentOf s.a t) 2 0x20000000 0x2000FFFF).toOption.map (fun es => (es.length, mirrorBad s.a 0 0 es, (claimLegs 0 0 es).length)) =
        some (1, none, 1) := ⟨⟨rfl, rfl, rfl⟩, by decide +kernel⟩
theorem meets_CrewBarrierWords : let t := wv 1 [] []
    Issues (at' t) t (cl 1) ∧ t.level = .lg ∧ taking (at' t) t (cl 1) hd ≠ 0 ∧ (at' t).a.crew t.crew = some crew0 ∧ (1 : Fin 16).val < crew0.nbar ∧
      tget crew0.bars 1 = some (firstBar 2) ∧ (firstBar 2).members / 2 ^ t.wnum % 2 = 1 ∧ (firstBar 2).arrived / 2 ^ t.wnum % 2 = 0 ∧
      tget t.pbar 1 = none ∧ srcU 1 (.s 2) = none ∧ (∀ j ph, t.wait ≠ some (.crewBar j ph)) ∧
      ((((arriveAt (at' t).a t crew0 1 (firstBar 2)).crew t.crew).bind (fun c => tget c.bars 1)).getD (firstBar 2)).phase ≤ (firstBar 2).phase ∧
      (let k := { crew0 with bars := [(1, { firstBar 2 with arrived := 2 })] }
       (firstBar 2).phase < ((((arriveAt ((at' t).a.setCrew k) t k 1 { firstBar 2 with arrived := 2 }).crew t.crew).bind
         (fun c => tget c.bars 1)).getD (firstBar 2)).phase) :=
  ⟨issues_at _ _ rfl, rfl, by decide +kernel, rfl, by decide, rfl, by decide, by decide, rfl, by decide +kernel, by simp [wv, Thread.blank], by decide +kernel,
    by decide +kernel⟩

/-- CopyWords: COPY of 32 bytes in the crew's window with and without a barrier; a stream with room and without; MCOPY at CORE. -/
theorem meets_CopyWords : let t := wv 1 [(4, 0x4000), (5, 0x7F0000), (6, 0x5000), (7, 0x7F0000), (8, 32), (10, 1024), (11, 0x8000)] []
    let s := at' t
    let w := s.view t (cl 1) hd
    Issues s t (cl 1) ∧ t.level = .lg ∧ taking s t (cl 1) hd ≠ 0 ∧ copyChecks s t (cl 1) hd false mm 1 true (.s 9) (.s 4) (.s 6) (.s 8) = none ∧
      copyChecks s t (cl 1) hd true mm 0 false (.s 9) (.s 4) (.s 6) (.s 8) = none ∧ w.flagFull .a = false ∧ fenceWaitPath s.a t false = false ∧
      s.a.crew t.crew = some crew0 ∧ (tget crew0.streams 0).isSome = true ∧ firstBad [dstS 1 (.s 9), srcU64 1 (.s 4), srcU 2 (.s 10), w.selBad .a, rightsOf s.a t] = none ∧
      (w.rs (.s 10)).toNat % 16 = 0 ∧ 16 ≤ (w.rs (.s 10)).toNat ∧ (w.rs (.s 10)).toNat ≤ 2048 ∧ (w.rs64 (.s 4)).toNat % 16 = 0 ∧
      crew0.base ≤ (w.rs (.s 11)).toNat ∧ (w.rs (.s 11)).toNat + (w.rs (.s 10)).toNat ≤ crew0.base + crew0.size ∧ (pushesOf s.a 5 0).isEmpty = true ∧
      dstS 2 (.s 8) = none := ⟨issues_at _ _ rfl, by decide +kernel⟩
theorem meets_CopyWords_frame : let t := fr .core [(4, 0x4000), (5, 0x7F0000), (6, 0x5000), (7, 0x7F0000), (8, 32)]
    Issues (at' t) t (cl 1) ∧ t.isWave = false ∧ copyChecks (at' t) t (cl 1) hd false mm 0 false (.s 9) (.s 4) (.s 6) (.s 8) = none :=
  ⟨issues_at _ _ rfl, by decide +kernel⟩
theorem meets_CopyWords_acopy : let t := wv 1 [] [(128, 0x4000), (160, 0x7F0000), (192, 0x5000)]
    let s := at' t
    let w := s.view t (cl 1) hd
    Issues s t (cl 1) ∧ firstBad [vecBad w (fields4 (.v 4) (.v 6)), w.selBad .a] = none ∧ w.arrived (fields4 (.v 4) (.v 6)) = true ∧
      (gather s.a s.mem s.time t .rd 16 (fun _ va => if va % 16 = 0 then none else some .align) (byLane s t (cl 1) hd (fun l => (w.rd64 1 (.v 4) l).toNat))).2.1 = [] ∧
      (gather s.a s.mem s.time t .w 16 (fun _ va => if va % 16 = 0 then offBad 0 va else some .align)
        (byLane s t (cl 1) hd (fun l => 0x7F000000000000 + (w.rd 2 (.v 6) l).toNat))).2.1 = [] := ⟨issues_at _ _ rfl, by decide +kernel⟩
theorem meets_CopyWords_core : let t := wv 1 [(4, 0x4000), (6, 20), (8, 128), (10, 1)] []
    let s := at' t
    let w := s.view t (cl 1) hd
    Issues s t (cl 1) ∧ firstBad [dstS 1 (.s 9), srcRunS 1 4 (.s 4), srcU 2 (.s 8), srcU64 3 (.s 10), w.selBad .a] = none ∧
      s.a.resolve t .core = .core ∧ mcopySize .core 128 0x4000 20 = none ∧ (w.mcopyCrew 0).map (·.id) = some 5 ∧
      (levelEnd s.a { agentOf s.a t with crew := some 5 } .core 0x4000).isSome = true ∧ (crewWaves s.a 5 1).length = (chosen 1 32).length ∧
      (∀ x ∈ crewWaves s.a 5 1, 20 + 128 / 128 ≤ x.2.alloc) ∧ w.wavesFull .a (crewWaves s.a 5 1) = false := ⟨issues_at _ _ rfl, by decide +kernel⟩
/-- MCOPY at CLU from a cluster frame to its cores 0 and 1; at POD the mask is the 128 bytes at a VA. -/
theorem meets_CopyWords_clu : let t := fr .clu [(4, 0x100), (6, 0x4000), (8, 32), (10, 3)]
    let s := at' t
    let w := s.view t (cl 1) hd
    Issues s t (cl 1) ∧ firstBad [dstS 1 (.s 9), srcRunS 1 4 (.s 4), srcU 2 (.s 8), srcU64 3 (.s 10), w.selBad .a] = none ∧
      mcopySize .clu 32 0x100 0x4000 = none ∧ (levelEnd s.a (agentOf s.a t) .clu 0x100).isSome = true ∧
      (childEnd s.a (agentOf s.a t) (w.mcopyUnit .clu) ((chosen 3 (maskWidth .clu)).headD 0) 0x4000).isSome = true ∧ w.childBad .clu 3 = none ∧
      w.flagFull .a = false ∧ fenceWaitPath s.a t false = false := ⟨issues_at _ _ rfl, by decide +kernel⟩

/-- LaunchWords: the core frame and the die frame of the launch tests, with descriptors that are read and well formed. -/
theorem meets_LaunchWords_crew : let s := coreFrame
    let t := fr .core [(4, 0x8000), (5, 0x7F0000)]
    let w := s.view t (cl 1) hd
    Issues s t (cl 1) ∧ t.level = .core ∧ s.a.resolve t .self = .core ∧ srcU64 1 (.s 4) = none ∧ (w.rs64 (.s 4)).toNat % 64 = 0 ∧ taking s t (cl 1) hd ≠ 0 ∧
      ownPending s.a t.uid = false ∧ fenceWait s.a t false = false ∧
      ((w.readIssue s.a (w.rs64 (.s 4)).toNat 64).toOption.bind (·.2)).map (fun b => (crewBad (LDesc.of b) none).isNone) = some true ∧
      (waitingCrews s.a t.unit.pkg t.unit.idx).length < 8 := ⟨⟨rfl, by decide +kernel, rfl⟩, by decide +kernel⟩
def dieFrame : State := { frame .die [(4, 0x10000000), (5, 0x7F0000)] with
  mem := mputs [] 0x100000000000 (leBytes 4 1 ++ leBytes 4 3 ++ leBytes 8 0x3000 ++ leBytes 8 0x55 ++ leBytes 8 5) }
theorem meets_LaunchWords_frames : let s := dieFrame
    let t := fr .die [(4, 0x10000000), (5, 0x7F0000)]
    let w := s.view t (cl 1) hd
    Issues s t (cl 1) ∧ t.level = .die ∧ s.a.resolve t .self = .die ∧ (w.rs64 (.s 4)).toNat % 64 = 0 ∧
      ((w.readIssue s.a (w.rs64 (.s 4)).toNat 64).toOption.bind (·.2)).map (fun b => (framesBad w (LDesc.of b) none).isNone) = some true :=
  ⟨⟨rfl, by decide +kernel, rfl⟩, by decide +kernel⟩
/-- LaunchWords, the gang form: the crew of the gang test, and a die frame with a block of three loaders, whose descriptor has PC 0. -/
theorem meets_LaunchWords_gang : let s := gangFrame
    let t := fr .core [(4, 0x8000), (5, 0x7F0000)]
    let w := s.view t (cl 1) hd
    Issues s t (cl 1) ∧ ((w.readIssue s.a 0x7F000000008000 64).toOption.bind (·.2)).bind (fun b =>
      ((w.readIssue s.a 0x7F000000008040 64).toOption.bind (·.2)).map (fun g => (crewBad (LDesc.of b) (some g)).isNone)) = some true :=
  ⟨⟨rfl, by decide +kernel, rfl⟩, by decide +kernel⟩
def dieGang : State := { frame .die [(4, 0x10000000), (5, 0x7F0000)] with
  mem := mputs (mputs [] 0x100000000000 (leBytes 4 1 ++ leBytes 4 3 ++ leBytes 8 0 ++ leBytes 8 0x55 ++ leBytes 8 5)) 0x100000000040
    (leBytes 16 1 ++ leBytes 8 0x3000 ++ leBytes 8 0x300080000) }
theorem meets_LaunchWords_gang_frames : let s := dieGang
    let t := fr .die [(4, 0x10000000), (5, 0x7F0000)]
    let w := s.view t (cl 1) hd
    Issues s t (cl 1) ∧ ((w.readIssue s.a 0x7F000010000000 64).toOption.bind (·.2)).bind (fun b =>
      ((w.readIssue s.a 0x7F000010000040 64).toOption.bind (·.2)).map (fun g => (framesBad w (LDesc.of b) (some g)).isNone)) = some true :=
  ⟨⟨rfl, by decide +kernel, rfl⟩, by decide +kernel⟩
/-- HierarchyWaitWords: JOIN with a child left and without; BAR by the last participant, by an earlier one, and while it waits. -/
theorem meets_HierarchyWaitWords : let t := fr .core []
    let s := at' t
    Issues s t (cl 1) ∧ t.level ≠ .lg ∧ taking s t (cl 1) hd ≠ 0 ∧ s.a.resolve t .core = t.level ∧ s.a.resolve t .clu ≠ t.level ∧
      ¬ ((∃ x, x ∈ tvals s.a.threads ∧ x.parent = some t.uid ∧ x.spawned = false) ∨ (∃ k, k ∈ tvals s.a.crews ∧ k.parent = t.uid ∧ k.started = false)) ∧
      (∃ k, k ∈ tvals [(5, { crew0 with parent := 1, started := false })] ∧ k.parent = t.uid ∧ k.started = false) :=
  ⟨issues_at _ _ rfl, by decide, by decide +kernel, rfl, by decide +kernel, by simp [at', fr, Thread.blank, tvals, crew0],
    _, List.mem_singleton.mpr rfl, rfl, rfl⟩
theorem meets_HierarchyWaitWords_bar : let t := wv 1 [] []
    let s := at' t
    let here : Arch := s.a.modThread t.uid (fun x => { x with wait := some (.bar 1 0) })
    Issues s t (cl 1) ∧ s.a.resolve t .core = .core ∧ t.level.code ≤ Level.core.code ∧ Level.core.code ≤ (s.a.rootLevel t).code ∧ t.gen .core = 0 ∧
      ownPending s.a t.uid = false ∧ t.aborted = false ∧ (∀ p ∈ participants here t .core, p.wait = some (.bar 1 0)) ∧ (participants here t .core).length = 1 ∧
      (let u := { wv 1 [] [] with uid := 3 }
       ¬ ∀ p ∈ participants { here with threads := tset here.threads 3 u } t .core, p.wait = some (.bar 1 0)) := ⟨issues_at _ _ rfl, by decide +kernel⟩
/-- SpawnFetchWords: two lanes with a place, and FETCHW of a free mailbox and of one in use. -/
theorem meets_SpawnFetchWords : let t := wv 3 [(4, 0x2000), (8, 0x4000)] []
    let s := at' t
    let w := s.view t (cl 3) hd
    Issues s t (cl 3) ∧ t.level = .lg ∧ firstBad [srcU64 1 (.s 4), runBad w 2 (.v 16) 16 1] = none ∧ (w.rs64 (.s 4)).toNat % 8 = 0 ∧ s.a.crew t.crew = some crew0 ∧
      ownPending s.a t.uid = false ∧ w.runArrived (w.vreg 2 (.v 16) 0) 16 3 = true ∧ (placeLanes w crew0 0x2000 16 [0, 1] s.a).2 = [] ∧
      srcU 1 (.s 8) = none ∧ w.selBad .a = none ∧ w.sel .a = some 1 ∧ (w.rs (.s 8)).toNat % 64 = 0 ∧ crew0.base ≤ (w.rs (.s 8)).toNat ∧
      (w.rs (.s 8)).toNat + 64 ≤ crew0.base + crew0.size ∧ (∀ r ∈ tvals s.a.fetches, r.mailbox ≠ 0x300000004000) ∧
      (∃ r ∈ tvals (after (.fetchw hd .a (.s 8)) s).a.fetches, r.mailbox = 0x300000004000) := ⟨issues_at _ _ rfl, by decide +kernel⟩
/-- SpawnFetchWords: a filling punnet of the crew and PC. -/
theorem meets_SpawnFetchWords_punnet : let a := (after (.spawn hd (.s 4) (.v 16)) (lane 3 [(4, 0x2000)] [])).a
    (punnetAt a 0 0 0).state = .filling ∧ (punnetAt a 0 0 0).crew = 5 ∧ (punnetAt a 0 0 0).pc = 0x2000 := by decide +kernel
/-- Reductions: REDUCE at CORE of one element group; a second contribution finds the instance of the first. -/
theorem meets_Reductions : let t := wv 1 [(4, 0x4000), (5, 0x7F0000), (6, 0x5000), (8, 4)] []
    let s := at' t
    let w := s.view t (cl 1) hd
    Issues s t (cl 1) ∧ taking s t (cl 1) hd ≠ 0 ∧ firstBad [dstS 1 (.s 9), srcU64 1 (.s 4), srcU64 2 (.s 6), srcU 3 (.s 8), w.selBad .a] = none ∧
      s.a.resolve t .core = .core ∧ t.level.code ≤ 1 ∧ 1 ≤ (s.a.rootLevel t).code ∧ (w.rs64 (.s 4)).toNat % redAlign (.ef .i32) = 0 ∧
      redDstBad w (.ef .i32) .core 0x5000 (redBytes (.ef .i32) 4) = none ∧ redBytes (.ef .i32) 4 = 16 ∧ w.flagFull .a = false ∧ fenceWaitPath s.a t false = false ∧
      findRed s.a t.tree ((ancestor s.a t .core).getD t.uid) .core t.level 0 = none ∧
      (findRed (after (.reduce hd { mm with lvl := .core } (.ef .i32) .add (.s 9) (.s 4) (.s 6) (.s 8)) s).a t.tree ((ancestor s.a t .core).getD t.uid) .core
        t.level 0).isSome = true := ⟨issues_at _ _ rfl, by decide +kernel⟩

/-- MatrixStepWord: a step of registers without a convergence register; with one that is free, signed by its owner, and another's. -/
theorem meets_MatrixStepWord : let t := wv 1 [] []
    let s := at' t
    let w := s.view t (cl 1) hd
    MatrixIssue s t (cl 1) hd crew0 ∧ writable s t crew0 0 ∧ matSrcBad w crew0 1 .reg (.v 0) = none ∧ matSrcArrived w .reg (.v 0) (taking s t (cl 1) hd) = true ∧
      fenceWaitPath s.a t true = false ∧ ownPending s.a t.uid = false ∧ latchQueued s.a crew0 false = false ∧ 0 < mmaKlen hd .f32 ∧ mmaKlen hd .f32 ≤ mmaDepth .f32 ∧
      mmaEmask hd = 0 ∧ (w.mmaSources crew0 .f32 .reg .reg (.v 0) (.v 16) (taking s t (cl 1) hd)).toOption.isSome = true ∧ (0 : Fin 8).val < crew0.ncv ∧
      tget crew0.cvs 0 = none ∧ taking s t (cl 1) hd &&& ~~~t.live = 0 ∧ taking s t (cl 1) hd ≠ t.live :=
  ⟨⟨issues_at _ _ rfl, rfl, by decide, rfl, by decide +kernel⟩, ⟨by decide, fun h => by cases h⟩, by decide +kernel⟩
theorem meets_MatrixStepWord_signed :
    let t := wv 2 [] []
    let k := ((after (.mma hd .f32 .lg false .reg .reg false false .rn (some 0) 0 (.v 0) (.v 16)) (lane 1 [] [])).a.crew 5).getD crew0
    let s := withCrew (at' t) k
    MatrixIssue s t (cl 2) hd k ∧ (tget k.cvs 0).map (fun x => (x.owner, x.signed, x.expected, x.word)) = some (0, 1, 0xFFFFFFFF, 0) ∧
      (tget k.cvs 0).map (fun x => x.lit) = some (Hd.litRec hd) ∧ taking s t (cl 2) hd = 2 :=
  ⟨⟨⟨rfl, rfl, rfl⟩, rfl, by decide, by decide +kernel, by decide +kernel⟩, by decide +kernel⟩
/-- AccumulatorWords: sources, tiles and runs in range, a latch free, a descriptor of the crew's region for ACCST and ACCLD. -/
theorem meets_AccumulatorWords : let t := wv 0x1F [(8, 0x80004000)] (vec 12 [0xFFFFFFFF, 0, 0, 1, 2])
    let s := at' t
    let w := s.view t (cl 0x1F) hd
    MatrixIssue s t (cl 0x1F) hd crew0 ∧ writable s t crew0 1 ∧ 0 < crew0.acc ∧ crew0.acc ≤ (2 : Fin 16).val ∧ latchNamed crew0 false = false ∧
      (w.matSource crew0 1 .reg (.v 0) 0x1F).toOption.isSome = true ∧ runBad w 1 (.v 8) 32 1 = none ∧ w.runArrived 8 32 0x1F = true ∧ runBad w 0 (.v 8) (accrdRun .f32) 1 = none ∧
      w.selBad .a = none ∧ w.flagFull .a = false ∧ descFieldBad w 1 (.s 8) = none ∧
      (w.rowDesc .w (w.descVal (.s 8)) 128).toOption.isSome = true ∧ vecBad w [{ j := 1, o := .v 12, n := 1, dst := false }] = none ∧ srcU 2 (.s 2) = none ∧ w.arrived [{ j := 1, o := .v 12, n := 1, dst := false }] = true ∧
      (∀ i, i ∈ Lanes.toList (taking s t (cl 0x1F) hd) → w.parent (.v 12) i = -1 ∨
        (0 ≤ w.parent (.v 12) i ∧ w.parent (.v 12) i < i ∧ (taking s t (cl 0x1F) hd).getLsbD (w.parent (.v 12) i).toNat = true)) :=
  ⟨⟨issues_at _ _ rfl, rfl, by decide, rfl, by decide +kernel⟩, ⟨by decide, fun h => by cases h⟩, by decide +kernel⟩
/-- SpeculationCommitWords: an open window and a closed one; a KVCOMMIT descriptor that is read, well formed or not; and a command of KVCOMMIT. -/
theorem meets_SpeculationCommitWords : let t := wv 1 [(4, 0x4000), (5, 0x7F0000), (6, 0x15)] []
    let s := over' (at' t) [(0x4000, 8, 0x7F000000005000), (0x4008, 8, 0x7F000000006000), (0x4010, 4, 0x100), (0x4014, 4, 1), (0x4018, 8, 0x1000), (0x4020, 8, 0x1000)]
    let w := s.view t (cl 1) hd
    MatrixIssue s t (cl 1) hd crew0 ∧ t.spec.isOpen = false ∧ (∀ x ∈ crew0.cvs, x.2.owner = t.uid → x.2.spec = false) ∧
      firstBad [dstS 1 (.s 9), srcU64 1 (.s 4), srcU 2 (.s 6), w.selBad .a] = none ∧ w.flagFull .a = false ∧ fenceWaitPath s.a t true = false ∧
      ownPending s.a t.uid = false ∧ fenceWait s.a t false = false ∧ ((w.readIssue s.a 0x7F000000004000 64).toOption.bind (·.2)).isSome = true ∧
      (tvals (after (.kvcommit hd mm (.s 9) (.s 4) (.s 6)) s).a.cmds).map (fun x => decide (x.kind = .kvcommit)) = [true] :=
  ⟨⟨⟨rfl, rfl, rfl⟩, rfl, by decide, rfl, by decide +kernel⟩, by decide +kernel⟩
/-- SlicePerforms: each operation at the head of the slice of core 0, outside every window, in a crew without bad rows; a landing; a
command of ACCST with its data. -/
def headOf (s : State) : Option SliceOp := (tvals s.a.slice).find? (fun x => decide (x.coreKey s.a = some 0))
theorem meets_SlicePerforms : let s := after (.accz hd 1) (lane 1 [] [])
    s.a.crew 5 = some crew0 ∧ crew0.id = 5 ∧ crew0.badRows = [] ∧
      (headOf s).map (fun o => (o.crew, o.spec, o.window, o.descA, o.descB, o.what)) = some (5, false, false, none, none, .accz 1) ∧
      ((headOf (after (.treemask hd false 1 (.v 12) (.s 2)) (lane 1 [] [(384, 0xFFFFFFFF)]))).map (fun o => match o.what with
        | .treemask _ _ anc _ => decide (∀ x ∈ anc, x.1 < 32) && decide (anc.map (·.1)).Nodup | _ => false)) = some true := by decide +kernel
theorem meets_SlicePerforms_landing :
    let s := after (.matrixOperationComplete 0) (after (.accrd hd .f32 .rn (.v 8) 0) (lane 2 [] []))
    s.a.landings.map (fun x => (x.1, x.2.uid)) = [(101, 1)] ∧ (s.a.thread 1).isSome = true := by decide +kernel
theorem meets_SlicePerforms_accst :
    let s := after (.matrixOperationComplete 0) (after (.accst hd mm (.s 8) 0) (lane 1 [(8, 0x80004000)] []))
    (tvals s.a.cmds).map (fun x => (match x.kind with | .accst d (some _) => decide (128 ≤ d.stride) | _ => false, cmdReady s.a x)) = [(true, true)] := by
  decide +kernel

/-- FabricRegisterWords: GRANT above LG of a run inside the allocation; a send by a capability that is well formed, within its count and
beyond it, and by one that is not; runs for RGET; a wave with and without sends. -/
theorem meets_FabricRegisterWords : let t := me granted
    let s := granted
    let c := (t.clause.getD (cl 3))
    let w := s.view t c hd
    s.cur = some t.uid ∧ s.a.thread t.uid = some t ∧ t.clause = some c ∧ t.level = .lg ∧ taking s t c hd ≠ 0 ∧ dstS 4 (.s 8) = none ∧
      runBad w 1 (.v 40) 2 1 = none ∧ srcU 2 (.s 20) = none ∧ 1 ≤ (s.a.resolve t .pkg).code ∧ w.rs (.s 20) ≠ 0 ∧ t.ctx < 65536 ∧
      firstBad [srcRunS 1 4 (.s 8), srcU 2 (.s 20), w.selBad .a] = none ∧ capMalformed (t.quad 8) = false ∧ (Cap.of (t.quad 8)).cnt = 0 ∧
      capMalformed (t.quad 24) = true ∧ w.arrived [{ j := 2, o := .v 3, n := 1, dst := false }] = true ∧ (Cap.of (t.quad 8)).lmask &&& taking s t c hd ≠ 0 ∧
      w.flagFull .a = false ∧ fenceWait s.a t true = false ∧ (∀ x ∈ tvals s.a.sends, x.sender ≠ t.uid) ∧ w.runArrived 40 2 (taking s t c hd) = true ∧
      w.runArrived 20 1 (taking s t c hd) = false := by decide +kernel
/-- FabricRegisterWords: a send that arrives, of a wave at home with the register open and its bits clear; its acknowledgement. -/
theorem meets_FabricRegisterWords_send : let s := after (.rsend hd .a false 0 (.s 8) (.s 20)) granted
    ((tget s.a.sends 100).map (fun x =>
      let k := Cap.of x.cap
      decide (x.id = 100) && sendReady s.a x k && decide (x.ctx = k.ctx) && x.inScope && decide (bits k.wave 6 8 ≤ 191) && decide (k.wave % 64 ≤ 47) &&
        decide ((tget s.a.keys (ctxKey (bits k.wave 14 10) k.ctx)).map (fun y => tagOf y x.cap) = some k.tag) &&
        ((tget s.a.locs (locKey (BitVec.ofNat 32 k.wave))).map (fun e => decide (e.ctx = k.ctx) && decide (e.gen = k.gen) && decide (e.state ≠ .retired) &&
          !e.state.holds && decide (e.uid = 1))).getD false && (me s).isOpen (k.base + x.idx) && decide ((me s).arrived (k.base + x.idx) &&& x.lanes = 0))) = some true ∧
      (s.a.berth 0 0).held = false ∧ s.a.missing = [] ∧
      (let u := after (.registerSendArrival 100) s
       (tget u.a.sends 100).map (·.status) = some (some 0) ∧ (u.a.thread 1).isSome = true ∧ threadCrossing u.a 1 = false) := by decide +kernel
/-- FabricRegisterWords: refusals for another context, for a wrong tag, outside the scope, for a closed register, for an arrival bit
that is set and for a missing package. -/
theorem meets_FabricRegisterWords_refused :
    let s := after (.rsend hd .a false 0 (.s 8) (.s 20)) granted
    let st (s : State) : Option (Option Nat) := (tget (after (.registerSendArrival 100) s).a.sends 100).map (·.status)
    let alter (f : Send → Send) : State := { s with a := { s.a with sends := tmod s.a.sends 100 f } }
    (st (alter (fun x => { x with ctx := 8 })), st { s with a := { s.a with keys := [(7, 1)] } }, st (alter (fun x => { x with inScope := false })),
      st { s with a := s.a.setThread ((me s).setOpen 20 false) }, st { s with a := s.a.setThread ((me s).setArr 20 3) }, st { s with a := { s.a with locs := [] } },
      st (alter (fun x => { x with senderPkg := 1 }))) =
    (some (some 4), some (some 3), some (some 5), some (some 6), some (some 1), some (some 2), some (some 7)) := by decide +kernel
/-- RevokeAndExpect: a run for some lane and for none. -/
theorem meets_RevokeAndExpect : let t := wv 5 [] []
    let w := (at' t).view t (cl 5) hd
    Issues (at' t) t (cl 5) ∧ t.level = .lg ∧ runBad w 1 (.v 40) 8 1 = none ∧ taking (at' t) t (cl 5) hd ≠ 0 ∧ taking (at' t) t (cl 5) { hd with gn := true } = 0 :=
  ⟨issues_at _ _ rfl, by decide +kernel⟩
/-- Summaries: an object that is read at once, one in use by an earlier word, and the operation at the head of the unit. -/
theorem meets_Summaries : let t := wv 1 [(4, 0x4000), (5, 0x7F0000)] []
    let s := at' t
    let w := s.view t (cl 1) hd
    let objs : List Obj := [{ j := 1, va := 0x7F000000004000, r := .rdw }]
    Issues s t (cl 1) ∧ t.level = .lg ∧ taking s t (cl 1) hd ≠ 0 ∧ mooredBad t = none ∧ objs.map (fun o => objBad o.j (BitVec.ofNat 64 o.va)) = [none] ∧
      w.selBad .a = none ∧ w.flagFull .a = false ∧ fenceWait s.a t true = false ∧ (w.readObjects .hhl objs).2 = false ∧
      (w.readObjects .hhl objs).1.toOption = some [0x300000004000] ∧
      (let u := after (.skins hd .a .hhl false (.s 4) (.v 2) (.k 1)) s
       ((tvals u.a.sums).find? (fun x => x.core == 0)).map (fun o => sumReady u.a o) = some true ∧
       (tvals u.a.sums).map (fun o => decide (∀ fa ∈ o.reads, ∀ g ∈ granules fa o.what.kind.size, isBad u.a g = false)) = [true]) :=
  ⟨issues_at _ _ rfl, by decide +kernel⟩
/-- MemoryRequests: a load of one piece whose request may be performed; a stale request whose page translates; an expired translation. -/
theorem meets_MemoryRequests : let s := after (.lds hd .b32 mm 0 (.v 4) (.v 1) (.k 0)) (lane 1 [] (vec 1 [0x4000]))
    tget s.a.cmds 100 = none ∧ ((tget s.a.ops 100).map (fun o => (o.id, o.errDests, o.errGran, o.acq, o.flag))) = some (100, [], [], false, some 1) ∧
      ((tget s.a.ops 100).map (fun o => o.reqs.map (fun r => (r.id, reqReady s.a s.time o r, r.pieces.map (fun p => (p.line, p.off, p.len, p.lane)))))) =
        some [(0, true, [(none, 0, 4, 0)])] ∧ s.a.thread 1 ≠ none ∧ (tget s.a.ops 100).map (·.what) = some (.load 4 false [(0, 4)]) := by decide +kernel
theorem meets_MemoryRequests_stale : let s := after (.ld hd .b32 mm false (.v 8) (.v 4) (.k 0)) (paged (lane 1 [] [(128, 0x20000010)]))
    let u := { s with time := 100000 }
    (tget u.a.ops 100).map (fun o => o.reqs.map (fun r => (reqStale s.a s.time o r, reqStale u.a u.time o r, r.pieces.length))) = some [(false, true, 1)] ∧
      ((tget u.a.ops 100).map (fun o => decide (o.id = 100) && (translate u.a u.mem u.time o.ag o.what.right 0x20000010 4).toOption.isSome)) = some true ∧
      ((tvals s.a.tlb).map (fun e => (decide (e.expiry < refTimer u.a u.time 0), decide (e.expiry < refTimer s.a s.time 0)))).all (fun x => x.1 && !x.2) = true := by
  decide +kernel
/-- EngineSteps: a COPY ready and done; a push to admit and one without room; a wave that waits at SPOP; a CLAIM to begin. -/
theorem meets_EngineSteps : let s := after (.copyIn hd mm 0 false 0 (.s 9) (.s 4) (.s 6) (.s 8)) copyState
    (tget s.a.cmds 100).map (fun x => (x.kind, cmdReady s.a x, x.done, x.bar, x.tm)) = some (.copyIn 0, true, false, none, false) ∧
      (tget s.a.cmds 100).map (fun x => decide (x.owner = .thread 1)) = some true ∧
      (let p := after (.spush hd mm 0 (.s 6) (.s 2) (.s 4)) pushState
       (tget p.a.cmds 100).map (fun x => (x.kind, x.ag.crew, x.legs.map (·.size))) = some (.spush 0 false 0, some 5, [1024])) ∧
      (me (after (.spop hd 0 (.s 4)) pushState)).wait = some (.spop 0 1024 100) := by decide +kernel
theorem meets_EngineSteps_claim : let s := after (.claim hd mm (.s 2) (.s 4)) (paged (lane 1 [(2, 0x20000000), (4, 0x10000)] []))
    (tget s.a.cmds 100).map (fun x => (x.kind, x.committed, claimBusy s.a x, claimBehind s.a x, decide (x.owner = .thread 1))) =
      some (.claim 0x20000000 0x10000 0 0 0, false, false, false, true) ∧
    (claimRange s.a s.mem (agentOf s.a (me s)) 2 0x20000000 0x2000FFFF).toOption.map (fun es => ((claimLegs 0 0 es).isEmpty, claimBadSlot s.a 0 es)) = some (false, none) := by
  decide +kernel
/-- Reductions: a second contribution arrives at an instance that still waits for another. -/
theorem meets_Reductions_arrival :
    let s := after (.reduce hd { mm with lvl := .core } (.ef .i32) .add (.s 9) (.s 4) (.s 6) (.s 8)) (lane 1 [(4, 0x4000), (5, 0x7F0000), (6, 0x5000), (8, 4)] [])
    (tvals s.a.reds).map (fun r => (r.fin, r.contribs.map (fun k => (k.arrived, k.faulted, k.acq, k.saved, k.tm)))) = [(false, [(false, false, false, false, false)])] ∧
    (resolveRange s.a s.mem s.time 100 (agentOf s.a (me s)) (.va (agentOf s.a (me s)) 0x7F000000004000) .rd 16 none) matches .ok _ := by decide +kernel

/-! ## Choice, hierarchy and work -/

/-- A wave that stands at a PC with no clause; its header word is in memory behind the range of `paged`. -/
def ready (uid slot prio : Nat) : Thread :=
  { wv 0 [] [] with uid := uid, slot := slot, clause := none, front := [{ pc := 0x20000000, prio := some prio, lanes := 0xF, pass := 0 }] }
/-- Two waves on slot 0 of core 0, over a page that holds a clause: a header and two NOPs. -/
def choosing : State :=
  let s := paged { at' (ready 1 0 0) with mem := mputs [] 0x2000000000 (leBytes 8 0x804003FC00000000 ++ leBytes 8 0x1F0E000000000000 ++ leBytes 8 0x1F0E000000000000) }
  { s with a := s.a.setThread (ready 3 4 0) }
/-- The page with the right to execute. -/
def runnable (s : State) : State := { s with mem := mputs s.mem 0x100038 (leBytes 8 0xE10) }
/-- ClauseChoice: nobody passed over, nobody issuing, some wave eligible and none in a state whose waves have no lanes; a suspended clause; a pending trap. -/
theorem meets_ClauseChoice : let s := runnable choosing
    (∀ t ∈ slotWaves s.a 0 0, t.yielded = false) ∧ (∀ t ∈ slotWaves s.a 0 0, t.holdsSlot = false) ∧
      ((slotWaves s.a 0 0).filter (waveEligible s.a s.mem s.time)).map (fun t => (t.uid, t.clause.isNone, t.pend.length, (pickEntry (readPrios s.a s.mem s.time t)).map (·.pc))) =
        [(1, true, 0, some 0x20000000), (3, true, 0, some 0x20000000)] ∧
      (slotWaves (lane 1 [] []).a 0 0).map (·.holdsSlot) = [true] ∧
      (let u := { s with a := { s.a with threads := [(1, { ready 1 0 0 with front := [] })] } }
       (slotWaves u.a 0 0).filter (waveEligible u.a u.mem u.time) = []) := by decide +kernel
/-- R245, R247: the choice takes in the clause at the entry's PC. -/
theorem test_clause_begin : (me (after (.clauseBegin 0 0) (runnable choosing))).clause.map (fun c => (c.pc, c.words.length, c.lanes, c.pos)) =
    some (0x20000000, 2, 0xF, 0) := by decide +kernel
theorem meets_ClauseChoice_frame : let s := runnable (paged { at' { fr .core [] with clause := none, front := [{ pc := 0x20000000, prio := some 0, lanes := 1, pass := 0 }] } with
      mem := mputs [] 0x2000000000 (leBytes 8 0x804003FC00000000) })
    ((seqFrames s.a { level := .core, pkg := 0, idx := 0 }).filter (frameEligible s.a s.mem s.time)).map (·.uid) = [1] := by decide +kernel
/-- ClauseChoice: R52's rule on entries passed over 1,024 times. -/
theorem meets_ClauseChoice_entries :
    (pickEntry [{ pc := 8, prio := some 5, lanes := 1, pass := 0 }, { pc := 16, prio := some 0, lanes := 2, pass := 1024 }]).map (·.pc) = some 16 ∧
    (pickEntry [{ pc := 8, prio := some 5, lanes := 1, pass := 0 }, { pc := 16, prio := some 0, lanes := 2, pass := 3 }]).map (·.pc) = some 8 := by decide +kernel
/-- SequencerSteps: a pending frame with room; a held tile with room. -/
theorem meets_SequencerSteps : let t := { fr .core [] with phase := .pending, clause := none }
    let u := { t with phase := .held }
    let fs := seqFrames (at' t).a t.unit
    (fs.filter (fun t => decide (t.phase = .pending))).length = 1 ∧ (fs.filter (fun t => decide (t.phase = .active) || decide (t.phase = .draining))).length < 8 ∧
      (at' u).a.thread 1 = some u ∧ pendingOn (at' u).a u.unit < 64 ∧
      (∀ x ∈ seqFrames (at' u).a u.unit, x.phase = .held → u.launch < x.launch ∨ (u.launch = x.launch ∧ u.tile ≤ x.tile)) := by decide +kernel
theorem test_frame_activate : (me (after (.frameActivate { level := .core, pkg := 0, idx := 0 }) (at' { fr .core [] with phase := .pending, clause := none }))).phase = .active ∧
    (me (after (.tilePlacement 1) (at' { fr .core [] with phase := .held, clause := none }))).phase = .pending := by decide +kernel
theorem test_promotion : (me (after (.issueAgePromotion 1) (at' { wv 1 [] [] with eligible := 4096 }))).promoted = true ∧
    (me (after (.issueAgePromotion 1) (at' { wv 1 [] [] with eligible := 4095 }))).promoted = false := by decide +kernel
/-- CrewSteps: the waiting crew of the launch test fits; a full and a filling punnet; a wave without lanes; a crew without waves. -/
theorem meets_CrewSteps : let s := after (.launch hd .self (.s 4)) coreFrame
    let cs := (waitingCrews s.a 0 0).filter (fun c => !draining s.a c.pkg c.core c.ctx)
    (nextCrew s.a cs).map (fun k => (k.count, (crewFit s.a k).isSome, (crewPlan k).length)) = some (2, true, 2) ∧ nextCrew coreFrame.a [] = none := by decide +kernel
def spawned : State :=
  let s := after (.spawn hd (.s 4) (.v 16)) (lane 3 [(4, 0x2000)] (vec 16 [5, 6]))
  { s with a := { s.a with punnets := s.a.punnets.map (fun p => (p.1, { p.2 with state := .ready })) } }
theorem meets_CrewSteps_punnet : let s := spawned
    let p := punnetAt s.a 0 0 0
    p.state = .ready ∧ (s.a.crew p.crew).map (fun k => (k.out, draining s.a 0 0 k.ctx, freeWnum s.a k.id, decide (k.live < 32), decide (k.id = p.crew))) =
      some (false, false, some 1, true, true) ∧ (freeSlots s.a 0 0).headD 99 = 1 ∧ slotsUsed s.a 0 0 7 < slotCap s.a 0 0 7 ∧ regsUsed s.a 0 0 + p.alloc ≤ 3072 ∧ p.recs.length ≤ 32 := by
  decide +kernel
theorem test_punnet_launch : ((after (.punnetLaunch 0 0) spawned).a.thread 100).map (fun t => (t.slot, t.wnum, t.role, t.getV 0 0, t.getV 0 1, t.front.map (fun e => (e.pc, e.lanes)))) =
    some (1, 1, 3, 5, 6, [(0x2000, 3)]) := by decide +kernel
theorem meets_CrewSteps_retire : let t := { wv 0 [] [] with clause := none, front := [] }
    let s := at' t
    (t.level = .lg ∧ t.front = [] ∧ t.clause = none ∧ t.tm = false ∧ (∀ p ∈ t.regs.f, p.2 = 0) ∧ ownPending s.a 1 = false ∧ (∀ o ∈ tvals s.a.slice, o.uid ≠ 1) ∧
      (∀ l ∈ tvals s.a.landings, l.uid ≠ 1)) ∧
    (let k := { crew0 with live := 0 }
     k.started = true ∧ crewPunnets (withCrew s k).a k = false ∧ crewCmds (withCrew s k).a k = false ∧ ∀ o ∈ tvals s.a.ops, o.ag.crew ≠ some 5) := by decide +kernel
theorem test_retire : ((after (.waveRetire 1) (at' { wv 0 [] [] with clause := none, front := [] })).a.thread 1).isNone = true ∧
    ((after (.crewRetire 5) (withCrew (lane 1 [] []) { crew0 with live := 0 })).a.crew 5).isNone = true := by decide +kernel
/-- WorkArrivals: a request without a tile and with one; a wave that moves to berth 1 and one that may not. -/
theorem meets_WorkArrivals : let s := after (.fetchw hd .a (.s 2)) (lane 1 [(2, 0x4000)] [])
    let u := { s with a := s.a.setThread { fr .core [] with uid := 3, phase := .held, clause := none, tile := 4, ntiles := 9, launch := 2, desc := 0x500 } }
    (tget s.a.fetches 100).map (fun r => (r.crew, decide ((heldTile { s.a with fetches := [] } r).isNone), decide ((heldTile { u.a with fetches := [] } r).isSome))) =
      some (5, true, true) ∧ (s.a.thread 1).isSome = true := by decide +kernel
theorem test_fetchw_tile : let s := after (.fetchw hd .a (.s 2)) (lane 1 [(2, 0x4000)] [])
    let t := after (.fetchwReply 100) { s with a := s.a.setThread { fr .core [] with uid := 3, phase := .held, clause := none, tile := 4, ntiles := 9, launch := 2, desc := 0x500 } }
    spadNum t 0x4000 24 = leVal (leBytes 8 1 ++ leBytes 8 2 ++ leBytes 4 4 ++ leBytes 4 9) := by decide +kernel
theorem meets_WorkArrivals_move : let t := { wv 0 [] [] with clause := none, mig := some (0, 1) }
    let s := at' t
    t.uid = 1 ∧ moveReady s.a t = true ∧ t.front ≠ [] ∧ (mooring s.a t 0 1).isSome = true ∧ tget s.a.locs (locKey t.waveid) = none ∧
      moveReady s.a { t with wait := some .arrival, clause := some (cl 1) } = false := by decide +kernel

/-! ## The front end -/

/-- A command packet of 112 bytes: its opcode, and numbers at byte offsets. -/
def cmd (opc : Nat) (fs : List (Nat × Nat × Nat)) : QCmd :=
  { id := 50, seq := 1, bytes := mbytes (fs.foldl (fun m x => mputs m x.1 (leBytes x.2.1 x.2.2)) (mputs [] 0 (leBytes 1 opc))) 0 112, begun := true, started := false, faulted := false }
/-- A queue that holds one command, of context 7 but for queue 0. -/
def queue (q : Nat) (c : QCmd) : Queue := { queueZero 0 with ctx := if q = 0 then none else some 7, cmds := [c] }
/-- A package with queue `q`, context 7 and 5 TB of booted quiet. -/
def front (q : Nat) (c : QCmd) : State :=
  { State.reset with a := { Arch.reset with queues := [(q, queue q c)], ctxs := [(7, ctx0)], keys := [(7, 1)], nextId := 100 } }
/-- Whether command `c` may act in a state (Begun, as a decidable check). -/
def begunIn (s : State) (opc q : Nat) (k : Queue) (c : QCmd) : Bool :=
  decide (findCmd s.a 0 50 = some (q, k, c)) && decide (c.num 0 1 = opc) && c.begun && !c.started && !c.faulted && !aborting s.a 0 k.ctx &&
    decide (c.tf = true → ∀ x ∈ k.cmds, x.seq < c.seq → x.num 0 1 ≠ 4)
theorem begun_of (s : State) (opc q : Nat) (k : Queue) (c : QCmd) (h : begunIn s opc q k c = true) : Begun s opc 0 50 q k c := by
  simp only [begunIn, Bool.and_eq_true, Bool.not_eq_true', decide_eq_true_eq] at h
  obtain ⟨⟨⟨⟨⟨⟨h1, h2⟩, h3⟩, h4⟩, h5⟩, h6⟩, h7⟩ := h
  exact ⟨h1, h2, h3, h4, h5, h6, h7⟩
/-- How a command ended: its queue no longer holds it, and the record, if any, has this status and detail. -/
def ended' (i : Instr) (s : State) (q : Nat) : Option (Nat × List (Nat × Nat)) :=
  ((after i s).a.queue 0 q).map (fun k => (k.cmds.length, ((after i s).a.pkg 0).reports.filterMap (fun r => match r with
    | .completion st _ d _ _ _ => some (st, d) | _ => none)))

theorem meets_QueueCommands_launch : let c := cmd 0x1 [(32, 1, 5), (34, 2, 0), (40, 8, 0x40)]
    let s := front 1 c
    Begun s 0x1 0 50 1 (queue 1 c) c ∧ firstOff [(33, dirty c.bytes 33 34), (36, dirty c.bytes 36 40), (40, !(c.num 40 8 % 64 == 0)), (56, dirty c.bytes 56 64)] = none ∧
      1 ≤ c.num 32 1 ∧ c.num 32 1 ≤ 5 ∧ unitOwned s.a (s.a.ctxWorld 0 7) (rootUnit 0 5 0) 0 = true :=
  ⟨begun_of _ _ _ _ _ (by decide +kernel), by decide +kernel⟩
theorem meets_QueueCommands_write : let c := cmd 0x4 [(32, 8, 0x40)]
    let s := front 1 c
    Begun s 0x4 0 50 1 (queue 1 c) c ∧ firstOff [(32, !(c.num 32 8 % 16 == 0)), (40, decide (2 ≤ c.num 40 1)), (41, dirty c.bytes 41 48)] = none ∧
      c.num 40 1 = 0 :=
  ⟨begun_of _ _ _ _ _ (by decide +kernel), by decide +kernel⟩
theorem meets_QueueCommands_copy : let c := cmd 0x5 [(32, 8, 0x40), (40, 8, 0x80), (48, 8, 32)]
    let s := front 1 c
    Begun s 0x5 0 50 1 (queue 1 c) c ∧ firstOff [(32, !(c.num 32 8 % 16 == 0)), (40, !(c.num 40 8 % 16 == 0)),
      (48, !(c.num 48 8 % 16 == 0) || decide (c.num 48 8 < 16) || decide (2 ^ 40 < c.num 48 8)), (56, dirty c.bytes 56 64)] = none :=
  ⟨begun_of _ _ _ _ _ (by decide +kernel), by decide +kernel⟩
theorem meets_Contexts_update : let c := cmd 0x41 [(32, 2, 7), (48, 8, 0x100000), (56, 8, 0x40000000), (64, 4, 0x10000), (68, 4, 0x10000)]
    let s := front 0 c
    Begun s 0x41 0 50 0 (queue 0 c) c ∧ firstOff [(34, dirty c.bytes 34 48)] = none ∧
      s.a.ctx 0 7 = some ctx0 ∧ s.a.ctx 0 8 = none :=
  ⟨begun_of _ _ _ _ _ (by decide +kernel), by decide +kernel⟩
theorem meets_Contexts_abort : let c := cmd 0x42 [(32, 2, 7)]
    let s := front 0 c
    Begun s 0x42 0 50 0 (queue 0 c) c ∧ firstOff [(34, dirty c.bytes 34 48)] = none ∧
      ctx0.aborting = none :=
  ⟨begun_of _ _ _ _ _ (by decide +kernel), by decide +kernel⟩
theorem meets_Contexts_refuse : let c := cmd 0x4a [(32, 2, 7), (36, 3, 5)]
    let s := front 0 c
    Begun s 0x4a 0 50 0 (queue 0 c) c ∧ firstOff [(34, dirty c.bytes 34 36), (39, dirty c.bytes 39 48)] = none ∧
      s.a.ctx 0 7 ≠ none ∧ parkedWave s 0 7 5 = none :=
  ⟨begun_of _ _ _ _ _ (by decide +kernel), by decide +kernel⟩
theorem meets_Contexts_destroy : let c := cmd 0x4f [(32, 2, 7)]
    let s := front 0 c
    Begun s 0x4f 0 50 0 (queue 0 c) c ∧ firstOff [(34, dirty c.bytes 34 48)] = none ∧
      ctxQuiet s.a 0 7 = true ∧ (∀ x ∈ s.a.queues, x.2.ctx ≠ some 7) ∧ s.a.pairs = [] :=
  ⟨begun_of _ _ _ _ _ (by decide +kernel), by decide +kernel⟩
theorem meets_ManagementCommands_queue_create : let c := cmd 0x43 [(32, 2, 3), (34, 2, 7), (36, 1, 2)]
    let s := front 0 c
    Begun s 0x43 0 50 0 (queue 0 c) c ∧ firstOff [(32, c.num 32 2 == 0 || decide (255 < c.num 32 2)), (36, decide (3 < c.num 36 1)),
      (37, decide (2 ≤ c.num 37 1)), (38, dirty c.bytes 38 48)] = none ∧
      s.a.ctx 0 7 ≠ none ∧ s.a.queue 0 3 = none ∧ s.a.queue 0 0 ≠ none :=
  ⟨begun_of _ _ _ _ _ (by decide +kernel), by decide +kernel⟩
theorem meets_ManagementCommands_queue_destroy : let c := cmd 0x44 [(32, 2, 3)]
    let s := front 0 c
    Begun s 0x44 0 50 0 (queue 0 c) c ∧ firstOff [(32, c.num 32 2 == 0 || decide (255 < c.num 32 2)), (34, dirty c.bytes 34 48)] = none ∧
      s.a.queue 0 3 = none :=
  ⟨begun_of _ _ _ _ _ (by decide +kernel), by decide +kernel⟩
theorem meets_Preemption_preempt : let c := cmd 0x45 [(32, 2, 7), (40, 8, 1)]
    let s := front 0 c
    Begun s 0x45 0 50 0 (queue 0 c) c ∧ firstOff [(34, dirty c.bytes 34 40)] = none ∧
      s.a.ctx 0 7 ≠ none ∧ namedCores c = [0] ∧ imageOf s.a 0 0 7 = none :=
  ⟨begun_of _ _ _ _ _ (by decide +kernel), by decide +kernel⟩
theorem meets_Preemption_resume : let c := cmd 0x46 [(32, 2, 7), (40, 8, 1)]
    let s := front 0 c
    Begun s 0x46 0 50 0 (queue 0 c) c ∧ firstOff [(34, dirty c.bytes 34 40)] = none ∧
      s.a.ctx 0 7 ≠ none ∧ (∀ j ∈ namedCores c, isOut s.a 0 j 7 = false) :=
  ⟨begun_of _ _ _ _ _ (by decide +kernel), by decide +kernel⟩
theorem meets_Preemption_pair_declare : let c := cmd 0x47 [(32, 2, 7), (34, 2, 8), (36, 1, 24), (37, 1, 24)]
    let s := front 0 c
    Begun s 0x47 0 50 0 (queue 0 c) c ∧ firstOff [(34, c.num 32 2 == c.num 34 2), (38, dirty c.bytes 38 40)] = none ∧
      c.num 36 1 + c.num 37 1 ≤ 48 :=
  ⟨begun_of _ _ _ _ _ (by decide +kernel), by decide +kernel⟩
theorem meets_Preemption_pair_switch : let c := cmd 0x48 [(32, 2, 7), (34, 2, 7)]
    let s := front 0 c
    Begun s 0x48 0 50 0 (queue 0 c) c ∧ firstOff [(36, dirty c.bytes 36 40)] = none ∧
      s.a.ctx 0 7 ≠ none ∧ namedCores c = [] :=
  ⟨begun_of _ _ _ _ _ (by decide +kernel), by decide +kernel⟩
theorem meets_Preemption_area_set : let c := cmd 0x50 [(32, 1, 3), (34, 2, 256)]
    let s := front 0 c
    Begun s 0x50 0 50 0 (queue 0 c) c ∧ firstOff [(32, decide (3 < c.num 32 1)), (33, dirty c.bytes 33 34), (34, decide (256 < c.num 34 2)), (36, dirty c.bytes 36 48)] = none ∧
      s.a.images = [] :=
  ⟨begun_of _ _ _ _ _ (by decide +kernel), by decide +kernel⟩
theorem meets_ManagementCommands_pool_set : let c := cmd 0x49 [(32, 8, 0x10000), (40, 8, 0x20000)]
    let s := front 0 c
    Begun s 0x49 0 50 0 (queue 0 c) c ∧ firstOff [(32, !(c.num 32 8 % 65536 == 0)), (40, !(c.num 40 8 % 65536 == 0))] = none :=
  ⟨begun_of _ _ _ _ _ (by decide +kernel), by decide +kernel⟩
theorem meets_ManagementCommands_evt_cfg : let c := cmd 0x4e [(32, 4, 3)]
    let s := front 0 c
    Begun s 0x4e 0 50 0 (queue 0 c) c ∧ firstOff [(36, dirty c.bytes 36 48)] = none :=
  ⟨begun_of _ _ _ _ _ (by decide +kernel), by decide +kernel⟩
theorem meets_ManagementCommands_retry : let c := cmd 0x4b [(32, 2, 0), (40, 8, 9)]
    let s := front 0 c
    Begun s 0x4b 0 50 0 (queue 0 c) c ∧ firstOff [(34, dirty c.bytes 34 40)] = none ∧
      faultedCmds s.a 0 0 9 = [] ∧ faultedReds s.a 0 0 9 = [] ∧ faultedChunks s.a 0 0 9 = [] ∧ faultedArrivals s.a 0 0 9 = [] :=
  ⟨begun_of _ _ _ _ _ (by decide +kernel), by decide +kernel⟩
theorem meets_CollectiveCommands_destroy : let c := cmd 0x4d [(32, 1, 31)]
    let s := front 0 c
    Begun s 0x4d 0 50 0 (queue 0 c) c ∧ firstOff [(32, decide (31 < c.num 32 1)), (33, dirty c.bytes 33 48)] = none ∧
      s.a.comm 0 31 = none :=
  ⟨begun_of _ _ _ _ _ (by decide +kernel), by decide +kernel⟩
theorem meets_CollectiveCommands_create : let c := cmd 0x4c [(32, 1, 31), (34, 2, 0), (36, 2, 1024), (38, 1, 8)]
    let s := front 0 c
    Begun s 0x4c 0 50 0 (queue 0 c) c ∧ firstOff [(32, decide (31 < c.num 32 1)), (33, decide (2 ≤ c.num 33 1)), (36, c.num 36 2 == 0 || decide (1024 < c.num 36 2)),
      (38, c.num 38 1 == 0 || decide (8 < c.num 38 1)), (39, dirty c.bytes 39 40)] = none ∧
      buffersUsed s.a 0 + 16 ≤ 128 :=
  ⟨begun_of _ _ _ _ _ (by decide +kernel), by decide +kernel⟩
theorem meets_CollectiveCommands_load : let c := cmd 0x2 [(33, 1, 15), (34, 2, 4096)]
    let s := front 1 c
    Begun s 0x2 0 50 1 (queue 1 c) c ∧ firstOff [(33, decide (15 < c.num 33 1)), (34, c.num 34 2 == 0 || decide (4096 < c.num 34 2)), (36, dirty c.bytes 36 40),
      (40, !(c.num 40 8 % 64 == 0)), (48, dirty c.bytes 48 64)] = none :=
  ⟨begun_of _ _ _ _ _ (by decide +kernel), by decide +kernel⟩
theorem meets_CollectiveCommands_replay : let c := cmd 0x3 [(33, 1, 15), (36, 4, 1)]
    let s := front 1 c
    Begun s 0x3 0 50 1 (queue 1 c) c ∧ firstOff [(33, decide (15 < c.num 33 1)), (34, dirty c.bytes 34 36), (104, dirty c.bytes 104 112)] = none :=
  ⟨begun_of _ _ _ _ _ (by decide +kernel), by decide +kernel⟩
theorem meets_PlatformCommands_clk_set : let c := cmd 0x61 [(32, 1, 3), (34, 2, 1800)]
    let s := front 0 c
    Begun s 0x61 0 50 0 (queue 0 c) c ∧ firstOff [(32, decide (3 < c.num 32 1)), (33, dirty c.bytes 33 34),
      (34, decide (c.num 34 2 < 600) || decide (1800 < c.num 34 2) || !(c.num 34 2 % 25 == 0)), (36, dirty c.bytes 36 48)] = none ∧
      (s.a.berth 0 3).relock = none ∧ (s.a.berth 0 3).mhz ≠ 1800 :=
  ⟨begun_of _ _ _ _ _ (by decide +kernel), by decide +kernel⟩
theorem meets_PlatformCommands_world_set : let c := cmd 0x62 [(32, 1, 0), (33, 1, 1), (34, 2, 191)]
    let s := front 0 c
    Begun s 0x62 0 50 0 (queue 0 c) c ∧ firstOff [(32, decide (3 < c.num 32 1)), (33, decide (1 < c.num 33 1)), (34, decide (unitCount (c.num 32 1) ≤ c.num 34 2)),
      (36, dirty c.bytes 36 48)] = none ∧
      unitHeld s.a 0 0 191 = false :=
  ⟨begun_of _ _ _ _ _ (by decide +kernel), by decide +kernel⟩
theorem meets_PlatformCommands_firewall_set : let c := cmd 0x63 [(32, 1, 7), (33, 1, 15), (34, 1, 1), (40, 8, 0x10000), (48, 8, 0x20000)]
    let s := front 0 c
    Begun s 0x63 0 50 0 (queue 0 c) c ∧ firstOff [(32, decide (7 < c.num 32 1)), (33, decide (15 < c.num 33 1)), (34, decide (1 < c.num 34 1)), (35, dirty c.bytes 35 40),
      (40, !(c.num 40 8 % 65536 == 0) || decide (2 ^ 52 ≤ c.num 40 8)), (48, !(c.num 48 8 % 65536 == 0) || decide (2 ^ 52 ≤ c.num 48 8)),
      (56, dirty c.bytes 56 64)] = none :=
  ⟨begun_of _ _ _ _ _ (by decide +kernel), by decide +kernel⟩
theorem meets_PlatformCommands_hbm_mapout : let c := cmd 0x64 [(32, 1, 3), (33, 1, 7)]
    let s := front 0 c
    Begun s 0x64 0 50 0 (queue 0 c) c ∧ firstOff [(32, decide (3 < c.num 32 1)), (33, !(c.num 33 1 == 2 * c.num 32 1) && !(c.num 33 1 == 2 * c.num 32 1 + 1)),
      (35, dirty c.bytes 35 48)] = none ∧
      (s.a.berth 0 3).mapout = none :=
  ⟨begun_of _ _ _ _ _ (by decide +kernel), by decide +kernel⟩
theorem meets_PlatformCommands_power_cfg : let c := cmd 0x66 [(32, 2, 900), (34, 1, 95)]
    let s := front 0 c
    Begun s 0x66 0 50 0 (queue 0 c) c ∧ firstOff [(35, dirty c.bytes 35 48)] = none :=
  ⟨begun_of _ _ _ _ _ (by decide +kernel), by decide +kernel⟩

theorem meets_Contexts_create : let c := cmd 0x40 [(32, 2, 8), (40, 8, 0x9000), (48, 8, 0x100000), (56, 8, 0x40000000), (64, 4, 0x10000), (68, 4, 0x10000), (72, 1, 1)]
    let s := front 0 c
    Begun s 0x40 0 50 0 (queue 0 c) c ∧ firstOff [(34, decide (1 < c.num 34 1)), (35, dirty c.bytes 35 40), (40, !(c.num 40 8 % 8 == 0))] = none ∧
      s.a.ctx 0 8 = none ∧ s.a.ctx 0 7 ≠ none ∧ Describes (c.bytes.drop 48) ctx0 ∧ (ctx0.world = true ↔ c.num 34 1 = 1) ∧ ctx0.handler = c.num 40 8 ∧
      ctx0.aborting = none ∧ ctx0.tagRefusals = 0 :=
  ⟨begun_of _ _ _ _ _ (by decide +kernel), by decide +kernel, by decide +kernel, by decide +kernel, by unfold Describes; decide +kernel, by decide +kernel⟩
theorem meets_QueueCommands_qwait : let c := cmd 6 []
    Begun (front 1 c) 6 0 50 1 (queue 1 c) c ∧ firstOff [(32, dirty c.bytes 32 40)] = none ∧
      firstOff [(32, dirty (cmd 5 [(33, 1, 1)]).bytes 32 40)] = some 32 := ⟨begun_of _ _ _ _ _ (by decide +kernel), by decide +kernel⟩
theorem meets_PlatformCommands_cap_read : let c := cmd 0x60 []
    Begun (front 0 c) 0x60 0 50 0 (queue 0 c) c := begun_of _ _ _ _ _ (by decide +kernel)
theorem meets_PlatformCommands_berth_retry : let c := cmd 0x65 [(32, 1, 3)]
    Begun (front 0 c) 0x65 0 50 0 (queue 0 c) c ∧ firstOff [(32, decide (3 < c.num 32 1)), (33, dirty c.bytes 33 48)] = none ∧ ((front 0 c).a.berth 0 3).held = false :=
  ⟨begun_of _ _ _ _ _ (by decide +kernel), by decide +kernel⟩
theorem meets_Preemption_image_set : let c := cmd 0x51 [(32, 2, 7), (34, 1, 191), (36, 4, 128), (40, 4, 256)]
    let s := front 0 c
    Begun s 0x51 0 50 0 (queue 0 c) c ∧ firstOff [(34, decide (191 < c.num 34 1)), (35, dirty c.bytes 35 36), (36, !(c.num 36 4 % 128 == 0)),
      (40, !(c.num 40 4 % 128 == 0)), (44, dirty c.bytes 44 48)] = none ∧ s.a.ctx 0 7 ≠ none ∧ (s.a.berth 0 3).area * 0x100000 < 128 + 256 ∧
      (s.a.berth 0 2).area * 0x100000 < 0 + 256 ∧ isOut s.a 0 191 7 = false := ⟨begun_of _ _ _ _ _ (by decide +kernel), by decide +kernel⟩
/-- What ends a command: MALFORMED with the offset of the first bad field, UNKNOWN, BUSY, OK. -/
theorem test_malformed : ended' (.clkSet 0 50) (front 0 (cmd 0x61 [(32, 1, 4), (34, 2, 1200)])) 0 = some (0, [(1, 32)]) ∧
    ended' (.clkSet 0 50) (front 0 (cmd 0x61 [(34, 2, 601)])) 0 = some (0, [(1, 34)]) := by decide +kernel
theorem test_clk_set : let u := front 0 (cmd 0x61 [(34, 2, 600)])
    let s := after (.clkSet 0 50) { u with a := u.a.setPkg 0 { Pkg.reset with boot := .ready } }
    (s.a.berth 0 0).relock.map (fun r => (r.1, r.2.2.1)) = some (1500, 600) ∧ (s.a.queue 0 0).map (·.cmds.length) = some 1 ∧
    (let t := after (.pllRelockEnd 0 0) (elapse 1500 s); (t.a.berth 0 0).mhz = 600 ∧ (t.a.queue 0 0).map (·.cmds.length) = some 0) := by decide +kernel
theorem test_qwait : ended' (.qwait 0 50) (front 1 (cmd 6 [])) 1 = some (0, []) := by decide +kernel

/-- QueueCommands: a command that has not begun, of queue 0 beside one of class 0, and nothing to choose. -/
theorem meets_QueueCommands_order : let c := { cmd 6 [] with begun := false }
    let s := front 0 c
    let u := { s with a := s.a.setQueue 0 3 (queue 3 c) }
    chooseQueue u.a 0 = some (0, queue 0 c, c) ∧ readyCmd u.a 0 3 (queue 3 c) = some c ∧ chooseQueue (front 0 (cmd 6 [])).a 0 = none ∧
      s.a.queue 0 0 = some (queue 0 c) ∧ (queue 0 c).cmd c.id = some c ∧ c.crec = false := by decide +kernel
theorem test_queue_begin : let c := { cmd 6 [] with begun := false }
    ((after (.queueCommandBegin 0) (front 1 c)).a.queue 0 1).map (fun k => k.cmds.map (·.begun)) = some [true] := by decide +kernel

/-- Contexts: an abort with nothing left, one with a wave left; a tag key of a package of a lower number. -/
theorem meets_Contexts_events : let s := front 0 (cmd 6 [])
    let x := { ctx0 with aborting := some 50 }
    let u := { s with a := { s.a with ctxs := [(7, x)] } }
    let w := { lane 1 [] [] with a := { (lane 1 [] []).a with ctxs := [(7, x)] } }
    u.a.ctx 0 7 = some x ∧ ctxQuiet u.a 0 7 = true ∧ ctxQuiet w.a 0 7 = false ∧
    (let v := { s with a := { s.a with ctxs := [(7, ctx0), (65536 + 7, ctx0)] } }
     v.a.ctx 0 7 ≠ none ∧ v.a.ctx 1 7 ≠ none ∧ tget v.a.keys (ctxKey 0 7) = some 1 ∧ tget v.a.keys (ctxKey 1 7) = none) := by decide +kernel
theorem test_abort_done : let s := front 0 (cmd 0x42 [])
    let t := after (.abortDone 0 7) { s with a := { s.a with ctxs := [(7, { ctx0 with aborting := some 50 })] } }
    (t.a.ctx 0 7).map (·.aborting) = some none ∧ (t.a.queue 0 0).map (·.cmds.length) = some 0 := by decide +kernel

/-! ## Pre-emption, collectives, platform, transport -/

/-- Pre-emption 9 of context 7 on core 0, or its resume. -/
def pre (resume : Bool) : Pre :=
  { id := 9, pkg := 0, ctx := 7, cores := [0], began := 0, cmd := none, resume := resume, switchTo := none, saved := [], reported := [] }
def image (out : Bool) : Image := { ctx := 7, pkg := 0, core := 0, offset := 0, room := 256, out := out, punnets := [], waves := [], crews := [], size := 128, bad := false }
def saving (s : State) (resume out : Bool) : State := { s with a := { s.a with pres := [(9, pre resume)], images := [image out] } }
/-- Preemption: an overrun and none; a core without waves, one whose wave has not settled; a restore with room, and one that cannot be read. -/
theorem meets_Preemption_steps : let s := saving (lane 1 [] []) false false
    let t := wv 1 [] []
    let u := saving (front 0 (cmd 6 [])) false false
    let r := saving (front 0 (cmd 6 [])) true true
    s.a.thread 1 = some t ∧ atSafePoint s.a s.mem 20000 t = false ∧ (pre false).began + 20000 ≤ 20000 ∧ t.saved = false ∧
      imageOf s.a 0 0 7 = some (image false) ∧ (ctxWaves s.a 0 0 7).map (settled s.a s.mem s.time) = [false] ∧ ctxWaves u.a 0 0 7 = [] ∧
      isOut u.a 0 0 7 = false ∧ isOut r.a 0 0 7 = true ∧ imageBad r.a (image true) = [] ∧ restoreFits r.a 0 0 7 = true ∧
      (let b := { r with a := { r.a with bad := [(imageAddr r.a (image true) / 64, 1)] } }; imageBad b.a (image true) ≠ []) := by decide +kernel
theorem test_overrun : ((after (.safePointOverrun 9 1) { saving (lane 1 [] []) false false with time := 20000 }).a.pres).map (fun p => p.2.reported) = [[1]] := by
  decide +kernel

/-- A flight entry for package 1. -/
def fent (op : Nat) : FlightEntry :=
  { op := op, dtype := 0, red := 0, sw := false, dw := false, push := false, acq := false, rel := false, init := 0, rnext := 0, nelem := 4,
    sbase := 0, dbase := 0, dpkg := 1, soff := 0, doff := 0, succ := [] }
def comm0 : Comm := { queue := 1, ctx := 7, cls := 0, world := false, push := false, members := [0, 1], bufs := 2, sendUsed := 0, recvUsed := 0, lastServed := 0, destroying := none, aborted := false }
def replay0 : Replay :=
  { id := 60, pkg := 0, comm := 31, flight := 15, n := 1, cmd := 50, seq := 1, entries := [fent 1], bases := [0, 0, 0, 0, 0, 0, 0, 0], cnt := [0],
    started := [false], doneE := [false], status := 0, lastProgress := 0, aborted := false, fin := false }
def arrival0 : Arrival :=
  { id := 61, src := 1, dst := 0, comm := 31, flight := 15, n := 1, entry := 0, rank := 1, replay := 60, data := some [0], metas := [], desc := fent 1,
    direct := false, came := none, acked := false, faulted := false }
/-- Queue 1's communicator 31 with flight 15 on package 0. -/
def coll (c : QCmd) : State :=
  let s := front 1 c
  { s with a := { s.a with comms := [(commKey 0 31, comm0), (commKey 1 31, comm0)], flights := [(flightKey 0 31 15, { entries := [fent 1], lastReplay := 0, applied := [] })] } }
/-- CollectiveCommands: a communicator of the queue, its flight, the next replay; entries of a bad DPKG. -/
theorem meets_CollectiveCommands : let c := cmd 3 [(32, 1, 31), (33, 1, 15), (36, 4, 1)]
    let s := coll c
    Begun s 3 0 50 1 (queue 1 c) c ∧ firstOff [(33, decide (15 < c.num 33 1)), (34, dirty c.bytes 34 36), (104, dirty c.bytes 104 112)] = none ∧
      s.a.comm 0 31 = some comm0 ∧ s.a.flight 0 31 15 = some { entries := [fent 1], lastReplay := 0, applied := [] } ∧ s.a.flight 0 31 14 = none ∧
      s.a.arrivals = [] ∧ (fent 1).op ≠ 0 ∧ comm0.destroying = none ∧
      entryBad (mbytes (mputs (mputs [] 0 (leBytes 1 1)) 14 (leBytes 2 2)) 0 64) 1 [0, 1] false ≠ none := ⟨begun_of _ _ _ _ _ (by decide +kernel), by decide +kernel⟩
theorem meets_CollectiveSteps : let s := coll (cmd 6 [])
    let u := { s with a := { s.a with replays := [(60, replay0)], nextId := 100 } }
    u.a.comm 0 31 = some comm0 ∧ (admissible u.a comm0 replay0).map (·.1) = some 0 ∧ admissible u.a comm0 { replay0 with fin := true } = none ∧
      (let v := { u with a := { u.a with chunks := [(62, { id := 62, replay := 60, entry := 0, faulted := false, direct := false })], arrivals := [(61, { arrival0 with src := 0, dst := 1 })] } }
       (chunkArrival v.a { id := 62, replay := 60, entry := 0, faulted := false, direct := false }).map (·.acked) = some false ∧
       chunkArrival u.a { id := 62, replay := 60, entry := 0, faulted := false, direct := false } = none) ∧
      (s.a.comm 0 31).isSome = true ∧ (s.a.comm 0 30).isNone = true ∧ staleArrival s.a arrival0 1 = false ∧ tvals s.a.replays = [] ∧
      replay0.lastProgress + 100000000 ≤ 100000000 := by decide +kernel
theorem test_arrival_of_no_communicator : (tget (after (.collectiveArrival 61) { front 0 (cmd 6 []) with
    a := { (front 0 (cmd 6 [])).a with arrivals := [(61, arrival0)] } }).a.arrivals 61).map (·.acked) = some true := by decide +kernel

/-- A package whose port 0 is up, at a stage of the exchange, with a session or none. -/
def portUp (stage : Nat) (ss : Option Nat) : State :=
  { State.reset with a := { Arch.reset with pkgs := [(0, { Pkg.reset with boot := .up, ports := [{ Port.reset with up := true, spdm := stage, session := ss }, Port.reset] })] } }
theorem meets_BootAndAttestation : let k := (portUp 4 none).a.pkg 0
    k.boot = .up ∧ (k.port 0).up = true ∧ (k.port 0).spdm = 4 ∧ (k.port 0).session = none ∧ (k.port 1).up = false ∧ 0 < k.ports.length ∧
      k.session0 = none ∧ ((portUp 4 (some 1)).a.pkg 0).port 0 ≠ k.port 0 := by decide +kernel
theorem test_finish : let s := after (.spdmFinish 0 ⟨0, true⟩ true) (portUp 4 none)
    ((s.a.pkg 0).port 0).session = some 1 ∧ (s.a.pkg 0).boot = .ready ∧ (s.a.queue 0 0).map (·.expect) = some 1 := by decide +kernel
/-- Transport: the next datagram in order with a session, one acknowledged before, and what an ACK names. -/
theorem meets_Transport : let t := { Port.reset with up := true, session := some 1, lastTaken := 3, lastSent := 5, unacked := [(5, 0, .capability [])] }
    let d (type psn apsn : Nat) := datagram type psn apsn []
    (portUp 4 (some 1)).a.pkg 0 ≠ Pkg.reset ∧ datagramOk 1 (d 1 4 0) = true ∧ numAt (d 1 4 0) 8 4 = 0 ∧ numAt (d 1 4 0) 4 4 = (t.lastTaken + 1) % 2 ^ 32 ∧
      numAt (d 1 3 0) 4 4 ≤ t.lastTaken ∧ 1 ≤ numAt (d 1 3 0) 4 4 ∧ datagramOk 2 (d 2 0 5) = true ∧ numAt (d 2 0 5) 4 4 = 0 ∧
      (t.unacked.find? (fun u => u.1 % 2 ^ 32 == numAt (d 2 0 5) 8 4)).isSome = true := by decide +kernel
theorem meets_Transport_intake : let b := (cmd 6 [(1, 1, 1), (4, 2, 1), (6, 2, 112), (8, 8, 1)]).bytes
    let s := front 1 (cmd 6 [])
    let k := queue 1 (cmd 6 [])
    numAt b 4 2 = 1 ∧ s.a.queue 0 1 = some k ∧ endpointOk s.a 0 1 k 1 = true ∧ numAt b 8 8 = k.expect ∧ k.held = [] ∧
      packetBad (b.take 32) = some 6 ∧ packetBad ((cmd 6 [(1, 1, 1), (4, 2, 1), (6, 2, 32), (8, 8, 1)]).bytes.take 32) = none ∧
      (opInfo (numAt b 0 1)).map (·.1) = some true ∧ k.expect < 65 ∧ 65 ≤ k.expect + 64 ∧ k.expect + 64 < 66 := by decide +kernel
theorem test_intake : let b := (cmd 6 [(1, 1, 1), (4, 2, 1), (6, 2, 32), (8, 8, 1)]).bytes.take 32
    ((intake 0 0 0 1 (front 1 (cmd 6 [])).a b).queue 0 1).map (fun k => (k.expect, k.cmds.map (·.seq))) = some (2, [1, 1]) := by decide +kernel
theorem meets_PlatformCommands_ends : let x := { Berth.reset with relock := some (0, 1500, 600, 50), mapout := some 50 }
    x.relock.isSome = true ∧ x.mapout.isSome = true ∧ Berth.reset.relock = none ∧ Berth.reset.mapout = none := by decide +kernel
theorem test_hot_remove : let s := front 0 (cmd 0x64 [])
    ((after (.hotRemove 0 0) { s with a := s.a.setBerth 0 0 { Berth.reset with mapout := some 50 } }).a.pkg 0).capacity = [15, 16, 16, 16] := by decide +kernel
theorem meets_PlatformEvents : let k := { Pkg.reset with locked := true, boot := .up }
    Config.timerBound < (10 ^ 9 : Int).natAbs ∧ ¬ Config.timerBound < (0 : Int).natAbs ∧ k.locked = true ∧ k.boot ≠ .off ∧ Pkg.reset.locked = false := by decide +kernel
theorem test_thermal : ((after (.thermal 0 2 96) { State.reset with a := State.reset.a.setPkg 0 { Pkg.reset with warnTemp := some 96, boot := .ready } }).a.pkg 0).reports ≠
    ((after (.thermal 0 2 95) { State.reset with a := State.reset.a.setPkg 0 { Pkg.reset with warnTemp := some 96, boot := .ready } }).a.pkg 0).reports := by decide +kernel

/-! ## Encodings and the step -/

/-- ScalarEncodings, VectorEncodings, MemoryEncodings, EngineEncodings, DecodedIsWellFormed: a word of each class that is well formed and has its encoding. -/
theorem meets_Encodings :
    let l : List Instr := [.sadd hd .i32 false (.s 2) (.s 2) (.s 3), .imov (hl 9) false (.v 1) .lit, .fmul hd .f32 .rz (.v 25) (.v 24) (.v 20),
      .vote hd (.bal (.v 1) 1), .ld hd .b32 mm false (.v 0) (.v 2) (.v 4), .lds hd .b32 mm 0 (.v 0) (.v 4) (.k 0), .spush hd mm 0 (.s 6) (.s 2) (.s 4),
      .launch hd .self (.s 4), .accz hd 1, .rsend hd .a true 0 (.s 12) (.s 20), .skins hd .a .hhl false (.s 4) (.v 2) (.k 1), .trapretResume hd]
    l.map classOfWord = (List.range 12).map some ∧ ∀ i ∈ l, i.wf = true ∧
      (i.encode.map (fun e => decide (e.word < 2 ^ 63) && decide ((decodeWord e.cls e.word (e.lit.getD 0)).toOption = some i))) = some true := by decide +kernel
theorem meets_ClauseHeaders : headerInRange hdr0 ∧ (decodeHeader 0x804003FC00000000).toOption.isSome = true ∧ 0xC00 / 2 ^ 62 ≠ 2 ∧
    (2 ^ 63 + 12 * 2 ^ 58) / 2 ^ 62 = 2 ∧ 12 ≤ (2 ^ 63 + 12 * 2 ^ 58) / 2 ^ 58 % 16 := by unfold headerInRange; decide +kernel
/-- A wave at a NOP, and at a word that does not decode, first to issue. -/
def toIssue (w : Nat) : State :=
  { at' { wv 1 [] [] with clause := some { pc := 0x1000, hdr := hdr0, words := [w, w], pos := 0, lanes := 1 } } with agenda := [.issue 1], cur := none }
theorem meets_StepRuns : let s := toIssue 0x1F0E000000000000
    (s.a.thread 1).map (mayIssue s.a s.mem s.time) = some true ∧ (decodeAt 0 false [0x1F0E000000000000, 0] 0).toOption = some (.nop hd, 1) ∧
      (decodeAt 0 false [0x2F0E000000000000, 0] 0).toOption = none ∧
      (let t := { wv 1 [] [] with halted := true }; mayIssue (at' t).a (at' t).mem 0 t = false) ∧
      (let n := 0x804003FC00000000 + 2 ^ 64 * 0x1F0E000000000000
       (decodeHeader (n % 2 ^ 64)).toOption.map (fun h => decide (tableClause n = (h.cls, h.safe, (tableClause n).2.2))) = some true ∧
       (decodeAt (tableClause n).1 (tableClause n).2.1 (tableClause n).2.2 0).toOption = some (.nop hd, 1)) := by decide +kernel
theorem test_step_issues : (match Machine.step (toIssue 0x1F0E000000000000) with | .next s => (me s).clause.map (·.pos) | _ => none) = some 1 := by decide +kernel
theorem test_step_traps : (match Machine.step (toIssue 0x2F0E000000000000) with | .next s => trapOf s | _ => none) = some (.decode, 1, 0) := by decide +kernel
theorem meets_StepGoesOn : State.reset.agenda = [] ∧ Machine.Instr.isWord (.nop hd) = true ∧ Machine.Instr.isWord (.queueCommandBegin 0) = false := by decide +kernel
theorem meets_MemoryStaysCanonical : State.reset.Inv := by unfold State.Inv; decide
theorem test_round : (match Machine.step (at' (wv 1 [] [])) with | .next s => s.agenda.length | _ => 0) ≠ 0 := by decide +kernel
theorem meets_LevelTraps : let t := fr .core []
    Issues (at' t) t (cl 1) ∧ t.level ≠ .lg ∧ laneClass (.imov hd false (.v 1) (.v 2)) ∧ (Instr.imov hd false (.v 1) (.v 2)).encode ≠ none ∧
      (Instr.launch hd .self (.s 4)).encode ≠ none ∧ (wv 1 [] []).level = .lg := ⟨issues_at _ _ rfl, by unfold laneClass; decide +kernel⟩
theorem test_level_traps_both : trapOf (after (.imov hd false (.v 1) (.v 2)) (frame .core [])) = some (.level, 0x101, 0) ∧
    trapOf (after (.launch hd .self (.s 4)) (lane 1 [] [])) = some (.level, 7, 0) := by decide +kernel
theorem meets_VectorWordFrame : let t := wv 1 [] []
    Issues (at' t) t (cl 1) ∧ classOfWord (.imov hd false (.v 1) (.k 0)) = some 1 ∧
      (match exec (.imov hd false (.v 1) (.k 0)) (at' t) with | .next _ => true | _ => false) = true := ⟨issues_at _ _ rfl, by decide +kernel⟩
theorem meets_HardWiredRegisters : let t := { wv 1 [] [] with tm := true }
    t.tm = true ∧ (t.setS 40 5).getS 40 = 5 ∧ (t.setP 3 1 1).getP 3 = 1 ∧ (t.setP 7 1 0).getP 7 = BitVec.allOnes 32 := by decide +kernel
theorem meets_MemoryBytes : Memory.wf (mputs [] 5 (leBytes 4 0x00010203)) = true ∧ (mputs [] 5 (leBytes 4 0x00010203)).length = 3 ∧ mget (mputs [] 5 (leBytes 4 0x00010203)) 5 = 3 := by
  decide +kernel
theorem meets_ReportWindow : Port.reset.unacked.length ≤ 256 ∧
    ((List.replicate 256 (1, 0, Report.capability [])) : List (Nat × Nat × Report)).length ≤ 256 := by decide +kernel
/-- R434: after a power-on reset with berth 2 failing its authentication. -/
theorem test_power_on : let s := after (.powerOnReset 0 true true 0b1011 [16, 16, 20, 3]) State.reset
    (s.a.pkg 0).boot = .up ∧ (s.a.berth 0 2).held = true ∧ (s.a.berth 0 1).held = false ∧ (s.a.pkg 0).capacity = [16, 16, 16, 3] := by decide +kernel

/-! ## Completion, saves and the rest -/

/-- EffectsComplete, the conversions: checks passed and sources arrived for FRCP, FCVT, NENC and NDEC. -/
theorem meets_EffectsComplete : let t := wv 1 [(2, 0x7C03)] []
    let w := (at' t).view t (cl 1) hd
    let old : VF := { fld 0 (.v 1) false with dst := false }
    Issues (at' t) t (cl 1) ∧ t.level = .lg ∧ vecBad w [fld 0 (.v 1) false, fld 1 (.v 4) false] = none ∧ w.arrived [fld 1 (.v 4) false] = true ∧
      vecBad w [fld 0 (.v 1) false, old, fld 1 (.v 4) false] = none ∧ w.arrived [old, fld 1 (.v 4) false] = true ∧
      runBad w 1 (.v 20) 4 1 = none ∧ formatBad w .t8 (.s 2) = none ∧ w.runArrived 20 4 1 = true ∧ vecBad w [fld 0 (.v 1) false, fld 2 (.s 2) false] = none ∧
      runBad w 0 (.v 8) 4 1 = none ∧ vecBad w [fld 1 (.v 4) false, fld 2 (.s 2) false] = none := ⟨issues_at _ _ rfl, by decide +kernel⟩
/-- R326: 1/2, 1/sqrt(4), 2^3, log2(8), and the functions at 0. -/
theorem test_special_functions : let s := lane 1 [] [(32, 0x40000000), (64, 0x40800000), (96, 0x40400000), (128, 0x41000000)]
    vOf (after (.frcp hd .rn (.v 6) (.v 1)) s) 6 0 = 0x3F000000 ∧ vOf (after (.frsq hd .rn (.v 6) (.v 2)) s) 6 0 = 0x3F000000 ∧
    vOf (after (.fexp2 hd .rn (.v 6) (.v 3)) s) 6 0 = 0x41000000 ∧ vOf (after (.flog2 hd .rn (.v 6) (.v 4)) s) 6 0 = 0x40400000 ∧
    vOf (after (.fsin hd .rn (.v 6) (.v 5)) s) 6 0 = 0 ∧ vOf (after (.fcos hd .rn (.v 6) (.v 5)) s) 6 0 = 0x3F800000 ∧
    vOf (after (.ftanh hd .rn (.v 6) (.v 5)) s) 6 0 = 0 := by decide +kernel
/-- EffectsComplete, the words: what REDUCE, SPAWN and FETCHW ask for is what meets_Reductions and meets_SpawnFetchWords show; here no frame
runs on behalf of a mailbox, and the wave does not wait. -/
theorem meets_EffectsComplete_words : let t := wv 3 [(4, 0x2000), (8, 0x4000)] []
    behalfWaits (at' t).a 0x300000004000 = false ∧ t.wait = none ∧ fenceWait (at' t).a t true = false := by decide +kernel
/-- The machine whose core 0 saves, or restores, context 7, with no wave or one. -/
def busySave (s : State) (resume out : Bool) : State :=
  { s with a := { s.a with pres := [(9, { pre resume with busy := [0] })], images := [image out] } }
/-- EffectsComplete, the events: a saving core without waves and crews, and a restoring one; a punnet that is due. -/
theorem meets_EffectsComplete_events : let s := busySave (front 0 (cmd 6 [])) false false
    let r := busySave (front 0 (cmd 6 [])) true true
    (tget s.a.pres 9).map (fun p => (p.cores, p.saved, p.busy)) = some ([0], [], [0]) ∧ imageOf s.a 0 0 7 = some (image false) ∧
      ctxWaves s.a 0 0 7 = [] ∧ ctxCrews s.a 0 0 7 = [] ∧ imageOf r.a 0 0 7 = some (image true) ∧ imageBad r.a (image true) = [] ∧
      (image true).waves = [] ∧ (image true).crews = [] ∧
      (let u := after (.spawn hd (.s 4) (.v 16)) (lane 3 [(4, 0x2000)] [])
       let p := punnetAt u.a 0 0 0
       p.state = .filling ∧ draining u.a 0 0 7 = false ∧ p.deadline ≤ ({ u.a.berth 0 0 with cycles := 256 } : Berth).cycles) ∧
      (pre false).watches (wv 1 [] []) = true := by decide +kernel
/-- R75, R222: the save writes the header of an image, version 1, context 7 and no waves; the restore brings the context back. -/
theorem test_save : let s := after (.preemptSave 9 0) (busySave (front 0 (cmd 6 [])) false false)
    isOut s.a 0 0 7 = true ∧ mnum s.mem (imageAddr s.a (image false)) 8 = 1 + 7 * 65536 := by decide +kernel
theorem test_restore : let s := after (.restoreComplete 9 0) (busySave (front 0 (cmd 6 [])) true true)
    isOut s.a 0 0 7 = false ∧ s.a.pres = [] := by decide +kernel
/-- Preemption: the save and the restore of a crew and of a wave whose locator entries hold no sends. -/
theorem meets_Preemption_busy : let s := busySave (lane 1 [] []) false false
    ctxWaves s.a 0 0 7 = [wv 1 [] []] ∧ ctxCrews s.a 0 0 7 = [crew0] ∧ s.a.locs = [] ∧
      (let r := busySave (lane 1 [] []) true true
       inPair r.a 0 0 7 = false ∧ s.a.crew 5 = some crew0 ∧ crew0.id = 5 ∧ savedWaves r.a 0 0 7 = []) := by decide +kernel
/-- StepRuns: a clause that is fetched again; the fetch gives the two words that memory holds. -/
theorem meets_StepRuns_refetch : let t := { ready 1 0 0 with clause := some { pc := 0x20000000, hdr := hdr0, words := [0], pos := 0, lanes := 1, refetch := true } }
    let s := { runnable choosing with agenda := [.issue 1], cur := none }
    let u := { s with a := s.a.setThread t }
    mayIssue u.a u.mem u.time t = true ∧
      (fetchClause u.a u.mem u.time t 1 0x20000000).toOption.map (fun x => (x.1.cls, x.2.1)) = some (0, [0x1F0E000000000000, 0x1F0E000000000000]) ∧
      (fetchClause (lane 1 [] []).a [] 0 t 1 0x20000000) matches .error (.trap ..) := by decide +kernel
/-- LevelTraps: a frame has no crew. -/
theorem meets_LevelTraps_streams : let t := fr .core [(2, 16)]
    let w := (at' t).view t (cl 1) hd
    Issues (at' t) t (cl 1) ∧ t.level ≠ .lg ∧ (at' t).a.crew t.crew = none ∧ srcU 1 (.s 2) = none ∧ dstS 2 (.s 2) = none ∧
      firstBad [dstS 1 (.s 6), srcU64 1 (.s 2), srcU 2 (.s 2), w.selBad mm.fsel, rightsOf (at' t).a t] = none := ⟨issues_at _ _ rfl, by decide +kernel⟩
theorem test_stream_of_a_frame : trapOf (after (.spop hd 1 (.s 2)) (frame .core [(2, 16)])) = some (.operand, 0x304, 1) := by decide +kernel
/-- MemoryRequests: an atomic at CORE beside another wave's store to the word that nothing orders. -/
theorem meets_MemoryRequests_atom : let s := after (.lds hd .b32 mm 0 (.v 4) (.v 1) (.k 0)) (lane 1 [] (vec 1 [0x4000]))
    ((tget s.a.ops 100).bind (fun o => o.reqs.head?)).map (·.half) = some none ∧
    ((tget s.a.ops 100).map (fun o => o.reqs.map (fun r => atomSplits s.a o r))) = some [false] ∧
    (let u := after (.atoms hd .add mm 0 false false .b4 (.v 4) (.v 1) (.v 2) (.v 0)) (after (.sts hd .b32 mm 0 (.v 1) (.k 0) (.v 2)) (lane 1 [] (vec 1 [0x4000])))
     let v := { u.a with ops := tmod u.a.ops 100 (fun o => { o with uid := 3 }),
                         threads := tset u.a.threads 3 { wv 1 [] [] with uid := 3, slot := 1 } }
     (tget v.ops 101).map (fun o => o.reqs.map (fun r => atomMeets v o r)) = some [true]) := by decide +kernel

/-! ## States that meet the hypotheses: forms beside the plain ones -/

/-- A state with a store of the wave to its window that is not performed, and the wave's clause as it was. -/
def storing (t : Thread) : State :=
  let u := after (.sts hd .b32 mm 0 (.v 1) (.k 0) (.v 2)) (lane 1 [] (vec 1 [0x4000]))
  { at' t with a := { (at' t).a with ops := u.a.ops, nextId := 101 } }
/-- TrapIsTaken and DoubleTrap: a failure that waits, and an ERROR that a table walk met. -/
theorem meets_TrapEntry_walk : let b := walkErrorBad 0x100040 1 1 0x20000000
    b.cls = .error ∧ b.waits = false ∧ b.faddr = 0x100040 ∧ ({ b with waits := true } : Bad).waits = true := by decide +kernel
/-- TrapReturns: an asynchronous ERROR with two destination words, of which the frontier alone was frozen; an ABORT that waits for a store;
an operand of REPLACE that is none. -/
def asyncError : TrapRec :=
  { cls := .error, opidx := 0, kinds := 0, kind := 0, mask := 1, pc := 0x1000, addr := 0, synd := 0, word := 0, faddr := 0x4000, time := 0,
    dests := [[⟨8, 0⟩], [⟨0xC4, 0⟩]] }
def asyncTrapped (r : TrapRec) : Thread :=
  { trapped .error [] with record := some r, frozen := some { front := [{ pc := 0x1000, prio := some 0, lanes := 1, pass := 0 }], clause := none, entryPc := 0x1000 } }
theorem meets_TrapReturns_error : let t := asyncTrapped asyncError
    let r := asyncError
    Issues (at' t) t (cl 1) ∧ t.tm = true ∧ t.tmBusy = false ∧ t.record = some r ∧ (t.frozen.bind (·.clause)) = none ∧ r.async = true ∧ r.fetch = false ∧
      replBad ((at' t).view t (cl 1) hd) (.v 16) = none ∧ (∀ d ∈ r.dests.flatten, d.lane < 32) ∧
      r.dests.flatten.Pairwise (fun x y => x.reg ≠ y.reg ∨ (x.reg < 0xC0 ∧ x.lane ≠ y.lane)) ∧
      (asyncTrapped { asyncError with cls := .overwrite }).record.map (fun r => (r.async, decide (r.cls ≠ .error ∧ r.cls ≠ .access))) = some (true, true) ∧
      (replBad ((at' t).view t (cl 1) hd) (.v 64)).isSome = true ∧ ownPending (storing t).a 1 = true :=
  ⟨issues_at _ _ rfl, by decide +kernel⟩
/-- R214: the replacements go to the destination words of the record, v8 and s4, and the wave has left trap mode. -/
theorem test_replace_error : let t := { asyncTrapped asyncError with regs := { Regs.zero with v := [(512, 77), (544, 99)] } }
    let s := after (.trapretReplace hd (.v 16)) (at' t)
    (vOf s 8 0, (me s).regs.s, (me s).tm) = (77, [(4, 99)], false) := by decide +kernel
/-- VectorAccessWords and ScalarAccessWords: a pending REPLACE of every lane that is guarded. -/
theorem meets_AccessWords_replace : let t := { wv 1 [(4, 0x4000), (5, 0x7F0000)] [(128, 0x4000), (160, 0x7F0000)] with repl := some { mask := 1, words := [(0, 55)] } }
    let s := at' t
    let w := s.view t (cl 1) hd
    Issues s t (cl 1) ∧ t.level = .lg ∧ taking s t (cl 1) hd = 0 ∧ guardLanes t (cl 1) hd &&& 1 = 1 ∧
      firstBad [vecBad w ({ j := 0, o := .v 8, n := 1, dst := true } :: fields4 (.v 4) (.k 0)), w.selBad .a] = none ∧ w.arrived (fields4 (.v 4) (.k 0)) = true ∧
      firstBad [dstS 1 (.s 9), srcU64 1 (.s 4), srcU 2 (.k 0), w.selBad .a] = none := ⟨issues_at _ _ rfl, by decide +kernel⟩
/-- R214: each lane of the REPLACE takes its word, and no access is made. -/
theorem test_replace_load : let t := { wv 1 [(4, 0x4000), (5, 0x7F0000)] [(128, 0x4000), (160, 0x7F0000)] with repl := some { mask := 1, words := [(0, 55)] } }
    (vOf (after (.ld hd .b32 mm false (.v 8) (.v 4) (.k 0)) (at' t)) 8 0, (after (.ld hd .b32 mm false (.v 8) (.v 4) (.k 0)) (at' t)).a.ops) = (55, []) ∧
    sOf (after (.sld hd .b32 mm false (.s 9) (.s 4) (.k 0)) (at' t)) 9 = 55 := by decide +kernel
/-- ControlWords: a RET to a misaligned target, and one whose link has not arrived; EXIT of a wave in trap mode, with a store left and without. -/
theorem meets_ControlWords_trap_mode : let t := { wv 1 [(2, 0x2004)] [] with regs := { Regs.zero with s := [(2, 0x2004)], clear := [(40, 1)] } }
    let w := (at' t).view t (cl 1) hd
    let h := { wv 1 [] [] with tm := true }
    (w.rd64 1 (.s 2) 0).toNat % 8 ≠ 0 ∧ taking (at' t) t (cl 1) hd = 1 ∧ linkBad w 1 (.v 40) = none ∧
      w.arrived [{ j := 1, o := .v 40, n := 2, dst := false }] = false ∧ w.arrived [{ j := 1, o := .s 2, n := 2, dst := false }] = true ∧
      Issues (at' h) h (cl 1) ∧ h.isWave = true ∧ h.tm = true ∧ ownPending (at' h).a 1 = false ∧ ownPending (storing h).a 1 = true :=
  ⟨by decide +kernel, by decide +kernel, by decide +kernel, by decide +kernel, by decide +kernel, issues_at _ _ rfl, by decide +kernel⟩
/-- R295: a wave in trap mode whose last lane exits retires as aborted; R265: the misaligned target traps with cause 6. -/
theorem test_exit_in_trap_mode : let t := { wv 1 [] [] with tm := true }
    (after (.exit hd) (at' { t with front := [] })).a.thread 1 = none ∧
    trapOf (after (.ret hd (.s 2)) (lane 1 [(2, 0x2004)] [])) = some (.operand, 0x601, 0x2004) := by decide +kernel
/-- PriorityAndCacheWords: a store of the wave that IFLUSH awaits. -/
theorem meets_IflushWaits : let s := storing (wv 1 [(2, 0x1000), (4, 64)] [])
    writesPending s.a 1 = true ∧ writesPending (lane 1 [] []).a 1 = false ∧ firstBad [srcS64 1 (.s 2), srcS 2 (.s 4)] = none := by decide +kernel
/-- CrewBarrierWords: BARSYNC that waits for phase 0 already, of a wave that is no member any more. -/
theorem meets_CrewBarrierWords_again : let t := { wv 1 [] [] with wait := some (.crewBar 1 0), pbar := [(1, 0)] }
    Issues (at' t) t (cl 1) ∧ ¬ 0 < (firstBar 2).phase ∧ 0 < ({ firstBar 2 with phase := 1, members := 2 } : CrewBar).phase :=
  ⟨issues_at _ _ rfl, by decide +kernel⟩
/-- R352: it goes on once the phase has completed, though BARCFG has taken it out of the members. -/
theorem test_barsync_again : let t := { wv 1 [] [] with wait := some (.crewBar 1 0), pbar := [(1, 0)] }
    let s := withCrew (at' t) { crew0 with bars := [(1, { firstBar 2 with phase := 1, members := 2 })] }
    (me (after (.barsync hd 1) s)).clause.map (·.pos) = some 1 ∧ (me (after (.barsync hd 1) s)).pbar = [] := by decide +kernel
/-- SpawnFetchWords: R65's lowest punnet is full of another PC's records, the next is empty; the crew and PC have none, then one that is ready. -/
theorem meets_SpawnFetchWords_places : let a := (lane 1 [] []).a
    let full (pc : Nat) : Punnet := { state := .ready, crew := 5, pc := pc, recs := [], deadline := 0, alloc := 64 }
    let u := { a with punnets := [(punnetKey 0 0 0, full 0x3000)] }
    let ours (a : Arch) (n : Nat) : Bool := decide ((punnetAt a 0 0 n).state ≠ .empty) && decide ((punnetAt a 0 0 n).crew = 5) && decide ((punnetAt a 0 0 n).pc = 0x2000)
    (∀ j, j < 32 → ours u j = false) ∧ (punnetAt u 0 0 0).state ≠ .empty ∧ (punnetAt u 0 0 1).state = .empty ∧
      (placeRecord u crew0 0x2000 64 []).map (fun b => (punnetAt b 0 0 1).state) = some .filling ∧
      (let v := { a with punnets := [(punnetKey 0 0 0, full 0x2000)] }
       ours v 0 = true ∧ (punnetAt v 0 0 0).state = .ready ∧ placeRecord v crew0 0x2000 64 [] = none) ∧
      (let v := { a with punnets := (List.range 32).map (fun n => (punnetKey 0 0 n, full 0x3000)) }
       (∀ j, j < 32 → ours v j = false) ∧ (∀ j, j < 32 → (punnetAt v 0 0 j).state ≠ .empty) ∧ placeRecord v crew0 0x2000 64 [] = none) := by decide +kernel
/-- SpawnFetchWords: a SPAWN that waits with lane 1 alone; a frame that runs on behalf of a mailbox, whose wave has a store left. -/
theorem meets_SpawnFetchWords_again : let t := { wv 3 [(4, 0x2000)] [] with wait := some (.spawn 2) }
    let b := { fr .core [] with uid := 3, phase := .onBehalf 1 0x300000004000 }
    Issues (at' t) t (cl 3) ∧ ((at' t).view t (cl 3) hd).runArrived 16 16 2 = true ∧
      behalfWaits ((storing t).a.setThread b) 0x300000004000 = true ∧ behalfWaits ((at' t).a.setThread b) 0x300000004000 = false :=
  ⟨issues_at _ _ rfl, by decide +kernel⟩
/-- SlicePerforms: a step of a window, a speculative one whose wave is there and one whose wave has retired; ACCLD of 32 rows without errors. -/
theorem meets_SlicePerforms_window :
    let t := { wv 1 [] [] with spec := { isOpen := true, pred := true, reg := 20 } }
    let s := after (.accz hd 1) (at' t)
    let u := after (.accld hd .lg false 0 (.s 8)) (lane 1 [(8, 0x80004000)] [])
    (headOf s).map (fun o => (o.window, o.spec, o.what.writes)) = some (true, true, some 1) ∧
      ((tvals (after (.mma hd .f32 .lg false .reg .reg false false .rn none 0 (.v 0) (.v 16)) (at' t)).a.slice).map (fun o => (o.window, o.spec))) = [(true, true)] ∧
      (headOf u).map (fun o => (o.rows.all (fun x => (List.range 32).all (fun r => !isBad u.a (granule (x.1.addr + r * x.1.stride)))))) = some true := by decide +kernel
/-- R402: a speculative ACCZ takes the shadow of its tile and leaves the main contents; with the window of a wave that has retired it writes nothing. -/
theorem test_shadow : let t := { wv 1 [] [] with spec := { isOpen := true, pred := true, reg := 20 } }
    let s := after (.accz hd 1) (withCrew (at' t) { crew0 with tiles := [(1029, 7)] })
    let look (u : State) : Option (W32 × W32 × Tab Nat) := (u.a.crew 5).map (fun k => (tgetD k.tiles 1029 0, tgetD k.shadows 1029 9, k.shadowOwner))
    look (after (.matrixOperationComplete 0) s) = some (7, 0, [(1, 1)]) ∧
    look (after (.matrixOperationComplete 0) { s with a := { s.a with threads := [] } }) = some (7, 9, []) := by decide +kernel
/-- R389, R400: ACCLD queues the read of 32 rows, 128 bytes apart, from the crew's window. -/
theorem test_accld : (tvals (after (.accld hd .lg false 0 (.s 8)) (lane 1 [(8, 0x80004000)] [])).a.slice).map (·.what) =
    [.accld 0 { addr := 0x300000004000, va := 0x7F000000004000, stride := 128 }] := by decide +kernel
/-- FabricRegisterWords: RGET.TK of a value that a released send delivered, whose release passed a store of another agent. -/
def carried : State :=
  let r : Release := { stamp := 50, unit := { level := .pkg, pkg := 0, idx := 0 }, froms := [{ level := .pkg, pkg := 0, idx := 0 }], via := .send }
  let s := at' { wv 1 [] (vec 20 [5]) with relArr := [(20, 1, .pkg, 50)] }
  { s with a := { s.a with rels := [r] } }
theorem meets_FabricRegisterWords_take : let s := carried
    let t := { wv 1 [] (vec 20 [5]) with relArr := [(20, 1, .pkg, 50)] }
    let u := scopeOf s.a t .pkg
    s.a.thread 1 = some t ∧ ((s.view t (cl 1) hd).runArrived 20 1 1) = true ∧ t.relArr.map (fun e => decide (e.2.1 &&& 1 ≠ 0)) = [true] ∧
      s.a.rels.map (fun r => (decide (r.via = .send), r.stamp, r.within u, insideUnit s.a 1 r.unit)) = [(true, 50, true, true)] := by decide +kernel
/-- R135, R426: the read that takes the value acquires its release; a plain RGET does not. -/
theorem test_take_acquires : ((me (after (.rgetTk hd 0 (.v 8) (.v 20)) carried)).acqd.map (·.1), (me (after (.rget hd 0 (.v 8) (.v 20)) carried)).acqd) = ([50], []) := by
  decide +kernel
/-- FabricRegisterWords: a send to a wave that is saved, whose image has v20 open, whose entry holds sends, and whose berth is held. -/
def savedSend (openBits : Nat) : State :=
  let s := after (.rsend hd .a false 0 (.s 8) (.s 20)) granted
  let g : Image := { ctx := 7, pkg := 0, core := 0, offset := 0, room := 4096, out := true, punnets := [], waves := [{ uid := 1, off := 256, front := 1, own := 0, regs := [20], reds := 0 }],
                     crews := [], size := 2048, bad := false }
  let s := { s with a := (s.a.setThread { me s with saved := true }) }
  let s := { s with a := { s.a with images := [g] } }
  { s with mem := mputs s.mem (imageAddr s.a g + 256 + 706) [BitVec.ofNat 8 openBits] }
theorem meets_FabricRegisterWords_saved : let s := savedSend 16
    let x := ((tget s.a.sends 100).map (fun x => Cap.of x.cap))
    (x.map (fun k => (k.ovw, k.base, k.ctx))) = some (false, 20, 7) ∧ (me s).saved = true ∧ (me s).uid = 1 ∧
      (imageOf s.a 0 0 7).map (fun g => g.waves.map (fun w => (w.uid, w.regs.idxOf? 20, w.regs.idxOf? 21))) = some [(1, some 0, none)] ∧
      (s.a.berth 0 0).held = false ∧ ((s.a.setBerth 0 0 { Berth.reset with held := true }).berth 0 0).held = true ∧ LocState.saving.holds = true ∧
      LocState.saved.holds = false := by decide +kernel
/-- R202: the send lands in the image, arrival bits and value; a register closed there refuses it with code 6; an entry that is SAVING holds it. -/
theorem test_send_to_saved : let u := after (.registerSendArrival 100) (savedSend 16)
    let g := (imageOf u.a 0 0 7).map (fun g => imageAddr u.a g + 256)
    ((tget u.a.sends 100).map (·.status), g.map (fun a => (mnum u.mem (a + 784) 4, mnum u.mem (a + 896) 8))) = (some (some 0), some (3, 0x700000007)) ∧
    (tget (after (.registerSendArrival 100) (savedSend 0)).a.sends 100).map (·.status) = some (some 6) ∧
    (let s := savedSend 16
     (tvals (after (.registerSendArrival 100) { s with a := { s.a with locs := s.a.locs.map (fun e => (e.1, { e.2 with state := .saving })) } }).a.locs).map (·.queue)) = [[100]] := by
  decide +kernel
/-- FabricRegisterWords: a wave whose MIGRATE has ended its clause, with no send of its own. -/
theorem meets_StartMoves : let t := { wv 1 [] [] with clause := none, mig := some (0, 1) }
    t.isWave = true ∧ t.mig ≠ none ∧ t.tm = false ∧ (∀ x ∈ tvals (at' t).a.sends, x.sender ≠ t.uid) ∧
      (let s := at' t
       let a := { s.a with locs := [(locKey 0, { ctx := 7, gen := 0, state := .resident, uid := 1, queue := [] })] }
       (tvals (startMoves a 1).locs).map (·.state) = [.moving]) := by decide +kernel
/-- MemoryRequests: the request of a load of two lanes; of an atomic that is not split; of a metadata load; of a scalar load; no other object bears the number. -/
theorem meets_MemoryRequests_forms :
    let look (s : State) : Option (List (List (Nat × Nat × Nat × Option Nat))) := (tget s.a.ops 100).map (fun o => o.reqs.map (fun r => r.pieces.map (fun p => (p.lane, p.off, p.len, p.line))))
    let l := after (.lds hd .b32 mm 0 (.v 4) (.v 1) (.k 0)) (lane 3 [] (vec 1 [0x4000, 0x4004]))
    let ato := after (.atoms hd .add mm 0 false false .b4 (.v 4) (.v 1) (.v 2) (.v 0)) (lane 1 [] (vec 1 [0x4000]))
    let m := after (.ldmeta hd mm (.v 8) (.v 4)) (lane 1 [] [(128, 0x4000), (160, 0x7F0000)])
    let sc := after (.sld hd .b32 mm false (.s 9) (.s 4) (.k 0)) (reach 0x4000 [] [])
    look l = some [[(0, 0, 4, none), (1, 0, 4, none)]] ∧ look ato = some [[(0, 0, 4, none)]] ∧ look m = some [[(0, 0, 1, none)]] ∧
      (tget sc.a.ops 100).map (·.what) = some (.load 4 false [(0, 0xC9)]) ∧ (tget sc.a.ops 100).map (fun o => decide (o.tm = (me sc).tm)) = some true ∧
      (tget ato.a.ops 100).map (fun o => o.reqs.map (fun r => (atomSplits (orderMarks ato.a o r) o r, reqReady ato.a ato.time o r, r.half.isNone))) = some [(false, true, true)] ∧
      tget l.a.cmds 100 = none ∧ tvals l.a.reds = [] ∧ tget l.a.chunks 100 = none := by decide +kernel
/-- R344: an atomic's old value lands in its destination and the sum in memory; R345: a metadata load lands the granule's metadata. -/
theorem test_landings :
    let s := over' (lane 1 [] (vec 1 [0x4000] ++ vec 2 [5])) [(0x4000, 4, 37)]
    let t := after (.memoryRequestComplete 100 0) (after (.atoms hd .add mm 0 false false .b4 (.v 4) (.v 1) (.v 2) (.v 0)) s)
    (vOf t 4 0, spadNum t 0x4000 4) = (37, 42) := by decide +kernel
/-- EngineSteps: the second 16-byte unit of a COPY.OUT of 32 bytes may be moved by itself. -/
theorem meets_EngineSteps_unit : let s := after (.copyOut hd mm 0 false 0 (.s 9) (.s 4) (.s 6) (.s 8)) copyState
    (tget s.a.cmds 100).map (fun x => (x.unitOf 16).map (fun y => (y.1, y.2.2))) = some (some (0, 16)) ∧
      (tget s.a.cmds 100).map (fun x => x.legs.map (fun l => (l.done, l.size, l.dst.low 16 % 16, l.ahead))) = some [(0, 32, 0, [])] := by decide +kernel
/-- Reductions: the one unit of a contribution, not read yet. -/
def reducing : State := after (.reduce hd { mm with lvl := .core } (.ef .i32) .add (.s 9) (.s 4) (.s 6) (.s 8)) (lane 1 [(4, 0x4000), (5, 0x7F0000), (6, 0x5000), (8, 4)] [])
theorem meets_Reductions_early :
    let ks := (tvals reducing.a.reds).flatMap (·.contribs)
    ks.map (fun k => (k.id, k.arrived, k.faulted, k.acq, k.addr % 16, redBytes k.ty k.count, (tget reducing.a.cmds k.id).isNone)) =
      [(100, false, false, false, 0, 16, true)] ∧ reducing.a.early = [] ∧
      (after (.memoryRequestComplete 100 0) reducing).a.early.map (fun e => (e.1, e.2.1, e.2.2.length)) = [(100, 0, 16)] := by decide +kernel
/-- ClauseChoice: an uncorrectable granule at the header, met the first time and again in trap mode. -/
def badFetch : State := let s := runnable choosing
  { s with a := { s.a with bad := [(0x2000000000 / 64, 1)] } }
theorem meets_ClauseChoice_error : let s := badFetch
    (fetchClause s.a s.mem 0 (ready 1 0 0) 0xF 0x20000000) matches .error (.error ..) ∧
      ((me (after (.clauseBegin 0 0) s)).pend.map (fun p => (p.trap.cls, p.trap.fetch, p.trap.word))) = [(.error, true, 0)] := by decide +kernel
/-- StepRuns: the same granule met by a clause that is fetched again, outside trap mode and in it. -/
theorem meets_StepRuns_refetch_error :
    let t := { ready 1 0 0 with clause := some { pc := 0x20000000, hdr := hdr0, words := [0], pos := 0, lanes := 1, refetch := true } }
    let s := { badFetch with agenda := [.issue 1], cur := none, a := badFetch.a.setThread t }
    let u := { s with a := s.a.setThread { t with tm := true } }
    (fetchClause s.a s.mem s.time t 1 0x20000000) matches .error (.error ..) ∧ mayIssue s.a s.mem s.time t = true ∧
      (match Machine.step s with | .next x => ((me x).record.map (·.cls), (me x).pend.length) | _ => (none, 0)) = (some .error, 0) ∧
      (match Machine.step u with | .next x => ((me x).record.map (·.cls), (me x).pend.length) | _ => (none, 0)) = (none, 1) := by decide +kernel
/-- SequencerSteps, CrewSteps, WorkArrivals: a berth held in reset and one in a relock. -/
theorem meets_HeldBerths : let s := lane 1 [] []
    let h := { s with a := s.a.setBerth 0 0 { Berth.reset with held := true } }
    let r := { s with a := s.a.setBerth 0 1 { Berth.reset with relock := some (100, 0, 600, 50) } }
    let t := wv 1 [] []
    threadStill s.a t = false ∧ threadStill h.a t = true ∧ berthStill s.a 0 0 = false ∧ berthStill h.a 0 0 = true ∧ moveHeld s.a t 0 1 = false ∧
      moveHeld r.a t 0 1 = true ∧ unitStill s.a t = false ∧ unitStill h.a t = true := by decide +kernel
/-- R205: the first step of a migration chooses a slot of berth 1 and makes the entry MOVING. -/
theorem test_migration_begins : let s := at' { wv 0 [] [] with clause := none, mig := some (0, 1) }
    let s := { s with a := { s.a with locs := [(locKey 0, { ctx := 7, gen := 0, state := .resident, uid := 1, queue := [] })] } }
    let t := after (.migrationArrival 1) s
    (tvals t.a.locs).map (·.state) = [.moving] ∧ ((me t).going.map (·.1 / 48)) = some 1 := by decide +kernel
/-- Transport: an SPDM request of a code that is none of the ten, and the frame limit of R430. -/
theorem meets_Transport_unsupported : let b := datagram 4 0 0 [0x13, 0x85, 0, 0]
    unsupported b = true ∧ unsupported (datagram 4 0 0 [0x13, 0x84, 0, 0]) = false ∧ ((portUp 4 none).a.pkg 0).booted = true ∧
      datagramOk 1 (datagram 1 4 0 (List.replicate 9300 0)) = false := by decide +kernel
/-- Preemption: a berth in a relock; a COPY of a crew of the core that still runs; a save in progress there; a wave saved on package 1 whose crew is here. -/
theorem meets_Preemption_forms : let s := saving (lane 1 [] []) false false
    let busy := after (.copyIn hd mm 0 false 0 (.s 9) (.s 4) (.s 6) (.s 8)) copyState
    let far := { s with a := s.a.setThread { wv 1 [] [] with saved := true, unit := { level := .core, pkg := 1, idx := 3 } } }
    let re := { s with a := s.a.setBerth 0 0 { Berth.reset with relock := some (100, 0, 600, 50) } }
    (re.a.berth 0 0).relock ≠ none ∧ (s.a.berth 0 0).relock = none ∧ (crewCopies busy.a 0 0 7).map (·.unadmitted) = [false] ∧ crewBusy busy.a 0 0 7 = true ∧
      crewBusy s.a 0 0 7 = false ∧ mooredOn far.a 0 7 [0] = [(1, 3)] ∧ mooredOn s.a 0 7 [0] = [] ∧ (ctxWaves s.a 0 0 7).map (drained s.a s.mem s.time) = [false] := by
  decide +kernel
/-- R77: a RESUME of core 0 starts a resume of its own on the core of package 1 where the wave is saved. -/
theorem test_resume_away : let c := cmd 0x46 [(32, 2, 7), (40, 8, 1)]
    let s := front 0 c
    let s := { s with a := { s.a with crews := [(5, crew0)], images := [image true, { image true with pkg := 1, core := 3 }],
                                      threads := [(1, { wv 1 [] [] with saved := true, unit := { level := .core, pkg := 1, idx := 3 } })] } }
    (tvals (after (.resume 0 50) s).a.pres).map (fun p => (p.pkg, p.cores, p.resume, p.cmd)) = [(1, [3], true, none), (0, [0], true, some 50)] := by decide +kernel
/-- Preemption: a restore of a crew that is out, with one wave, has room. -/
theorem meets_Preemption_crews :
    let g : Image := { image true with room := 0x20000, crews := [{ crew := 5, off := 128, punnets := [], punnetOff := 768, regionOff := 768, accOff := 0x10300, shadows := [] }] }
    let s := lane 1 [] []
    let s := { s with a := { (s.a.setCrew { crew0 with out := true }) with pres := [(9, { pre true with busy := [0] })], images := [g], threads := [] } }
    imageOf s.a 0 0 7 = some g ∧ imageBad s.a g = [] ∧ restoreFits s.a 0 0 7 = true ∧ (g.crews.map (·.crew)).Nodup ∧
      (∀ x ∈ g.crews, (s.a.crew x.crew).map (fun c => (c.id, c.out)) = some (x.crew, true)) ∧ savedWaves s.a 0 0 7 = [] := by decide +kernel
/-- ManagementCommands: a RETRY that finds a faulted command of an engine, a faulted contribution, a faulted chunk and a faulted arrival. -/
theorem meets_ManagementCommands_faults :
    let c := cmd 0x4b [(32, 2, 1), (40, 8, 1)]
    let s := front 0 c
    let k : State := { after (.copyIn hd mm 0 false 0 (.s 9) (.s 4) (.s 6) (.s 8)) copyState with time := 0 }
    let u := { k with a := { k.a with cmds := k.a.cmds.map (fun (x : Nat × Cmd) => (x.1, { x.2 with faulted := true })) } }
    let v := { reducing with a := { reducing.a with reds := reducing.a.reds.map (fun (r : Nat × Red) => (r.1, { r.2 with contribs := r.2.contribs.map (fun (d : Contrib) => { d with faulted := true }) })) } }
    let ch : Chunk := { id := 62, replay := 60, entry := 0, faulted := true, direct := false }
    let w := { coll (cmd 6 []) with a := { (coll (cmd 6 [])).a with replays := [(60, replay0)], chunks := [(62, ch)] } }
    let ar := { arrival0 with faulted := true }
    let z := { coll (cmd 6 []) with a := { (coll (cmd 6 [])).a with replays := [(60, replay0)], arrivals := [(61, ar)] } }
    Begun s 0x4b 0 50 0 (queue 0 c) c ∧ (tvals u.a.cmds).map (fun d => d.faultSeq u.a) = [(1, 0)] ∧ (faultedCmds u.a 0 1 0).map (·.id) = [100] ∧
      (faultedReds v.a 0 1 0).length = 1 ∧ faultedChunks w.a 0 1 1 = [ch] ∧ faultedArrivals w.a 0 1 1 = [] ∧ faultedArrivals z.a 0 1 1 = [ar] ∧
      ar.acked = false ∧ ar.desc.push = false := ⟨begun_of _ _ _ _ _ (by decide +kernel), by decide +kernel⟩
/-- CollectiveCommands: the collective engine of the other world; a flight with an entry that is no NOP, and no arrival on the way. -/
theorem meets_CollectiveCommands_forms : let s := coll (cmd 6 [])
    let o := { s with a := s.a.setPkg 0 { s.a.pkg 0 with collWorld := true } }
    s.a.ctxWorld 0 7 = (s.a.pkg 0).collWorld ∧ o.a.ctxWorld 0 7 ≠ (o.a.pkg 0).collWorld ∧ (∀ r ∈ tvals s.a.arrivals, r.dst ≠ 0) ∧ (fent 1).op ≠ 0 := by decide +kernel
/-- CollectiveSteps: an arrival for the replay that runs, first and held; one that was applied before; the destination writable and not;
a pushed group with a member missing and whole. -/
def arriving (d : FlightEntry) (ms : List Nat) : State :=
  let s := coll (cmd 6 [])
  { s with a := { s.a with replays := [(60, replay0)], arrivals := [(61, { arrival0 with desc := d })], comms := [(commKey 0 31, { comm0 with members := ms })] } }
theorem meets_CollectiveSteps_applies : let s := arriving (fent 1) [0, 1]
    let y := { arrival0 with came := some 100 }
    let a := { s.a with nextId := 101, arrivals := [(61, y)] }
    61 < s.a.nextId ∧ staleArrival a y 1 = false ∧ replayFor a y = some replay0 ∧ replay0.pkg = arrival0.dst ∧ replay0.comm = arrival0.comm ∧
      (a.comm 0 31).map (fun m => (m.aborted, m.destroying)) = some (false, none) ∧
      (storeRange a s.mem s.time 61 (frontAgent 0 7) 0 (destSize (fent 1)) false) matches .fault .. ∧
      (let f := { a with flights := [(flightKey 0 31 15, { entries := [fent 1], lastReplay := 0, applied := [(1, 0, 1)] })] }; staleArrival f y 1 = true) ∧
      replayFor { a with replays := [] } y = none := by decide +kernel
theorem meets_CollectiveSteps_pushed : let d := { fent 1 with push := true }
    let y := { arrival0 with desc := d, came := some 100 }
    let s := arriving d [0, 1]
    let a := { s.a with nextId := 101, arrivals := [(61, y)] }
    let z := { y with id := 63, src := 0, rank := 0, came := some 99 }
    let b := { a with arrivals := [(61, y), (63, z)] }
    (pushGroup a y).length = 1 ∧ directs a y = (0, 0) ∧ (pushGroup b y).map (·.id) = [63, 61] ∧ (∀ x ∈ pushGroup b y, x.faulted = false) ∧
      staleArrival b y 0xFFFF = false ∧ replayFor b y = some replay0 := by decide +kernel
/-- R239, R241: a COPY entry's arrival is written to its destination, once, and the arrival is acknowledged. -/
theorem test_collective_copy : let s := runnable (paged (arriving { fent 1 with dtype := 9, nelem := 4, dbase := 0, doff := 0x20000000 } [0, 1]))
    let s := { s with a := { s.a with arrivals := s.a.arrivals.map (fun x => (x.1, { x.2 with data := some [1, 2, 3, 4] })) } }
    let t := after (.collectiveArrival 61) s
    (tget t.a.arrivals 61).map (·.acked) = some true ∧ mnum t.mem 0x2000000000 16 = leVal ([1, 2, 3, 4].flatMap (leBytes 4)) := by decide +kernel
/-- PlatformCommands: BERTH_RETRY of a berth that is held, and that passes. -/
theorem meets_PlatformCommands_retry : let c := cmd 0x65 [(32, 1, 3)]
    let s := front 0 c
    let h := { s with a := s.a.setBerth 0 3 { Berth.reset with held := true, area := 4 } }
    (h.a.berth 0 3).held = true ∧ (((after (.berthRetry 0 50 true) h).a.berth 0 3).held, ((after (.berthRetry 0 50 true) h).a.berth 0 3).area) = (false, 4) := by decide +kernel
/-- BootAndAttestation: frames on a port that is down, in a session and outside; each stage of the exchange; R437. -/
theorem meets_BootAndAttestation_frames : let k (st : Nat) (ss : Option Nat) := ((portUp st ss).a.pkg 0).port 0
    (k 4 (some 1)).session ≠ none ∧ (k 4 none).session = none ∧ ((portUp 4 none).a.pkg 0).port 1 ≠ k 4 none ∧ (k 3 none).spdm = 3 ∧ (k 0 none).spdm < 1 ∧
      ((after (.spdmChallenge 0 ⟨0, false⟩) (portUp 3 (some 1))).a.pkg 0).badFrames = 1 ∧ (((after (.spdmChallenge 0 ⟨0, true⟩) (portUp 3 (some 1))).a.pkg 0).port 0).sent.length = 1 ∧
      (((after (.spdmEndSession 0 ⟨0, true⟩) (portUp 3 (some 1))).a.pkg 0).port 0).session = none := by decide +kernel
/-- PlatformEvents: a timer that stands 1,000 ns ahead, and messages at the same offset and 960 ns behind it. -/
theorem meets_PlatformEvents_offsets : let k := { Pkg.reset with timerOff := 1000, boot := .ready }
    let s := { State.reset with a := State.reset.a.setPkg 0 k }
    Config.timerBound < (k.timerOff - 0).natAbs ∧ ¬ Config.timerBound < (k.timerOff - 960).natAbs ∧ k.locked = false ∧
      (((after (.timeMessage 0 0) s).a.pkg 0).locked, ((after (.timeMessage 0 960) s).a.pkg 0).locked, ((after (.timeMessage 0 960) s).a.pkg 0).timerOff) = (false, true, 1000) ∧
      Pkg.reset.powerLimit = none := by decide +kernel
/-- DecodeFaults: each kind of defect of a word in its clause. -/
theorem meets_DecodeFaults : let nop := 0x1F0E000000000000
    (decodeAt 0 false [0x8000000000000000] 0 matches .error 3) ∧ (decodeAt 2 false [0x003E000000000000] 0 matches .error 1) ∧
      (decodeAt 2 false [0x420E0402FF000000, nop] 0 matches .error 3) ∧ (decodeAt 5 false [0x00420028F000C000] 0 matches .error 4) ∧
      (decodeAt 5 true [0x00420028F000C000] 0 matches .error 3) ∧ (decodeAt 0 false [0x3F00000700000007] 0 matches .error 3) ∧
      (decodeAt 0 true [nop] 0 matches .error 3) ∧ (decodeAt 11 false [0x0204000000000002, nop] 0 matches .error 3) ∧
      (decodeAt 0 true [0x3F00000700000007] 0 matches .ok _) ∧ (decodeAt 0 false [nop] 0 matches .ok _) := by decide +kernel

end Sys2Proof.Tests
end

