-- ==== Sys2Proof/Proofs/LaneWrites.lean ====
section
/-! SUPPORT. What a word with one vector destination does, said once: the registers and error marks after its lanes have been written,
and that a form whose lanes each write one value meets `VectorRule`. -/

namespace Sys2Proof.Machine

open Sys2Proof.Spec

/-! ## The issuing thread in its table -/

theorem endClause_uid (t : Thread) (c : Clause) (exit : Lanes) (moves : List (Nat × Nat)) :
    (endClause t c exit moves).uid = t.uid := rfl

theorem advance_uid (t : Thread) (c : Clause) (n : Nat) : (advance t c n).uid = t.uid := by
  unfold advance
  split
  · rfl
  · exact endClause_uid t c 0 []

/-- Changing a thread that the table holds puts the changed thread there. -/
theorem modThread_eq_setThread {a : Arch} {t : Thread} (ht : a.thread t.uid = some t) {f : Thread → Thread}
    (hf : (f t).uid = t.uid) : a.modThread t.uid f = a.setThread (f t) := by
  have ht' : tget a.threads t.uid = some t := ht
  simp [Arch.modThread, Arch.setThread, tmod, ht', hf]

/-- Changing a thread that has just been put into the table puts the changed thread there instead. -/
theorem setThread_modThread (a : Arch) {t t' : Thread} (h : t'.uid = t.uid) {f : Thread → Thread} (hf : (f t').uid = t'.uid) :
    (a.setThread t').modThread t.uid f = a.setThread (f t') := by
  simp [Arch.modThread, Arch.setThread, tmod, hf, ← h, tset_tset]

/-! ## One register word -/

theorem vkey_inj {r r' l l' : Nat} (hl : l < 32) (hl' : l' < 32) : vkey r l = vkey r' l' ↔ r = r' ∧ l = l' := by
  unfold vkey; omega

theorem setV_getV (t : Thread) (x : W32) {r r' l l' : Nat} (hl : l < 32) (hl' : l' < 32) :
    (t.setV r l x).getV r' l' = if r' = r ∧ l' = l then x else t.getV r' l' := by
  simp only [Thread.getV, Thread.setV, Regs.putV, tsets, List.foldl, tgetD, tget_tset, vkey_inj hl' hl]
  split <;> rfl

theorem mem_setV_badV (t : Thread) (x : W32) {r r' l l' : Nat} (hl : l < 32) (hl' : l' < 32) :
    vkey r' l' ∈ (t.setV r l x).regs.badV ↔ vkey r' l' ∈ t.regs.badV ∧ ¬ (r' = r ∧ l' = l) := by
  simp [Thread.setV, Regs.putV, vkey_inj hl hl', eq_comm (a := r') (b := r), eq_comm (a := l') (b := l)]

/-! ## The destination of one lane -/

/-- Whether a destination of one or two registers names register `r` in lane `l`. -/
def W.names (w : W) (wide : Bool) (d : Opnd) (r l : Nat) : Prop :=
  r = w.vreg 0 d l ∨ (wide = true ∧ r = w.vreg 0 d l + 1)

/-- What register `r` holds in lane `l` once the value `x` has been written there, where it held `old`. -/
def W.wordOf (w : W) (wide : Bool) (d : Opnd) (x : Nat) (old : W32) (r l : Nat) : W32 :=
  if r = w.vreg 0 d l then BitVec.ofNat 32 x
  else if wide = true ∧ r = w.vreg 0 d l + 1 then BitVec.ofNat 32 (x / 2 ^ 32) else old

theorem low_half (x : Nat) : (BitVec.ofNat 64 x).setWidth 32 = BitVec.ofNat 32 x := by
  apply BitVec.eq_of_toNat_eq
  simp only [BitVec.toNat_setWidth, BitVec.toNat_ofNat]
  omega

theorem high_half (x : Nat) : (BitVec.ofNat 64 x >>> 32).setWidth 32 = BitVec.ofNat 32 (x / 2 ^ 32) := by
  apply BitVec.eq_of_toNat_eq
  simp only [BitVec.toNat_setWidth, BitVec.toNat_ushiftRight, BitVec.toNat_ofNat, Nat.shiftRight_eq_div_pow]
  omega

/-- A lane's write changes the vector registers and their error marks alone. -/
theorem put_frame (w : W) (t : Thread) (wide : Bool) (d : Opnd) (l x : Nat) :
    w.put t wide d l x = withV t ((w.put t wide d l x).regs.v, (w.put t wide d l x).regs.badV) := by
  cases wide <;> rfl

theorem put_getV (w : W) (t : Thread) (wide : Bool) (d : Opnd) (x : Nat) {r l l' : Nat} (hl : l < 32) (hl' : l' < 32) :
    (w.put t wide d l x).getV r l' = if l' = l then w.wordOf wide d x (t.getV r l') r l' else t.getV r l' := by
  by_cases e : l' = l
  · subst e
    cases wide with
    | false => simp [W.put, W.wrV, W.wordOf, setV_getV t _ hl hl']
    | true =>
      simp only [W.put, W.wrV64, W.wordOf, setV_getV _ _ hl hl', low_half, high_half, if_true, true_and, and_true]
      by_cases hr : r = w.vreg 0 d l' <;> simp [hr]
  · cases wide <;> simp [W.put, W.wrV, W.wrV64, setV_getV _ _ hl hl', e]

theorem mem_put_badV (w : W) (t : Thread) (wide : Bool) (d : Opnd) (x : Nat) {r l l' : Nat} (hl : l < 32) (hl' : l' < 32) :
    vkey r l' ∈ (w.put t wide d l x).regs.badV ↔ vkey r l' ∈ t.regs.badV ∧ ¬ (l' = l ∧ w.names wide d r l') := by
  by_cases e : l' = l
  · subst e
    cases wide <;> simp [W.put, W.wrV, W.wrV64, W.names, mem_setV_badV _ _ hl hl', and_assoc]
  · cases wide <;> simp [W.put, W.wrV, W.wrV64, mem_setV_badV _ _ hl hl', e]

/-- Writing the same value again leaves it. -/
theorem wordOf_wordOf (w : W) (wide : Bool) (d : Opnd) (x : Nat) (old : W32) (r l : Nat) :
    w.wordOf wide d x (w.wordOf wide d x old r l) r l = w.wordOf wide d x old r l := by
  unfold W.wordOf
  by_cases h : r = w.vreg 0 d l
  · rw [if_pos h, if_pos h]
  · rw [if_neg h, if_neg h]
    by_cases h' : wide = true ∧ r = w.vreg 0 d l + 1
    · rw [if_pos h', if_pos h']
    · rw [if_neg h', if_neg h']

/-! ## Several lanes in turn -/

/-- The thread after the lanes of a list have each written their value. -/
def W.puts (w : W) (wide : Bool) (d : Opnd) (val : Nat → Nat) (ls : List Nat) (t : Thread) : Thread :=
  ls.foldl (fun t l => w.put t wide d l (val l)) t

section
variable (w : W) (wide : Bool) (d : Opnd) (val : Nat → Nat)

theorem puts_frame (ls : List Nat) : ∀ t : Thread,
    w.puts wide d val ls t = withV t ((w.puts wide d val ls t).regs.v, (w.puts wide d val ls t).regs.badV) := by
  induction ls with
  | nil => intro t; rfl
  | cons k ls ih =>
    intro t
    have hk : ∀ v, withV (w.put t wide d k (val k)) v = withV t v := by
      intro v
      rw [put_frame w t wide d k (val k)]
      rfl
    exact (ih (w.put t wide d k (val k))).trans (hk _)

theorem puts_uid (ls : List Nat) (t : Thread) : (w.puts wide d val ls t).uid = t.uid := by
  rw [puts_frame]; rfl

theorem puts_getV {r l : Nat} (hl : l < 32) (ls : List Nat) : (∀ k ∈ ls, k < 32) → ∀ t : Thread,
    (w.puts wide d val ls t).getV r l = if l ∈ ls then w.wordOf wide d (val l) (t.getV r l) r l else t.getV r l := by
  induction ls with
  | nil => intro _ t; rfl
  | cons k ls ih =>
    intro h t
    obtain ⟨hk, hls⟩ := List.forall_mem_cons.mp h
    have step := ih hls (w.put t wide d k (val k))
    rw [put_getV w t wide d (val k) hk hl] at step
    refine step.trans ?_
    by_cases e : l = k
    · subst e; simp [wordOf_wordOf]
    · simp [e]

theorem mem_puts_badV {r l : Nat} (hl : l < 32) (ls : List Nat) : (∀ k ∈ ls, k < 32) → ∀ t : Thread,
    (vkey r l ∈ (w.puts wide d val ls t).regs.badV ↔ vkey r l ∈ t.regs.badV ∧ ¬ (l ∈ ls ∧ w.names wide d r l)) := by
  induction ls with
  | nil => intro _ t; simp [W.puts]
  | cons k ls ih =>
    intro h t
    obtain ⟨hk, hls⟩ := List.forall_mem_cons.mp h
    have step := ih hls (w.put t wide d k (val k))
    rw [mem_put_badV w t wide d (val k) hk hl] at step
    refine step.trans ?_
    rw [List.mem_cons, or_and_right, not_or, and_assoc]

end

theorem mem_toList {m : Lanes} {l : Nat} (hl : l < 32) : l ∈ Lanes.toList m ↔ m.getLsbD l = true := by
  simp [Lanes.toList, laneList, hl]

theorem toList_lt (m : Lanes) : ∀ l ∈ Lanes.toList m, l < 32 := by
  intro l h
  exact List.mem_range.mp (List.mem_filter.mp h).1

theorem toList_zero : Lanes.toList 0 = [] := by decide

/-! ## Vector forms -/

section
variable {s : State} {t : Thread} {c : Clause} {h : Hd}

/-- The writes of the lanes that take part, one after the other, are the lanewise write of the statements. -/
theorem laneWrite_puts (wide : Bool) (d : Opnd) (val : Nat → Nat) :
    LaneWrite s t c h d wide val (((s.view t c h).puts wide d val (Lanes.toList (taking s t c h)) t).regs.v,
      ((s.view t c h).puts wide d val (Lanes.toList (taking s t c h)) t).regs.badV) := by
  constructor
  · intro r l hl
    have hv := puts_getV (s.view t c h) wide d val (r := r) hl _ (toList_lt (taking s t c h)) t
    simp only [mem_toList hl] at hv
    exact hv
  · intro r l hl
    have hm := mem_puts_badV (s.view t c h) wide d val (r := r) hl _ (toList_lt (taking s t c h)) t
    simp only [mem_toList hl] at hm
    exact hm

variable {cls : Nat} {fs : List VF} {f : W → Thread → Nat → Thread}

/-- A vector form whose checks pass and whose sources have arrived makes the change of each lane that takes part, and its thread goes on. -/
theorem runWord_vector_done (hi : Issues s t c) (hl : t.level = .lg) (hb : vecBad (s.view t c h) fs = none)
    (hr : (s.view t c h).arrived (fs.filter (fun x => !x.dst)) = true)
    (hu : ((s.view t c h).eachLane (f (s.view t c h))).uid = t.uid) :
    runWord cls .lg h s (fun w => w.vector fs (f w)) =
      .next (moved s ((s.view t c h).eachLane (f (s.view t c h))) c h) := by
  have hs := issuer_some hi.cur hi.thread hi.clause
  have hv : (s.view t c h).vector fs (f (s.view t c h)) =
      (s.view t c h).acts (WRes.own (s.view t c h) ((s.view t c h).eachLane (f (s.view t c h)))) := by
    simp [W.vector, checked, hb, hr]
  by_cases hp : (s.view t c h).part = 0
  · have he : (s.view t c h).eachLane (f (s.view t c h)) = t := by
      rw [W.eachLane, hp, toList_zero]; rfl
    rw [runWord_done (a := s.a) (ws := []) hs (by simp [hl, LvRule.ok]) (by rw [hv, W.acts, if_pos hp]; rfl), he,
      modThread_eq_setThread hi.thread (advance_uid t c h.size)]
    rfl
  · rw [runWord_done (a := s.a.setThread _) (ws := []) hs (by simp [hl, LvRule.ok]) (by rw [hv, W.acts, if_neg hp]; rfl),
      setThread_modThread s.a hu (advance_uid _ c h.size)]
    rfl

/-- How a vector form ends, given what it does when its checks pass and its sources have arrived. -/
theorem vectorEnds_runWord (hi : Issues s t c) (hl : t.level = .lg) {good : Prop}
    (hg : vecBad (s.view t c h) fs = none → (s.view t c h).arrived (fs.filter (fun x => !x.dst)) = true → good) :
    VectorEnds s t c h fs (runWord cls .lg h s (fun w => w.vector fs (f w))) good := by
  have hs := issuer_some hi.cur hi.thread hi.clause
  have hlv : LvRule.ok .lg t.level = true := by simp [hl, LvRule.ok]
  refine ⟨fun b hb => ?_, fun hb hr => ?_, hg⟩
  · exact runWord_bad hs hlv (by simp [W.vector, checked, hb])
  · rw [runWord_stay (a := s.a) (w := .arrival) hs hlv (by simp [W.vector, checked, hb, hr]; rfl),
      modThread_eq_setThread hi.thread rfl]
    rfl

/-- A vector form that writes a value of its own in each lane meets `VectorRule`. -/
theorem vectorRule_runWord (hi : Issues s t c) (hl : t.level = .lg) (d : Opnd) (wide : Bool) (val : W → Nat → Nat) :
    VectorRule s t c h fs d wide (val (s.view t c h))
      (runWord cls .lg h s (fun w => w.vector fs (fun t' l => w.put t' wide d l (val w l)))) := by
  refine vectorEnds_runWord hi hl fun hb hr => ⟨_, ?_, laneWrite_puts wide d (val (s.view t c h))⟩
  rw [← puts_frame]
  exact runWord_vector_done (f := fun w t' l => w.put t' wide d l (val w l)) hi hl hb hr (puts_uid _ wide d _ _ t)

theorem vectorRule_congr {d : Opnd} {wide : Bool} {val val' : Nat → Nat} {out : Out} (e : ∀ l, val l = val' l)
    (hv : VectorRule s t c h fs d wide val out) : VectorRule s t c h fs d wide val' out := by
  rwa [← funext e]

theorem vectorRule_vec1 (hi : Issues s t c) (hl : t.level = .lg) (dw aw : Bool) (d a : Opnd) (f : Nat → Nat) :
    VectorRule s t c h [fld 0 d dw, fld 1 a aw] d dw (fun l => f (src s t c h aw 1 a l)) (vec1 cls h dw aw d a f s) :=
  vectorRule_runWord hi hl d dw (fun w l => f (w.get aw 1 a l))

theorem vectorRule_vec2 (hi : Issues s t c) (hl : t.level = .lg) (dw aw bw : Bool) (d a b : Opnd) (f : Nat → Nat → Nat) :
    VectorRule s t c h [fld 0 d dw, fld 1 a aw, fld 2 b bw] d dw (fun l => f (src s t c h aw 1 a l) (src s t c h bw 2 b l))
      (vec2 cls h dw aw bw d a b f s) :=
  vectorRule_runWord hi hl d dw (fun w l => f (w.get aw 1 a l) (w.get bw 2 b l))

end

end Sys2Proof.Machine
end

