-- ==== Sys2Proof/Proofs/LaneLogic.lean ====
section
/-! PROOF. O33 (spec/19 R314): the lanewise logic and shift words. -/

namespace Sys2Proof

/-! ## The fields of an encoded word -/

theorem Opnd.code_lt (o : Opnd) : o.code < 256 := by
  cases o <;> simp only [Opnd.code] <;> omega

/-- The lower operand fields of a packed word come back when no field below them overflows (R251). -/
theorem unpack_pack_c (f : Fields) (hc : f.c < 256) (hm : f.mod < 65536) : (unpack (pack f)).c = f.c := by
  simp only [unpack, pack]; omega

theorem unpack_pack_b (f : Fields) (hb : f.b < 256) (hc : f.c < 256) (hm : f.mod < 65536) : (unpack (pack f)).b = f.b := by
  simp only [unpack, pack]; omega

/-- A word assembled with no C and no modifier bits has C zero and B as given. -/
theorem enc_fields (cls grp var : Nat) (h : Hd) (d a : Nat) {b : Nat} (hb : b < 256) :
    ∃ e, enc cls grp var h d a b 0 0 = some e ∧ (unpack e.word).c = 0 ∧ (unpack e.word).b = b :=
  ⟨_, rfl, unpack_pack_c _ (Nat.zero_lt_succ 255) (Nat.zero_lt_succ 65535),
    unpack_pack_b _ hb (Nat.zero_lt_succ 255) (Nat.zero_lt_succ 65535)⟩

namespace Machine

/-! ## The scalar operations of R287 on a value of the width -/

theorem get_lt (w : W) (wide : Bool) (j : Nat) (o : Opnd) (l : Nat) : w.get wide j o l < 2 ^ wbits wide := by
  cases wide with
  | false => exact (w.rd j o l).isLt
  | true => exact (w.rd64 j o l).isLt

theorem iNot_of_lt {n x : Nat} (hx : x < 2 ^ n) : iNot n x = 2 ^ n - 1 - x := by
  rw [iNot, Nat.mod_eq_of_lt hx]

theorem iShr_of_lt {n x : Nat} (hx : x < 2 ^ n) (k : Nat) : iShr n x k = if k < n then x / 2 ^ k else 0 := by
  rw [iShr, Nat.mod_eq_of_lt hx]

/-- The sign bit of an n-bit value is clear exactly below half the range. -/
theorem bitAt_top {n x : Nat} (hn : 0 < n) (hx : x < 2 ^ n) : bitAt x (n - 1) = !decide (x < 2 ^ (n - 1)) := by
  have hp : 0 < 2 ^ (n - 1) := Nat.two_pow_pos (n - 1)
  have hn2 : 2 * 2 ^ (n - 1) = 2 ^ n := by rw [← Nat.pow_succ', Nat.succ_eq_add_one, Nat.sub_add_cancel hn]
  by_cases h : x < 2 ^ (n - 1)
  · simp [bitAt, h, Nat.div_eq_of_lt h]
  · have h1 : x / 2 ^ (n - 1) = 1 :=
      Nat.le_antisymm (Nat.lt_succ_iff.mp (Nat.div_lt_of_lt_mul (by omega))) (Nat.div_pos (by omega) hp)
    simp [bitAt, h, h1]

theorem iSra_of_lt {n x : Nat} (hn : 0 < n) (hx : x < 2 ^ n) (k : Nat) :
    iSra n x k = if k < n then wrapTo n (signedOf n x / 2 ^ k) else if x < 2 ^ (n - 1) then 0 else 2 ^ n - 1 := by
  rw [iSra, bitAt_top hn hx]
  by_cases h : x < 2 ^ (n - 1) <;> simp [h]

theorem wbits_pos (wide : Bool) : 0 < wbits wide := by cases wide <;> decide

end Machine

end Sys2Proof

namespace Sys2Proof.Proofs

open Sys2Proof.Machine Sys2Proof.Spec

/-- Settles O33. Each word is a vector form whose lanes apply the operation of R287; a source of the width is below 2 ^ n, so the
model's reduction modulo 2 ^ n drops out and the sign bit is a comparison. -/
theorem laneLogic : Obligations.LaneLogic := by
  intro s t c h w d a b hi hl n two
  have hx (l : Nat) : src s t c h w 1 a l < 2 ^ n := get_lt (s.view t c h) w 1 a l
  have word (wb : Bool) (f : Nat → Nat → Nat) :
      VectorRule s t c h [fld 0 d w, fld 1 a w, fld 2 b wb] d w (fun l => f (src s t c h w 1 a l) (src s t c h wb 2 b l))
        (vec2 1 h w w wb d a b f s) := vectorRule_vec2 hi hl w w wb d a b f
  have fields (grp : Nat) := enc_fields 1 grp (w06 w) h d.code a.code b.code_lt
  refine ⟨⟨word w _, fields 0x09⟩, ⟨word w _, fields 0x0A⟩, ⟨word w _, fields 0x0B⟩, ⟨word false _, fields 0x0D⟩, ⟨?_, fields 0x0E⟩,
    ⟨?_, fields 0x0F⟩, ?_, ?_⟩
  · exact vectorRule_congr (fun l => iShr_of_lt (hx l) _) (word false (iShr n))
  · exact vectorRule_congr (fun l => iSra_of_lt (wbits_pos w) (hx l) _) (word false (iSra n))
  · exact vectorRule_congr (fun l => iNot_of_lt (hx l)) (vectorRule_vec1 hi hl w w d a (iNot n))
  · obtain ⟨e, he, hc, hb⟩ := enc_fields 1 0x0C (w06 w) h d.code a.code (b := 0) (by decide)
    exact ⟨e, he, hb, hc⟩

end Sys2Proof.Proofs
end

