-- ==== Sys2Proof/Proofs/OpenAndArrival.lean ====
section
/-! SUPPORT. Words that change their own thread alone, said once, and what closing a run of registers or clearing its arrival bits does to
the open bits, the arrival bits and the rest of the thread. -/

namespace Sys2Proof.Machine

open Sys2Proof.Spec

/-! ## Words that change their own thread -/

section
variable {cls : Nat} {lv : LvRule} {s : State} {t : Thread} {c : Clause} {h : Hd} {bad : W → Option Bad} {f : W → Thread}

/-- With no lane that takes part, a word of one thread whose check passes only moves on (R208). -/
theorem runWord_own_idle (hi : Issues s t c) (hl : lv.ok t.level = true) (hb : bad (s.view t c h) = none) (hp : taking s t c h = 0) :
    runWord cls lv h s (fun w => checked (bad w) (w.acts (WRes.own w (f w)))) = .next (moved s t c h) := by
  have body : checked (bad (s.view t c h)) ((s.view t c h).acts (WRes.own (s.view t c h) (f (s.view t c h)))) = .done s.a [] := by
    rw [hb]; exact if_pos hp
  rw [runWord_done (issuer_some hi.cur hi.thread hi.clause) hl body, modThread_eq_setThread hi.thread (advance_uid t c h.size)]
  rfl

/-- With a lane that takes part, a word of one thread whose check passes makes its change and moves on. -/
theorem runWord_own_done (hi : Issues s t c) (hl : lv.ok t.level = true) (hb : bad (s.view t c h) = none) (hp : taking s t c h ≠ 0)
    (hu : (f (s.view t c h)).uid = t.uid) :
    runWord cls lv h s (fun w => checked (bad w) (w.acts (WRes.own w (f w)))) = .next (moved s (f (s.view t c h)) c h) := by
  have body : checked (bad (s.view t c h)) ((s.view t c h).acts (WRes.own (s.view t c h) (f (s.view t c h)))) =
      .done (s.a.setThread (f (s.view t c h))) [] := by
    rw [hb]; exact if_neg hp
  rw [runWord_done (issuer_some hi.cur hi.thread hi.clause) hl body, setThread_modThread s.a hu (advance_uid _ c h.size)]
  rfl

end

/-! ## The open bits of a run -/

/-- Taking a set bit's weight from a number clears that bit and no other. -/
theorem testBit_sub_two_pow {x r : Nat} (hx : x.testBit r = true) (j : Nat) :
    (x - 2 ^ r).testBit j = (x.testBit j && !decide (j = r)) := by
  obtain ⟨y, rfl⟩ := Nat.exists_eq_add_of_le (Nat.ge_two_pow_of_testBit hx)
  have hy : y.testBit r = false := by simpa [Nat.testBit_two_pow_add_eq] using hx
  rw [Nat.add_sub_cancel_left]
  rcases Nat.lt_trichotomy j r with hj | rfl | hj
  · rw [Nat.testBit_two_pow_add_gt hj, decide_eq_false (Nat.ne_of_lt hj), Bool.not_false, Bool.and_true]
  · rw [hy, decide_eq_true rfl, Bool.not_true, Bool.and_false]
  · have above : (2 ^ r + y) / 2 ^ (r + 1) = y / 2 ^ (r + 1) := by
      have even : y / 2 ^ r % 2 = 0 := by simpa [Nat.testBit_eq_decide_div_mod_eq] using hy
      rw [Nat.pow_succ, ← Nat.div_div_eq_div_mul, ← Nat.div_div_eq_div_mul, Nat.add_div_left y (Nat.two_pow_pos r)]
      omega
    obtain ⟨k, rfl⟩ := Nat.exists_eq_add_of_le' (Nat.succ_le_of_lt hj)
    rw [decide_eq_false (Nat.ne_of_gt hj), Bool.not_false, Bool.and_true, ← Nat.testBit_div_two_pow, ← Nat.testBit_div_two_pow,
      Nat.succ_eq_add_one, above]

theorem isOpen_eq_testBit (t : Thread) (r : Nat) : t.isOpen r = t.regs.openBits.testBit r := by
  rw [Nat.testBit_eq_decide_div_mod_eq]
  rfl

theorem isOpen_setOpen_false (t : Thread) (r q : Nat) : (t.setOpen r false).isOpen q = (t.isOpen q && !decide (q = r)) := by
  cases ho : t.isOpen r with
  | true =>
    have bits : (t.setOpen r false).regs.openBits = t.regs.openBits - 2 ^ r := by simp [Thread.setOpen, ho]
    rw [isOpen_eq_testBit] at ho
    rw [isOpen_eq_testBit, bits, testBit_sub_two_pow ho, ← isOpen_eq_testBit]
  | false =>
    have same : t.setOpen r false = t := by simp [Thread.setOpen, ho]
    rw [same]
    by_cases e : q = r
    · simp [e, ho]
    · simp [e]

theorem openRun_succ (t : Thread) (r n : Nat) (b : Bool) : t.openRun r (n + 1) b = (t.openRun r n b).setOpen (r + n) b := by
  simp [Thread.openRun, List.range_succ]

/-- Opening or closing a run changes the open bits alone. -/
theorem openRun_frame (t : Thread) (r n : Nat) (b : Bool) :
    { t.openRun r n b with regs := { (t.openRun r n b).regs with openBits := t.regs.openBits } } = t := by
  induction n with
  | zero => rfl
  | succ n ih => rw [openRun_succ]; exact ih

@[simp] theorem openRun_uid (t : Thread) (r n : Nat) (b : Bool) : (t.openRun r n b).uid = t.uid :=
  congrArg (·.uid) (openRun_frame t r n b)
@[simp] theorem openRun_regs_v (t : Thread) (r n : Nat) (b : Bool) : (t.openRun r n b).regs.v = t.regs.v :=
  congrArg (·.regs.v) (openRun_frame t r n b)

theorem isOpen_openRun_false (t : Thread) (r n q : Nat) :
    (t.openRun r n false).isOpen q = (t.isOpen q && !decide (r ≤ q ∧ q < r + n)) := by
  induction n with
  | zero =>
    have none : ¬ (r ≤ q ∧ q < r + 0) := by omega
    simp only [none, decide_false, Bool.not_false, Bool.and_true]
    rfl
  | succ n ih =>
    have grow : (r ≤ q ∧ q < r + (n + 1)) ↔ (r ≤ q ∧ q < r + n) ∨ q = r + n := by omega
    rw [openRun_succ, isOpen_setOpen_false, ih, decide_eq_decide.mpr grow, Bool.decide_or, Bool.not_or, Bool.and_assoc]

/-! ## The arrival bits of a run -/

/-- The thread after the arrival bits of a run of `n` registers have been cleared in the lanes of `m`. -/
def Thread.clearRun (t : Thread) (r n : Nat) (m : Lanes) : Thread := (List.range n).foldl (fun t i => t.clearArr (r + i) m) t

theorem clearRun_succ (t : Thread) (r n : Nat) (m : Lanes) : t.clearRun r (n + 1) m = (t.clearRun r n m).clearArr (r + n) m := by
  simp [Thread.clearRun, List.range_succ]

/-- Clearing the arrival bits of a run changes the arrival bits alone. -/
theorem clearRun_frame (t : Thread) (r n : Nat) (m : Lanes) :
    { t.clearRun r n m with regs := { (t.clearRun r n m).regs with clear := t.regs.clear } } = t := by
  induction n with
  | zero => rfl
  | succ n ih => rw [clearRun_succ]; exact ih

@[simp] theorem clearRun_uid (t : Thread) (r n : Nat) (m : Lanes) : (t.clearRun r n m).uid = t.uid :=
  congrArg (·.uid) (clearRun_frame t r n m)
@[simp] theorem clearRun_regs_v (t : Thread) (r n : Nat) (m : Lanes) : (t.clearRun r n m).regs.v = t.regs.v :=
  congrArg (·.regs.v) (clearRun_frame t r n m)

theorem arrived_clearArr (t : Thread) (r : Nat) (m : Lanes) (q : Nat) {l : Nat} (hl : l < 32) :
    ((t.clearArr r m).arrived q).getLsbD l = ((t.arrived q).getLsbD l && !(decide (q = r) && m.getLsbD l)) := by
  by_cases e : q = r
  · subst e; simp [Thread.arrived, Thread.clearArr, hl]
  · simp [Thread.arrived, Thread.clearArr, tgetD_tset_ne _ _ _ e, e]

theorem arrived_clearRun (t : Thread) (r n : Nat) (m : Lanes) (q : Nat) {l : Nat} (hl : l < 32) :
    ((t.clearRun r n m).arrived q).getLsbD l =
      ((t.arrived q).getLsbD l && !(decide (r ≤ q ∧ q < r + n) && m.getLsbD l)) := by
  induction n with
  | zero =>
    have none : ¬ (r ≤ q ∧ q < r + 0) := by omega
    simp only [none, decide_false, Bool.false_and, Bool.not_false, Bool.and_true]
    rfl
  | succ n ih =>
    have grow : (r ≤ q ∧ q < r + (n + 1)) ↔ (r ≤ q ∧ q < r + n) ∨ q = r + n := by omega
    rw [clearRun_succ, arrived_clearArr _ _ _ _ hl, ih, decide_eq_decide.mpr grow, Bool.decide_or, Bool.and_or_distrib_right,
      Bool.not_or, Bool.and_assoc]

end Sys2Proof.Machine
end

