-- ==== Sys2Proof/Proofs/RevokeAndExpect.lean ====
section
/-! PROOF. O32 (spec/23 R422): REVOKE and EXPECT. -/

namespace Sys2Proof.Proofs

open Sys2Proof.Machine Sys2Proof.Spec

theorem exec_revoke (s : State) (h : Hd) (cnt : Fin 8) (a : Opnd) :
    exec (.revoke h cnt a) s = runWord 9 .lg h s (fun w =>
      checked (runBad w 1 a (cnt.val + 1) 1) (w.acts (WRes.own w (w.t.openRun (w.vreg 1 a 0) (cnt.val + 1) false)))) := rfl

theorem exec_expect (s : State) (h : Hd) (cnt : Fin 8) (a : Opnd) :
    exec (.expect h cnt a) s = runWord 9 .lg h s (fun w =>
      checked (runBad w 1 a (cnt.val + 1) 1) (w.acts (WRes.own w (w.t.clearRun (w.vreg 1 a 0) (cnt.val + 1) w.part)))) := rfl

/-- A run of CNT + 1 registers from `lo` ends at `lo + CNT`. -/
theorem decide_run (lo cnt r : Nat) : decide (lo ≤ r ∧ r < lo + (cnt + 1)) = decide (lo ≤ r ∧ r ≤ lo + cnt) :=
  decide_eq_decide.mpr (by omega)

/-- Settles O32. Each word is a word of one thread: REVOKE's change is a run of registers closed, EXPECT's is a run whose arrival bits are
cleared in the lanes that take part, and the frame of each says that the register contents stay. -/
theorem revokeAndExpect : Obligations.RevokeAndExpect := by
  intro s t c h cnt a hi hl hb lo
  have lg : LvRule.ok .lg t.level = true := by simp [hl, LvRule.ok]
  rw [exec_revoke, exec_expect]
  refine ⟨fun hp => ⟨runWord_own_idle hi lg hb hp, runWord_own_idle hi lg hb hp⟩, fun hp => ?_, fun hp => ?_⟩
  · refine ⟨_, runWord_own_done hi lg hb hp (openRun_uid t lo _ false), openRun_frame t lo _ false, openRun_regs_v t lo _ false,
      fun r => ?_⟩
    exact (isOpen_openRun_false t lo (cnt.val + 1) r).trans (by rw [decide_run])
  · refine ⟨_, runWord_own_done hi lg hb hp (clearRun_uid t lo _ _), clearRun_frame t lo _ _, clearRun_regs_v t lo _ _,
      fun r l hlane => ?_⟩
    exact (arrived_clearRun t lo (cnt.val + 1) (taking s t c h) r hlane).trans (by rw [decide_run])

end Sys2Proof.Proofs
end
